-- ==== Sys2Proof/Word.lean ====
section
/-! DEFINITION. The two word types of the codec: a byte of a stream or a window, and a 32-bit register. -/

namespace Sys2Proof

/-- A byte of a stream or of a window memory (00_scope.md R12: byte values are naturals 0..255). -/
abbrev Byte := BitVec 8

/-- A 32-bit register: the Adler-32 sums (10_state.md R23, R30) and the packed slot (30_encoding.md R132). -/
abbrev Word32 := BitVec 32

end Sys2Proof
end

