-- ==== Sys2Proof/Config.lean ====
section
/-! DEFINITION. The named parameters of 00_scope.md rule R7, each with the value this hardware takes. The spec leaves
no instruction's result open, so there is no free value here (INVENTORY.md, "What the manual leaves open"). -/

namespace Sys2Proof.Config

/-- MAXDIST: the largest match distance, and the decoder's window size (R7). -/
def maxDist : Nat := 32768

/-- MINMATCH: the smallest match length, and HASHCHARS, the n-gram length of the hash (R7). -/
def minMatch : Nat := 3

/-- MAXMATCH: the largest match length (R7). -/
def maxMatch : Nat := 258

/-- LAZY: the lazy-matching depth, the number of positions tracked from the commit position on (R7, R162). -/
def lazy : Nat := 3

/-- DWINSIZE: the decoder's window capacity in bytes (R7, R40). -/
def dWinSize : Nat := 32768

/-- CWINSIZE: the compressor's window capacity in bytes (R7, R41, D26; OPEN: any value at least MAXDIST + 260). -/
def cWinSize : Nat := 33032

/-- HASHMAX: the number of hash buckets (R7, R174, D25; OPEN). -/
def hashMax : Nat := 2039

/-- NIL, the stored position that means "none" (10_state.md R42). -/
def nilPos : Nat := 0xFFFF

/-- SYMLIMIT: the symbol ring's capacity in slots (R7, D27). -/
def symLimit : Nat := 65536

/-- OVERHEAD: the block overhead in bits that the chooser assumes (R7, R227). -/
def overhead : Nat := 300

/-- LIMIT_MAIN: the code-length limit of the two main alphabets (R7). -/
def limitMain : Nat := 15

/-- LIMIT_AUX: the code-length limit of the code-length alphabet (R7). -/
def limitAux : Nat := 7

/-- MAXPROB_MAIN: the frequency-ratio bound under LIMIT_MAIN (R7, 90_conflicts.md C2). -/
def maxProbMain : Nat := 2584

/-- MAXPROB_AUX: the frequency-ratio bound under LIMIT_AUX (R7). -/
def maxProbAux : Nat := 55

/-- REFILL: the bit reader refills while it holds fewer bits than this (R7, D8). -/
def refillBits : Nat := 24

/-- NLL: the literal/length symbols a transmitted table may define (R7). -/
def nLL : Nat := 286

/-- NDIST: the distance symbols a transmitted table may define (R7). -/
def nDist : Nat := 30

/-- NCL: the size of the code-length alphabet (R7). -/
def nCL : Nat := 19

/-- ZHDR, first byte: CMF as the CU writes it (R7, R101, D10). -/
def zhdrCmf : Nat := 0x78

/-- ZHDR, second byte: FLG as the CU writes it (R7, R101, D10). -/
def zhdrFlg : Nat := 0x9C

/-- ADLER_MOD: the modulus of Adler-32 (R7, R273). -/
def adlerMod : Nat := 65521

/-- ACCW: the width of the bit accumulators (R7, D7). -/
abbrev accW : Nat := 32

end Sys2Proof.Config
end

