-- ==== Sys2Proof/Syntax.lean ====
section
/-! DEFINITION. The instructions: one constructor per row of spec/opcode_table.json (host command words of both units,
block headers, and the symbols of the three alphabets), and the plain types the decoder speaks of. -/

namespace Sys2Proof

/-- The instructions of the codec. A command carries its input bytes, a wire element the value of its extra field;
a symbol's meaning does not depend on the table that codes it (47_symbols.md R350), so the code is no operand. -/
inductive Instr where
  | cNewBare  -- C_NEW_BARE, R270: construct a bare compression context
  | cNewZlib  -- C_NEW_ZLIB, R270: construct a zlib compression context
  | cFeedNone (data : List Byte)  -- C_FEED_NONE, R274: feed bytes, no flush
  | cFeedSync (data : List Byte)  -- C_FEED_SYNC, R275: feed bytes, then flush to a byte boundary
  | cFeedFinish (data : List Byte)  -- C_FEED_FINISH, R276: feed bytes, then end the stream
  | cFeedReserved (data : List Byte)  -- C_FEED_RESERVED, R271: a feed with the reserved flush value 3
  | cFree  -- C_FREE, R277: destroy the compression context
  | dNewBare  -- D_NEW_BARE, R300: construct a bare decompression context
  | dNewZlib  -- D_NEW_ZLIB, R300: construct a zlib decompression context
  | dFeed (data : List Byte)  -- D_FEED, R323: feed stream bytes
  | dEof  -- D_EOF, R325: the feed call with no more input
  | dFree  -- D_FREE, R326: destroy the decompression context
  | cuReserved0010  -- CU_RESERVED_0010, R493: reserved command word 0b0010 of the CU
  | cuReserved0011  -- CU_RESERVED_0011, R493: reserved command word 0b0011 of the CU
  | cuReserved1000  -- CU_RESERVED_1000, R493: reserved command word 0b1000 of the CU
  | cuReserved1001  -- CU_RESERVED_1001, R493: reserved command word 0b1001 of the CU
  | cuReserved1010  -- CU_RESERVED_1010, R493: reserved command word 0b1010 of the CU
  | cuReserved1011  -- CU_RESERVED_1011, R493: reserved command word 0b1011 of the CU
  | cuReserved1101  -- CU_RESERVED_1101, R493: reserved command word 0b1101 of the CU
  | cuReserved1110  -- CU_RESERVED_1110, R493: reserved command word 0b1110 of the CU
  | cuReserved1111  -- CU_RESERVED_1111, R493: reserved command word 0b1111 of the CU
  | duReserved0010  -- DU_RESERVED_0010, R493: reserved command word 0b0010 of the DU
  | duReserved0011  -- DU_RESERVED_0011, R493: reserved command word 0b0011 of the DU
  | duReserved0101  -- DU_RESERVED_0101, R493: reserved command word 0b0101 of the DU
  | duReserved0110  -- DU_RESERVED_0110, R493: reserved command word 0b0110 of the DU
  | duReserved0111  -- DU_RESERVED_0111, R493: reserved command word 0b0111 of the DU
  | duReserved1001  -- DU_RESERVED_1001, R493: reserved command word 0b1001 of the DU
  | duReserved1010  -- DU_RESERVED_1010, R493: reserved command word 0b1010 of the DU
  | duReserved1011  -- DU_RESERVED_1011, R493: reserved command word 0b1011 of the DU
  | duReserved1101  -- DU_RESERVED_1101, R493: reserved command word 0b1101 of the DU
  | duReserved1110  -- DU_RESERVED_1110, R493: reserved command word 0b1110 of the DU
  | duReserved1111  -- DU_RESERVED_1111, R493: reserved command word 0b1111 of the DU
  | blkStored (bfinal : Bool)  -- BLK_STORED, R303: header of a stored block
  | blkStatic (bfinal : Bool)  -- BLK_STATIC, R303: header of a static block
  | blkDynamic (bfinal : Bool)  -- BLK_DYNAMIC, R303: header of a dynamic block
  | blkReserved (bfinal : Bool)  -- BLK_RESERVED, R303: header with the reserved block type 3
  | lit0To143 (b : Byte)  -- LIT_0_143, R351: literal byte 0..143
  | lit144To255 (b : Byte)  -- LIT_144_255, R352: literal byte 144..255
  | eob  -- EOB, R353: end of block, symbol 256
  | len257  -- LEN_257, R354: length symbol 257: match length 3
  | len258  -- LEN_258, R355: length symbol 258: match length 4
  | len259  -- LEN_259, R356: length symbol 259: match length 5
  | len260  -- LEN_260, R357: length symbol 260: match length 6
  | len261  -- LEN_261, R358: length symbol 261: match length 7
  | len262  -- LEN_262, R359: length symbol 262: match length 8
  | len263  -- LEN_263, R360: length symbol 263: match length 9
  | len264  -- LEN_264, R361: length symbol 264: match length 10
  | len265 (x : Nat)  -- LEN_265, R362: length symbol 265: match length 11 + x, x a field of 1 bit
  | len266 (x : Nat)  -- LEN_266, R363: length symbol 266: match length 13 + x, x a field of 1 bit
  | len267 (x : Nat)  -- LEN_267, R364: length symbol 267: match length 15 + x, x a field of 1 bit
  | len268 (x : Nat)  -- LEN_268, R365: length symbol 268: match length 17 + x, x a field of 1 bit
  | len269 (x : Nat)  -- LEN_269, R366: length symbol 269: match length 19 + x, x a field of 2 bits
  | len270 (x : Nat)  -- LEN_270, R367: length symbol 270: match length 23 + x, x a field of 2 bits
  | len271 (x : Nat)  -- LEN_271, R368: length symbol 271: match length 27 + x, x a field of 2 bits
  | len272 (x : Nat)  -- LEN_272, R369: length symbol 272: match length 31 + x, x a field of 2 bits
  | len273 (x : Nat)  -- LEN_273, R370: length symbol 273: match length 35 + x, x a field of 3 bits
  | len274 (x : Nat)  -- LEN_274, R371: length symbol 274: match length 43 + x, x a field of 3 bits
  | len275 (x : Nat)  -- LEN_275, R372: length symbol 275: match length 51 + x, x a field of 3 bits
  | len276 (x : Nat)  -- LEN_276, R373: length symbol 276: match length 59 + x, x a field of 3 bits
  | len277 (x : Nat)  -- LEN_277, R374: length symbol 277: match length 67 + x, x a field of 4 bits
  | len278 (x : Nat)  -- LEN_278, R375: length symbol 278: match length 83 + x, x a field of 4 bits
  | len279 (x : Nat)  -- LEN_279, R376: length symbol 279: match length 99 + x, x a field of 4 bits
  | len280 (x : Nat)  -- LEN_280, R377: length symbol 280: match length 115 + x, x a field of 4 bits
  | len281 (x : Nat)  -- LEN_281, R378: length symbol 281: match length 131 + x, x a field of 5 bits
  | len282 (x : Nat)  -- LEN_282, R379: length symbol 282: match length 163 + x, x a field of 5 bits
  | len283 (x : Nat)  -- LEN_283, R380: length symbol 283: match length 195 + x, x a field of 5 bits
  | len284 (x : Nat)  -- LEN_284, R381: length symbol 284: match length 227 + x, x a field of 5 bits
  | len285  -- LEN_285, R382: length symbol 285: match length 258
  | ll286  -- LL_286, R383: reserved literal/length symbol
  | ll287  -- LL_287, R384: reserved literal/length symbol
  | dist0  -- DIST_0, R385: distance symbol 0: distance 1
  | dist1  -- DIST_1, R386: distance symbol 1: distance 2
  | dist2  -- DIST_2, R387: distance symbol 2: distance 3
  | dist3  -- DIST_3, R388: distance symbol 3: distance 4
  | dist4 (x : Nat)  -- DIST_4, R389: distance symbol 4: distance 5 + x, x a field of 1 bit
  | dist5 (x : Nat)  -- DIST_5, R390: distance symbol 5: distance 7 + x, x a field of 1 bit
  | dist6 (x : Nat)  -- DIST_6, R391: distance symbol 6: distance 9 + x, x a field of 2 bits
  | dist7 (x : Nat)  -- DIST_7, R392: distance symbol 7: distance 13 + x, x a field of 2 bits
  | dist8 (x : Nat)  -- DIST_8, R393: distance symbol 8: distance 17 + x, x a field of 3 bits
  | dist9 (x : Nat)  -- DIST_9, R394: distance symbol 9: distance 25 + x, x a field of 3 bits
  | dist10 (x : Nat)  -- DIST_10, R395: distance symbol 10: distance 33 + x, x a field of 4 bits
  | dist11 (x : Nat)  -- DIST_11, R396: distance symbol 11: distance 49 + x, x a field of 4 bits
  | dist12 (x : Nat)  -- DIST_12, R397: distance symbol 12: distance 65 + x, x a field of 5 bits
  | dist13 (x : Nat)  -- DIST_13, R398: distance symbol 13: distance 97 + x, x a field of 5 bits
  | dist14 (x : Nat)  -- DIST_14, R399: distance symbol 14: distance 129 + x, x a field of 6 bits
  | dist15 (x : Nat)  -- DIST_15, R400: distance symbol 15: distance 193 + x, x a field of 6 bits
  | dist16 (x : Nat)  -- DIST_16, R401: distance symbol 16: distance 257 + x, x a field of 7 bits
  | dist17 (x : Nat)  -- DIST_17, R402: distance symbol 17: distance 385 + x, x a field of 7 bits
  | dist18 (x : Nat)  -- DIST_18, R403: distance symbol 18: distance 513 + x, x a field of 8 bits
  | dist19 (x : Nat)  -- DIST_19, R404: distance symbol 19: distance 769 + x, x a field of 8 bits
  | dist20 (x : Nat)  -- DIST_20, R405: distance symbol 20: distance 1025 + x, x a field of 9 bits
  | dist21 (x : Nat)  -- DIST_21, R406: distance symbol 21: distance 1537 + x, x a field of 9 bits
  | dist22 (x : Nat)  -- DIST_22, R407: distance symbol 22: distance 2049 + x, x a field of 10 bits
  | dist23 (x : Nat)  -- DIST_23, R408: distance symbol 23: distance 3073 + x, x a field of 10 bits
  | dist24 (x : Nat)  -- DIST_24, R409: distance symbol 24: distance 4097 + x, x a field of 11 bits
  | dist25 (x : Nat)  -- DIST_25, R410: distance symbol 25: distance 6145 + x, x a field of 11 bits
  | dist26 (x : Nat)  -- DIST_26, R411: distance symbol 26: distance 8193 + x, x a field of 12 bits
  | dist27 (x : Nat)  -- DIST_27, R412: distance symbol 27: distance 12289 + x, x a field of 12 bits
  | dist28 (x : Nat)  -- DIST_28, R413: distance symbol 28: distance 16385 + x, x a field of 13 bits
  | dist29 (x : Nat)  -- DIST_29, R414: distance symbol 29: distance 24577 + x, x a field of 13 bits
  | dist30  -- DIST_30, R415: reserved distance symbol
  | dist31  -- DIST_31, R416: reserved distance symbol
  | cl0To15 (v : Nat)  -- CL_0_15, R417: a literal code length v
  | cl16 (x : Nat)  -- CL_16, R418: repeat the previous code length 3 + x times, x a field of 2 bits
  | cl17 (x : Nat)  -- CL_17, R419: 3 + x zero lengths, x a field of 3 bits
  | cl18 (x : Nat)  -- CL_18, R420: 11 + x zero lengths, x a field of 7 bits
deriving DecidableEq, Repr

/-- The two units, each with its own command port (30_encoding.md R131). -/
inductive Port where
  | cu
  | du
deriving DecidableEq, Repr

/-- What the next wire element is coded in (30_encoding.md R116: the automaton state selects it). -/
inductive Alphabet where
  | blockHeader
  | litLen
  | distance
  | codeLength
deriving DecidableEq, Repr

/-- One code of a code set: its length in bits, its canonical numeric value, its symbol (42_huffman.md R200). -/
structure Code where
  len : Nat
  code : Nat
  sym : Nat
deriving DecidableEq, Repr

/-- A decode table as the value R201 and R204 give it: the code set itself. -/
abbrev Table := List Code

/-- The three answers of `lookup` (42_huffman.md R203). -/
inductive Lookup where
  | sym (s : Nat) (l : Nat)
  | more
  | bad
deriving DecidableEq, Repr

/-- A wire element as its alphabet's symbol and the value of its extra field (30_encoding.md R102, R106, R107). -/
inductive Wire where
  | blockHeader (bfinal : Bool) (btype : Nat)
  | litLen (s : Nat) (x : Nat)
  | dist (s : Nat) (x : Nat)
  | codeLen (s : Nat) (x : Nat)
deriving DecidableEq, Repr

/-- Why the decoder gives no instruction: more bits are needed, or no code of the table fits the bits. -/
inductive DecodeError where
  | needBits
  | noCode
deriving DecidableEq, Repr

/-- A decoded wire element: the instruction, the length of its code, and the length of its extra field. -/
structure Decoded where
  instr : Instr
  codeBits : Nat
  extraBits : Nat
deriving DecidableEq, Repr

/-- The tables a Huffman-coded element is written and read with. -/
structure WireTables where
  litLen : Table
  dist : Table
  codeLen : Table
deriving DecidableEq, Repr

/-- The words of an instruction: a command word with its bytes on a unit's port, or the bits of a wire element
(`bits` holds the first bit in stream order as its least significant bit). -/
inductive Words where
  | command (port : Port) (word : BitVec 4) (data : List Byte)
  | element (alphabet : Alphabet) (bits : Nat) (nbits : Nat)
deriving DecidableEq, Repr

end Sys2Proof
end

