-- ==== Sys2Proof/WellFormed.lean ====
section
/-! DEFINITION. The well-formed instructions: every operand within the range the encoding admits. -/

namespace Sys2Proof

/-- Each operand is one the encoding can express: a literal in its row's range (47_symbols.md R351, R352), an extra
field within its width (30_encoding.md R106, R108, R109), a code length 0..15 (R417). -/
def Instr.wf : Instr → Bool
  | .cNewBare => true
  | .cNewZlib => true
  | .cFeedNone _ => true
  | .cFeedSync _ => true
  | .cFeedFinish _ => true
  | .cFeedReserved _ => true
  | .cFree => true
  | .dNewBare => true
  | .dNewZlib => true
  | .dFeed _ => true
  | .dEof => true
  | .dFree => true
  | .cuReserved0010 => true
  | .cuReserved0011 => true
  | .cuReserved1000 => true
  | .cuReserved1001 => true
  | .cuReserved1010 => true
  | .cuReserved1011 => true
  | .cuReserved1101 => true
  | .cuReserved1110 => true
  | .cuReserved1111 => true
  | .duReserved0010 => true
  | .duReserved0011 => true
  | .duReserved0101 => true
  | .duReserved0110 => true
  | .duReserved0111 => true
  | .duReserved1001 => true
  | .duReserved1010 => true
  | .duReserved1011 => true
  | .duReserved1101 => true
  | .duReserved1110 => true
  | .duReserved1111 => true
  | .blkStored _ => true
  | .blkStatic _ => true
  | .blkDynamic _ => true
  | .blkReserved _ => true
  | .lit0To143 b => decide (b.toNat ≤ 143)
  | .lit144To255 b => decide (144 ≤ b.toNat)
  | .eob => true
  | .len257 => true
  | .len258 => true
  | .len259 => true
  | .len260 => true
  | .len261 => true
  | .len262 => true
  | .len263 => true
  | .len264 => true
  | .len265 x => decide (x < 2)
  | .len266 x => decide (x < 2)
  | .len267 x => decide (x < 2)
  | .len268 x => decide (x < 2)
  | .len269 x => decide (x < 4)
  | .len270 x => decide (x < 4)
  | .len271 x => decide (x < 4)
  | .len272 x => decide (x < 4)
  | .len273 x => decide (x < 8)
  | .len274 x => decide (x < 8)
  | .len275 x => decide (x < 8)
  | .len276 x => decide (x < 8)
  | .len277 x => decide (x < 16)
  | .len278 x => decide (x < 16)
  | .len279 x => decide (x < 16)
  | .len280 x => decide (x < 16)
  | .len281 x => decide (x < 32)
  | .len282 x => decide (x < 32)
  | .len283 x => decide (x < 32)
  | .len284 x => decide (x < 32)
  | .len285 => true
  | .ll286 => true
  | .ll287 => true
  | .dist0 => true
  | .dist1 => true
  | .dist2 => true
  | .dist3 => true
  | .dist4 x => decide (x < 2)
  | .dist5 x => decide (x < 2)
  | .dist6 x => decide (x < 4)
  | .dist7 x => decide (x < 4)
  | .dist8 x => decide (x < 8)
  | .dist9 x => decide (x < 8)
  | .dist10 x => decide (x < 16)
  | .dist11 x => decide (x < 16)
  | .dist12 x => decide (x < 32)
  | .dist13 x => decide (x < 32)
  | .dist14 x => decide (x < 64)
  | .dist15 x => decide (x < 64)
  | .dist16 x => decide (x < 128)
  | .dist17 x => decide (x < 128)
  | .dist18 x => decide (x < 256)
  | .dist19 x => decide (x < 256)
  | .dist20 x => decide (x < 512)
  | .dist21 x => decide (x < 512)
  | .dist22 x => decide (x < 1024)
  | .dist23 x => decide (x < 1024)
  | .dist24 x => decide (x < 2048)
  | .dist25 x => decide (x < 2048)
  | .dist26 x => decide (x < 4096)
  | .dist27 x => decide (x < 4096)
  | .dist28 x => decide (x < 8192)
  | .dist29 x => decide (x < 8192)
  | .dist30 => true
  | .dist31 => true
  | .cl0To15 v => decide (v ≤ 15)
  | .cl16 x => decide (x < 4)
  | .cl17 x => decide (x < 8)
  | .cl18 x => decide (x < 128)

end Sys2Proof
end

