-- ==== Sys2Proof/Decode.lean ====
section
/-! DEFINITION. The decoder and, after it, the encoder: the encoding tables of 30_encoding.md, the canonical codes and
decode tables of 42_huffman.md sections 1 and 2 (rules R196, R200, R201, R203, R205), the command words of R131, and
every instruction's words from them. -/

namespace Sys2Proof

/-! ## Constant tables -/

/-- LEN_EXTRA: the extra bits of length symbol 257 + k (30_encoding.md R108). -/
def lenExtra : List Nat := [0, 0, 0, 0, 0, 0, 0, 0, 1, 1, 1, 1, 2, 2, 2, 2, 3, 3, 3, 3, 4, 4, 4, 4, 5, 5, 5, 5, 0]

/-- LEN_BASE: the smallest length of length symbol 257 + k (R108). -/
def lenBase : List Nat := [3, 4, 5, 6, 7, 8, 9, 10, 11, 13, 15, 17, 19, 23, 27] ++
  [31, 35, 43, 51, 59, 67, 83, 99, 115, 131, 163, 195, 227, 258]

/-- DIST_EXTRA: the extra bits of distance symbol j (R109). -/
def distExtra : List Nat := [0, 0, 0, 0, 1, 1, 2, 2, 3, 3, 4, 4, 5, 5, 6, 6, 7, 7, 8, 8, 9, 9, 10, 10, 11, 11, 12, 12, 13, 13]

/-- DIST_BASE: the smallest distance of distance symbol j (R109). -/
def distBase : List Nat := [1, 2, 3, 4, 5, 7, 9, 13, 17, 25, 33, 49, 65, 97, 129] ++
  [193, 257, 385, 513, 769, 1025, 1537, 2049, 3073, 4097, 6145, 8193, 12289, 16385, 24577]

/-- CLORDER: the transmission order of the code-length alphabet (R112). -/
def clOrder : List Nat := [16, 17, 18, 0, 8, 7, 9, 6, 10, 5, 11, 4, 12, 3, 13, 2, 14, 1, 15]

/-- The code lengths of the static literal/length code (R110). -/
def staticLitLenLengths : List Nat :=
  List.replicate 144 8 ++ List.replicate 112 9 ++ List.replicate 24 7 ++ List.replicate 8 8

/-- The code lengths of the static distance code (R111). -/
def staticDistLengths : List Nat := List.replicate 32 5

/-- The number of extra bits that follow a symbol's code (R106, R108, R109). -/
def extraBitsOf (a : Alphabet) (s : Nat) : Nat :=
  match a with
  | .blockHeader => 0
  | .litLen => if 257 ≤ s ∧ s ≤ 285 then lenExtra.getD (s - 257) 0 else 0
  | .distance => distExtra.getD s 0
  | .codeLength => if s = 16 then 2 else if s = 17 then 3 else if s = 18 then 7 else 0

/-! ## Canonical codes and decode tables -/

/-- `rev(c, n)`: the n low bits of `c` in the opposite order (40_bitio.md R142). The same function reads the first n
stream bits as a number with the first bit most significant (42_huffman.md R203). -/
def revBits : Nat → Nat → Nat
  | 0, _ => 0
  | n + 1, c => c % 2 * 2 ^ n + revBits n (c / 2)

/-- `count[l]` for l = 0..15 of `canon` (R196): how many symbols have length l, and 0 for l = 0. -/
def lengthCounts (lens : List Nat) : List Nat :=
  (List.range 16).map fun l => if l = 0 then 0 else lens.count l

/-- The loop of `canon` (R196) over `l`: `c <- (c + count[l-1]) << 1; first[l] <- c`. -/
def firstCodesFrom : Nat → List Nat → List Nat
  | _, [] => []
  | c, k :: ks => ((c + k) * 2) :: firstCodesFrom ((c + k) * 2) ks

/-- `first[l]` for l = 0..15 (entry 0 is not used). -/
def firstCodes (lens : List Nat) : List Nat := 0 :: firstCodesFrom 0 ((lengthCounts lens).take 15)

/-- The last loop of `canon` (R196): symbols in increasing order, each non-zero length taking the next code of its
length. -/
def assignCodes : List Nat → List Nat → Nat → Table
  | [], _, _ => []
  | l :: ls, next, s =>
    if l = 0 then assignCodes ls next (s + 1)
    else ⟨l, next.getD l 0, s⟩ :: assignCodes ls (next.set l (next.getD l 0 + 1)) (s + 1)

/-- The code set of a vector of code lengths (R196, R200). -/
def codes (lens : List Nat) : Table := assignCodes lens (firstCodes lens) 0

/-- `Σ 2^(15 − len)` over the non-zero lengths (R201; R121 with the sum scaled by 2^15). -/
def kraftSum (lens : List Nat) : Nat := (lens.map fun l => if l = 0 then 0 else 2 ^ (15 - l)).sum

/-- `mktable` (R201): none is the E_TABLE of an over-subscribed length set (R121). -/
def mkTable (lens : List Nat) : Option Table := if 2 ^ 15 < kraftSum lens then none else some (codes lens)

/-- ST.LL (R205). -/
def staticLitLen : Table := codes staticLitLenLengths

/-- ST.D (R205). -/
def staticDist : Table := codes staticDistLengths

/-- The loop of `lookup` (R203) over the code lengths `l`, `k` of them left to try. -/
def lookupFrom (t : Table) (bits : Nat) : Nat → Nat → Option (Nat × Nat)
  | 0, _ => none
  | k + 1, l =>
    match t.find? fun c => c.len == l && c.code == revBits l bits with
    | some c => some (c.sym, l)
    | none => lookupFrom t bits k (l + 1)

/-- Some code is longer than the `nbits` available bits and begins with them (R203). -/
def someCodeContinues (t : Table) (bits nbits : Nat) : Bool :=
  t.any fun c => decide (nbits < c.len) && c.code / 2 ^ (c.len - nbits) == revBits nbits bits

/-- `lookup` (R203): the symbol whose code comes first in the upcoming bits, or that more bits are needed, or that no
code can match. -/
def lookup (t : Table) (bits nbits : Nat) : Lookup :=
  match lookupFrom t bits (min nbits 15) 1 with
  | some (s, l) => .sym s l
  | none => if nbits < 15 ∧ someCodeContinues t bits nbits = true then .more else .bad

/-! ## Symbols as instructions -/

/-- The block header with final flag `f` and block type `t` mod 4 (R102). -/
def blockInstr (f : Bool) (t : Nat) : Instr :=
  if t % 4 = 0 then .blkStored f else if t % 4 = 1 then .blkStatic f else if t % 4 = 2 then .blkDynamic f
  else .blkReserved f

/-- The literal/length symbol `s` with extra field `x` (R107, R108, R118). -/
def litLenInstr (s x : Nat) : Option Instr :=
  if s < 144 then some (.lit0To143 (BitVec.ofNat 8 s))
  else if s < 256 then some (.lit144To255 (BitVec.ofNat 8 s))
  else match s with
    | 256 => some .eob
    | 257 => some .len257
    | 258 => some .len258
    | 259 => some .len259
    | 260 => some .len260
    | 261 => some .len261
    | 262 => some .len262
    | 263 => some .len263
    | 264 => some .len264
    | 265 => some (.len265 x)
    | 266 => some (.len266 x)
    | 267 => some (.len267 x)
    | 268 => some (.len268 x)
    | 269 => some (.len269 x)
    | 270 => some (.len270 x)
    | 271 => some (.len271 x)
    | 272 => some (.len272 x)
    | 273 => some (.len273 x)
    | 274 => some (.len274 x)
    | 275 => some (.len275 x)
    | 276 => some (.len276 x)
    | 277 => some (.len277 x)
    | 278 => some (.len278 x)
    | 279 => some (.len279 x)
    | 280 => some (.len280 x)
    | 281 => some (.len281 x)
    | 282 => some (.len282 x)
    | 283 => some (.len283 x)
    | 284 => some (.len284 x)
    | 285 => some .len285
    | 286 => some .ll286
    | 287 => some .ll287
    | _ => none

/-- The distance symbol `s` with extra field `x` (R107, R109, R118). -/
def distInstr (s x : Nat) : Option Instr :=
  match s with
  | 0 => some .dist0
  | 1 => some .dist1
  | 2 => some .dist2
  | 3 => some .dist3
  | 4 => some (.dist4 x)
  | 5 => some (.dist5 x)
  | 6 => some (.dist6 x)
  | 7 => some (.dist7 x)
  | 8 => some (.dist8 x)
  | 9 => some (.dist9 x)
  | 10 => some (.dist10 x)
  | 11 => some (.dist11 x)
  | 12 => some (.dist12 x)
  | 13 => some (.dist13 x)
  | 14 => some (.dist14 x)
  | 15 => some (.dist15 x)
  | 16 => some (.dist16 x)
  | 17 => some (.dist17 x)
  | 18 => some (.dist18 x)
  | 19 => some (.dist19 x)
  | 20 => some (.dist20 x)
  | 21 => some (.dist21 x)
  | 22 => some (.dist22 x)
  | 23 => some (.dist23 x)
  | 24 => some (.dist24 x)
  | 25 => some (.dist25 x)
  | 26 => some (.dist26 x)
  | 27 => some (.dist27 x)
  | 28 => some (.dist28 x)
  | 29 => some (.dist29 x)
  | 30 => some .dist30
  | 31 => some .dist31
  | _ => none

/-- The code-length symbol `s` with extra field `x` (R106). -/
def codeLenInstr (s x : Nat) : Option Instr :=
  if s < 16 then some (.cl0To15 s)
  else match s with
    | 16 => some (.cl16 x)
    | 17 => some (.cl17 x)
    | 18 => some (.cl18 x)
    | _ => none

/-- The instruction of symbol `s` of an alphabet with extra field `x`. -/
def symbolInstr (a : Alphabet) (s x : Nat) : Option Instr :=
  match a with
  | .blockHeader => none
  | .litLen => litLenInstr s x
  | .distance => distInstr s x
  | .codeLength => codeLenInstr s x

/-! ## The decoder -/

/-- The CU command word `w` with its bytes (R131, 70_reset_and_hazards.md R493): every word is an instruction. -/
def decodeCu (w : BitVec 4) (data : List Byte) : Instr :=
  match w.toNat with
  | 0 => .cNewBare
  | 1 => .cNewZlib
  | 2 => .cuReserved0010
  | 3 => .cuReserved0011
  | 4 => .cFeedNone data
  | 5 => .cFeedSync data
  | 6 => .cFeedFinish data
  | 7 => .cFeedReserved data
  | 8 => .cuReserved1000
  | 9 => .cuReserved1001
  | 10 => .cuReserved1010
  | 11 => .cuReserved1011
  | 12 => .cFree
  | 13 => .cuReserved1101
  | 14 => .cuReserved1110
  | _ => .cuReserved1111

/-- The DU command word `w` with its bytes (R131, R493): every word is an instruction. -/
def decodeDu (w : BitVec 4) (data : List Byte) : Instr :=
  match w.toNat with
  | 0 => .dNewBare
  | 1 => .dNewZlib
  | 2 => .duReserved0010
  | 3 => .duReserved0011
  | 4 => .dFeed data
  | 5 => .duReserved0101
  | 6 => .duReserved0110
  | 7 => .duReserved0111
  | 8 => .dEof
  | 9 => .duReserved1001
  | 10 => .duReserved1010
  | 11 => .duReserved1011
  | 12 => .dFree
  | 13 => .duReserved1101
  | 14 => .duReserved1110
  | _ => .duReserved1111

/-- The command word `w` on a unit's port. -/
def decodeCommand (p : Port) (w : BitVec 4) (data : List Byte) : Instr :=
  match p with
  | .cu => decodeCu w data
  | .du => decodeDu w data

/-- The whole element of symbol `s`, whose code of `l` bits stands first in the upcoming bits: its extra field follows
the code, low bit first (R106, R107, R113). -/
def decodeSymbol (a : Alphabet) (s l bits nbits : Nat) : Except DecodeError Decoded :=
  if nbits < l + extraBitsOf a s then .error .needBits
  else match symbolInstr a s (bits / 2 ^ l % 2 ^ extraBitsOf a s) with
    | some i => .ok ⟨i, l, extraBitsOf a s⟩
    | none => .error .noCode

/-- The wire element at the front of `nbits` upcoming bits (bit 0 of `bits` first), in an alphabet coded by `t`
(R102, R106, R107, R116). It is total: bits that hold no element are rejected by name. -/
def decodeElement (a : Alphabet) (t : Table) (bits nbits : Nat) : Except DecodeError Decoded :=
  match a with
  | .blockHeader =>
    if nbits < 3 then .error .needBits else .ok ⟨blockInstr (bits % 2 == 1) (bits / 2), 3, 0⟩
  | a =>
    match lookup t bits nbits with
    | .sym s l => decodeSymbol a s l bits nbits
    | .more => .error .needBits
    | .bad => .error .noCode

/-- The table of an alphabet. -/
def WireTables.of (w : WireTables) : Alphabet → Table
  | .blockHeader => []
  | .litLen => w.litLen
  | .distance => w.dist
  | .codeLength => w.codeLen

/-- The static tables (10_state.md R47); the code-length alphabet has no static code (47_symbols.md R350). -/
def staticTables : WireTables := ⟨staticLitLen, staticDist, []⟩

/-- The instruction of some words: a command, or one element that fills the bits given exactly. -/
def decodeWords (w : WireTables) : Words → Except DecodeError Instr
  | .command p word data => .ok (decodeCommand p word data)
  | .element a bits nbits =>
    match decodeElement a (w.of a) bits nbits with
    | .ok d => if d.codeBits + d.extraBits = nbits then .ok d.instr else .error .noCode
    | .error e => .error e

/-- The element of exactly `n` bits that the table's number `w` spells, read in the static code of `a`. The table
numbers a symbol's row with its FIRST stream bit most significant, so the number is turned round. -/
def decodeTableBits (a : Alphabet) (n w : Nat) : Option Instr :=
  if w < 2 ^ n then
    match decodeWords staticTables (.element a (revBits n w) n) with
    | .ok i => some i
    | .error _ => none
  else none

/-- Not a literal byte. -/
def Instr.notLiteral : Instr → Bool
  | .lit0To143 _ => false
  | .lit144To255 _ => false
  | _ => true

/-- The table's rows of `n` bits in the order tried: length, end and reserved symbols, then distance symbols, then
literals. -/
def decodeTableRow (n w : Nat) : Option Instr :=
  ((decodeTableBits .litLen n w).filter Instr.notLiteral).orElse fun _ =>
    (decodeTableBits .distance n w).orElse fun _ => decodeTableBits .litLen n w

/-- The longest row of at most `n` and more than `n - k` bits that `w` spells. -/
def decodeTableRows : Nat → Nat → Nat → Option Instr
  | 0, _, _ => none
  | k + 1, n, w => (decodeTableRow n w).orElse fun _ => decodeTableRows k (n - 1) w

/-- The instruction the decoder reads from bits numbered as spec/opcode_table.json numbers them. A number alone does not
say which port or alphabet it belongs to (`0000` is a row of the CU, of the DU and of the block headers): a number
below 16 is read as a CU command word, any other as a symbol of the static codes, the longest row first
(assumption log 8). -/
def decodeTableWord (nbits w : Nat) : Option Instr :=
  if w < 16 then some (decodeCu (BitVec.ofNat 4 w) []) else decodeTableRows 8 nbits w

/-! ## The encoder -/

/-- The command word of a command (R131), or none for a wire element. -/
def commandOf : Instr → Option (Port × BitVec 4 × List Byte)
  | .cNewBare => some (.cu, 0, [])
  | .cNewZlib => some (.cu, 1, [])
  | .cFeedNone data => some (.cu, 4, data)
  | .cFeedSync data => some (.cu, 5, data)
  | .cFeedFinish data => some (.cu, 6, data)
  | .cFeedReserved data => some (.cu, 7, data)
  | .cFree => some (.cu, 12, [])
  | .dNewBare => some (.du, 0, [])
  | .dNewZlib => some (.du, 1, [])
  | .dFeed data => some (.du, 4, data)
  | .dEof => some (.du, 8, [])
  | .dFree => some (.du, 12, [])
  | .cuReserved0010 => some (.cu, 2, [])
  | .cuReserved0011 => some (.cu, 3, [])
  | .cuReserved1000 => some (.cu, 8, [])
  | .cuReserved1001 => some (.cu, 9, [])
  | .cuReserved1010 => some (.cu, 10, [])
  | .cuReserved1011 => some (.cu, 11, [])
  | .cuReserved1101 => some (.cu, 13, [])
  | .cuReserved1110 => some (.cu, 14, [])
  | .cuReserved1111 => some (.cu, 15, [])
  | .duReserved0010 => some (.du, 2, [])
  | .duReserved0011 => some (.du, 3, [])
  | .duReserved0101 => some (.du, 5, [])
  | .duReserved0110 => some (.du, 6, [])
  | .duReserved0111 => some (.du, 7, [])
  | .duReserved1001 => some (.du, 9, [])
  | .duReserved1010 => some (.du, 10, [])
  | .duReserved1011 => some (.du, 11, [])
  | .duReserved1101 => some (.du, 13, [])
  | .duReserved1110 => some (.du, 14, [])
  | .duReserved1111 => some (.du, 15, [])
  | .blkStored _ => none
  | .blkStatic _ => none
  | .blkDynamic _ => none
  | .blkReserved _ => none
  | .lit0To143 _ => none
  | .lit144To255 _ => none
  | .eob => none
  | .len257 => none
  | .len258 => none
  | .len259 => none
  | .len260 => none
  | .len261 => none
  | .len262 => none
  | .len263 => none
  | .len264 => none
  | .len265 _ => none
  | .len266 _ => none
  | .len267 _ => none
  | .len268 _ => none
  | .len269 _ => none
  | .len270 _ => none
  | .len271 _ => none
  | .len272 _ => none
  | .len273 _ => none
  | .len274 _ => none
  | .len275 _ => none
  | .len276 _ => none
  | .len277 _ => none
  | .len278 _ => none
  | .len279 _ => none
  | .len280 _ => none
  | .len281 _ => none
  | .len282 _ => none
  | .len283 _ => none
  | .len284 _ => none
  | .len285 => none
  | .ll286 => none
  | .ll287 => none
  | .dist0 => none
  | .dist1 => none
  | .dist2 => none
  | .dist3 => none
  | .dist4 _ => none
  | .dist5 _ => none
  | .dist6 _ => none
  | .dist7 _ => none
  | .dist8 _ => none
  | .dist9 _ => none
  | .dist10 _ => none
  | .dist11 _ => none
  | .dist12 _ => none
  | .dist13 _ => none
  | .dist14 _ => none
  | .dist15 _ => none
  | .dist16 _ => none
  | .dist17 _ => none
  | .dist18 _ => none
  | .dist19 _ => none
  | .dist20 _ => none
  | .dist21 _ => none
  | .dist22 _ => none
  | .dist23 _ => none
  | .dist24 _ => none
  | .dist25 _ => none
  | .dist26 _ => none
  | .dist27 _ => none
  | .dist28 _ => none
  | .dist29 _ => none
  | .dist30 => none
  | .dist31 => none
  | .cl0To15 _ => none
  | .cl16 _ => none
  | .cl17 _ => none
  | .cl18 _ => none

/-- The symbol and extra field of a wire element, or none for a command. -/
def wireOf : Instr → Option Wire
  | .cNewBare => none
  | .cNewZlib => none
  | .cFeedNone _ => none
  | .cFeedSync _ => none
  | .cFeedFinish _ => none
  | .cFeedReserved _ => none
  | .cFree => none
  | .dNewBare => none
  | .dNewZlib => none
  | .dFeed _ => none
  | .dEof => none
  | .dFree => none
  | .cuReserved0010 => none
  | .cuReserved0011 => none
  | .cuReserved1000 => none
  | .cuReserved1001 => none
  | .cuReserved1010 => none
  | .cuReserved1011 => none
  | .cuReserved1101 => none
  | .cuReserved1110 => none
  | .cuReserved1111 => none
  | .duReserved0010 => none
  | .duReserved0011 => none
  | .duReserved0101 => none
  | .duReserved0110 => none
  | .duReserved0111 => none
  | .duReserved1001 => none
  | .duReserved1010 => none
  | .duReserved1011 => none
  | .duReserved1101 => none
  | .duReserved1110 => none
  | .duReserved1111 => none
  | .blkStored bfinal => some (.blockHeader bfinal 0)
  | .blkStatic bfinal => some (.blockHeader bfinal 1)
  | .blkDynamic bfinal => some (.blockHeader bfinal 2)
  | .blkReserved bfinal => some (.blockHeader bfinal 3)
  | .lit0To143 b => some (.litLen b.toNat 0)
  | .lit144To255 b => some (.litLen b.toNat 0)
  | .eob => some (.litLen 256 0)
  | .len257 => some (.litLen 257 0)
  | .len258 => some (.litLen 258 0)
  | .len259 => some (.litLen 259 0)
  | .len260 => some (.litLen 260 0)
  | .len261 => some (.litLen 261 0)
  | .len262 => some (.litLen 262 0)
  | .len263 => some (.litLen 263 0)
  | .len264 => some (.litLen 264 0)
  | .len265 x => some (.litLen 265 x)
  | .len266 x => some (.litLen 266 x)
  | .len267 x => some (.litLen 267 x)
  | .len268 x => some (.litLen 268 x)
  | .len269 x => some (.litLen 269 x)
  | .len270 x => some (.litLen 270 x)
  | .len271 x => some (.litLen 271 x)
  | .len272 x => some (.litLen 272 x)
  | .len273 x => some (.litLen 273 x)
  | .len274 x => some (.litLen 274 x)
  | .len275 x => some (.litLen 275 x)
  | .len276 x => some (.litLen 276 x)
  | .len277 x => some (.litLen 277 x)
  | .len278 x => some (.litLen 278 x)
  | .len279 x => some (.litLen 279 x)
  | .len280 x => some (.litLen 280 x)
  | .len281 x => some (.litLen 281 x)
  | .len282 x => some (.litLen 282 x)
  | .len283 x => some (.litLen 283 x)
  | .len284 x => some (.litLen 284 x)
  | .len285 => some (.litLen 285 0)
  | .ll286 => some (.litLen 286 0)
  | .ll287 => some (.litLen 287 0)
  | .dist0 => some (.dist 0 0)
  | .dist1 => some (.dist 1 0)
  | .dist2 => some (.dist 2 0)
  | .dist3 => some (.dist 3 0)
  | .dist4 x => some (.dist 4 x)
  | .dist5 x => some (.dist 5 x)
  | .dist6 x => some (.dist 6 x)
  | .dist7 x => some (.dist 7 x)
  | .dist8 x => some (.dist 8 x)
  | .dist9 x => some (.dist 9 x)
  | .dist10 x => some (.dist 10 x)
  | .dist11 x => some (.dist 11 x)
  | .dist12 x => some (.dist 12 x)
  | .dist13 x => some (.dist 13 x)
  | .dist14 x => some (.dist 14 x)
  | .dist15 x => some (.dist 15 x)
  | .dist16 x => some (.dist 16 x)
  | .dist17 x => some (.dist 17 x)
  | .dist18 x => some (.dist 18 x)
  | .dist19 x => some (.dist 19 x)
  | .dist20 x => some (.dist 20 x)
  | .dist21 x => some (.dist 21 x)
  | .dist22 x => some (.dist 22 x)
  | .dist23 x => some (.dist 23 x)
  | .dist24 x => some (.dist 24 x)
  | .dist25 x => some (.dist 25 x)
  | .dist26 x => some (.dist 26 x)
  | .dist27 x => some (.dist 27 x)
  | .dist28 x => some (.dist 28 x)
  | .dist29 x => some (.dist 29 x)
  | .dist30 => some (.dist 30 0)
  | .dist31 => some (.dist 31 0)
  | .cl0To15 v => some (.codeLen v 0)
  | .cl16 x => some (.codeLen 16 x)
  | .cl17 x => some (.codeLen 17 x)
  | .cl18 x => some (.codeLen 18 x)

/-- The bits of symbol `s` and its extra field `x` of `e` bits, in the code of table `t`: the code most significant bit
first, then the field low bit first (20_memory.md R71, R72). None if the symbol has no code. -/
def encodeSymbol (t : Table) (s x e : Nat) : Option (Nat × Nat) :=
  match t.find? fun c => c.sym == s with
  | some c => some (revBits c.len c.code + x * 2 ^ c.len, c.len + e)
  | none => none

/-- The words of a wire element. -/
def encodeWire (w : WireTables) : Wire → Option Words
  | .blockHeader f t => some (.element .blockHeader (f.toNat + 2 * t) 3)
  | .litLen s x => (encodeSymbol w.litLen s x (extraBitsOf .litLen s)).map fun p => .element .litLen p.1 p.2
  | .dist s x => (encodeSymbol w.dist s x (extraBitsOf .distance s)).map fun p => .element .distance p.1 p.2
  | .codeLen s x => (encodeSymbol w.codeLen s x (extraBitsOf .codeLength s)).map fun p => .element .codeLength p.1 p.2

/-- The words of an instruction, written from the same tables the decoder reads. None only for a symbol the given
tables have no code for. -/
def encode (w : WireTables) (i : Instr) : Option Words :=
  match commandOf i with
  | some (p, word, data) => some (.command p word data)
  | none => (wireOf i).bind (encodeWire w)

end Sys2Proof
end

