-- ==== Sys2Proof/Machine/State.lean ====
section
/-! DEFINITION. The state of the codec as plain data: the context of each unit (10_state.md R23 to R45), the host's
side of the two command ports, the reasons a step stops, and the state after reset. -/

namespace Sys2Proof.Machine

/-- A private memory (10_state.md R39) as its listed entries, index and content: indices strictly rising, and no entry
equal to what an unlisted index reads as (Machine/Memory.lean `Memory.wf`). -/
abbrev Mem (α : Type) := List (Nat × α)

/-- A bit accumulator (R24, R28). -/
abbrev AccWord := BitVec Config.accW

/-- The envelope mode (R21, R23, R27; D3: bare 0, zlib 1). -/
inductive Mode where
  | bare
  | zlib
deriving DecidableEq, Repr

/-- The 17 automaton states of the DU (R31), in the order of their codes 0..16. -/
inductive DState where
  | start
  | outsideBlk
  | uncompLen
  | uncompNlen
  | uncompData
  | inBlk
  | treesHdr
  | treesLenLen
  | treesLen
  | treesLenRep
  | gotLenSym
  | gotLen
  | gotDistSym
  | finish        -- END
  | adler1
  | adler2
  | finalSpin
deriving DecidableEq, Repr

/-- The error codes (60_exceptions.md R451), in the order of their codes 0..5. -/
inductive Err where
  | ok
  | header
  | eof
  | table
  | checksum
  | format
deriving DecidableEq, Repr

/-- A symbol slot (R43): literal/length symbol, distance symbol, extra field of `n` bits with value `v`, code-length
symbol. -/
inductive Slot where
  | litLen (s : Nat)
  | dist (s : Nat)
  | extra (n v : Nat)
  | codeLen (s : Nat)
deriving DecidableEq, Repr

/-- One LZ77 event (00_scope.md R15, 41_lz77.md R160): a literal byte, or a match of distance `d` and length `l`. -/
inductive Token where
  | lit (b : Byte)
  | copy (d l : Nat)
deriving DecidableEq, Repr

/-- One slot of the pending-match set (R44, 41_lz77.md R171): nothing yet; the distances still extending (LIVE) with
their common length (LEN); or finished with (BESTLEN, BESTDIST). -/
inductive Cand where
  | empty
  | extending (live : List Nat) (len : Nat)
  | finished (len dist : Nat)
deriving DecidableEq, Repr

/-- The bit writer's registers (R24): BW.ACC, BW.N, BW.OUT. -/
structure BitWriter where
  acc : AccWord
  n : Nat
  out : List Byte
deriving DecidableEq, Repr

/-- The LZ77 engine (R25, R41, R42, R44): LZ.S, LZ.R, LZ.P, LZ.H, LZ.CAND (entry `o` for position LZ.P + o, LAZY of
them), LZ.WIN, LZ.HEAD, LZ.NEXT. -/
structure Lz where
  s : List Byte
  r : Nat
  p : Nat
  h : Nat
  cand : List Cand
  win : List Host.Cell
  head : Mem Nat
  next : Mem Nat
deriving DecidableEq, Repr

/-- The symbol ring (R26, R39): SYM.START, SYM.N, SYM.RING. -/
structure SymRing where
  start : Nat
  n : Nat
  ring : Mem Slot
deriving DecidableEq, Repr

/-- A compression context (R23 to R26): C.MODE, C.FIRST, C.FINISHED, C.LASTBLOCK, C.ADLER, and the three components. -/
structure CuCtx where
  mode : Mode
  first : Bool
  finished : Bool
  lastBlock : Bool
  adler : Word32
  bw : BitWriter
  lz : Lz
  sym : SymRing
deriving DecidableEq, Repr

/-- A decompression context (R27 to R30, R37, R38, R40). -/
structure DuCtx where
  mode : Mode            -- D.MODE
  state : DState         -- D.STATE
  err : Err              -- D.ERR
  lastBlock : Bool       -- D.LASTBLOCK
  bits : AccWord         -- D.BITS
  nbits : Nat            -- D.NBITS
  uncompLen : Nat        -- D.UNCOMPLEN
  hlit : Nat             -- D.HLIT
  hdist : Nat            -- D.HDIST
  hclen : Nat            -- D.HCLEN
  lenPtr : Nat           -- D.LENPTR
  lenExtraBits : Nat     -- D.LENEXTRABITS
  lenAddOn : Nat         -- D.LENADDON
  lenRep : Nat           -- D.LENREP
  sym : Nat              -- D.SYM
  len : Nat              -- D.LEN
  cur : Bool             -- D.CUR, true for the dynamic tables
  winPos : Nat           -- D.WINPOS
  produced : Nat         -- D.PRODUCED
  adler : Word32         -- D.ADLER
  adlerGot : Word32      -- D.ADLERGOT
  out : List Byte        -- D.OUT
  lenLen : List Nat      -- D.LENLEN[0..18]
  lengths : List Nat     -- D.LENGTHS[0..315]
  tabCL : Option Table   -- D.TAB_CL
  tabLL : Option Table   -- D.TAB_LL
  tabD : Option Table    -- D.TAB_D
  win : List Host.Cell   -- D.WIN
deriving DecidableEq, Repr

/-- What the host has put before the machine: a command word with its bytes on a unit's port (30_encoding.md R131), or
`advance`, the model's own input that runs one wire element of the DU's buffered bits (assumption log 2). -/
inductive Input where
  | cu (word : BitVec 4) (data : List Byte)
  | du (word : BitVec 4) (data : List Byte)
  | advance
deriving DecidableEq, Repr

/-- What a unit answers (R131): the CU its output bytes, the DU its output bytes and the error code. -/
inductive Reply where
  | cu (out : List Byte)
  | du (out : List Byte) (err : Err)
deriving DecidableEq, Repr

/-- The machine: one compression unit and one decompression unit, each holding a context or none (R20,
70_reset_and_hazards.md R492), the commands not yet taken and the answers given, oldest first. -/
structure State where
  cu : Option CuCtx
  du : Option DuCtx
  inbox : List Input
  replies : List Reply
deriving DecidableEq, Repr

/-- Why the machine stops with a fault. The codec's own errors are answers to the host (60_exceptions.md R455), not
faults of the model. -/
inductive Fault where
  /-- Raised by D_FEED if the bound the model puts on its loop runs out. The spec says the loop ends
  (46_decompress.md R323 corner case 1), so no state reaches it. Safe: the machine would go on. -/
  | feedUnfinished
deriving DecidableEq, Repr

/-- Why an instruction has no meaning where it is offered. -/
inductive Refusal where
  /-- An instruction whose meaning is not written yet; only `exec`'s arms answer with it. Safe. -/
  | notModelled (mnemonic : String)
  /-- A wire element offered while the DU holds no context: there is no automaton to decode it (R492). Raised by the
  meanings of the wire elements; `step` never offers one. Safe: the machine has no such transition. -/
  | elementWithoutContext
  /-- A wire element offered to a context with a latched error: no step runs any more (60_exceptions.md R456). Raised by
  the meanings of the wire elements; `step` never offers one. Safe. -/
  | elementAfterError
  /-- A wire element offered in an automaton state that decodes no element of its alphabet: the state graph has no such
  edge (46_decompress.md R301). Raised by the meanings of the wire elements; `step` never offers one. Safe. -/
  | elementNotExpected
deriving DecidableEq, Repr

/-- The machine after reset: neither unit holds a context (70_reset_and_hazards.md R490, R492); nothing has been issued
and nothing answered. -/
def State.reset : State where
  cu := none
  du := none
  inbox := []
  replies := []

end Sys2Proof.Machine
end

