-- ==== Sys2Proof/Machine/Operands.lean ====
section
/-! DEFINITION. Operand assembly: every immediate of the wire format from its field (30_encoding.md R113), the inverse
assembly on the compression side (43_block_chooser.md R223), the zlib header's fields (R101), the packed symbol slot
(R132), and the numeric codes of states and errors (10_state.md R31, 60_exceptions.md R451). -/

namespace Sys2Proof.Machine

/-- LEN_BASE of length symbol `s` (30_encoding.md R108). -/
def lengthBase (s : Nat) : Nat := lenBase.getD (s - 257) 0

/-- LEN_EXTRA of length symbol `s` (R108). -/
def lengthExtra (s : Nat) : Nat := lenExtra.getD (s - 257) 0

/-- DIST_BASE of distance symbol `s` (R109). -/
def distanceBase (s : Nat) : Nat := distBase.getD s 0

/-- DIST_EXTRA of distance symbol `s` (R109). -/
def distanceExtra (s : Nat) : Nat := distExtra.getD s 0

/-- The match length of symbol `s` with extra field `x` (R113). -/
def matchLength (s x : Nat) : Nat := lengthBase s + x

/-- The match distance of symbol `s` with extra field `x` (R113). -/
def matchDistance (s x : Nat) : Nat := distanceBase s + x

/-- The last index of `bases` whose entry is at most `v` (0 if there is none). -/
def lastAtMost (bases : List Nat) (v : Nat) : Nat :=
  (List.range bases.length).foldl (fun best k => if bases.getD k 0 ≤ v then k else best) 0

/-- `lcode(l)` (43_block_chooser.md R223): 28 for 258, else the largest k ≤ 27 with LEN_BASE[k] ≤ l. -/
def lcode (l : Nat) : Nat := if l = Config.maxMatch then 28 else lastAtMost (lenBase.take 28) l

/-- `dcode(d)` (R223): the largest j ≤ 29 with DIST_BASE[j] ≤ d. -/
def dcode (d : Nat) : Nat := lastAtMost distBase d

/-- The repeat base of code-length symbols 16, 17, 18 (R113): 3, 3, 11. -/
def repeatBase (c : Nat) : Nat := if c = 18 then 11 else 3

/-- The header test of START (46_decompress.md R302, 30_encoding.md R122): CM = 8, CINFO ≤ 7, FDICT = 0, and
CMF × 256 + FLG a multiple of 31. -/
def zlibHeaderValid (cmf flg : Nat) : Bool :=
  cmf % 16 == 8 && decide (cmf / 16 ≤ 7) && flg / 32 % 2 == 0 && (cmf * 256 + flg) % 31 == 0

/-- Byte `i` of a 32-bit register, byte 0 the least significant. -/
def byteOf (w : Word32) (i : Nat) : Nat := w.toNat / 256 ^ i % 256

/-- The packed form of a slot (R132): SLOT[31:30] the kind; SLOT[8:0] the symbol; for EXTRA SLOT[29:26] the width and
SLOT[15:0] the value. -/
def packSlot : Slot → Word32
  | .litLen s => BitVec.ofNat 32 s
  | .dist s => BitVec.ofNat 32 (2 ^ 30 + s)
  | .extra n v => BitVec.ofNat 32 (2 * 2 ^ 30 + n * 2 ^ 26 + v)
  | .codeLen s => BitVec.ofNat 32 (3 * 2 ^ 30 + s)

/-- The slots the spec gives (10_state.md R43): symbol ranges, and an extra field of 1..13 bits within its width. -/
def Slot.legal : Slot → Bool
  | .litLen s => decide (s ≤ 285) && decide (s ≠ 256)
  | .dist s => decide (s ≤ 29)
  | .extra n v => decide (1 ≤ n) && decide (n ≤ 13) && decide (v < 2 ^ n)
  | .codeLen s => decide (s ≤ 18)

/-- The slot of a packed word (R132). A word whose unlisted bits are not 0, or whose symbol, width or value is none that
10_state.md R43 gives, is no slot and is refused (93_implementation_defined.md U21). -/
def unpackSlot (w : Word32) : Option Slot :=
  let k := w.toNat / 2 ^ 30
  let x : Slot :=
    if k = 0 then .litLen (w.toNat % 512)
    else if k = 1 then .dist (w.toNat % 512)
    else if k = 2 then .extra (w.toNat / 2 ^ 26 % 16) (w.toNat % 2 ^ 16)
    else .codeLen (w.toNat % 512)
  if x.legal = true ∧ packSlot x = w then some x else none

/-- The numeric code of an automaton state (R31, D6). -/
def DState.code : DState → Nat
  | .start => 0
  | .outsideBlk => 1
  | .uncompLen => 2
  | .uncompNlen => 3
  | .uncompData => 4
  | .inBlk => 5
  | .treesHdr => 6
  | .treesLenLen => 7
  | .treesLen => 8
  | .treesLenRep => 9
  | .gotLenSym => 10
  | .gotLen => 11
  | .gotDistSym => 12
  | .finish => 13
  | .adler1 => 14
  | .adler2 => 15
  | .finalSpin => 16

/-- The 3-bit code of an error (60_exceptions.md R451, D5). -/
def Err.code : Err → Nat
  | .ok => 0
  | .header => 1
  | .eof => 2
  | .table => 3
  | .checksum => 4
  | .format => 5

/-- The one-bit code of a mode (D3). -/
def Mode.code : Mode → Nat
  | .bare => 0
  | .zlib => 1

end Sys2Proof.Machine
end

