-- ==== Sys2Proof/Machine/Flags.lean ====
section
/-! DEFINITION. The one-bit status flags of 10_state.md R33, with the operations that set, clear and read each, and the
running Adler-32 (45_compress_driver.md R273). -/

namespace Sys2Proof.Machine

/-- OUTSIDEBLK writes D.LASTBLOCK from the BFINAL bit (R33, 46_decompress.md R303). -/
def setDLastBlock (f : Bool) (d : DuCtx) : DuCtx := { d with lastBlock := f }

/-- The context is in error: D.ERR ≠ 0 (R33, 60_exceptions.md R456). -/
def DuCtx.inError (d : DuCtx) : Bool := decide (d.err ≠ .ok)

/-- `raise` latches the code in D.ERR (R33, R455). -/
def latchError (e : Err) (d : DuCtx) : DuCtx := { d with err := e }

/-- The first C_FEED clears C.FIRST (R33, 45_compress_driver.md R272). -/
def clearFirst (c : CuCtx) : CuCtx := { c with first := false }

/-- C_FEED FINISH sets C.LASTBLOCK before its drain (R33, R276). -/
def setCLastBlock (c : CuCtx) : CuCtx := { c with lastBlock := true }

/-- C_FEED FINISH sets C.FINISHED (R33, R276). -/
def setFinished (c : CuCtx) : CuCtx := { c with finished := true }

/-- One byte of `adler32` (R273): A = a[15:0], B = a[31:16]. -/
def adlerByte (a : Word32) (x : Byte) : Word32 :=
  let lo := (a.toNat % 2 ^ 16 + x.toNat) % Config.adlerMod
  let hi := (a.toNat / 2 ^ 16 + lo) % Config.adlerMod
  BitVec.ofNat 32 (hi * 2 ^ 16 + lo)

/-- `adler32(a, data)` (R273). -/
def adler32 (a : Word32) (data : List Byte) : Word32 := data.foldl adlerByte a

/-- A checksum register is maintained only in zlib mode (10_state.md R23, R30). -/
def adlerInMode (m : Mode) (a : Word32) (data : List Byte) : Word32 :=
  match m with
  | .bare => a
  | .zlib => adler32 a data

end Sys2Proof.Machine
end

