-- ==== Sys2Proof/Machine/Memory.lean ====
section
/-! DEFINITION. The named operations over the private memories: reading and writing one entry (20_memory.md R76), with
`dflt` what an index nothing has written reads as. -/

namespace Sys2Proof.Machine

/-- Read one entry. -/
def memRead {α : Type} (dflt : α) : Mem α → Nat → α
  | [], _ => dflt
  | (k, v) :: m, a => if k = a then v else memRead dflt m a

/-- Put the entry `v` at `a`, keeping the indices rising. -/
def memInsert {α : Type} (a : Nat) (v : α) : Mem α → Mem α
  | [] => [(a, v)]
  | (k, w) :: m =>
    if k = a then (a, v) :: m else if a < k then (a, v) :: (k, w) :: m else (k, w) :: memInsert a v m

/-- Take the entry at `a` out of the list. -/
def memErase {α : Type} (a : Nat) : Mem α → Mem α
  | [] => []
  | (k, w) :: m => if k = a then m else (k, w) :: memErase a m

/-- Write one entry: writing what an unlisted index reads as leaves the index unlisted, so equal memories are equal
data. -/
def memWrite {α : Type} [DecidableEq α] (dflt : α) (m : Mem α) (a : Nat) (v : α) : Mem α :=
  if v = dflt then memErase a m else memInsert a v m

/-- All indices are above `b`, they rise strictly, and no entry is the default. -/
def Memory.wfFrom {α : Type} [DecidableEq α] (dflt : α) : Option Nat → Mem α → Bool
  | _, [] => true
  | b, (k, v) :: m =>
    (match b with
      | none => true
      | some x => decide (x < k)) && decide (v ≠ dflt) && Memory.wfFrom dflt (some k) m

/-- The canonical form of a memory. -/
def Memory.wf {α : Type} [DecidableEq α] (dflt : α) (m : Mem α) : Bool := Memory.wfFrom dflt none m

/-- Every listed index is below the memory's number of entries. -/
def memBelow {α : Type} (n : Nat) (m : Mem α) : Bool := m.all fun e => decide (e.1 < n)

/-- What a window byte that nothing has written reads as: its reset content is unspecified, and 10_state.md R40 and D46
allow zeros (assumption log 1). -/
def windowReset : Byte := 0

/-- What a ring slot that nothing has written reads as (D47; assumption log 1). -/
def slotReset : Slot := .litLen 0

/-- Read a window memory: `MemRead(WIN, a, 1)` (00_scope.md R13). -/
def winRead (m : List Host.Cell) (a : Nat) : Byte := memRead windowReset m a

/-- Write a window memory: `MemWrite(WIN, a, 1, v)` (R13). -/
def winWrite (m : List Host.Cell) (a : Nat) (v : Byte) : List Host.Cell := memWrite windowReset m a v

/-- Read an entry of LZ.HEAD or LZ.NEXT; an entry nothing has written is NIL (10_state.md R39; log 1 for LZ.NEXT). -/
def chainRead (m : Mem Nat) (a : Nat) : Nat := memRead Config.nilPos m a

/-- Write an entry of LZ.HEAD or LZ.NEXT. -/
def chainWrite (m : Mem Nat) (a v : Nat) : Mem Nat := memWrite Config.nilPos m a v

/-- Read a slot of SYM.RING. -/
def ringRead (m : Mem Slot) (a : Nat) : Slot := memRead slotReset m a

/-- Write a slot of SYM.RING. -/
def ringWrite (m : Mem Slot) (a : Nat) (v : Slot) : Mem Slot := memWrite slotReset m a v

end Sys2Proof.Machine
end

