-- ==== Sys2Proof/Machine/Ops.lean ====
section
/-! DEFINITION. The named operations over the registers, the streams and the windows: constructing a context
(10_state.md R46), the bit writer and the bit reader (40_bitio.md), the DU's output, copy and block end
(46_decompress.md R319 to R321), answering the host, and taking an error (60_exceptions.md R455). -/

namespace Sys2Proof.Machine

/-! ## Reset values of a context -/

/-- The bit writer after `C_NEW` (10_state.md R24). -/
def BitWriter.fresh : BitWriter where
  acc := 0
  n := 0
  out := []

/-- The LZ77 engine after `C_NEW` (R25, R39, R46). -/
def Lz.fresh : Lz where
  s := []
  r := 0
  p := 0
  h := 0
  cand := List.replicate Config.lazy .empty
  win := []
  head := []
  next := []

/-- The symbol ring after `C_NEW` (R26). -/
def SymRing.fresh : SymRing where
  start := 0
  n := 0
  ring := []

/-- A compression context after `C_NEW(mode)` (R23 to R26, R46, 45_compress_driver.md R270). -/
def CuCtx.fresh (m : Mode) : CuCtx where
  mode := m
  first := true
  finished := false
  lastBlock := false
  adler := 1
  bw := BitWriter.fresh
  lz := Lz.fresh
  sym := SymRing.fresh

/-- A decompression context after `D_NEW(mode)` (R27 to R30, R37, R38, 46_decompress.md R300). -/
def DuCtx.fresh (m : Mode) : DuCtx where
  mode := m
  state := match m with
    | .zlib => .start
    | .bare => .outsideBlk
  err := .ok
  lastBlock := false
  bits := 0
  nbits := 0
  uncompLen := 0
  hlit := 0
  hdist := 0
  hclen := 0
  lenPtr := 0
  lenExtraBits := 0
  lenAddOn := 0
  lenRep := 0
  sym := 0
  len := 0
  cur := false
  winPos := 0
  produced := 0
  adler := 1
  adlerGot := 0
  out := []
  lenLen := List.replicate Config.nCL 0
  lengths := List.replicate (Config.nLL + Config.nDist) 0
  tabCL := none
  tabLL := none
  tabD := none
  win := []

/-! ## Bit writer -/

/-- The loop of `put` (40_bitio.md R141): `k` whole bytes leave the accumulator. -/
def spillBytes : Nat → BitWriter → BitWriter
  | 0, w => w
  | k + 1, w => spillBytes k { acc := w.acc >>> 8, n := w.n - 8, out := w.out ++ [w.acc.setWidth 8] }

/-- `put(v, n)` (R141): append an n-bit field, low bit first; every whole byte moves to BW.OUT. R141 requires n ≤ 16 and
v < 2^n (assumption log 15). -/
def put (v n : Nat) (w : BitWriter) : BitWriter :=
  spillBytes ((w.n + n) / 8) { w with acc := w.acc ||| (BitVec.ofNat Config.accW v <<< w.n), n := w.n + n }

/-- `putcode(c, n)` (R142): append a Huffman code, most significant code bit first. -/
def putCode (c n : Nat) (w : BitWriter) : BitWriter := put (revBits n c) n w

/-- The writer's `align()` (R148): zero bits up to the next byte boundary. -/
def alignWriter (w : BitWriter) : BitWriter := if w.n = 0 then w else put 0 (8 - w.n) w

/-! ## Bit reader -/

/-- `refill()` (R144): whole bytes of the command's unread input move into D.BITS while it holds fewer than 24 bits. -/
def refill : DuCtx → List Byte → DuCtx × List Byte
  | d, [] => (d, [])
  | d, b :: rest =>
    if d.nbits < Config.refillBits then
      refill { d with bits := d.bits ||| (b.setWidth Config.accW <<< d.nbits), nbits := d.nbits + 8 } rest
    else (d, b :: rest)

/-- `peek(n)` (R145): the next n bits as a field. R145 requires n ≤ D.NBITS. DESIGN CHOICE (assumption log 15): bits not
buffered read as D.BITS holds them. -/
def peek (n : Nat) (d : DuCtx) : Nat := d.bits.toNat % 2 ^ n

/-- `eat(n)` (R146): consume n bits. R146 requires n ≤ D.NBITS and says nothing otherwise. DESIGN CHOICE (assumption log
15): with fewer bits buffered, all of them are consumed and D.NBITS becomes 0. -/
def eat (n : Nat) (d : DuCtx) : DuCtx := { d with bits := d.bits >>> n, nbits := d.nbits - n }

/-- The reader's `align()` (R147): discard the rest of the current byte, unexamined. -/
def alignReader (d : DuCtx) : DuCtx := eat (d.nbits % 8) d

/-- `discardall()` (R149). -/
def discardAll (d : DuCtx) : DuCtx := { d with bits := 0, nbits := 0 }

/-! ## DU output -/

/-- `state <- S` (00_scope.md R13). -/
def setState (st : DState) (d : DuCtx) : DuCtx := { d with state := st }

/-- `outbyte(b)` (46_decompress.md R320): the byte is output, enters the window, and in zlib mode the checksum. -/
def outByte (b : Byte) (d : DuCtx) : DuCtx :=
  { d with
    out := d.out ++ [b]
    win := winWrite d.win d.winPos b
    winPos := (d.winPos + 1) % Config.dWinSize
    produced := if d.produced < Config.dWinSize then d.produced + 1 else d.produced
    adler := adlerInMode d.mode d.adler [b] }

/-- The byte output `dist` bytes ago (R321, 10_state.md R40): `D.WIN[(D.WINPOS − dist) mod 32768]`. -/
def windowBack (dist : Nat) (d : DuCtx) : Byte :=
  winRead d.win ((d.winPos + Config.dWinSize - dist) % Config.dWinSize)

/-- `copy(dist, len)` (R321): byte by byte, each byte visible to the read of the next. R321 requires
1 ≤ dist ≤ D.PRODUCED and 3 ≤ len ≤ 258 and gives no effect otherwise. DESIGN CHOICE (assumption log 16): outside that,
`len` bytes are copied as given (none for 0), each read from the window at that distance modulo its size. -/
def copyBytes (dist : Nat) : Nat → DuCtx → DuCtx
  | 0, d => d
  | len + 1, d => copyBytes dist len (outByte (windowBack dist d) d)

/-- `blockend()` (R319): the next state by D.LASTBLOCK. The block's dynamic tables end here (10_state.md R38;
assumption log 6). -/
def blockEnd (d : DuCtx) : DuCtx :=
  { d with
    state := if d.lastBlock then .finish else .outsideBlk
    tabLL := none
    tabD := none }

/-! ## Answering the host, and taking an error -/

/-- A unit answers a command. -/
def answer (r : Reply) (s : State) : State := { s with replies := s.replies ++ [r] }

/-- `result <- D.OUT; D.OUT <- []; return (result, D.ERR)`: the end of a D_FEED (46_decompress.md R323). -/
def returnDu (d : DuCtx) (s : State) : State :=
  { s with du := some { d with out := [] }, replies := s.replies ++ [.du d.out d.err] }

/-- `raise E` (60_exceptions.md R455), the codec's one way of taking an error, on the context `d` as the raising rule
leaves it: D.ERR is latched, and the bytes produced before the error point are returned with the code. Nothing is
saved and there is no handler; there is no return from it either (R456: only D_NEW and D_FREE leave the condition). -/
def raise (e : Err) (d : DuCtx) (s : State) : State := returnDu (latchError e d) s

/-- `take()` (40_bitio.md R143), the last step of an accepted C_FEED: BW.OUT is handed to the host. -/
def takeOutput (c : CuCtx) (s : State) : State :=
  { s with cu := some { c with bw := { c.bw with out := [] } }, replies := s.replies ++ [.cu c.bw.out] }

/-- What a refused command of the DU answers (R457): no output, and D.ERR, which is E_OK without a context. -/
def refuseDu (s : State) : State :=
  answer (.du [] (match s.du with
    | none => .ok
    | some d => d.err)) s

/-- What a refused command of the CU answers (R457): no output. -/
def refuseCu (s : State) : State := answer (.cu []) s

end Sys2Proof.Machine
end

