-- ==== Sys2Proof/Machine/Inflate.lean ====
section
/-! DEFINITION. The decompression automaton (46_decompress.md R302 to R318): one definition per state rule, over the
operations a symbol's rule shares with it (47_symbols.md), and the loop of D_FEED (R323). -/

namespace Sys2Proof.Machine

/-- How a step ends (R324): suspended, raised, or completed. FINALSPIN is the only state whose suspension has changed the
context (R318). -/
inductive Stepped where
  | suspended (d : DuCtx)
  | raised (e : Err) (d : DuCtx)
  | completed (d : DuCtx)
deriving DecidableEq, Repr

/-- `need(n)` (00_scope.md R13): suspend, with nothing changed, if fewer than `n` bits are buffered. -/
def need (n : Nat) (d : DuCtx) (k : DuCtx → Stepped) : Stepped := if d.nbits < n then .suspended d else k d

/-! ## What the symbols do (47_symbols.md), after their code is consumed -/

/-- A block header with final flag `f` and type `t` (R303). -/
def startBlock (f : Bool) (t : Nat) (d : DuCtx) : Stepped :=
  let d := setDLastBlock f d
  if t = 0 then .completed (setState .uncompLen (alignReader d))
  else if t = 1 then .completed { d with cur := false, state := .inBlk }
  else if t = 2 then .completed (setState .treesHdr d)
  else .raised .format d

/-- A length symbol is selected (R307; 47 R354 to R382). -/
def selectLength (s : Nat) (d : DuCtx) : DuCtx := { d with sym := s, state := .gotLenSym }

/-- Its extra field `x` (R312). -/
def finishLength (x : Nat) (d : DuCtx) : DuCtx :=
  { eat (lengthExtra d.sym) d with len := matchLength d.sym x, state := .gotLen }

/-- A distance symbol is selected (R313; 47 R385 to R414). -/
def selectDistance (s : Nat) (d : DuCtx) : DuCtx := { d with sym := s, state := .gotDistSym }

/-- Its extra field `x`, the distance check (R322) and the copy (R314). -/
def finishDistance (x : Nat) (d : DuCtx) : Stepped :=
  let dist := matchDistance d.sym x
  let d := eat (distanceExtra d.sym) d
  if d.produced < dist then .raised .format d
  else .completed (setState .inBlk (copyBytes dist d.len d))

/-- A literal code length `v` (R310; 47 R417). D.LENPTR is below 316 here (`DuInv`; assumption log 16). -/
def writeLength (v : Nat) (d : DuCtx) : DuCtx :=
  { d with lengths := d.lengths.set d.lenPtr v, lenPtr := d.lenPtr + 1 }

/-- A repeat symbol 16, 17 or 18 is selected (R310; 47 R418 to R420): code 16 with nothing to repeat raises E_TABLE. -/
def selectRepeat (c : Nat) (d : DuCtx) : Stepped :=
  if c = 16 ∧ d.lenPtr = 0 then .raised .table d
  else .completed { d with
    lenRep := if c = 16 then d.lengths.getD (d.lenPtr - 1) 0 else 0
    lenExtraBits := extraBitsOf .codeLength c
    lenAddOn := repeatBase c
    state := .treesLenRep }

/-- `k` copies of D.LENREP (R311). -/
def writeRepeats : Nat → DuCtx → DuCtx
  | 0, d => d
  | k + 1, d => writeRepeats k (writeLength d.lenRep d)

/-- Its extra field `x`, the overrun check, and the repeats (R311). -/
def finishRepeat (x : Nat) (d : DuCtx) : Stepped :=
  let rep := d.lenAddOn + x
  let d := eat d.lenExtraBits d
  if d.hlit + d.hdist < d.lenPtr + rep then .raised .table d
  else .completed (setState .treesLen (writeRepeats rep d))

/-! ## The tables in use -/

/-- The literal/length table of INBLK (R307). An absent dynamic table holds no code (assumption log 7). -/
def litLenTable (d : DuCtx) : Table := if d.cur then d.tabLL.getD [] else staticLitLen

/-- The distance table of GOTLEN (R313). -/
def distTable (d : DuCtx) : Table := if d.cur then d.tabD.getD [] else staticDist

/-- The code-length table of TREES_LEN (R310). -/
def codeLenTable (d : DuCtx) : Table := d.tabCL.getD []

/-- All HLIT + HDIST code lengths are defined (R310). -/
def lengthsDone (d : DuCtx) : Bool := decide (d.hlit + d.hdist ≤ d.lenPtr)

/-- The table build of TREES_LEN (R310): the literal/length set before the distance set. The code-length table is not
used after it (10_state.md R38). -/
def buildMainTables (d : DuCtx) : Stepped :=
  match mkTable (d.lengths.take d.hlit) with
  | none => .raised .table d
  | some ll =>
    match mkTable ((d.lengths.drop d.hlit).take d.hdist) with
    | none => .raised .table { d with tabLL := some ll }
    | some dt => .completed { d with tabLL := some ll, tabD := some dt, tabCL := none, cur := true, state := .inBlk }

/-! ## The state rules -/

/-- START (R302). -/
def stepStart (d : DuCtx) : Stepped :=
  need 16 d fun d =>
    if zlibHeaderValid (peek 16 d % 256) (peek 16 d / 256) then .completed (setState .outsideBlk (eat 16 d))
    else .raised .header (eat 16 d)

/-- OUTSIDEBLK (R303). -/
def stepOutsideBlk (d : DuCtx) : Stepped :=
  need 3 d fun d => startBlock (peek 3 d % 2 == 1) (peek 3 d / 2) (eat 3 d)

/-- UNCOMP_LEN (R304). -/
def stepUncompLen (d : DuCtx) : Stepped :=
  need 16 d fun d => .completed { eat 16 d with uncompLen := peek 16 d, state := .uncompNlen }

/-- UNCOMP_NLEN (R305). -/
def stepUncompNlen (d : DuCtx) : Stepped :=
  need 16 d fun d =>
    if peek 16 d ≠ d.uncompLen ^^^ 0xFFFF then .raised .format (eat 16 d)
    else if d.uncompLen = 0 then .completed (blockEnd (eat 16 d))
    else .completed (setState .uncompData (eat 16 d))

/-- UNCOMP_DATA (R306). D.UNCOMPLEN is above 0 here (`DuInv`; assumption log 16). -/
def stepUncompData (d : DuCtx) : Stepped :=
  need 8 d fun d =>
    let d' := eat 8 (outByte (BitVec.ofNat 8 (peek 8 d)) d)
    let d' := { d' with uncompLen := d'.uncompLen - 1 }
    .completed (if d'.uncompLen = 0 then blockEnd d' else d')

/-- INBLK (R307). -/
def stepInBlk (d : DuCtx) : Stepped :=
  match lookup (litLenTable d) d.bits.toNat d.nbits with
  | .more => .suspended d
  | .bad => .raised .table d
  | .sym s l =>
    let d := eat l d
    if s < 256 then .completed (outByte (BitVec.ofNat 8 s) d)
    else if s = 256 then .completed (blockEnd d)
    else if s < Config.nLL then .completed (selectLength s d)
    else .raised .table d

/-- TREES_HDR (R308). -/
def stepTreesHdr (d : DuCtx) : Stepped :=
  need 14 d fun d =>
    let v := peek 14 d
    let d : DuCtx := { eat 14 d with hlit := 257 + v % 32, hdist := 1 + v / 32 % 32, hclen := 4 + v / 1024 }
    if Config.nLL < d.hlit ∨ Config.nDist < d.hdist then .raised .table d
    else .completed { d with lenPtr := 0, lenLen := List.replicate Config.nCL 0, state := .treesLenLen }

/-- TREES_LENLEN (R309). D.LENPTR is below D.HCLEN here (`DuInv`; assumption log 16). -/
def stepTreesLenLen (d : DuCtx) : Stepped :=
  need 3 d fun d =>
    let v := peek 3 d
    let d : DuCtx := { eat 3 d with lenLen := d.lenLen.set (clOrder.getD d.lenPtr 0) v, lenPtr := d.lenPtr + 1 }
    if d.lenPtr = d.hclen then
      match mkTable d.lenLen with
      | none => .raised .table d
      | some t =>
        .completed { d with tabCL := some t, lenPtr := 0, lengths := List.replicate (Config.nLL + Config.nDist) 0, state := .treesLen }
    else .completed d

/-- TREES_LEN (R310). -/
def stepTreesLen (d : DuCtx) : Stepped :=
  if lengthsDone d then buildMainTables d
  else
    match lookup (codeLenTable d) d.bits.toNat d.nbits with
    | .more => .suspended d
    | .bad => .raised .table d
    | .sym c l => if c < 16 then .completed (writeLength c (eat l d)) else selectRepeat c (eat l d)

/-- TREES_LENREP (R311). -/
def stepTreesLenRep (d : DuCtx) : Stepped :=
  need d.lenExtraBits d fun d => finishRepeat (peek d.lenExtraBits d) d

/-- GOTLENSYM (R312). -/
def stepGotLenSym (d : DuCtx) : Stepped :=
  need (lengthExtra d.sym) d fun d => .completed (finishLength (peek (lengthExtra d.sym) d) d)

/-- GOTLEN (R313). -/
def stepGotLen (d : DuCtx) : Stepped :=
  match lookup (distTable d) d.bits.toNat d.nbits with
  | .more => .suspended d
  | .bad => .raised .table d
  | .sym s l => if Config.nDist ≤ s then .raised .table (eat l d) else .completed (selectDistance s (eat l d))

/-- GOTDISTSYM (R314). -/
def stepGotDistSym (d : DuCtx) : Stepped :=
  need (distanceExtra d.sym) d fun d => finishDistance (peek (distanceExtra d.sym) d) d

/-- END (R315). -/
def stepFinish (d : DuCtx) : Stepped :=
  match d.mode with
  | .zlib => .completed (setState .adler1 (alignReader d))
  | .bare => .completed (setState .finalSpin d)

/-- ADLER1 (R316). -/
def stepAdler1 (d : DuCtx) : Stepped :=
  need 16 d fun d =>
    let v := peek 16 d
    .completed { eat 16 d with adlerGot := BitVec.ofNat 32 (v % 256 * 2 ^ 24 + v / 256 * 2 ^ 16), state := .adler2 }

/-- ADLER2 (R317). -/
def stepAdler2 (d : DuCtx) : Stepped :=
  need 16 d fun d =>
    let v := peek 16 d
    let d : DuCtx := { eat 16 d with adlerGot := d.adlerGot ||| BitVec.ofNat 32 (v % 256 * 2 ^ 8 + v / 256) }
    if d.adlerGot = d.adler then .completed (setState .finalSpin d) else .raised .checksum d

/-- FINALSPIN (R318). -/
def stepFinalSpin (d : DuCtx) : Stepped := .suspended (discardAll d)

/-- The step of state D.STATE (R323). -/
def automatonStep (d : DuCtx) : Stepped :=
  match d.state with
  | .start => stepStart d
  | .outsideBlk => stepOutsideBlk d
  | .uncompLen => stepUncompLen d
  | .uncompNlen => stepUncompNlen d
  | .uncompData => stepUncompData d
  | .inBlk => stepInBlk d
  | .treesHdr => stepTreesHdr d
  | .treesLenLen => stepTreesLenLen d
  | .treesLen => stepTreesLen d
  | .treesLenRep => stepTreesLenRep d
  | .gotLenSym => stepGotLenSym d
  | .gotLen => stepGotLen d
  | .gotDistSym => stepGotDistSym d
  | .finish => stepFinish d
  | .adler1 => stepAdler1 d
  | .adler2 => stepAdler2 d
  | .finalSpin => stepFinalSpin d

/-- `k` steps, as long as they complete. -/
def automatonSteps : Nat → DuCtx → Stepped
  | 0, d => .completed d
  | k + 1, d =>
    match automatonStep d with
    | .completed d' => automatonSteps k d'
    | r => r

/-! ## The loop of D_FEED -/

/-- The loop of R323: refill, run a step, go round again unless it raised or suspended with the input used up. None if
`fuel` runs out first. -/
def feedLoop : Nat → DuCtx → List Byte → Option Stepped
  | 0, _, _ => none
  | fuel + 1, d, inp =>
    match automatonStep (refill d inp).1 with
    | .raised e d' => some (.raised e d')
    | .suspended d' => if (refill d inp).2 = [] then some (.suspended d') else feedLoop fuel d' (refill d inp).2
    | .completed d' => feedLoop fuel d' (refill d inp).2

/-- A bound on the rounds of the loop: at most three of them for each bit still to come (R323 corner case 1). -/
def feedFuel (d : DuCtx) (inp : List Byte) : Nat := 4 * (d.nbits + 8 * inp.length) + 8

/-- A D_FEED on a context without an error. -/
def runFeed (data : List Byte) (d : DuCtx) : Option Stepped := feedLoop (feedFuel d data) d data

end Sys2Proof.Machine
end

