-- ==== Sys2Proof/Machine/Decompress.lean ====
section
/-! DEFINITION. The meaning of the DU's host commands (46_decompress.md R300, R323, R325, R326). -/

namespace Sys2Proof.Machine

/-- A step's ending carried into the machine: a raise ends the command (60_exceptions.md R455), the others leave the
context as the step left it. -/
def settle (r : Stepped) (s : State) : State :=
  match r with
  | .raised e d => raise e d s
  | .suspended d => { s with du := some d }
  | .completed d => { s with du := some d }

/-- D_NEW bare (R300): a fresh context, whatever the unit held; nothing is returned. -/
def execDNewBare (s : State) : Host.Outcome State Fault Refusal := .next { s with du := some (DuCtx.fresh .bare) }

/-- D_NEW zlib (R300). -/
def execDNewZlib (s : State) : Host.Outcome State Fault Refusal := .next { s with du := some (DuCtx.fresh .zlib) }

/-- D_FEED (R323): refused without a context (70 R492) or after an error (60 R456); else the whole loop, and the output
with the error code. -/
def execDFeed (data : List Byte) (s : State) : Host.Outcome State Fault Refusal :=
  match s.du with
  | none => .next (refuseDu s)
  | some d =>
    if d.inError then .next (refuseDu s)
    else match runFeed data d with
      | some (.raised e d') => .next (raise e d' s)
      | some (.suspended d') => .next (returnDu d' s)
      | some (.completed d') => .next (returnDu d' s)
      | none => .fault .feedUnfinished

/-- D_EOF (R325): success in FINALSPIN, else the premature end of the stream; it returns no output. -/
def execDEof (s : State) : Host.Outcome State Fault Refusal :=
  match s.du with
  | none => .next (refuseDu s)
  | some d =>
    if d.inError then .next (refuseDu s)
    else if d.state = .finalSpin then .next (answer (.du [] d.err) s)
    else .next (raise .eof d s)

/-- D_FREE (R326): the unit holds no context; nothing is returned, and without a context nothing happens. -/
def execDFree (s : State) : Host.Outcome State Fault Refusal := .next { s with du := none }

end Sys2Proof.Machine
end

