-- ==== Sys2Proof/Machine/Elements.lean ====
section
/-! DEFINITION. What the wire elements share: where an element may stand, and the effect of each kind of symbol
(47_symbols.md R350) from the operations the automaton's state rules use. The code's bits are consumed by the fetch
(Machine/Fetch.lean); the extra field's bits by the meaning, in the phase in which 46_decompress.md consumes them. -/

namespace Sys2Proof.Machine

/-- What the automaton decodes next (30_encoding.md R116): OUTSIDEBLK a block header, INBLK a literal/length symbol,
GOTLEN a distance symbol, TREES_LEN a code-length symbol while lengths are missing; any other state no element. -/
def expected (d : DuCtx) : Option Alphabet :=
  match d.state with
  | .outsideBlk => some .blockHeader
  | .inBlk => some .litLen
  | .gotLen => some .distance
  | .treesLen => if lengthsDone d then none else some .codeLength
  | .start => none
  | .uncompLen => none
  | .uncompNlen => none
  | .uncompData => none
  | .treesHdr => none
  | .treesLenLen => none
  | .treesLenRep => none
  | .gotLenSym => none
  | .gotDistSym => none
  | .finish => none
  | .adler1 => none
  | .adler2 => none
  | .finalSpin => none

/-- Run an element of alphabet `a` whose effect is `f` on the DU's context. -/
def onElement (a : Alphabet) (f : DuCtx → Stepped) (s : State) : Host.Outcome State Fault Refusal :=
  match s.du with
  | none => .refused .elementWithoutContext
  | some d =>
    if d.inError then .refused .elementAfterError
    else if expected d = some a then .next (settle (f d) s)
    else .refused .elementNotExpected

/-- A block header (46_decompress.md R303). -/
def blockElement (bfinal : Bool) (t : Nat) (s : State) : Host.Outcome State Fault Refusal :=
  onElement .blockHeader (startBlock bfinal t) s

/-- A literal (R307: INBLK; R320). -/
def literalElement (b : Byte) (s : State) : Host.Outcome State Fault Refusal :=
  onElement .litLen (fun d => .completed (outByte b d)) s

/-- The end-of-block symbol (R307, R319). -/
def endElement (s : State) : Host.Outcome State Fault Refusal := onElement .litLen (fun d => .completed (blockEnd d)) s

/-- Length symbol `sym` with extra field `x` (R307 and R312). -/
def lengthElement (sym x : Nat) (s : State) : Host.Outcome State Fault Refusal :=
  onElement .litLen (fun d => .completed (finishLength x (selectLength sym d))) s

/-- Distance symbol `sym` with extra field `x` (R313 and R314). -/
def distanceElement (sym x : Nat) (s : State) : Host.Outcome State Fault Refusal :=
  onElement .distance (fun d => finishDistance x (selectDistance sym d)) s

/-- A symbol the alphabet reserves (30_encoding.md R118; R307, R313): E_TABLE. -/
def reservedElement (a : Alphabet) (s : State) : Host.Outcome State Fault Refusal := onElement a (.raised .table) s

/-- A literal code length (R310). -/
def codeLengthElement (v : Nat) (s : State) : Host.Outcome State Fault Refusal :=
  onElement .codeLength (fun d => .completed (writeLength v d)) s

/-- A repeat symbol `c` with extra field `x` (R310 and R311). -/
def repeatElement (c x : Nat) (s : State) : Host.Outcome State Fault Refusal :=
  onElement .codeLength (fun d =>
    match selectRepeat c d with
    | .completed d' => finishRepeat x d'
    | .suspended d' => .suspended d'
    | .raised e d' => .raised e d') s

end Sys2Proof.Machine
end

