-- ==== Sys2Proof/Machine/Blocks.lean ====
section
/-! DEFINITION. The block headers (46_decompress.md R303). -/

namespace Sys2Proof.Machine

/-- BLK_STORED (R303): the rest of the byte is discarded and LEN comes next. -/
def execBlkStored (bfinal : Bool) (s : State) : Host.Outcome State Fault Refusal := blockElement bfinal 0 s

/-- BLK_STATIC (R303): the static tables code the block. -/
def execBlkStatic (bfinal : Bool) (s : State) : Host.Outcome State Fault Refusal := blockElement bfinal 1 s

/-- BLK_DYNAMIC (R303): the table description comes next. -/
def execBlkDynamic (bfinal : Bool) (s : State) : Host.Outcome State Fault Refusal := blockElement bfinal 2 s

/-- BLK_RESERVED (R303): block type 3 raises E_FORMAT. -/
def execBlkReserved (bfinal : Bool) (s : State) : Host.Outcome State Fault Refusal := blockElement bfinal 3 s

end Sys2Proof.Machine
end

