-- ==== Sys2Proof/Machine/CodeLength.lean ====
section
/-! DEFINITION. The code-length symbols (47_symbols.md R417 to R420). -/

namespace Sys2Proof.Machine

/-- CL_0_15 (47_symbols.md R417): a literal code length. -/
def execCl0To15 (v : Nat) (s : State) : Host.Outcome State Fault Refusal := codeLengthElement v s

/-- CL_16 (47_symbols.md R418): the previous length, 3 + x times; with nothing to repeat, E_TABLE. -/
def execCl16 (x : Nat) (s : State) : Host.Outcome State Fault Refusal := repeatElement 16 x s

/-- CL_17 (47_symbols.md R419): 3 + x zeros. -/
def execCl17 (x : Nat) (s : State) : Host.Outcome State Fault Refusal := repeatElement 17 x s

/-- CL_18 (47_symbols.md R420): 11 + x zeros. -/
def execCl18 (x : Nat) (s : State) : Host.Outcome State Fault Refusal := repeatElement 18 x s

end Sys2Proof.Machine
end

