-- ==== Sys2Proof/Machine/Chooser.lean ====
section
/-! DEFINITION. The block-boundary chooser (43_block_chooser.md R226 to R228): the fixed-point logarithm, the estimate,
and the choice of the next block's length. -/

namespace Sys2Proof.Machine

/-- `frac(x)` (R226): the 8 bits of `x` just below its leading one, which stands at bit `e`. -/
def logFrac (e x : Nat) : Nat := (if 8 ≤ e then x / 2 ^ (e - 8) else x * 2 ^ (8 - e)) % 256

/-- `LOG2FX(x)` (R226), for x ≥ 1. -/
def log2Fx (x : Nat) : Nat := 256 * x.log2 + logFrac x.log2 x

/-- `xlog(x)` (R226). -/
def xlog (x : Nat) : Nat := if x = 0 then 0 else x * log2Fx x

/-- Is it the first slot of a token (R221: every token begins with a LITLEN slot)? -/
def Slot.startsToken : Slot → Bool
  | .litLen _ => true
  | _ => false

/-- How many `LITLEN(s)` slots (R227: `fll[s]`). -/
def countLitLen (b : List Slot) (s : Nat) : Nat := b.count (.litLen s)

/-- How many `DIST(s)` slots (R227: `fd[s]`). -/
def countDist (b : List Slot) (s : Nat) : Nat := b.count (.dist s)

/-- The extra bits of a slot (R227: `X`). -/
def Slot.extraBits : Slot → Nat
  | .extra n _ => n
  | _ => 0

/-- `E(i)` of the prefix `b` (R227), as the rule writes it. -/
def estimate (b : List Slot) : Nat :=
  let fll := (List.range 288).map (countLitLen b)
  let fd := (List.range 32).map (countDist b)
  (xlog fll.sum - (fll.map xlog).sum) + (xlog fd.sum - (fd.map xlog).sum)
    + 256 * ((b.map Slot.extraBits).sum + Config.overhead)

/-- What the scan maintains from slot to slot (R228): fll, fd, nll, nd, X, and the two sums of xlog. -/
structure Scan where
  fll : Mem Nat
  fd : Mem Nat
  nll : Nat
  nd : Nat
  x : Nat
  sll : Nat
  sd : Nat
deriving DecidableEq, Repr

/-- The scan before the first slot. -/
def Scan.fresh : Scan where
  fll := []
  fd := []
  nll := 0
  nd := 0
  x := 0
  sll := 0
  sd := 0

/-- One more slot: `Σ xlog` changes by `xlog(f + 1) − xlog(f)` (R228). -/
def scanSlot (c : Scan) : Slot → Scan
  | .litLen s =>
    let f := memRead 0 c.fll s
    { c with fll := memWrite 0 c.fll s (f + 1), nll := c.nll + 1, sll := c.sll + xlog (f + 1) - xlog f }
  | .dist s =>
    let f := memRead 0 c.fd s
    { c with fd := memWrite 0 c.fd s (f + 1), nd := c.nd + 1, sd := c.sd + xlog (f + 1) - xlog f }
  | .extra n _ => { c with x := c.x + n }
  | .codeLen _ => c

/-- `E(i)` from the scan (R227). -/
def scanEstimate (c : Scan) : Nat := (xlog c.nll - c.sll) + (xlog c.nd - c.sd) + 256 * (c.x + Config.overhead)

/-- The best candidate so far, (best_i, best_E), against a new one (R228): equal ratios go to the later. -/
def betterBoundary (best : Option (Nat × Nat)) (i e : Nat) : Option (Nat × Nat) :=
  match best with
  | none => some (i, e)
  | some (bi, be) => if e * bi ≤ be * i then some (i, e) else some (bi, be)

/-- Is the boundary before the slots `rest` a candidate (R228)? -/
def boundaryAt : List Slot → Bool
  | [] => true
  | b :: _ => b.startsToken

/-- The scan of `SYM.choose()` (R228) over the slots from index `i` on. -/
def chooseFrom : List Slot → Nat → Scan → Option (Nat × Nat) → Option (Nat × Nat)
  | [], _, _, best => best
  | b :: rest, i, c, best =>
    let c' := scanSlot c b
    chooseFrom rest (i + 1) c' (if boundaryAt rest then betterBoundary best (i + 1) (scanEstimate c') else best)

/-- `SYM.choose()` (R228) of the buffered slots; 0 only if there are none. -/
def choose (slots : List Slot) : Nat :=
  match chooseFrom slots 0 Scan.fresh none with
  | some (i, _) => i
  | none => 0

end Sys2Proof.Machine
end

