-- ==== Sys2Proof/Machine/Huffman.lean ====
section
/-! DEFINITION. The canonical Huffman builder (42_huffman.md section 1: R190 to R195). The canonical codes and the
decode tables (R196 to R205) stand in Decode.lean. -/

namespace Sys2Proof.Machine

/-- A node of the merge: weight and id (R193). -/
structure HuffNode where
  weight : Nat
  id : Nat
deriving DecidableEq, Repr

/-- The order of R193: weight, then id. -/
def HuffNode.before (x y : HuffNode) : Bool :=
  decide (x.weight < y.weight) || (x.weight == y.weight && decide (x.id < y.id))

/-- Put a node into a list kept in that order, so that its least element stands first. -/
def huffInsert (x : HuffNode) : List HuffNode → List HuffNode
  | [] => [x]
  | y :: ys => if x.before y then x :: y :: ys else y :: huffInsert x ys

/-- The leaves of the active symbols, in order (R193: leaf id = symbol index). -/
def huffLeaves (f : List Nat) : List HuffNode :=
  f.zipIdx.foldl (fun h p => if p.1 = 0 then h else huffInsert ⟨p.1, p.2⟩ h) []

/-- The loop of `huffraw` (R193): the two least nodes are merged into node `next` until one is left. The result is the
parent links, (child, parent). -/
def huffMerge : Nat → List HuffNode → Nat → List (Nat × Nat)
  | k + 1, x :: y :: rest, next =>
    (x.id, next) :: (y.id, next) :: huffMerge k (huffInsert ⟨x.weight + y.weight, next⟩ rest) (next + 1)
  | _, _, _ => []

/-- The number of parent links from a node to the root. -/
def huffDepth (parents : List (Nat × Nat)) : Nat → Nat → Nat
  | 0, _ => 0
  | k + 1, id =>
    match parents.lookup id with
    | some p => huffDepth parents k p + 1
    | none => 0

/-- The number of active symbols. -/
def activeCount (f : List Nat) : Nat := (f.filter (· ≠ 0)).length

/-- `huffraw(F, n)` (R193, R192), `n` the length of `f`: no active symbol gives no code, a single one length 1. -/
def huffRaw (f : List Nat) : List Nat :=
  if activeCount f = 1 then f.map fun w => if w = 0 then 0 else 1
  else
    let parents := huffMerge (activeCount f) (huffLeaves f) f.length
    f.zipIdx.map fun p => if p.1 = 0 then 0 else huffDepth parents (activeCount f) p.2

/-- The frequency-ratio bound of a limit (R194, 90_conflicts.md C2). -/
def maxProb (limit : Nat) : Nat := if limit = Config.limitMain then Config.maxProbMain else Config.maxProbAux

/-- The smallest frequency of an active symbol. -/
def smallestActive (f : List Nat) : Nat := ((f.filter (· ≠ 0)).min?).getD 0

/-- The uniform constant of R194 (D30); the differences are natural where R194 uses it (assumption log 16). -/
def huffAdjust (f : List Nat) (limit : Nat) : Nat :=
  (f.sum - smallestActive f * maxProb limit) / (maxProb limit - activeCount f) + 1

/-- `hufflimited(F, n, limit)` (R194): one rebuild with every non-zero frequency raised by the same constant. -/
def huffLimited (f : List Nat) (limit : Nat) : List Nat :=
  let lens := huffRaw f
  if lens.all fun l => decide (l ≤ limit) then lens
  else huffRaw (f.map fun w => if w = 0 then 0 else w + huffAdjust f limit)

/-- The code of symbol `s` as (canonical value, length); (0, 0) if it has none (R36, R196). -/
def codeOf (t : Table) (s : Nat) : Nat × Nat :=
  match t.find? fun c => c.sym == s with
  | some c => (c.code, c.len)
  | none => (0, 0)

end Sys2Proof.Machine
end

