-- ==== Sys2Proof/Machine/Emit.lean ====
section
/-! DEFINITION. Block emission (44_block_emit.md): a dynamic block from a run of slots, the two empty blocks, and the
symbol ring with its drain (43_block_chooser.md R221, R224, R229). The tables F, H and TREESRC are transient
(10_state.md R35, R36, R39): they are values here. -/

namespace Sys2Proof.Machine

/-! ## Dynamic block -/

/-- Add one to entry `i`. -/
def bump (f : List Nat) (i : Nat) : List Nat := f.set i (f.getD i 0 + 1)

/-- `F.LL` (R241), with the end-of-block symbol counted. -/
def countLL (b : List Slot) : List Nat :=
  bump (b.foldl (fun f x => match x with
    | .litLen s => bump f s
    | _ => f) (List.replicate Config.nLL 0)) 256

/-- `F.D` (R241). -/
def countD (b : List Slot) : List Nat :=
  b.foldl (fun f x => match x with
    | .dist s => bump f s
    | _ => f) (List.replicate Config.nDist 0)

/-- `F.CL` (R245). -/
def countCL (b : List Slot) : List Nat :=
  b.foldl (fun f x => match x with
    | .codeLen s => bump f s
    | _ => f) (List.replicate Config.nCL 0)

/-- `trim` (R243, R245): the count `n`, lowered while it is above `low` and the length at `n − 1` (as `order` lists them)
is 0. -/
def trimCount (low : Nat) (at_ : Nat → Nat) : Nat → Nat
  | 0 => 0
  | n + 1 => if low < n + 1 ∧ at_ n = 0 then trimCount low at_ n else n + 1

/-- Maximal runs of equal values (R244). -/
def runs : List Nat → List (Nat × Nat)
  | [] => []
  | v :: rest =>
    match runs rest with
    | (w, k) :: more => if v = w then (w, k + 1) :: more else (v, 1) :: (w, k) :: more
    | [] => [(v, 1)]

/-- A run of `k` zeros (R244); each round covers at least one length, so `k` rounds are enough. -/
def rleZeros : Nat → Nat → List Slot
  | 0, _ => []
  | fuel + 1, k =>
    if k = 0 then []
    else if 11 ≤ k then .codeLen 18 :: .extra 7 (min k 138 - 11) :: rleZeros fuel (k - min k 138)
    else if 3 ≤ k then [.codeLen 17, .extra 3 (k - 3)]
    else .codeLen 0 :: rleZeros fuel (k - 1)

/-- The rest of a run of the non-zero length `v`, `k` of them left (R244). -/
def rleSame (v : Nat) : Nat → Nat → List Slot
  | 0, _ => []
  | fuel + 1, k =>
    if k = 0 then []
    else if 3 ≤ k then .codeLen 16 :: .extra 2 (min k 6 - 3) :: rleSame v fuel (k - min k 6)
    else .codeLen v :: rleSame v fuel (k - 1)

/-- One run (R244). -/
def rleRun (r : Nat × Nat) : List Slot :=
  if r.1 = 0 then rleZeros r.2 r.2 else .codeLen r.1 :: rleSame r.1 (r.2 - 1) (r.2 - 1)

/-- `rle(Q)` (R244), the contents of TREESRC (R245). -/
def rle (q : List Nat) : List Slot := (runs q).flatMap rleRun

/-- The tables and counts of one dynamic block (R242, R243, R245). -/
structure DynTables where
  llLens : List Nat
  dLens : List Nat
  clLens : List Nat
  nlit : Nat
  ndist : Nat
  nclen : Nat
  treeSrc : List Slot
deriving DecidableEq, Repr

/-- `count`, `build`, `trim`, `rle`, `clbuild` (R240 to R245) for the slots of a block. -/
def buildTables (b : List Slot) : DynTables :=
  let ll := huffLimited (countLL b) Config.limitMain
  let d := huffLimited (countD b) Config.limitMain
  let nlit := trimCount 257 (fun i => ll.getD i 0) Config.nLL
  let ndist := trimCount 1 (fun i => d.getD i 0) Config.nDist
  let src := rle (ll.take nlit ++ d.take ndist)
  let cl := huffLimited (countCL src) Config.limitAux
  { llLens := ll
    dLens := d
    clLens := cl
    nlit := nlit
    ndist := ndist
    nclen := trimCount 4 (fun i => cl.getD (clOrder.getD i 0) 0) Config.nCL
    treeSrc := src }

/-- Emit one slot with the tables of its kind (R246, R247). -/
def putSlot (ll d cl : Table) (w : BitWriter) : Slot → BitWriter
  | .litLen s => putCode (codeOf ll s).1 (codeOf ll s).2 w
  | .dist s => putCode (codeOf d s).1 (codeOf d s).2 w
  | .codeLen s => putCode (codeOf cl s).1 (codeOf cl s).2 w
  | .extra n v => put v n w

/-- `header` (R246). -/
def putHeader (t : DynTables) (bfinal : Bool) (w : BitWriter) : BitWriter :=
  let w := put 2 2 (put bfinal.toNat 1 w)
  let w := put (t.nclen - 4) 4 (put (t.ndist - 1) 5 (put (t.nlit - 257) 5 w))
  let w := (clOrder.take t.nclen).foldl (fun w s => put (t.clLens.getD s 0) 3 w) w
  t.treeSrc.foldl (putSlot [] [] (codes t.clLens)) w

/-- `emitdynamic(B, bfinal)` (R240): header, body (R247), end of block (R250). -/
def emitDynamic (b : List Slot) (bfinal : Bool) (w : BitWriter) : BitWriter :=
  let t := buildTables b
  let ll := codes t.llLens
  let d := codes t.dLens
  putSlot ll d [] (b.foldl (putSlot ll d []) (putHeader t bfinal w)) (.litLen 256)

/-! ## The two empty blocks -/

/-- `emitstaticempty(bfinal)` (R251). -/
def emitStaticEmpty (bfinal : Bool) (w : BitWriter) : BitWriter := putCode 0 7 (put 1 2 (put bfinal.toNat 1 w))

/-- `emitstoredempty()` (R252). -/
def emitStoredEmpty (w : BitWriter) : BitWriter :=
  put 0xFFFF 16 (put 0x0000 16 (alignWriter (put 0 2 (put 0 1 w))))

/-! ## The symbol ring -/

/-- The buffered slots, oldest first (R227). -/
def ringSlots (r : SymRing) : List Slot :=
  (List.range r.n).map fun j => ringRead r.ring ((r.start + j) % Config.symLimit)

/-- `push(x)` (R221). -/
def ringPush (x : Slot) (r : SymRing) : SymRing :=
  { r with ring := ringWrite r.ring ((r.start + r.n) % Config.symLimit) x, n := r.n + 1 }

/-- The oldest `i` slots leave the ring (R229). -/
def ringDrop (i : Nat) (r : SymRing) : SymRing :=
  { r with start := (r.start + i) % Config.symLimit, n := r.n - i }

/-- The slots of a token (R221). -/
def tokenSlots : Token → List Slot
  | .lit b => [.litLen b.toNat]
  | .copy d l =>
    let k := lcode l
    let j := dcode d
    [.litLen (257 + k)]
      ++ (if lenExtra.getD k 0 = 0 then [] else [.extra (lenExtra.getD k 0) (l - lenBase.getD k 0)])
      ++ [.dist j]
      ++ (if distExtra.getD j 0 = 0 then [] else [.extra (distExtra.getD j 0) (d - distBase.getD j 0)])

/-- The loop of `SYM.drain(last)` (R229). Each block takes at least one slot, so SYM.N rounds are enough. -/
def drainFor (last : Bool) : Nat → CuCtx → CuCtx
  | 0, c => c
  | k + 1, c =>
    if c.sym.n = 0 then c
    else
      let slots := ringSlots c.sym
      let i := choose slots
      drainFor last k { c with
        bw := emitDynamic (slots.take i) (last && i == c.sym.n) c.bw
        sym := ringDrop i c.sym }

/-- `SYM.drain(last)` (R229). -/
def drain (last : Bool) (c : CuCtx) : CuCtx := drainFor last c.sym.n c

/-- `SYM.append(token)` (R221): the token's slots, and a drain when fewer than 4 are free (R224). -/
def append (c : CuCtx) (t : Token) : CuCtx :=
  let c := { c with sym := (tokenSlots t).foldl (fun r x => ringPush x r) c.sym }
  if Config.symLimit - 4 < c.sym.n then drain false c else c

/-- The sink of the LZ77 engine: tokens are appended in order. A drain in the middle does not touch LZ state (R169). -/
def appendAll (r : List Token × Lz) (c : CuCtx) : CuCtx := r.1.foldl append { c with lz := r.2 }

end Sys2Proof.Machine
end

