-- ==== Sys2Proof/Machine/Lz77.lean ====
section
/-! DEFINITION. The LZ77 match engine (41_lz77.md). The match functions of section 2 (R163 to R168) are given as
functions of a byte sequence; the engine itself is the reference design's mechanism (R161, R169, R171 to R174, R178):
the hash chain enumerates the candidates and the pending-match set tracks their lengths (R175: the two agree). -/

namespace Sys2Proof.Machine

/-! ## The match functions of a byte sequence -/

/-- `S[i]`. -/
def seqAt (s : List Byte) (i : Nat) : Byte := s.getD i 0

/-- R163: `d` is a candidate at `q` given `e`. -/
def isCandidate (s : List Byte) (q d e : Nat) : Bool :=
  decide (q + Config.minMatch ≤ e) && decide (1 ≤ d) && decide (d ≤ min q Config.maxDist) &&
    (List.range Config.minMatch).all fun i => seqAt s (q - d + i) == seqAt s (q + i)

/-- How far `S[q−d+i] = S[q+i]` holds from `i` on, within `k` more bytes. -/
def agreeFrom (s : List Byte) (q d : Nat) : Nat → Nat → Nat
  | 0, i => i
  | k + 1, i => if seqAt s (q - d + i) = seqAt s (q + i) then agreeFrom s q d k (i + 1) else i

/-- `mlen(q, d, e)` (R164). -/
def matchLen (s : List Byte) (q d e : Nat) : Nat := agreeFrom s q d (min Config.maxMatch (e - q)) 0

/-- The candidates at `q`, nearest first (R163). -/
def candidates (s : List Byte) (q e : Nat) : List Nat :=
  ((List.range (min q Config.maxDist)).map (· + 1)).filter fun d => isCandidate s q d e

/-- `L(q, e)` (R165). -/
def longest (s : List Byte) (q e : Nat) : Nat :=
  (candidates s q e).foldl (fun best d => max best (matchLen s q d e)) 0

/-- `Dst(q, e)` (R166), none where the spec leaves it undefined. -/
def nearest (s : List Byte) (q e : Nat) : Option Nat :=
  (candidates s q e).find? fun d => matchLen s q d e == longest s q e

/-- `final(q, e)` (R167). -/
def isFinal (s : List Byte) (q e : Nat) : Bool :=
  decide (q + Config.minMatch ≤ e) &&
    (longest s q e == 0 || longest s q e == Config.maxMatch || decide (q + longest s q e < e))

/-- The lazy choice (R168): with longest length `l0` at the commit position and `later` at the positions after it, a
match is emitted iff offset 0 wins `length − start offset` strictly against every later offset o: `L0 − 0 > Lo − o`
(`L0 ≥ L1` and `L0 + 1 ≥ L2` for LAZY = 3). -/
def lazyMatch (l0 : Nat) (later : List Nat) : Bool :=
  decide (Config.minMatch ≤ l0) && later.zipIdx.all fun (l, k) => decide (l ≤ l0 + k)

/-- `l` rounds of `X[|X|] <- X[|X| − d]` (R160): an overlapping copy. R160 requires d ≤ |X| and gives no value otherwise.
DESIGN CHOICE (assumption log 14): for a larger `d` the byte X[0] is repeated, and 0 if X is empty; no token that the
engine emits has one. -/
def expandCopy (d : Nat) : Nat → List Byte → List Byte
  | 0, x => x
  | l + 1, x => expandCopy d l (x ++ [seqAt x (x.length - d)])

/-- `expand(T)` (R160) onto the bytes `x` expanded so far. -/
def expandOnto (x : List Byte) : List Token → List Byte
  | [] => x
  | .lit b :: ts => expandOnto (x ++ [b]) ts
  | .copy d l :: ts => expandOnto (expandCopy d l x) ts

/-! ## The hash chain -/

/-- `hash(b0, b1, b2)` (R174): the function's own three coefficients fix HASHCHARS = MINMATCH = 3. -/
def hash3 (b0 b1 b2 : Byte) : Nat := (257 * b0.toNat + 263 * b1.toNat + 269 * b2.toNat) % Config.hashMax

/-- The window's byte of stream position `a` (10_state.md R41). -/
def lzByteAt (z : Lz) (a : Nat) : Byte := winRead z.win (a % Config.cWinSize)

/-- `LZ.insert(q)` (R172), for a position whose three bytes have arrived (assumption log 16). -/
def lzInsert (q : Nat) (z : Lz) : Lz :=
  let h := hash3 (lzByteAt z q) (lzByteAt z (q + 1)) (lzByteAt z (q + 2))
  { z with
    next := chainWrite z.next (q % Config.cWinSize) (chainRead z.head h)
    head := chainWrite z.head h (q % Config.cWinSize)
    h := q + 1 }

/-- MINMATCH-byte equality of positions `q − d` and `q`, read from the window (R163, R173). -/
def lzSame3 (z : Lz) (q d : Nat) : Bool :=
  (List.range Config.minMatch).all fun i => lzByteAt z (q - d + i) == lzByteAt z (q + i)

/-- The loop of `LZ.walk(q)` (R173): link `x`, last distance `dprev`. Distances strictly increase and stay within
`min q MAXDIST`, which bounds the loop. -/
def walkFrom (z : Lz) (q : Nat) : Nat → Nat → Nat → List Nat
  | 0, _, _ => []
  | k + 1, x, dprev =>
    if x = Config.nilPos then []
    else
      let d := (q + Config.cWinSize - x) % Config.cWinSize
      if d ≤ dprev ∨ Config.maxDist < d ∨ q < d then []
      else
        let rest := walkFrom z q k (chainRead z.next ((q - d) % Config.cWinSize)) d
        if lzSame3 z q d then d :: rest else rest

/-- `LZ.walk(q)` (R173): the candidate distances at `q`, nearest first. -/
def lzWalk (z : Lz) (q : Nat) : List Nat :=
  walkFrom z q (min q Config.maxDist) (chainRead z.next (q % Config.cWinSize)) 0

/-! ## The pending-match set -/

/-- `min LIVE`; 0 for no distance, which no extending slot has. -/
def minLive (live : List Nat) : Nat := live.min?.getD 0

/-- R171: a position receives its third byte. With no candidate it is finished with BESTLEN = 0, and R166 leaves Dst
undefined there. DESIGN CHOICE (assumption log 13): the slot then holds BESTDIST = 0, which no rule reads. -/
def candStart (z : Lz) (q : Nat) : Cand :=
  let live := lzWalk z q
  if live = [] then .finished 0 0 else .extending live Config.minMatch

/-- R171: a position receives a later byte. -/
def candExtend (z : Lz) (q : Nat) : Cand → Cand
  | .empty => .empty
  | .finished l d => .finished l d
  | .extending live len =>
    let keep := live.filter fun d => lzByteAt z (q - d + len) == lzByteAt z (q + len)
    if keep = [] then .finished len (minLive live)
    else if len + 1 = Config.maxMatch then .finished (len + 1) (minLive keep)
    else .extending keep (len + 1)

/-- `k` later bytes, one after another. -/
def candExtendBy (z : Lz) (q : Nat) : Nat → Cand → Cand
  | 0, c => c
  | k + 1, c => candExtendBy z q k (candExtend z q c)

/-- The slot of position `q` from the bytes already in the window: the engine's "rewind and reprocess" (R170, R171). -/
def candEstablish (z : Lz) (q : Nat) : Cand :=
  if z.r < q + Config.minMatch then .empty
  else candExtendBy z q (z.r - (q + Config.minMatch)) (candStart z q)

/-- The slot of position `q` when one byte has just arrived (R171). -/
def candArrive (z : Lz) (q : Nat) : Cand → Cand
  | .empty => if q + Config.minMatch ≤ z.r then candStart z q else .empty
  | c => candExtend z q c

/-- The slots when one byte has just arrived. -/
def candsArrive (z : Lz) : Lz := { z with cand := z.cand.zipIdx.map fun (c, o) => candArrive z (z.p + o) c }

/-- The slots for a new commit position (R171). -/
def candsEstablish (z : Lz) : Lz := { z with cand := (List.range Config.lazy).map fun o => candEstablish z (z.p + o) }

/-- `final` as the pending-match set says it (R171). -/
def Cand.isFinished : Cand → Bool
  | .finished _ _ => true
  | _ => false

/-- `L` as the pending-match set says it: BESTLEN, or LEN when an unfinished position is flushed (R171). -/
def Cand.bestLen : Cand → Nat
  | .empty => 0
  | .extending _ len => len
  | .finished len _ => len

/-- `Dst` as the pending-match set says it (R171). DESIGN CHOICE (assumption log 13): 0 where R166 leaves it undefined,
that is where `bestLen` is 0. -/
def Cand.bestDist : Cand → Nat
  | .empty => 0
  | .extending live _ => minLive live
  | .finished _ dist => dist

/-! ## Operations -/

/-- Every slot is final, so that the choice at the commit position is decided (R169). -/
def candsFinal (z : Lz) : Bool := z.cand.all Cand.isFinished

/-- The token decided at the commit position (R168, R169). The pending-match set has LAZY slots (`LzInv`), never none. -/
def lzChoose (z : Lz) : Token :=
  match z.cand with
  | [] => .lit (lzByteAt z z.p)
  | c :: later =>
    if lazyMatch c.bestLen (later.map Cand.bestLen) then .copy c.bestDist c.bestLen else .lit (lzByteAt z z.p)

/-- How many bytes a token stands for. -/
def Token.width : Token → Nat
  | .lit _ => 1
  | .copy _ l => l

/-- The commit position moves past a token, and the pending-match set follows (R169, R171). -/
def lzCommit (t : Token) (z : Lz) : Lz := candsEstablish { z with p := z.p + t.width }

/-- `LZ.run(flushing)` (R169): the tokens that are decided, in order. Each takes at least one byte, so `LZ.R − LZ.P`
rounds are enough. -/
def lzRunFor (flushing : Bool) : Nat → Lz → List Token × Lz
  | 0, z => ([], z)
  | k + 1, z =>
    if z.r ≤ z.p then ([], z)
    else if flushing || candsFinal z then
      let t := lzChoose z
      let (ts, z') := lzRunFor flushing k (lzCommit t z)
      (t :: ts, z')
    else ([], z)

/-- `LZ.run(flushing)` (R169). -/
def lzRun (flushing : Bool) (z : Lz) : List Token × Lz := lzRunFor flushing (z.r - z.p) z

/-- The arrival of one byte, up to the run (R161): the window, LZ.S and LZ.R. -/
def lzReceive (b : Byte) (z : Lz) : Lz :=
  { z with win := winWrite z.win (z.r % Config.cWinSize) b, s := z.s ++ [b], r := z.r + 1 }

/-- The position whose third byte has arrived enters the index (R161). -/
def lzIndex (z : Lz) : Lz := if Config.minMatch ≤ z.r then lzInsert (z.r - Config.minMatch) z else z

/-- `LZ.byte(b)` (R161). -/
def lzByte (b : Byte) (z : Lz) : List Token × Lz := lzRun false (candsArrive (lzIndex (lzReceive b z)))

/-- `LZ.flush()` (R178): the window history stays. -/
def lzFlush (z : Lz) : List Token × Lz :=
  let (ts, z') := lzRun true z
  (ts, { z' with cand := List.replicate Config.lazy .empty })

end Sys2Proof.Machine
end

