-- ==== Sys2Proof/Machine/Compress.lean ====
section
/-! DEFINITION. The compression driver: the meaning of the CU's host commands (45_compress_driver.md R270 to R277). -/

namespace Sys2Proof.Machine

/-- `LZ.byte(b)` with its sink (41_lz77.md R161, R169). -/
def cuByte (c : CuCtx) (b : Byte) : CuCtx := appendAll (lzByte b c.lz) c

/-- `LZ.flush()` with its sink (R178). -/
def cuFlush (c : CuCtx) : CuCtx := appendAll (lzFlush c.lz) c

/-- The zlib header of the first feed (R272, 30_encoding.md R101). -/
def cuHeader (c : CuCtx) : CuCtx :=
  if c.first then
    clearFirst (match c.mode with
      | .bare => c
      | .zlib => { c with bw := put Config.zhdrFlg 8 (put Config.zhdrCmf 8 c.bw) })
  else c

/-- `feed_common(data)` (R272). -/
def feedCommon (data : List Byte) (c : CuCtx) : CuCtx :=
  let c := cuHeader c
  data.foldl cuByte { c with adler := adlerInMode c.mode c.adler data }

/-- The zlib trailer (R276, 30_encoding.md R114): the Adler-32, most significant byte first. -/
def cuTrailer (c : CuCtx) : CuCtx :=
  match c.mode with
  | .bare => c
  | .zlib =>
    { c with
      bw := put (byteOf c.adler 0) 8 (put (byteOf c.adler 1) 8 (put (byteOf c.adler 2) 8 (put (byteOf c.adler 3) 8 c.bw))) }

/-- What C_FEED SYNC does after the common part (R275). -/
def cuSync (c : CuCtx) : CuCtx :=
  let c := drain false (cuFlush c)
  { c with bw := emitStoredEmpty c.bw }

/-- The last block of FINISH (R276): the drain's, or the empty static block if nothing is buffered. -/
def cuLastBlock (c : CuCtx) : CuCtx :=
  if 0 < c.sym.n then drain true c else { c with bw := emitStaticEmpty true c.bw }

/-- What C_FEED FINISH does after the common part (R276). -/
def cuFinish (c : CuCtx) : CuCtx :=
  let c := cuLastBlock (setCLastBlock (cuFlush c))
  setFinished (cuTrailer { c with bw := alignWriter c.bw })

/-- A C_FEED whose accepted part is `f`: refused without a context or after FINISH (R271), else it ends with `take()`. -/
def cuFeed (f : CuCtx → CuCtx) (s : State) : Host.Outcome State Fault Refusal :=
  match s.cu with
  | none => .next (refuseCu s)
  | some c => if c.finished then .next (refuseCu s) else .next (takeOutput (f c) s)

/-- C_NEW bare (R270): a fresh context, whatever the unit held; nothing is returned. -/
def execCNewBare (s : State) : Host.Outcome State Fault Refusal := .next { s with cu := some (CuCtx.fresh .bare) }

/-- C_NEW zlib (R270). -/
def execCNewZlib (s : State) : Host.Outcome State Fault Refusal := .next { s with cu := some (CuCtx.fresh .zlib) }

/-- C_FEED NONE (R274). -/
def execCFeedNone (data : List Byte) (s : State) : Host.Outcome State Fault Refusal := cuFeed (feedCommon data) s

/-- C_FEED SYNC (R275). -/
def execCFeedSync (data : List Byte) (s : State) : Host.Outcome State Fault Refusal :=
  cuFeed (fun c => cuSync (feedCommon data c)) s

/-- C_FEED FINISH (R276). -/
def execCFeedFinish (data : List Byte) (s : State) : Host.Outcome State Fault Refusal :=
  cuFeed (fun c => cuFinish (feedCommon data c)) s

/-- C_FEED with the reserved flush value 3 (R271, D4): refused, the data not taken. -/
def execCFeedReserved (_data : List Byte) (s : State) : Host.Outcome State Fault Refusal := .next (refuseCu s)

/-- C_FREE (R277): the unit holds no context; nothing is returned, and without a context nothing happens. -/
def execCFree (s : State) : Host.Outcome State Fault Refusal := .next { s with cu := none }

end Sys2Proof.Machine
end

