-- ==== Sys2Proof/Machine/Distance.lean ====
section
/-! DEFINITION. The distance symbols (47_symbols.md R385 to R416). -/

namespace Sys2Proof.Machine

/-- DIST_0 (47_symbols.md R385). -/
def execDist0 (s : State) : Host.Outcome State Fault Refusal := distanceElement 0 0 s

/-- DIST_1 (47_symbols.md R386). -/
def execDist1 (s : State) : Host.Outcome State Fault Refusal := distanceElement 1 0 s

/-- DIST_2 (47_symbols.md R387). -/
def execDist2 (s : State) : Host.Outcome State Fault Refusal := distanceElement 2 0 s

/-- DIST_3 (47_symbols.md R388). -/
def execDist3 (s : State) : Host.Outcome State Fault Refusal := distanceElement 3 0 s

/-- DIST_4 (47_symbols.md R389). -/
def execDist4 (x : Nat) (s : State) : Host.Outcome State Fault Refusal := distanceElement 4 x s

/-- DIST_5 (47_symbols.md R390). -/
def execDist5 (x : Nat) (s : State) : Host.Outcome State Fault Refusal := distanceElement 5 x s

/-- DIST_6 (47_symbols.md R391). -/
def execDist6 (x : Nat) (s : State) : Host.Outcome State Fault Refusal := distanceElement 6 x s

/-- DIST_7 (47_symbols.md R392). -/
def execDist7 (x : Nat) (s : State) : Host.Outcome State Fault Refusal := distanceElement 7 x s

/-- DIST_8 (47_symbols.md R393). -/
def execDist8 (x : Nat) (s : State) : Host.Outcome State Fault Refusal := distanceElement 8 x s

/-- DIST_9 (47_symbols.md R394). -/
def execDist9 (x : Nat) (s : State) : Host.Outcome State Fault Refusal := distanceElement 9 x s

/-- DIST_10 (47_symbols.md R395). -/
def execDist10 (x : Nat) (s : State) : Host.Outcome State Fault Refusal := distanceElement 10 x s

/-- DIST_11 (47_symbols.md R396). -/
def execDist11 (x : Nat) (s : State) : Host.Outcome State Fault Refusal := distanceElement 11 x s

/-- DIST_12 (47_symbols.md R397). -/
def execDist12 (x : Nat) (s : State) : Host.Outcome State Fault Refusal := distanceElement 12 x s

/-- DIST_13 (47_symbols.md R398). -/
def execDist13 (x : Nat) (s : State) : Host.Outcome State Fault Refusal := distanceElement 13 x s

/-- DIST_14 (47_symbols.md R399). -/
def execDist14 (x : Nat) (s : State) : Host.Outcome State Fault Refusal := distanceElement 14 x s

/-- DIST_15 (47_symbols.md R400). -/
def execDist15 (x : Nat) (s : State) : Host.Outcome State Fault Refusal := distanceElement 15 x s

/-- DIST_16 (47_symbols.md R401). -/
def execDist16 (x : Nat) (s : State) : Host.Outcome State Fault Refusal := distanceElement 16 x s

/-- DIST_17 (47_symbols.md R402). -/
def execDist17 (x : Nat) (s : State) : Host.Outcome State Fault Refusal := distanceElement 17 x s

/-- DIST_18 (47_symbols.md R403). -/
def execDist18 (x : Nat) (s : State) : Host.Outcome State Fault Refusal := distanceElement 18 x s

/-- DIST_19 (47_symbols.md R404). -/
def execDist19 (x : Nat) (s : State) : Host.Outcome State Fault Refusal := distanceElement 19 x s

/-- DIST_20 (47_symbols.md R405). -/
def execDist20 (x : Nat) (s : State) : Host.Outcome State Fault Refusal := distanceElement 20 x s

/-- DIST_21 (47_symbols.md R406). -/
def execDist21 (x : Nat) (s : State) : Host.Outcome State Fault Refusal := distanceElement 21 x s

/-- DIST_22 (47_symbols.md R407). -/
def execDist22 (x : Nat) (s : State) : Host.Outcome State Fault Refusal := distanceElement 22 x s

/-- DIST_23 (47_symbols.md R408). -/
def execDist23 (x : Nat) (s : State) : Host.Outcome State Fault Refusal := distanceElement 23 x s

/-- DIST_24 (47_symbols.md R409). -/
def execDist24 (x : Nat) (s : State) : Host.Outcome State Fault Refusal := distanceElement 24 x s

/-- DIST_25 (47_symbols.md R410). -/
def execDist25 (x : Nat) (s : State) : Host.Outcome State Fault Refusal := distanceElement 25 x s

/-- DIST_26 (47_symbols.md R411). -/
def execDist26 (x : Nat) (s : State) : Host.Outcome State Fault Refusal := distanceElement 26 x s

/-- DIST_27 (47_symbols.md R412). -/
def execDist27 (x : Nat) (s : State) : Host.Outcome State Fault Refusal := distanceElement 27 x s

/-- DIST_28 (47_symbols.md R413). -/
def execDist28 (x : Nat) (s : State) : Host.Outcome State Fault Refusal := distanceElement 28 x s

/-- DIST_29 (47_symbols.md R414). -/
def execDist29 (x : Nat) (s : State) : Host.Outcome State Fault Refusal := distanceElement 29 x s

/-- DIST_30 (47_symbols.md R415): reserved, E_TABLE. -/
def execDist30 (s : State) : Host.Outcome State Fault Refusal := reservedElement .distance s

/-- DIST_31 (47_symbols.md R416): reserved, E_TABLE. -/
def execDist31 (s : State) : Host.Outcome State Fault Refusal := reservedElement .distance s

end Sys2Proof.Machine
end

