-- ==== Sys2Proof/Machine/LitLen.lean ====
section
/-! DEFINITION. The literal/length symbols (47_symbols.md R351 to R384). -/

namespace Sys2Proof.Machine

/-- LIT_0_143 (47_symbols.md R351): the byte is output. -/
def execLit0To143 (b : Byte) (s : State) : Host.Outcome State Fault Refusal := literalElement b s

/-- LIT_144_255 (47_symbols.md R352): the byte is output. -/
def execLit144To255 (b : Byte) (s : State) : Host.Outcome State Fault Refusal := literalElement b s

/-- EOB (47_symbols.md R353): the block ends. -/
def execEob (s : State) : Host.Outcome State Fault Refusal := endElement s

/-- LEN_257 (47_symbols.md R354). -/
def execLen257 (s : State) : Host.Outcome State Fault Refusal := lengthElement 257 0 s

/-- LEN_258 (47_symbols.md R355). -/
def execLen258 (s : State) : Host.Outcome State Fault Refusal := lengthElement 258 0 s

/-- LEN_259 (47_symbols.md R356). -/
def execLen259 (s : State) : Host.Outcome State Fault Refusal := lengthElement 259 0 s

/-- LEN_260 (47_symbols.md R357). -/
def execLen260 (s : State) : Host.Outcome State Fault Refusal := lengthElement 260 0 s

/-- LEN_261 (47_symbols.md R358). -/
def execLen261 (s : State) : Host.Outcome State Fault Refusal := lengthElement 261 0 s

/-- LEN_262 (47_symbols.md R359). -/
def execLen262 (s : State) : Host.Outcome State Fault Refusal := lengthElement 262 0 s

/-- LEN_263 (47_symbols.md R360). -/
def execLen263 (s : State) : Host.Outcome State Fault Refusal := lengthElement 263 0 s

/-- LEN_264 (47_symbols.md R361). -/
def execLen264 (s : State) : Host.Outcome State Fault Refusal := lengthElement 264 0 s

/-- LEN_265 (47_symbols.md R362). -/
def execLen265 (x : Nat) (s : State) : Host.Outcome State Fault Refusal := lengthElement 265 x s

/-- LEN_266 (47_symbols.md R363). -/
def execLen266 (x : Nat) (s : State) : Host.Outcome State Fault Refusal := lengthElement 266 x s

/-- LEN_267 (47_symbols.md R364). -/
def execLen267 (x : Nat) (s : State) : Host.Outcome State Fault Refusal := lengthElement 267 x s

/-- LEN_268 (47_symbols.md R365). -/
def execLen268 (x : Nat) (s : State) : Host.Outcome State Fault Refusal := lengthElement 268 x s

/-- LEN_269 (47_symbols.md R366). -/
def execLen269 (x : Nat) (s : State) : Host.Outcome State Fault Refusal := lengthElement 269 x s

/-- LEN_270 (47_symbols.md R367). -/
def execLen270 (x : Nat) (s : State) : Host.Outcome State Fault Refusal := lengthElement 270 x s

/-- LEN_271 (47_symbols.md R368). -/
def execLen271 (x : Nat) (s : State) : Host.Outcome State Fault Refusal := lengthElement 271 x s

/-- LEN_272 (47_symbols.md R369). -/
def execLen272 (x : Nat) (s : State) : Host.Outcome State Fault Refusal := lengthElement 272 x s

/-- LEN_273 (47_symbols.md R370). -/
def execLen273 (x : Nat) (s : State) : Host.Outcome State Fault Refusal := lengthElement 273 x s

/-- LEN_274 (47_symbols.md R371). -/
def execLen274 (x : Nat) (s : State) : Host.Outcome State Fault Refusal := lengthElement 274 x s

/-- LEN_275 (47_symbols.md R372). -/
def execLen275 (x : Nat) (s : State) : Host.Outcome State Fault Refusal := lengthElement 275 x s

/-- LEN_276 (47_symbols.md R373). -/
def execLen276 (x : Nat) (s : State) : Host.Outcome State Fault Refusal := lengthElement 276 x s

/-- LEN_277 (47_symbols.md R374). -/
def execLen277 (x : Nat) (s : State) : Host.Outcome State Fault Refusal := lengthElement 277 x s

/-- LEN_278 (47_symbols.md R375). -/
def execLen278 (x : Nat) (s : State) : Host.Outcome State Fault Refusal := lengthElement 278 x s

/-- LEN_279 (47_symbols.md R376). -/
def execLen279 (x : Nat) (s : State) : Host.Outcome State Fault Refusal := lengthElement 279 x s

/-- LEN_280 (47_symbols.md R377). -/
def execLen280 (x : Nat) (s : State) : Host.Outcome State Fault Refusal := lengthElement 280 x s

/-- LEN_281 (47_symbols.md R378). -/
def execLen281 (x : Nat) (s : State) : Host.Outcome State Fault Refusal := lengthElement 281 x s

/-- LEN_282 (47_symbols.md R379). -/
def execLen282 (x : Nat) (s : State) : Host.Outcome State Fault Refusal := lengthElement 282 x s

/-- LEN_283 (47_symbols.md R380). -/
def execLen283 (x : Nat) (s : State) : Host.Outcome State Fault Refusal := lengthElement 283 x s

/-- LEN_284 (47_symbols.md R381). -/
def execLen284 (x : Nat) (s : State) : Host.Outcome State Fault Refusal := lengthElement 284 x s

/-- LEN_285 (47_symbols.md R382). -/
def execLen285 (s : State) : Host.Outcome State Fault Refusal := lengthElement 285 0 s

/-- LL_286 (47_symbols.md R383): reserved, E_TABLE. -/
def execLl286 (s : State) : Host.Outcome State Fault Refusal := reservedElement .litLen s

/-- LL_287 (47_symbols.md R384): reserved, E_TABLE. -/
def execLl287 (s : State) : Host.Outcome State Fault Refusal := reservedElement .litLen s

end Sys2Proof.Machine
end

