-- ==== Sys2Proof/Machine/Reserved.lean ====
section
/-! DEFINITION. The reserved command words (30_encoding.md R131, 70_reset_and_hazards.md R493, 60_exceptions.md R457). -/

namespace Sys2Proof.Machine

/-- The reserved CU word 0b0010 (70 R493): refused, nothing changes, no output (60 R457). -/
def execCuReserved0010 (s : State) : Host.Outcome State Fault Refusal := .next (refuseCu s)

/-- The reserved CU word 0b0011 (70 R493): refused, nothing changes, no output (60 R457). -/
def execCuReserved0011 (s : State) : Host.Outcome State Fault Refusal := .next (refuseCu s)

/-- The reserved CU word 0b1000 (70 R493): refused, nothing changes, no output (60 R457). -/
def execCuReserved1000 (s : State) : Host.Outcome State Fault Refusal := .next (refuseCu s)

/-- The reserved CU word 0b1001 (70 R493): refused, nothing changes, no output (60 R457). -/
def execCuReserved1001 (s : State) : Host.Outcome State Fault Refusal := .next (refuseCu s)

/-- The reserved CU word 0b1010 (70 R493): refused, nothing changes, no output (60 R457). -/
def execCuReserved1010 (s : State) : Host.Outcome State Fault Refusal := .next (refuseCu s)

/-- The reserved CU word 0b1011 (70 R493): refused, nothing changes, no output (60 R457). -/
def execCuReserved1011 (s : State) : Host.Outcome State Fault Refusal := .next (refuseCu s)

/-- The reserved CU word 0b1101 (70 R493): refused, nothing changes, no output (60 R457). -/
def execCuReserved1101 (s : State) : Host.Outcome State Fault Refusal := .next (refuseCu s)

/-- The reserved CU word 0b1110 (70 R493): refused, nothing changes, no output (60 R457). -/
def execCuReserved1110 (s : State) : Host.Outcome State Fault Refusal := .next (refuseCu s)

/-- The reserved CU word 0b1111 (70 R493): refused, nothing changes, no output (60 R457). -/
def execCuReserved1111 (s : State) : Host.Outcome State Fault Refusal := .next (refuseCu s)

/-- The reserved DU word 0b0010 (70 R493): refused, nothing changes, no output (60 R457). -/
def execDuReserved0010 (s : State) : Host.Outcome State Fault Refusal := .next (refuseDu s)

/-- The reserved DU word 0b0011 (70 R493): refused, nothing changes, no output (60 R457). -/
def execDuReserved0011 (s : State) : Host.Outcome State Fault Refusal := .next (refuseDu s)

/-- The reserved DU word 0b0101 (70 R493): refused, nothing changes, no output (60 R457). -/
def execDuReserved0101 (s : State) : Host.Outcome State Fault Refusal := .next (refuseDu s)

/-- The reserved DU word 0b0110 (70 R493): refused, nothing changes, no output (60 R457). -/
def execDuReserved0110 (s : State) : Host.Outcome State Fault Refusal := .next (refuseDu s)

/-- The reserved DU word 0b0111 (70 R493): refused, nothing changes, no output (60 R457). -/
def execDuReserved0111 (s : State) : Host.Outcome State Fault Refusal := .next (refuseDu s)

/-- The reserved DU word 0b1001 (70 R493): refused, nothing changes, no output (60 R457). -/
def execDuReserved1001 (s : State) : Host.Outcome State Fault Refusal := .next (refuseDu s)

/-- The reserved DU word 0b1010 (70 R493): refused, nothing changes, no output (60 R457). -/
def execDuReserved1010 (s : State) : Host.Outcome State Fault Refusal := .next (refuseDu s)

/-- The reserved DU word 0b1011 (70 R493): refused, nothing changes, no output (60 R457). -/
def execDuReserved1011 (s : State) : Host.Outcome State Fault Refusal := .next (refuseDu s)

/-- The reserved DU word 0b1101 (70 R493): refused, nothing changes, no output (60 R457). -/
def execDuReserved1101 (s : State) : Host.Outcome State Fault Refusal := .next (refuseDu s)

/-- The reserved DU word 0b1110 (70 R493): refused, nothing changes, no output (60 R457). -/
def execDuReserved1110 (s : State) : Host.Outcome State Fault Refusal := .next (refuseDu s)

/-- The reserved DU word 0b1111 (70 R493): refused, nothing changes, no output (60 R457). -/
def execDuReserved1111 (s : State) : Host.Outcome State Fault Refusal := .next (refuseDu s)

end Sys2Proof.Machine
end

