-- ==== Sys2Proof/Machine/Dispatch.lean ====
section
/-! DEFINITION. What each instruction does: one arm per constructor of Instr, one meaning per arm. -/

namespace Sys2Proof.Machine

/-- The meaning of an instruction. -/
def exec (i : Instr) (s : State) : Host.Outcome State Fault Refusal :=
  match i with
  | .cNewBare => Sys2Proof.Machine.execCNewBare s
  | .cNewZlib => Sys2Proof.Machine.execCNewZlib s
  | .cFeedNone data => Sys2Proof.Machine.execCFeedNone data s
  | .cFeedSync data => Sys2Proof.Machine.execCFeedSync data s
  | .cFeedFinish data => Sys2Proof.Machine.execCFeedFinish data s
  | .cFeedReserved data => Sys2Proof.Machine.execCFeedReserved data s
  | .cFree => Sys2Proof.Machine.execCFree s
  | .dNewBare => Sys2Proof.Machine.execDNewBare s
  | .dNewZlib => Sys2Proof.Machine.execDNewZlib s
  | .dFeed data => Sys2Proof.Machine.execDFeed data s
  | .dEof => Sys2Proof.Machine.execDEof s
  | .dFree => Sys2Proof.Machine.execDFree s
  | .cuReserved0010 => Sys2Proof.Machine.execCuReserved0010 s
  | .cuReserved0011 => Sys2Proof.Machine.execCuReserved0011 s
  | .cuReserved1000 => Sys2Proof.Machine.execCuReserved1000 s
  | .cuReserved1001 => Sys2Proof.Machine.execCuReserved1001 s
  | .cuReserved1010 => Sys2Proof.Machine.execCuReserved1010 s
  | .cuReserved1011 => Sys2Proof.Machine.execCuReserved1011 s
  | .cuReserved1101 => Sys2Proof.Machine.execCuReserved1101 s
  | .cuReserved1110 => Sys2Proof.Machine.execCuReserved1110 s
  | .cuReserved1111 => Sys2Proof.Machine.execCuReserved1111 s
  | .duReserved0010 => Sys2Proof.Machine.execDuReserved0010 s
  | .duReserved0011 => Sys2Proof.Machine.execDuReserved0011 s
  | .duReserved0101 => Sys2Proof.Machine.execDuReserved0101 s
  | .duReserved0110 => Sys2Proof.Machine.execDuReserved0110 s
  | .duReserved0111 => Sys2Proof.Machine.execDuReserved0111 s
  | .duReserved1001 => Sys2Proof.Machine.execDuReserved1001 s
  | .duReserved1010 => Sys2Proof.Machine.execDuReserved1010 s
  | .duReserved1011 => Sys2Proof.Machine.execDuReserved1011 s
  | .duReserved1101 => Sys2Proof.Machine.execDuReserved1101 s
  | .duReserved1110 => Sys2Proof.Machine.execDuReserved1110 s
  | .duReserved1111 => Sys2Proof.Machine.execDuReserved1111 s
  | .blkStored bfinal => Sys2Proof.Machine.execBlkStored bfinal s
  | .blkStatic bfinal => Sys2Proof.Machine.execBlkStatic bfinal s
  | .blkDynamic bfinal => Sys2Proof.Machine.execBlkDynamic bfinal s
  | .blkReserved bfinal => Sys2Proof.Machine.execBlkReserved bfinal s
  | .lit0To143 b => Sys2Proof.Machine.execLit0To143 b s
  | .lit144To255 b => Sys2Proof.Machine.execLit144To255 b s
  | .eob => Sys2Proof.Machine.execEob s
  | .len257 => Sys2Proof.Machine.execLen257 s
  | .len258 => Sys2Proof.Machine.execLen258 s
  | .len259 => Sys2Proof.Machine.execLen259 s
  | .len260 => Sys2Proof.Machine.execLen260 s
  | .len261 => Sys2Proof.Machine.execLen261 s
  | .len262 => Sys2Proof.Machine.execLen262 s
  | .len263 => Sys2Proof.Machine.execLen263 s
  | .len264 => Sys2Proof.Machine.execLen264 s
  | .len265 x => Sys2Proof.Machine.execLen265 x s
  | .len266 x => Sys2Proof.Machine.execLen266 x s
  | .len267 x => Sys2Proof.Machine.execLen267 x s
  | .len268 x => Sys2Proof.Machine.execLen268 x s
  | .len269 x => Sys2Proof.Machine.execLen269 x s
  | .len270 x => Sys2Proof.Machine.execLen270 x s
  | .len271 x => Sys2Proof.Machine.execLen271 x s
  | .len272 x => Sys2Proof.Machine.execLen272 x s
  | .len273 x => Sys2Proof.Machine.execLen273 x s
  | .len274 x => Sys2Proof.Machine.execLen274 x s
  | .len275 x => Sys2Proof.Machine.execLen275 x s
  | .len276 x => Sys2Proof.Machine.execLen276 x s
  | .len277 x => Sys2Proof.Machine.execLen277 x s
  | .len278 x => Sys2Proof.Machine.execLen278 x s
  | .len279 x => Sys2Proof.Machine.execLen279 x s
  | .len280 x => Sys2Proof.Machine.execLen280 x s
  | .len281 x => Sys2Proof.Machine.execLen281 x s
  | .len282 x => Sys2Proof.Machine.execLen282 x s
  | .len283 x => Sys2Proof.Machine.execLen283 x s
  | .len284 x => Sys2Proof.Machine.execLen284 x s
  | .len285 => Sys2Proof.Machine.execLen285 s
  | .ll286 => Sys2Proof.Machine.execLl286 s
  | .ll287 => Sys2Proof.Machine.execLl287 s
  | .dist0 => Sys2Proof.Machine.execDist0 s
  | .dist1 => Sys2Proof.Machine.execDist1 s
  | .dist2 => Sys2Proof.Machine.execDist2 s
  | .dist3 => Sys2Proof.Machine.execDist3 s
  | .dist4 x => Sys2Proof.Machine.execDist4 x s
  | .dist5 x => Sys2Proof.Machine.execDist5 x s
  | .dist6 x => Sys2Proof.Machine.execDist6 x s
  | .dist7 x => Sys2Proof.Machine.execDist7 x s
  | .dist8 x => Sys2Proof.Machine.execDist8 x s
  | .dist9 x => Sys2Proof.Machine.execDist9 x s
  | .dist10 x => Sys2Proof.Machine.execDist10 x s
  | .dist11 x => Sys2Proof.Machine.execDist11 x s
  | .dist12 x => Sys2Proof.Machine.execDist12 x s
  | .dist13 x => Sys2Proof.Machine.execDist13 x s
  | .dist14 x => Sys2Proof.Machine.execDist14 x s
  | .dist15 x => Sys2Proof.Machine.execDist15 x s
  | .dist16 x => Sys2Proof.Machine.execDist16 x s
  | .dist17 x => Sys2Proof.Machine.execDist17 x s
  | .dist18 x => Sys2Proof.Machine.execDist18 x s
  | .dist19 x => Sys2Proof.Machine.execDist19 x s
  | .dist20 x => Sys2Proof.Machine.execDist20 x s
  | .dist21 x => Sys2Proof.Machine.execDist21 x s
  | .dist22 x => Sys2Proof.Machine.execDist22 x s
  | .dist23 x => Sys2Proof.Machine.execDist23 x s
  | .dist24 x => Sys2Proof.Machine.execDist24 x s
  | .dist25 x => Sys2Proof.Machine.execDist25 x s
  | .dist26 x => Sys2Proof.Machine.execDist26 x s
  | .dist27 x => Sys2Proof.Machine.execDist27 x s
  | .dist28 x => Sys2Proof.Machine.execDist28 x s
  | .dist29 x => Sys2Proof.Machine.execDist29 x s
  | .dist30 => Sys2Proof.Machine.execDist30 s
  | .dist31 => Sys2Proof.Machine.execDist31 s
  | .cl0To15 v => Sys2Proof.Machine.execCl0To15 v s
  | .cl16 x => Sys2Proof.Machine.execCl16 x s
  | .cl17 x => Sys2Proof.Machine.execCl17 x s
  | .cl18 x => Sys2Proof.Machine.execCl18 x s

end Sys2Proof.Machine
end

