-- ==== Sys2Proof/Machine/Fetch.lean ====
section
/-! DEFINITION. Fetching: where the next instruction comes from (00_scope.md R14). A host command comes from a unit's
command port, a wire element from the DU's bit accumulator, in the alphabet the automaton's state selects
(30_encoding.md R116). -/

namespace Sys2Proof.Machine

/-- What a step finds to do: nothing; an instruction `i`, from the state `s` as the fetch leaves it; or a step of the
automaton that is no whole element, after which the state is `s`. -/
inductive Fetched where
  | idle
  | instr (i : Instr) (s : State)
  | frame (s : State)
deriving DecidableEq, Repr

/-- The table of the alphabet a context decodes (46_decompress.md R307, R310, R313). -/
def elementTable (d : DuCtx) : Alphabet → Table
  | .blockHeader => []
  | .litLen => litLenTable d
  | .distance => distTable d
  | .codeLength => codeLenTable d

/-- The whole wire element at the front of D.BITS, or why there is none. -/
def elementAt (a : Alphabet) (d : DuCtx) : Except DecodeError Decoded :=
  decodeElement a (elementTable d a) d.bits.toNat d.nbits

/-- The input `advance` (assumption log 2), `s` the state without it: the wire element that stands whole in D.BITS, its
code consumed; where none does, or the automaton decodes none, the step of D.STATE; without a context or after an error,
nothing. -/
def fetchElement (s : State) : Fetched :=
  match s.du with
  | none => .frame s
  | some d =>
    if d.inError then .frame s
    else
      match expected d with
      | none => .frame (settle (automatonStep d) s)
      | some a =>
        match elementAt a d with
        | .ok e => .instr e.instr { s with du := some (eat e.codeBits d) }
        | .error _ => .frame (settle (automatonStep d) s)

/-- The next instruction: the oldest input not yet taken. -/
def fetch (s : State) : Fetched :=
  match s.inbox with
  | [] => .idle
  | .cu word data :: rest => .instr (decodeCommand .cu word data) { s with inbox := rest }
  | .du word data :: rest => .instr (decodeCommand .du word data) { s with inbox := rest }
  | .advance :: rest => fetchElement { s with inbox := rest }

/-- The automaton state that decodes an alphabet. -/
def stateFor : Alphabet → DState
  | .blockHeader => .outsideBlk
  | .litLen => .inBlk
  | .distance => .gotLen
  | .codeLength => .treesLen

/-- A state whose next step runs the instruction with these words: a command is put before the others in the inbox; an
element's bits fill D.BITS of the unit's context (a fresh bare one if there is none), which is set to decode them in the
static code with no error latched. -/
def placeWords (s : State) : Words → State
  | .command .cu word data => { s with inbox := .cu word data :: s.inbox }
  | .command .du word data => { s with inbox := .du word data :: s.inbox }
  | .element a bits nbits =>
    { s with
      inbox := .advance :: s.inbox
      du := some { (match s.du with
          | none => DuCtx.fresh .bare
          | some d => d) with
        err := .ok
        state := stateFor a
        cur := false
        bits := BitVec.ofNat Config.accW bits
        nbits := nbits } }

end Sys2Proof.Machine
end

