-- ==== Sys2Proof/Machine/Step.lean ====
section
/-! DEFINITION. One step of the machine, and the state whose next step runs a given instruction. -/

namespace Sys2Proof.Machine

/-- One step: the oldest input not yet taken is executed whole (00_scope.md R14: a command is the atomic transition).
With no input the machine rests. -/
def step (s : State) : Host.Outcome State Fault Refusal :=
  match fetch s with
  | .idle => .next s
  | .instr i s' => exec i s'
  | .frame s' => .next s'

/-- The state `s` with the instruction that `decodeTableWord nbits w` reads placed where `step` fetches next. -/
def State.withFetchWord (s : State) (nbits w : Nat) : State :=
  match decodeTableWord nbits w with
  | none => s
  | some i =>
    match encode staticTables i with
    | none => s
    | some words => placeWords s words

end Sys2Proof.Machine
end

