-- ==== Sys2Proof/Safety.lean ====
section
/-! DEFINITION. The terms the claims are stated in: the bitstreams behind the bit accumulators, the invariants of the two
contexts and of the machine, and the values of the symbols as 47_symbols.md lists them, rule by rule. -/

namespace Sys2Proof.Machine

/-! ## Bitstreams -/

/-- The low `n` bits of `v`, low bit first (20_memory.md R71: a field in stream order). -/
def bitsOf : Nat → Nat → List Bool
  | 0, _ => []
  | n + 1, v => (v % 2 == 1) :: bitsOf n (v / 2)

/-- The bits of a byte sequence (R70: least significant bit first). -/
def byteBits (l : List Byte) : List Bool := l.flatMap fun b => bitsOf 8 b.toNat

/-- Everything put since the last `take`: BW.OUT, then the BW.N bits of BW.ACC (40_bitio.md R150). -/
def BitWriter.bits (w : BitWriter) : List Bool := byteBits w.out ++ bitsOf w.n w.acc.toNat

/-- What BW.N and BW.ACC hold between operations (10_state.md R24). -/
def BitWriter.ok (w : BitWriter) : Prop := w.n ≤ 7 ∧ w.acc.toNat < 2 ^ w.n

/-- The bits still to be decoded: the D.NBITS bits of D.BITS, then the unread input (10_state.md R28). -/
def DuCtx.upcoming (d : DuCtx) (inp : List Byte) : List Bool := bitsOf d.nbits d.bits.toNat ++ byteBits inp

/-! ## The decompression context -/

/-- The two halves of an Adler-32 (45_compress_driver.md R273). -/
def adlerOk (a : Word32) : Prop := a.toNat % 2 ^ 16 < Config.adlerMod ∧ a.toNat / 2 ^ 16 < Config.adlerMod

/-- No decode table is present. -/
def DuCtx.noTables (d : DuCtx) : Prop := d.tabCL = none ∧ d.tabLL = none ∧ d.tabD = none

/-- The counts TREES_HDR accepts (46_decompress.md R308). -/
def DuCtx.countsOk (d : DuCtx) : Prop := 257 ≤ d.hlit ∧ d.hlit ≤ 286 ∧ 1 ≤ d.hdist ∧ d.hdist ≤ 30

/-- While the code lengths of a dynamic block are read: the code-length table is present, the main tables are not. -/
def DuCtx.readsLengths (d : DuCtx) : Prop :=
  d.countsOk ∧ d.lenPtr ≤ d.hlit + d.hdist ∧ d.tabLL = none ∧ d.tabD = none ∧
    ∃ t, d.tabCL = some t ∧ mkTable d.lenLen = some t

/-- Inside a block coded by symbols: the main tables are present exactly in a dynamic block, and they are the tables of
the transmitted lengths (10_state.md R38, 46_decompress.md R310). -/
def DuCtx.readsSymbols (d : DuCtx) : Prop :=
  d.tabCL = none ∧
    (d.cur = false → d.tabLL = none ∧ d.tabD = none) ∧
    (d.cur = true → d.countsOk ∧ (∃ t, d.tabLL = some t ∧ mkTable (d.lengths.take d.hlit) = some t) ∧
      ∃ t, d.tabD = some t ∧ mkTable ((d.lengths.drop d.hlit).take d.hdist) = some t)

/-- What holds in each automaton state of a context without an error. The reader stands on a byte boundary wherever the
format has whole bytes (20_memory.md R74). -/
def DuCtx.live (d : DuCtx) : Prop :=
  match d.state with
  | .start => d.mode = .zlib ∧ d.nbits % 8 = 0 ∧ d.noTables
  | .outsideBlk => d.noTables
  | .uncompLen => d.nbits % 8 = 0 ∧ d.noTables
  | .uncompNlen => d.nbits % 8 = 0 ∧ d.noTables
  | .uncompData => d.nbits % 8 = 0 ∧ 0 < d.uncompLen ∧ d.noTables
  | .inBlk => d.readsSymbols
  | .treesHdr => d.noTables
  | .treesLenLen => d.countsOk ∧ d.lenPtr < d.hclen ∧ d.noTables
  | .treesLen => d.readsLengths
  | .treesLenRep => d.readsLengths
  | .gotLenSym => 257 ≤ d.sym ∧ d.sym ≤ 285 ∧ d.readsSymbols
  | .gotLen => 3 ≤ d.len ∧ d.readsSymbols
  | .gotDistSym => d.sym ≤ 29 ∧ 3 ≤ d.len ∧ d.readsSymbols
  | .finish => d.lastBlock = true ∧ d.noTables
  | .adler1 => d.mode = .zlib ∧ d.lastBlock = true ∧ d.nbits % 8 = 0 ∧ d.noTables
  | .adler2 => d.mode = .zlib ∧ d.lastBlock = true ∧ d.nbits % 8 = 0 ∧ d.noTables
  | .finalSpin => d.lastBlock = true ∧ d.noTables

/-- The invariant of a decompression context: every register within its width and range (10_state.md R27 to R30, R37),
the window in canonical form (R40), and, without an error, what its automaton state says. -/
structure DuInv (d : DuCtx) : Prop where
  nbits : d.nbits ≤ 31
  bits : d.bits.toNat < 2 ^ d.nbits
  uncompLen : d.uncompLen < 2 ^ 16
  hlit : d.hlit ≤ 288
  hdist : d.hdist ≤ 32
  hclen : d.hclen ≤ 19
  lenPtr : d.lenPtr ≤ 316
  lenExtraBits : d.lenExtraBits ≤ 7
  lenAddOn : d.lenAddOn ≤ 11
  lenRep : d.lenRep ≤ 15
  sym : d.sym ≤ 287
  len : d.len ≤ 258
  winPos : d.winPos < Config.dWinSize
  produced : d.produced ≤ Config.dWinSize
  filling : d.produced < Config.dWinSize → d.winPos = d.produced
  adler : adlerOk d.adler
  bare : d.mode = .bare → d.adler = 1
  lenLen : d.lenLen.length = 19 ∧ ∀ l ∈ d.lenLen, l ≤ 7
  lengths : d.lengths.length = 316 ∧ ∀ l ∈ d.lengths, l ≤ 15
  win : Memory.wf windowReset d.win = true
  winBelow : memBelow Config.dWinSize d.win = true
  live : d.err = .ok → d.live

/-! ## The compression context -/

/-- What a slot of the pending-match set holds for position `q` (10_state.md R44, 41_lz77.md R171). -/
def candOk (z : Lz) (q : Nat) : Cand → Prop
  | .empty => z.r < q + Config.minMatch
  | .extending live len =>
    live ≠ [] ∧ (∀ d ∈ live, 1 ≤ d ∧ d ≤ Config.maxDist ∧ d ≤ q) ∧ Config.minMatch ≤ len ∧ len < Config.maxMatch ∧
      q + len = z.r
  | .finished len d =>
    q + Config.minMatch ≤ z.r ∧ (len = 0 ∨
      (Config.minMatch ≤ len ∧ len ≤ Config.maxMatch ∧ q + len ≤ z.r ∧ 1 ≤ d ∧ d ≤ Config.maxDist ∧ d ≤ q))

/-- The invariant of the LZ77 engine between commands (10_state.md R25, R39, R41, R42; 41_lz77.md R170). -/
structure LzInv (z : Lz) : Prop where
  received : z.s.length = z.r
  committed : z.p ≤ z.r
  heldBack : z.r ≤ z.p + 259
  indexed : z.h = z.r - 2
  depth : z.cand.length = Config.lazy
  cand : ∀ o c, z.cand[o]? = some c → candOk z (z.p + o) c
  window : ∀ a, a < z.r → z.r ≤ a + Config.cWinSize → lzByteAt z a = seqAt z.s a
  win : Memory.wf windowReset z.win = true
  winBelow : memBelow Config.cWinSize z.win = true
  head : Memory.wf Config.nilPos z.head = true
  headBelow : memBelow Config.hashMax z.head = true
  next : Memory.wf Config.nilPos z.next = true
  nextBelow : memBelow Config.cWinSize z.next = true

/-- The invariant of a compression context between commands (R23 to R26, R33, R43; 43_block_chooser.md R222;
45_compress_driver.md R276). -/
structure CuInv (c : CuCtx) : Prop where
  fresh : c.first = true → c = CuCtx.fresh c.mode
  flags : c.lastBlock = c.finished
  done : c.finished = true → c.lz.p = c.lz.r ∧ c.sym.n = 0 ∧ c.bw.n = 0
  adler : adlerOk c.adler
  bare : c.mode = .bare → c.adler = 1
  bwN : c.bw.n ≤ 7
  bwOut : c.bw.out = []
  lz : LzInv c.lz
  symStart : c.sym.start < Config.symLimit
  symN : c.sym.n ≤ Config.symLimit - 4
  slots : ∀ x ∈ ringSlots c.sym, x.legal = true
  ring : Memory.wf slotReset c.sym.ring = true
  ringBelow : memBelow Config.symLimit c.sym.ring = true

/-! ## The machine -/

/-- The invariant of the machine: each context it holds meets its own. It says nothing about the registers of a
decompression context after an error, which the spec leaves unspecified (60_exceptions.md R456, assumption log 5). -/
def MachineInv (s : State) : Prop := (∀ c, s.cu = some c → CuInv c) ∧ ∀ d, s.du = some d → d.err = .ok → DuInv d

/-- BW.ACC holds exactly BW.N bits (10_state.md R24: "bits at and above BW.N are 0"). -/
def AccClean (s : State) : Prop := ∀ c, s.cu = some c → c.bw.ok

/-- The DU holds the context `d`, without an error, and decodes an element of `a` next (30_encoding.md R116). -/
def ReadyFor (s : State) (d : DuCtx) (a : Alphabet) : Prop := s.du = some d ∧ d.err = .ok ∧ expected d = some a

/-- The unit an instruction works on. -/
def portOf (i : Instr) : Port :=
  match commandOf i with
  | some (p, _, _) => p
  | none => .du

/-- The alphabet of a wire element. -/
def elementAlphabet (i : Instr) : Option Alphabet :=
  match wireOf i with
  | none => none
  | some (.blockHeader _ _) => some .blockHeader
  | some (.litLen _ _) => some .litLen
  | some (.dist _ _) => some .distance
  | some (.codeLen _ _) => some .codeLength

/-! ## The symbols' values, as 47_symbols.md lists them -/

/-- R354 to R382: the length symbol, its extra bits, and the match length it stands for. -/
def lengthValue : Instr → Option (Nat × Nat × Nat)
  | .len257 => some (257, 0, 3)
  | .len258 => some (258, 0, 4)
  | .len259 => some (259, 0, 5)
  | .len260 => some (260, 0, 6)
  | .len261 => some (261, 0, 7)
  | .len262 => some (262, 0, 8)
  | .len263 => some (263, 0, 9)
  | .len264 => some (264, 0, 10)
  | .len265 x => some (265, 1, 11 + x)
  | .len266 x => some (266, 1, 13 + x)
  | .len267 x => some (267, 1, 15 + x)
  | .len268 x => some (268, 1, 17 + x)
  | .len269 x => some (269, 2, 19 + x)
  | .len270 x => some (270, 2, 23 + x)
  | .len271 x => some (271, 2, 27 + x)
  | .len272 x => some (272, 2, 31 + x)
  | .len273 x => some (273, 3, 35 + x)
  | .len274 x => some (274, 3, 43 + x)
  | .len275 x => some (275, 3, 51 + x)
  | .len276 x => some (276, 3, 59 + x)
  | .len277 x => some (277, 4, 67 + x)
  | .len278 x => some (278, 4, 83 + x)
  | .len279 x => some (279, 4, 99 + x)
  | .len280 x => some (280, 4, 115 + x)
  | .len281 x => some (281, 5, 131 + x)
  | .len282 x => some (282, 5, 163 + x)
  | .len283 x => some (283, 5, 195 + x)
  | .len284 x => some (284, 5, 227 + x)
  | .len285 => some (285, 0, 258)
  | _ => none

/-- R385 to R414: the distance symbol, its extra bits, and the match distance it stands for. -/
def distanceValue : Instr → Option (Nat × Nat × Nat)
  | .dist0 => some (0, 0, 1)
  | .dist1 => some (1, 0, 2)
  | .dist2 => some (2, 0, 3)
  | .dist3 => some (3, 0, 4)
  | .dist4 x => some (4, 1, 5 + x)
  | .dist5 x => some (5, 1, 7 + x)
  | .dist6 x => some (6, 2, 9 + x)
  | .dist7 x => some (7, 2, 13 + x)
  | .dist8 x => some (8, 3, 17 + x)
  | .dist9 x => some (9, 3, 25 + x)
  | .dist10 x => some (10, 4, 33 + x)
  | .dist11 x => some (11, 4, 49 + x)
  | .dist12 x => some (12, 5, 65 + x)
  | .dist13 x => some (13, 5, 97 + x)
  | .dist14 x => some (14, 6, 129 + x)
  | .dist15 x => some (15, 6, 193 + x)
  | .dist16 x => some (16, 7, 257 + x)
  | .dist17 x => some (17, 7, 385 + x)
  | .dist18 x => some (18, 8, 513 + x)
  | .dist19 x => some (19, 8, 769 + x)
  | .dist20 x => some (20, 9, 1025 + x)
  | .dist21 x => some (21, 9, 1537 + x)
  | .dist22 x => some (22, 10, 2049 + x)
  | .dist23 x => some (23, 10, 3073 + x)
  | .dist24 x => some (24, 11, 4097 + x)
  | .dist25 x => some (25, 11, 6145 + x)
  | .dist26 x => some (26, 12, 8193 + x)
  | .dist27 x => some (27, 12, 12289 + x)
  | .dist28 x => some (28, 13, 16385 + x)
  | .dist29 x => some (29, 13, 24577 + x)
  | _ => none

/-- R418 to R420: the repeat symbol, its extra bits, and the count it stands for. -/
def repeatValue : Instr → Option (Nat × Nat × Nat)
  | .cl16 x => some (16, 2, 3 + x)
  | .cl17 x => some (17, 3, 3 + x)
  | .cl18 x => some (18, 7, 11 + x)
  | _ => none

/-- R383, R384, R415, R416 (30_encoding.md R118): the symbols no stream may use. -/
def reservedSymbol : Instr → Option Alphabet
  | .ll286 => some .litLen
  | .ll287 => some .litLen
  | .dist30 => some .distance
  | .dist31 => some .distance
  | _ => none

/-- The reserved command words and the feed with the reserved flush value (70_reset_and_hazards.md R493,
45_compress_driver.md R271). -/
def reservedCommand : Instr → Option Port
  | .cFeedReserved _ => some .cu
  | .cuReserved0010 => some .cu
  | .cuReserved0011 => some .cu
  | .cuReserved1000 => some .cu
  | .cuReserved1001 => some .cu
  | .cuReserved1010 => some .cu
  | .cuReserved1011 => some .cu
  | .cuReserved1101 => some .cu
  | .cuReserved1110 => some .cu
  | .cuReserved1111 => some .cu
  | .duReserved0010 => some .du
  | .duReserved0011 => some .du
  | .duReserved0101 => some .du
  | .duReserved0110 => some .du
  | .duReserved0111 => some .du
  | .duReserved1001 => some .du
  | .duReserved1010 => some .du
  | .duReserved1011 => some .du
  | .duReserved1101 => some .du
  | .duReserved1110 => some .du
  | .duReserved1111 => some .du
  | _ => none

/-- The edges of the state graph (46_decompress.md R301), block end in place of BE as R319 gives it. -/
def edge (lastBlock : Bool) (m : Mode) : DState → DState → Bool
  | .start, .outsideBlk => true
  | .outsideBlk, .uncompLen => true
  | .outsideBlk, .inBlk => true
  | .outsideBlk, .treesHdr => true
  | .uncompLen, .uncompNlen => true
  | .uncompNlen, .uncompData => true
  | .uncompNlen, .finish => lastBlock
  | .uncompNlen, .outsideBlk => !lastBlock
  | .uncompData, .uncompData => true
  | .uncompData, .finish => lastBlock
  | .uncompData, .outsideBlk => !lastBlock
  | .treesHdr, .treesLenLen => true
  | .treesLenLen, .treesLenLen => true
  | .treesLenLen, .treesLen => true
  | .treesLen, .treesLen => true
  | .treesLen, .treesLenRep => true
  | .treesLen, .inBlk => true
  | .treesLenRep, .treesLen => true
  | .inBlk, .inBlk => true
  | .inBlk, .finish => lastBlock
  | .inBlk, .outsideBlk => !lastBlock
  | .inBlk, .gotLenSym => true
  | .gotLenSym, .gotLen => true
  | .gotLen, .gotDistSym => true
  | .gotDistSym, .inBlk => true
  | .finish, .adler1 => m == .zlib
  | .finish, .finalSpin => m == .bare
  | .adler1, .adler2 => true
  | .adler2, .finalSpin => true
  | _, _ => false

/-- The raise sites of the automaton (60_exceptions.md R452, sites 1 to 19): the state and the code. -/
def raiseSite : DState → Err → Bool
  | .start, .header => true
  | .outsideBlk, .format => true
  | .uncompNlen, .format => true
  | .treesHdr, .table => true
  | .treesLenLen, .table => true
  | .treesLen, .table => true
  | .treesLenRep, .table => true
  | .inBlk, .table => true
  | .gotLen, .table => true
  | .gotDistSym, .format => true
  | .adler2, .checksum => true
  | _, _ => false

/-- The next state after all of a list of instructions, or none where one stops. -/
def execAll : List Instr → State → Option State
  | [], s => some s
  | i :: is, s =>
    match exec i s with
    | .next t => execAll is t
    | .fault _ => none
    | .refused _ => none

/-- The bytes that come with a command. -/
def feedData (i : Instr) : List Byte :=
  match commandOf i with
  | some (_, _, data) => data
  | none => []

/-- The bits of symbol `s` in a code: most significant code bit first (20_memory.md R72). -/
def codeBits (t : Table) (s : Nat) : List Bool := (bitsOf (codeOf t s).2 (codeOf t s).1).reverse

/-- The bits of a slot, with the code of its kind (44_block_emit.md R246, R247). -/
def slotBits (ll d cl : Table) : Slot → List Bool
  | .litLen s => codeBits ll s
  | .dist s => codeBits d s
  | .extra n v => bitsOf n v
  | .codeLen s => codeBits cl s

/-- What the LZ77 engine emits for `data` fed to it byte by byte and then flushed (41_lz77.md R161, R178). -/
def lzTokens (data : List Byte) : List Token :=
  let r := data.foldl (fun (r : List Token × Lz) b => (r.1 ++ (lzByte b r.2).1, (lzByte b r.2).2)) ([], Lz.fresh)
  r.1 ++ (lzFlush r.2).1

end Sys2Proof.Machine
end

