-- ==== Sys2Proof/Certificates/Slice0/Obligations.lean ====
section
/-! DEFINITION. The statements for the provers: one definition each, listed in OBLIGATIONS.json. -/

open Sys2Proof Sys2Proof.Machine

/-- O1. A step runs the instruction of the oldest input (00_scope.md R14, 30_encoding.md R116, 30_encoding.md R131,
notes/assumptions/2.md). -/
def Obligations.StepRunsTheNextInput : Prop :=
  (∀ s word data rest, s.inbox = .cu word data :: rest →
    step s = exec (decodeCommand .cu word data) { s with inbox := rest }) ∧
  (∀ s word data rest, s.inbox = .du word data :: rest →
    step s = exec (decodeCommand .du word data) { s with inbox := rest }) ∧
  (∀ s rest d a e, s.inbox = .advance :: rest → s.du = some d → d.err = .ok → expected d = some a →
    elementAt a d = .ok e →
    step s = exec e.instr { s with inbox := rest, du := some (eat e.codeBits d) }) ∧
  (∀ s rest d, s.inbox = .advance :: rest → s.du = some d → d.err = .ok →
    (expected d = none ∨ ∃ a e, expected d = some a ∧ elementAt a d = .error e) →
    step s = .next (settle (automatonStep d) { s with inbox := rest })) ∧
  (∀ s rest, s.inbox = .advance :: rest → (∀ d, s.du = some d → d.err ≠ .ok) →
    step s = .next { s with inbox := rest }) ∧
  ∀ s, s.inbox = [] → step s = .next s

/-- O2. Words written out from the encodings decode to their instructions (30_encoding.md R131, 30_encoding.md R102,
30_encoding.md R110, 30_encoding.md R111, 47_symbols.md R351, 47_symbols.md R417). -/
def Obligations.SampleWordsDecode : Prop :=
  decodeCommand .cu 0b0110 [0x61] = .cFeedFinish [0x61] ∧
  decodeCommand .du 0b1000 [] = .dEof ∧
  decodeElement .blockHeader [] 0b101 3 = .ok ⟨.blkDynamic true, 3, 0⟩ ∧
  decodeElement .litLen staticLitLen 0b10001001 8 = .ok ⟨.lit0To143 97, 8, 0⟩ ∧
  decodeElement .litLen staticLitLen 0b11001000 8 = .ok ⟨.len265 1, 7, 1⟩ ∧
  decodeElement .distance staticDist 0b100100 6 = .ok ⟨.dist4 1, 5, 1⟩ ∧
  decodeElement .codeLength (codes ([0, 1] ++ List.replicate 16 0 ++ [1])) 0b0 1 = .ok ⟨.cl0To15 1, 1, 0⟩ ∧
  decodeElement .codeLength (codes ([0, 1] ++ List.replicate 16 0 ++ [1])) 0b11111111 8 = .ok ⟨.cl18 127, 1, 7⟩

/-- O3. Every command word of both ports decodes, and encodes back to itself (30_encoding.md R131, 70_reset_and_hazards.md
R493). -/
def Obligations.EveryCommandWordIsAnInstruction : Prop :=
  ∀ p word data, ∃ data', encode staticTables (decodeCommand p word data) = some (.command p word data') ∧
    (word.toNat = 4 → data' = data) ∧ (p = .cu → 4 ≤ word.toNat → word.toNat ≤ 7 → data' = data)

/-- O4. Decoding the encoding of an instruction gives it back (commands and static codes) (30_encoding.md R102,
30_encoding.md R106, 30_encoding.md R107, 30_encoding.md R110, 30_encoding.md R111, 30_encoding.md R131, 42_huffman.md
R205). -/
def Obligations.StaticEncodeDecode : Prop :=
  ∀ i, Instr.wf i = true → (∀ s x, wireOf i ≠ some (.codeLen s x)) →
    ∃ words, encode staticTables i = some words ∧ decodeWords staticTables words = .ok i

/-- O5. Decoding the encoding gives the instruction back in every canonical code (42_huffman.md R196, 42_huffman.md R200,
42_huffman.md R201, 42_huffman.md R203, 30_encoding.md R106, 30_encoding.md R107). -/
def Obligations.CanonicalEncodeDecode : Prop :=
  ∀ (ll dl cl : List Nat) (w : WireTables),
    (∀ l ∈ ll, l ≤ 15) → (∀ l ∈ dl, l ≤ 15) → (∀ l ∈ cl, l ≤ 15) →
    ll.length ≤ 288 → dl.length ≤ 32 → cl.length ≤ 19 →
    mkTable ll = some w.litLen → mkTable dl = some w.dist → mkTable cl = some w.codeLen →
    ∀ i words, Instr.wf i = true → encode w i = some words → decodeWords w words = .ok i

/-- O6. The decoder gives only well-formed instructions (30_encoding.md R106, 30_encoding.md R108, 30_encoding.md R109). -/
def Obligations.DecodedInstructionsAreWellFormed : Prop :=
  ∀ w words i, decodeWords w words = .ok i → Instr.wf i = true

/-- O7. The canonical codes of a table are prefix-free (42_huffman.md R196, 42_huffman.md R200, 42_huffman.md R201). -/
def Obligations.CanonicalCodesArePrefixFree : Prop :=
  ∀ lens t, (∀ l ∈ lens, l ≤ 15) → mkTable lens = some t →
    (∀ c ∈ t, 1 ≤ c.len ∧ c.code < 2 ^ c.len ∧ lens[c.sym]? = some c.len) ∧
    ∀ c ∈ t, ∀ c' ∈ t, c.len ≤ c'.len → c'.code / 2 ^ (c'.len - c.len) = c.code → c = c'

/-- O8. More bits never change a lookup that has answered (42_huffman.md R203, 60_exceptions.md R459). -/
def Obligations.LookupIsStable : Prop :=
  ∀ t bits n hi k,
    (∀ s l, lookup t bits n = .sym s l → lookup t (bits + 2 ^ n * hi) (n + k) = .sym s l) ∧
    (lookup t bits n = .bad → lookup t (bits + 2 ^ n * hi) (n + k) = .bad)

/-- O9. C_NEW gives every CU register its reset value (R270). -/
def Obligations.NewCompressionContext : Prop :=
  ∀ i m s, (i = .cNewBare ∧ m = .bare ∨ i = .cNewZlib ∧ m = .zlib) → ∃ c : CuCtx,
    exec i s = .next { s with cu := some c } ∧
    c.mode = m ∧ c.first = true ∧ c.finished = false ∧ c.lastBlock = false ∧ c.adler = 1 ∧
    c.bw.acc = 0 ∧ c.bw.n = 0 ∧ c.bw.out = [] ∧
    c.lz.s = [] ∧ c.lz.r = 0 ∧ c.lz.p = 0 ∧ c.lz.h = 0 ∧ (∀ a, chainRead c.lz.head a = 0xFFFF) ∧
    c.lz.cand = [.empty, .empty, .empty] ∧ c.sym.start = 0 ∧ c.sym.n = 0

/-- O10. D_NEW gives every DU register its reset value (R300). -/
def Obligations.NewDecompressionContext : Prop :=
  ∀ i m s, (i = .dNewBare ∧ m = .bare ∨ i = .dNewZlib ∧ m = .zlib) → ∃ d : DuCtx,
    exec i s = .next { s with du := some d } ∧
    d.mode = m ∧ (m = .zlib → d.state = .start) ∧ (m = .bare → d.state = .outsideBlk) ∧ d.err = .ok ∧
    d.lastBlock = false ∧ d.bits = 0 ∧ d.nbits = 0 ∧ d.winPos = 0 ∧ d.produced = 0 ∧ d.adler = 1 ∧ d.adlerGot = 0 ∧
    d.out = [] ∧ d.uncompLen = 0 ∧ d.hlit = 0 ∧ d.hdist = 0 ∧ d.hclen = 0 ∧ d.lenPtr = 0 ∧ d.lenExtraBits = 0 ∧
    d.lenAddOn = 0 ∧ d.lenRep = 0 ∧ d.sym = 0 ∧ d.len = 0 ∧ d.cur = false ∧
    d.lenLen = List.replicate 19 0 ∧ d.lengths = List.replicate 316 0 ∧
    d.tabCL = none ∧ d.tabLL = none ∧ d.tabD = none

/-- O11. C_FREE and D_FREE leave the unit without a context (R277, R326). -/
def Obligations.FreeDestroysTheContext : Prop :=
  ∀ s, exec .cFree s = .next { s with cu := none } ∧ exec .dFree s = .next { s with du := none }

/-- O12. Reserved command words are refused (R493). -/
def Obligations.ReservedWordsAreRefused : Prop :=
  (∀ s word data, word.toNat ∈ [2, 3, 7, 8, 9, 10, 11, 13, 14, 15] →
    exec (decodeCommand .cu word data) s = .next { s with replies := s.replies ++ [.cu []] }) ∧
  (∀ s word data e, word.toNat ∈ [2, 3, 5, 6, 7, 9, 10, 11, 13, 14, 15] → e = (s.du.map DuCtx.err).getD .ok →
    exec (decodeCommand .du word data) s = .next { s with replies := s.replies ++ [.du [] e] }) ∧
  (∀ i s, reservedCommand i = some .cu → exec i s = .next { s with replies := s.replies ++ [.cu []] }) ∧
  ∀ i s e, reservedCommand i = some .du → e = (s.du.map DuCtx.err).getD .ok →
    exec i s = .next { s with replies := s.replies ++ [.du [] e] }

/-- O13. C_FEED is refused without a context, after FINISH, and with flush 3 (R271). -/
def Obligations.CompressionFeedIsRefused : Prop :=
  (∀ i data s, (i = .cFeedNone data ∨ i = .cFeedSync data ∨ i = .cFeedFinish data) →
    (s.cu = none ∨ ∃ c, s.cu = some c ∧ c.finished = true) →
    exec i s = .next { s with replies := s.replies ++ [.cu []] }) ∧
  ∀ data s, exec (.cFeedReserved data) s = .next { s with replies := s.replies ++ [.cu []] }

/-- O14. C_FEED NONE completes, takes all the data, and begins a zlib stream with 78 9C (45_compress_driver.md R272,
45_compress_driver.md R274, 40_bitio.md R143). -/
def Obligations.FeedNoneTakesTheData : Prop :=
  ∀ s c data, s.cu = some c → CuInv c → c.finished = false → ∃ c' out,
    exec (.cFeedNone data) s = .next { s with cu := some c', replies := s.replies ++ [.cu out] } ∧
    c'.mode = c.mode ∧ c'.first = false ∧ c'.finished = false ∧ c'.lastBlock = c.lastBlock ∧
    (c.mode = .bare → c'.adler = c.adler) ∧ (c.mode = .zlib → c'.adler = adler32 c.adler data) ∧
    c'.lz.s = c.lz.s ++ data ∧ c'.lz.r = c.lz.r + data.length ∧ c'.bw.out = [] ∧
    (c.first = true → c.mode = .zlib → ∃ rest, out = 0x78 :: 0x9C :: rest) ∧
    (c.first = false → data = [] → c' = c ∧ out = [])

/-- O15. C_FEED SYNC completes and leaves nothing pending (45_compress_driver.md R272, 45_compress_driver.md R275,
41_lz77.md R178, 43_block_chooser.md R229). -/
def Obligations.FeedSyncFlushesEverything : Prop :=
  ∀ s c data, s.cu = some c → CuInv c → c.finished = false → ∃ c' out,
    exec (.cFeedSync data) s = .next { s with cu := some c', replies := s.replies ++ [.cu out] } ∧
    c'.mode = c.mode ∧ c'.first = false ∧ c'.finished = false ∧ c'.lastBlock = c.lastBlock ∧
    (c.mode = .bare → c'.adler = c.adler) ∧ (c.mode = .zlib → c'.adler = adler32 c.adler data) ∧
    c'.lz.s = c.lz.s ++ data ∧ c'.lz.r = c.lz.r + data.length ∧ c'.lz.p = c'.lz.r ∧
    c'.lz.cand = [.empty, .empty, .empty] ∧
    c'.sym.n = 0 ∧ c'.bw.n = 0 ∧ c'.bw.out = [] ∧
    (c.first = true → c.mode = .zlib → ∃ rest, out = 0x78 :: 0x9C :: rest)

/-- O16. C_FEED FINISH completes and ends the stream (45_compress_driver.md R272, 45_compress_driver.md R276). -/
def Obligations.FeedFinishEndsTheStream : Prop :=
  ∀ s c data, s.cu = some c → CuInv c → c.finished = false → ∃ c' out,
    exec (.cFeedFinish data) s = .next { s with cu := some c', replies := s.replies ++ [.cu out] } ∧
    c'.mode = c.mode ∧ c'.first = false ∧ c'.finished = true ∧ c'.lastBlock = true ∧
    (c.mode = .bare → c'.adler = c.adler) ∧ (c.mode = .zlib → c'.adler = adler32 c.adler data) ∧
    c'.lz.s = c.lz.s ++ data ∧ c'.lz.r = c.lz.r + data.length ∧ c'.lz.p = c'.lz.r ∧
    c'.sym.n = 0 ∧ c'.bw.n = 0 ∧ c'.bw.out = [] ∧
    (c.first = true → c.mode = .zlib → ∃ rest, out = 0x78 :: 0x9C :: rest)

/-- O17. SYNC output ends with 00 00 FF FF, FINISH output in zlib mode with the Adler-32 (45_compress_driver.md R275,
45_compress_driver.md R276, 44_block_emit.md R252, 30_encoding.md R114). -/
def Obligations.FlushedOutputEndsAsTheFormatSays : Prop :=
  ∀ s c data, s.cu = some c → CuInv c → c.bw.ok → c.finished = false →
    (∃ c' pre, exec (.cFeedSync data) s =
      .next { s with cu := some c', replies := s.replies ++ [.cu (pre ++ [0x00, 0x00, 0xFF, 0xFF])] }) ∧
    (c.mode = .zlib → ∃ c' pre, exec (.cFeedFinish data) s =
      .next { s with
        cu := some c'
        replies := s.replies ++ [.cu (pre ++ [c'.adler.extractLsb' 24 8, c'.adler.extractLsb' 16 8,
          c'.adler.extractLsb' 8 8, c'.adler.extractLsb' 0 8])] })

/-- O18. SYNC with nothing pending returns exactly one empty stored block (45_compress_driver.md R275, 44_block_emit.md
R252). -/
def Obligations.SyncWithNothingPending : Prop :=
  ∀ s c, s.cu = some c → c.finished = false → c.first = false → c.lz.p = c.lz.r → c.sym.n = 0 →
    c.bw = ⟨0, 0, []⟩ →
    exec (.cFeedSync []) s = .next { s with
      cu := some { c with lz := { c.lz with cand := [.empty, .empty, .empty] } }
      replies := s.replies ++ [.cu [0x00, 0x00, 0x00, 0xFF, 0xFF]] }

/-- O19. Splitting the input with NONE feeds changes neither the output nor the context (43_block_chooser.md R230,
41_lz77.md R170, 45_compress_driver.md R279). -/
def Obligations.StreamingInvariance : Prop :=
  ∀ s c a b i j, s.cu = some c → c.finished = false →
    (i = .cFeedNone b ∧ j = .cFeedNone (a ++ b) ∨ i = .cFeedSync b ∧ j = .cFeedSync (a ++ b) ∨
      i = .cFeedFinish b ∧ j = .cFeedFinish (a ++ b)) →
    ∃ s₁ s₂ t o₁ o₂, exec (.cFeedNone a) s = .next s₁ ∧ exec i s₁ = .next s₂ ∧ exec j s = .next t ∧
      s₁.replies = s.replies ++ [.cu o₁] ∧ s₂.replies = s₁.replies ++ [.cu o₂] ∧
      t.replies = s.replies ++ [.cu (o₁ ++ o₂)] ∧ t.cu = s₂.cu

/-- O20. The DU decodes what the CU emits to the data; the empty input with FINISH gives the static empty block
(45_compress_driver.md R279, 45_compress_driver.md R281, 44_block_emit.md R253, 41_lz77.md R160, 45_compress_driver.md
R276, 44_block_emit.md R251, 95_test_vectors.md V-DRV-1, 95_test_vectors.md V-DRV-2). -/
def Obligations.RoundTrip : Prop :=
  (∀ s m feeds last data st, s.cu = some (CuCtx.fresh m) → s.du = some (DuCtx.fresh m) →
    (∀ i ∈ feeds, ∃ x, i = .cFeedNone x ∨ i = .cFeedSync x) →
    (∃ x, last = .cFeedSync x ∧ st = .outsideBlk ∨ last = .cFeedFinish x ∧ st = .finalSpin) →
    data = (feeds ++ [last]).flatMap feedData → ∃ t d, ∃ outs : List (List Byte),
      execAll (feeds ++ [last]) s = some t ∧ t.replies = s.replies ++ outs.map .cu ∧ t.du = s.du ∧
      exec (.dFeed outs.flatten) t = .next { t with du := some d, replies := t.replies ++ [.du data .ok] } ∧
      d.err = .ok ∧ d.state = st ∧ d.nbits = 0) ∧
  (∃ t, exec (.cFeedFinish []) { State.reset with cu := some (CuCtx.fresh .bare) } = .next t ∧
    t.replies = [.cu [0x03, 0x00]]) ∧
  ∃ t, exec (.cFeedFinish []) { State.reset with cu := some (CuCtx.fresh .zlib) } = .next t ∧
    t.replies = [.cu [0x78, 0x9C, 0x03, 0x00, 0x00, 0x00, 0x00, 0x01]]

/-- O21. D_FEED always completes (46_decompress.md R323, 46_decompress.md R315). -/
def Obligations.DFeedAlwaysAnswers : Prop :=
  ∀ s d data, s.du = some d → DuInv d → d.err = .ok → ∃ d' new,
    exec (.dFeed data) s = .next { s with du := some d', replies := s.replies ++ [.du (d.out ++ new) d'.err] } ∧
    d'.out = [] ∧ d'.mode = d.mode ∧ (d'.err = .ok → d'.state ≠ .finish)

/-- O22. The output and the error do not depend on how the stream is split into feeds (46_decompress.md R323,
46_decompress.md R324, 40_bitio.md R152). -/
def Obligations.FeedingIsIndependentOfTheSplit : Prop :=
  ∀ s d a b, s.du = some d → DuInv d → d.err = .ok → ∃ s₁ s₂ t o₁ e₁ o₂ e,
    exec (.dFeed a) s = .next s₁ ∧ exec (.dFeed b) s₁ = .next s₂ ∧ exec (.dFeed (a ++ b)) s = .next t ∧
    s₁.replies = s.replies ++ [.du o₁ e₁] ∧ s₂.replies = s₁.replies ++ [.du o₂ e] ∧
    t.replies = s.replies ++ [.du (o₁ ++ o₂) e] ∧ (e = .ok → t.du = s₂.du)

/-- O23. D_FEED and D_EOF are refused without a context and after an error (60_exceptions.md R456, 60_exceptions.md R457,
70_reset_and_hazards.md R492). -/
def Obligations.DecompressionFeedIsRefused : Prop :=
  ∀ i data s, (i = .dFeed data ∨ i = .dEof) →
    (s.du = none → exec i s = .next { s with replies := s.replies ++ [.du [] .ok] }) ∧
    ∀ d, s.du = some d → d.err ≠ .ok → exec i s = .next { s with replies := s.replies ++ [.du [] d.err] }

/-- O24. D_EOF succeeds in FINALSPIN and raises E_EOF before it (R325). -/
def Obligations.EndOfInput : Prop :=
  (∀ s, s.du = none → exec .dEof s = .next { s with replies := s.replies ++ [.du [] .ok] }) ∧
  (∀ s d, s.du = some d → d.err ≠ .ok → exec .dEof s = .next { s with replies := s.replies ++ [.du [] d.err] }) ∧
  (∀ s d, s.du = some d → d.err = .ok → d.state = .finalSpin →
    exec .dEof s = .next { s with replies := s.replies ++ [.du [] .ok] }) ∧
  ∀ s d, s.du = some d → d.err = .ok → d.out = [] → d.state ≠ .finalSpin → ∃ d',
    exec .dEof s = .next { s with du := some d', replies := s.replies ++ [.du [] .eof] } ∧ d'.err = .eof ∧ d'.out = []

/-- O25. Only D_NEW and D_FREE have an effect on a context in error (60_exceptions.md R456). -/
def Obligations.ErrorsAreSticky : Prop :=
  ∀ i s t d, s.du = some d → d.err ≠ .ok → exec i s = .next t →
    i ≠ .dNewBare → i ≠ .dNewZlib → i ≠ .dFree → t.du = some d

/-- O26. The two units share nothing (10_state.md R20, 20_memory.md R81, 60_exceptions.md R464). -/
def Obligations.UnitsAreIndependent : Prop :=
  (∀ i s t d, portOf i = .cu → exec i s = .next t →
    t.du = s.du ∧ exec i { s with du := d } = .next { t with du := d }) ∧
  ∀ i s t c, portOf i = .du → exec i s = .next t →
    t.cu = s.cu ∧ exec i { s with cu := c } = .next { t with cu := c }

/-- O27. An instruction gives at most one answer, on the model's answer list, and touches no other input or answer
(00_scope.md R14, 45_compress_driver.md R270, 45_compress_driver.md R277, 46_decompress.md R300, 46_decompress.md
R326, notes/assumptions/4.md). -/
def Obligations.AnswersAreAppended : Prop :=
  ∀ i s t, exec i s = .next t → t.inbox = s.inbox ∧
    ((t.replies = s.replies ∨ ∃ r, t.replies = s.replies ++ [r]) ∧
    (i = .cNewBare ∨ i = .cNewZlib ∨ i = .cFree ∨ i = .dNewBare ∨ i = .dNewZlib ∨ i = .dFree →
      t.replies = s.replies))

/-- O28. A wire element runs exactly where the automaton decodes its alphabet; elsewhere the model refuses it by three
names of its own (30_encoding.md R116, 46_decompress.md R301, notes/assumptions/11.md). -/
def Obligations.ElementsRunWhereTheAutomatonDecodesThem : Prop :=
  ∀ i a s, elementAlphabet i = some a →
    (s.du = none → exec i s = .refused .elementWithoutContext) ∧
    (∀ d, s.du = some d → d.err ≠ .ok → exec i s = .refused .elementAfterError) ∧
    (∀ d, s.du = some d → d.err = .ok → expected d ≠ some a → exec i s = .refused .elementNotExpected) ∧
    ∀ d, ReadyFor s d a → ∃ t, exec i s = .next t

/-- O29. A literal is output, enters the window and, in zlib mode, the checksum (R320). -/
def Obligations.LiteralIsOutput : Prop :=
  ∀ i b s d, (i = .lit0To143 b ∨ i = .lit144To255 b) → ReadyFor s d .litLen → Memory.wf windowReset d.win = true →
    ∃ w a, exec i s = .next { s with du := some { d with
        out := d.out ++ [b]
        win := w
        winPos := (d.winPos + 1) % 32768
        produced := if d.produced < 32768 then d.produced + 1 else d.produced
        adler := a } } ∧
      (d.mode = .bare → a = d.adler) ∧ (d.mode = .zlib → a = adler32 d.adler [b]) ∧
      ∀ k, winRead w k = if k = d.winPos then b else winRead d.win k

/-- O30. Symbol 256 ends the block (47_symbols.md R353, 46_decompress.md R319, 42_huffman.md R206,
notes/assumptions/6.md). -/
def Obligations.EndOfBlockSymbol : Prop :=
  ∀ s d, ReadyFor s d .litLen → exec .eob s = .next { s with du := some { d with
    state := if d.lastBlock then .finish else .outsideBlk, tabLL := none, tabD := none } }

/-- O31. Each length symbol sets D.LEN to its match length (47_symbols.md R354 to R382, 46_decompress.md R307,
46_decompress.md R312, 30_encoding.md R113, notes/assumptions/15.md). -/
def Obligations.LengthSymbols : Prop :=
  ∀ i sym n len s d, lengthValue i = some (sym, n, len) → Instr.wf i = true → ReadyFor s d .litLen →
    3 ≤ len ∧ len ≤ 258 ∧ exec i s = .next { s with du := some { d with
      sym := sym, len := len, state := .gotLen, bits := d.bits >>> n, nbits := d.nbits - n } }

/-- O32. Each distance symbol copies D.LEN bytes from its distance (47_symbols.md R385 to R414, 46_decompress.md R313,
46_decompress.md R314, 46_decompress.md R320, 46_decompress.md R321, notes/assumptions/15.md). -/
def Obligations.DistanceSymbolsCopy : Prop :=
  ∀ i sym n dist s d, distanceValue i = some (sym, n, dist) → Instr.wf i = true → ReadyFor s d .distance → DuInv d →
    dist ≤ d.produced → ∃ bytes w a, exec i s = .next { s with du := some { d with
        sym := sym
        state := .inBlk
        bits := d.bits >>> n
        nbits := d.nbits - n
        out := d.out ++ bytes
        win := w
        winPos := (d.winPos + d.len) % 32768
        produced := min 32768 (d.produced + d.len)
        adler := a } } ∧
      bytes.length = d.len ∧
      (∀ k, k < d.len → bytes[k]? = some (if k < dist then winRead d.win ((d.winPos + 32768 - dist + k) % 32768)
        else bytes.getD (k - dist) 0)) ∧
      (∀ k, k < d.len → winRead w ((d.winPos + k) % 32768) = bytes.getD k 0) ∧
      (∀ j, (∀ k, k < d.len → j ≠ (d.winPos + k) % 32768) → winRead w j = winRead d.win j) ∧
      (d.mode = .bare → a = d.adler) ∧ (d.mode = .zlib → a = adler32 d.adler bytes)

/-- O33. A distance beyond the bytes produced raises E_FORMAT and copies nothing (46_decompress.md R322,
notes/assumptions/15.md). -/
def Obligations.DistanceTooFar : Prop :=
  ∀ i sym n dist s d, distanceValue i = some (sym, n, dist) → Instr.wf i = true → ReadyFor s d .distance →
    d.produced < dist → ∃ d', exec i s =
      .next { s with du := some d', replies := s.replies ++ [.du d.out .format] } ∧ d'.err = .format ∧ d'.out = []

/-- O34. The reserved symbols raise E_TABLE (47_symbols.md R383, 47_symbols.md R384, 47_symbols.md R415, 47_symbols.md
R416, 60_exceptions.md R455). -/
def Obligations.ReservedSymbolsRaise : Prop :=
  ∀ i a s d, reservedSymbol i = some a → ReadyFor s d a → ∃ d', exec i s =
    .next { s with du := some d', replies := s.replies ++ [.du d.out .table] } ∧ d'.err = .table ∧ d'.out = []

/-- O35. The block headers start a stored, a static and a dynamic block; type 3 raises E_FORMAT (46_decompress.md R303,
30_encoding.md R102, 40_bitio.md R147, 60_exceptions.md R455). -/
def Obligations.BlockHeaders : Prop :=
  ∀ f s d, ReadyFor s d .blockHeader →
    exec (.blkStored f) s = .next { s with du := some { d with
      lastBlock := f, state := .uncompLen, bits := d.bits >>> (d.nbits % 8), nbits := d.nbits - d.nbits % 8 } } ∧
    exec (.blkStatic f) s = .next { s with du := some { d with lastBlock := f, cur := false, state := .inBlk } } ∧
    exec (.blkDynamic f) s = .next { s with du := some { d with lastBlock := f, state := .treesHdr } } ∧
    ∃ d', exec (.blkReserved f) s =
      .next { s with du := some d', replies := s.replies ++ [.du d.out .format] } ∧ d'.err = .format ∧ d'.out = []

/-- O36. A code-length symbol 0 to 15 defines the next length (R417). -/
def Obligations.CodeLengthIsWritten : Prop :=
  ∀ v s d, v ≤ 15 → ReadyFor s d .codeLength →
    exec (.cl0To15 v) s = .next { s with du := some { d with
      lengths := d.lengths.set d.lenPtr v, lenPtr := d.lenPtr + 1 } }

/-- O37. The repeat codes define 3 to 138 lengths at once (47_symbols.md R418, 47_symbols.md R419, 47_symbols.md R420,
46_decompress.md R310, 46_decompress.md R311, notes/assumptions/15.md). -/
def Obligations.RepeatCodesFillLengths : Prop :=
  ∀ i c n k rep s d, repeatValue i = some (c, n, k) → Instr.wf i = true → ReadyFor s d .codeLength → DuInv d →
    (c = 16 → 0 < d.lenPtr) → d.lenPtr + k ≤ d.hlit + d.hdist →
    rep = (if c = 16 then d.lengths.getD (d.lenPtr - 1) 0 else 0) →
    exec i s = .next { s with du := some { d with
      lengths := d.lengths.take d.lenPtr ++ List.replicate k rep ++ d.lengths.drop (d.lenPtr + k)
      lenPtr := d.lenPtr + k
      lenRep := rep
      lenExtraBits := n
      lenAddOn := if c = 18 then 11 else 3
      bits := d.bits >>> n
      nbits := d.nbits - n } }

/-- O38. A repeat with nothing to repeat, or beyond the last length, raises E_TABLE (47_symbols.md R418, 47_symbols.md
R419, 47_symbols.md R420, 46_decompress.md R310, 46_decompress.md R311, notes/assumptions/15.md). -/
def Obligations.RepeatErrors : Prop :=
  ∀ i c n k s d, repeatValue i = some (c, n, k) → Instr.wf i = true → ReadyFor s d .codeLength →
    (c = 16 ∧ d.lenPtr = 0 ∨ d.hlit + d.hdist < d.lenPtr + k) → ∃ d', exec i s =
      .next { s with du := some d', replies := s.replies ++ [.du d.out .table] } ∧ d'.err = .table ∧ d'.out = []

/-- O39. The meaning of a wire element is what the automaton does on its bits (46_decompress.md R303, 46_decompress.md
R307, 46_decompress.md R310 to R314, 47_symbols.md R350). -/
def Obligations.ElementsAgreeWithTheAutomaton : Prop :=
  ∀ s d a e, ReadyFor s d a → elementAt a d = .ok e → ∃ k, (k = 1 ∨ k = 2) ∧
    exec e.instr { s with du := some (eat e.codeBits d) } = .next (settle (automatonSteps k d) s)

/-- O40. A suspended step has changed nothing (46_decompress.md R324, 46_decompress.md R318). -/
def Obligations.SuspensionChangesNothing : Prop :=
  (∀ d d', automatonStep d = .suspended d' → d.state ≠ .finalSpin → d' = d) ∧
  ∀ d, d.state = .finalSpin → automatonStep d = .suspended { d with bits := 0, nbits := 0 }

/-- O41. Every completed step follows an edge of the state graph (46_decompress.md R301, 46_decompress.md R319). -/
def Obligations.StateGraph : Prop :=
  ∀ d d', automatonStep d = .completed d' →
    edge d'.lastBlock d.mode d.state d'.state = true ∧ d'.mode = d.mode ∧ d'.err = d.err

/-- O42. A step raises only the codes 60_exceptions.md lists for its state (60_exceptions.md R452, 60_exceptions.md R454). -/
def Obligations.RaiseSites : Prop :=
  ∀ d e d', automatonStep d = .raised e d' → raiseSite d.state e = true ∧ d'.out = d.out

/-- O43. START accepts exactly the valid zlib headers; TREES_HDR, TREES_LENLEN and the table build write what the rules
say (46_decompress.md R302, 46_decompress.md R308, 46_decompress.md R309, 46_decompress.md R310, 30_encoding.md R105,
30_encoding.md R112, 10_state.md R38, notes/assumptions/6.md). -/
def Obligations.HeaderSteps : Prop :=
  (∀ d, d.state = .start →
    (d.nbits < 16 → automatonStep d = .suspended d) ∧
    ∀ cmf flg, 16 ≤ d.nbits → cmf = d.bits.toNat % 256 → flg = d.bits.toNat / 256 % 256 →
      (cmf % 16 = 8 ∧ cmf / 16 ≤ 7 ∧ flg / 32 % 2 = 0 ∧ (cmf * 256 + flg) % 31 = 0 →
        automatonStep d = .completed { d with bits := d.bits >>> 16, nbits := d.nbits - 16, state := .outsideBlk }) ∧
      (¬(cmf % 16 = 8 ∧ cmf / 16 ≤ 7 ∧ flg / 32 % 2 = 0 ∧ (cmf * 256 + flg) % 31 = 0) →
        ∃ d', automatonStep d = .raised .header d' ∧ d'.out = d.out)) ∧
  (∀ d, d.state = .treesHdr →
    (d.nbits < 14 → automatonStep d = .suspended d) ∧
    ∀ v hlit hdist, 14 ≤ d.nbits → v = d.bits.toNat → hlit = 257 + v % 32 → hdist = 1 + v / 32 % 32 →
      (hlit ≤ 286 → hdist ≤ 30 → automatonStep d = .completed { d with
        bits := d.bits >>> 14, nbits := d.nbits - 14, hlit := hlit, hdist := hdist, hclen := 4 + v / 1024 % 16
        lenPtr := 0, lenLen := List.replicate 19 0, state := .treesLenLen }) ∧
      (286 < hlit ∨ 30 < hdist → ∃ d', automatonStep d = .raised .table d' ∧ d'.out = d.out)) ∧
  (∀ d, d.state = .treesLenLen →
    (d.nbits < 3 → automatonStep d = .suspended d) ∧
    ∀ l, 3 ≤ d.nbits → l = d.lenLen.set ([16, 17, 18, 0, 8, 7, 9, 6, 10, 5, 11, 4, 12, 3, 13, 2, 14, 1, 15].getD d.lenPtr 0)
        (d.bits.toNat % 8) →
      (d.lenPtr + 1 ≠ d.hclen → automatonStep d = .completed { d with
        bits := d.bits >>> 3, nbits := d.nbits - 3, lenLen := l, lenPtr := d.lenPtr + 1 }) ∧
      (d.lenPtr + 1 = d.hclen →
        (∀ t, mkTable l = some t → automatonStep d = .completed { d with
          bits := d.bits >>> 3, nbits := d.nbits - 3, lenLen := l, tabCL := some t, lenPtr := 0
          lengths := List.replicate 316 0, state := .treesLen }) ∧
        (mkTable l = none → ∃ d', automatonStep d = .raised .table d' ∧ d'.out = d.out))) ∧
  ∀ d ll dl, d.state = .treesLen → d.hlit + d.hdist ≤ d.lenPtr → ll = d.lengths.take d.hlit →
    dl = (d.lengths.drop d.hlit).take d.hdist →
    (∀ tl td, mkTable ll = some tl → mkTable dl = some td → automatonStep d = .completed { d with
      tabLL := some tl, tabD := some td, tabCL := none, cur := true, state := .inBlk }) ∧
    (mkTable ll = none ∨ mkTable dl = none → ∃ d', automatonStep d = .raised .table d' ∧ d'.out = d.out)

/-- O44. A D_FEED of one stored block outputs its bytes (46_decompress.md R303 to R306, 46_decompress.md R315,
46_decompress.md R319, 46_decompress.md R323, 30_encoding.md R104). -/
def Obligations.StoredBlockIsCopied : Prop :=
  ∀ s d f data, s.du = some d → DuInv d → d.err = .ok → d.state = .outsideBlk → d.nbits = 0 → data.length < 65536 →
    ∃ d', exec (.dFeed ([if f then 1 else 0, BitVec.ofNat 8 data.length, BitVec.ofNat 8 (data.length / 256),
        BitVec.ofNat 8 (255 - data.length % 256), BitVec.ofNat 8 (255 - data.length / 256)] ++ data)) s =
      .next { s with du := some d', replies := s.replies ++ [.du (d.out ++ data) .ok] } ∧
      d'.err = .ok ∧ d'.lastBlock = f ∧ d'.nbits = 0 ∧ d'.produced = min 32768 (d.produced + data.length) ∧
      d'.state = (if f then (if d.mode = .bare then .finalSpin else .adler1) else .outsideBlk)

/-- O45. The zlib trailer is compared with the Adler-32 of the output (46_decompress.md R316, 46_decompress.md R317,
30_encoding.md R114). -/
def Obligations.TrailerIsCompared : Prop :=
  ∀ s d b₀ b₁ b₂ b₃, s.du = some d → DuInv d → d.err = .ok → d.state = .adler1 → d.nbits = 0 → ∃ d' e,
    exec (.dFeed [b₀, b₁, b₂, b₃]) s = .next { s with du := some d', replies := s.replies ++ [.du d.out e] } ∧
    d'.err = e ∧ d'.out = [] ∧
    (d.adler = b₀ ++ b₁ ++ b₂ ++ b₃ → e = .ok ∧ d'.state = .finalSpin) ∧
    (d.adler ≠ b₀ ++ b₁ ++ b₂ ++ b₃ → e = .checksum)

/-- O46. put appends an n-bit field to the stream, low bit first (R141). -/
def Obligations.PutAppendsTheField : Prop :=
  ∀ w v n, w.ok → n ≤ 16 → v < 2 ^ n →
    (put v n w).bits = w.bits ++ bitsOf n v ∧ (put v n w).ok ∧ (put v n w).n = (w.n + n) % 8 ∧
    ∃ bytes, (put v n w).out = w.out ++ bytes

/-- O47. putcode sends the code most significant bit first; align pads with zeros; a dynamic block is its header, table
description, slots and end, in that order (40_bitio.md R142, 40_bitio.md R148, 44_block_emit.md R240, 44_block_emit.md
R246, 44_block_emit.md R247, 44_block_emit.md R250, 30_encoding.md R105, 30_encoding.md R112). -/
def Obligations.CodesPaddingAndBlocks : Prop :=
  (∀ w c n, w.ok → 1 ≤ n → n ≤ 15 → c < 2 ^ n → (putCode c n w).bits = w.bits ++ (bitsOf n c).reverse ∧
    (putCode c n w).ok) ∧
  (∀ w, w.ok → (alignWriter w).bits = w.bits ++ List.replicate ((8 - w.n) % 8) false ∧
    (alignWriter w).n = 0 ∧ (alignWriter w).acc = 0) ∧
  ∀ b f w t, w.ok → (∀ x ∈ b, Slot.legal x = true) → t = buildTables b →
    257 ≤ t.nlit ∧ t.nlit ≤ 286 ∧ 1 ≤ t.ndist ∧ t.ndist ≤ 30 ∧ 4 ≤ t.nclen ∧ t.nclen ≤ 19 ∧
    (emitDynamic b f w).bits = w.bits ++ [f, false, true] ++ bitsOf 5 (t.nlit - 257) ++ bitsOf 5 (t.ndist - 1) ++
      bitsOf 4 (t.nclen - 4) ++
      ([16, 17, 18, 0, 8, 7, 9, 6, 10, 5, 11, 4, 12, 3, 13, 2, 14, 1, 15].take t.nclen).flatMap
        (fun s => bitsOf 3 (t.clLens.getD s 0)) ++
      t.treeSrc.flatMap (slotBits [] [] (codes t.clLens)) ++
      b.flatMap (slotBits (codes t.llLens) (codes t.dLens) []) ++ codeBits (codes t.llLens) 256

/-- O48. refill moves bytes until 24 bits are buffered or the input is used up (R144). -/
def Obligations.RefillMovesWholeBytes : Prop :=
  ∀ d inp, d.nbits ≤ 31 → d.bits.toNat < 2 ^ d.nbits → ∃ taken rest b n,
    inp = taken ++ rest ∧ refill d inp = ({ d with bits := b, nbits := n }, rest) ∧
    n = d.nbits + 8 * taken.length ∧ n ≤ 31 ∧ b.toNat < 2 ^ n ∧ (24 ≤ n ∨ rest = []) ∧
    (24 ≤ d.nbits → taken = []) ∧
    DuCtx.upcoming { d with bits := b, nbits := n } rest = d.upcoming inp

/-- O49. peek reads the next bits, eat and align consume them (R145, R146, R147). -/
def Obligations.PeekAndEat : Prop :=
  (∀ d inp n, n ≤ d.nbits → d.nbits ≤ 32 →
    bitsOf n (peek n d) = (d.upcoming inp).take n ∧ peek n d < 2 ^ n ∧
    (eat n d).upcoming inp = (d.upcoming inp).drop n ∧ (eat n d).nbits = d.nbits - n) ∧
  ∀ d inp, d.nbits ≤ 32 → (alignReader d).upcoming inp = (d.upcoming inp).drop (d.nbits % 8) ∧
    (alignReader d).nbits % 8 = 0

/-- O50. Adler-32 is the pair of running sums modulo 65521 (R273). -/
def Obligations.AdlerSums : Prop :=
  (∀ a data, adlerOk a → adlerOk (adler32 a data) ∧
    (adler32 a data).toNat % 65536 = (a.toNat % 65536 + (data.map BitVec.toNat).sum) % 65521 ∧
    (adler32 a data).toNat / 65536 = (a.toNat / 65536 + ((List.range data.length).map fun k =>
      (a.toNat % 65536 + ((data.take (k + 1)).map BitVec.toNat).sum) % 65521).sum) % 65521) ∧
  ∀ a u v, adler32 (adler32 a u) v = adler32 a (u ++ v)

/-- O51. The length-limited build never exceeds its limit (42_huffman.md R190, 42_huffman.md R194, 42_huffman.md R195). -/
def Obligations.HuffmanLengthsWithinTheLimit : Prop :=
  ∀ f limit, (limit = 15 ∧ f.length ≤ 286 ∨ limit = 7 ∧ f.length ≤ 19) →
    (∀ l ∈ huffLimited f limit, l ≤ limit) ∧ (huffLimited f limit).length = f.length ∧
    ∀ s, s < f.length → ((huffLimited f limit).getD s 0 = 0 ↔ f.getD s 0 = 0)

/-- O52. With two or more symbols the lengths are complete, so the DU accepts them (42_huffman.md R197, 42_huffman.md
R192, 42_huffman.md R201). -/
def Obligations.HuffmanCodesAreComplete : Prop :=
  ∀ f limit, (limit = 15 ∧ f.length ≤ 286 ∨ limit = 7 ∧ f.length ≤ 19) →
    (2 ≤ activeCount f → kraftSum (huffLimited f limit) = 2 ^ 15) ∧
    mkTable (huffLimited f limit) = some (codes (huffLimited f limit))

/-- O53. choose returns the candidate boundary of least estimate per slot, the latest among equals (R228). -/
def Obligations.ChooseIsTheBestBoundary : Prop :=
  ∀ slots i, slots ≠ [] → (∀ x ∈ slots, x.legal = true) → i = choose slots →
    1 ≤ i ∧ i ≤ slots.length ∧ boundaryAt (slots.drop i) = true ∧
    ∀ j, 1 ≤ j → j ≤ slots.length → boundaryAt (slots.drop j) = true →
      estimate (slots.take i) * j ≤ estimate (slots.take j) * i ∧
      (i < j → estimate (slots.take i) * j < estimate (slots.take j) * i)

/-- O54. lcode and dcode give the symbol whose range holds the value (R223). -/
def Obligations.LengthAndDistanceCodes : Prop :=
  (∀ l, 3 ≤ l → l ≤ 258 → (l = 258 → lcode l = 28) ∧
    (l ≠ 258 → lcode l ≤ 27 ∧ ∀ k, k ≤ 27 → (lenBase.getD k 0 ≤ l ↔ k ≤ lcode l)) ∧
    l - lenBase.getD (lcode l) 0 < 2 ^ lenExtra.getD (lcode l) 0 ∧
    matchLength (257 + lcode l) (l - lenBase.getD (lcode l) 0) = l) ∧
  ∀ d, 1 ≤ d → d ≤ 32768 → dcode d ≤ 29 ∧ (∀ j, j ≤ 29 → (distBase.getD j 0 ≤ d ↔ j ≤ dcode d)) ∧
    d - distBase.getD (dcode d) 0 < 2 ^ distExtra.getD (dcode d) 0 ∧
    matchDistance (dcode d) (d - distBase.getD (dcode d) 0) = d

/-- O55. The packed form of a slot has its fields where R132 says; unpacking gives exactly the packed slots back
(30_encoding.md R132, 10_state.md R43, 93_implementation_defined.md U21). -/
def Obligations.PackedSlots : Prop :=
  (∀ w x, unpackSlot w = some x ↔ x.legal = true ∧ packSlot x = w) ∧
  (∀ s, (Slot.litLen s).legal = true → (packSlot (.litLen s)).toNat = s ∧ s < 512) ∧
  (∀ s, (Slot.dist s).legal = true → (packSlot (.dist s)).toNat = 2 ^ 30 + s ∧ s < 512) ∧
  (∀ n v, (Slot.extra n v).legal = true →
    (packSlot (.extra n v)).toNat = 2 * 2 ^ 30 + n * 2 ^ 26 + v ∧ n < 16 ∧ v < 2 ^ 16) ∧
  ∀ s, (Slot.codeLen s).legal = true → (packSlot (.codeLen s)).toNat = 3 * 2 ^ 30 + s ∧ s < 512

/-- O56. The LZ77 tokens expand to the input, and every match is legal (41_lz77.md R160, 41_lz77.md R177, 41_lz77.md
R178). -/
def Obligations.TokensExpandToTheInput : Prop :=
  ∀ data, expandOnto [] (lzTokens data) = data ∧
    ∀ before dist len after, lzTokens data = before ++ .copy dist len :: after →
      1 ≤ dist ∧ dist ≤ 32768 ∧ dist ≤ (expandOnto [] before).length ∧ 3 ≤ len ∧ len ≤ 258

/-- O57. Hash chain and pending-match set compute L, Dst and final (41_lz77.md R163 to R167, 41_lz77.md R171, 41_lz77.md
R173, 41_lz77.md R175). -/
def Obligations.MatchEngineComputesTheMatchFunctions : Prop :=
  ∀ (data : List Byte) z, z = data.foldl (fun z b => (lzByte b z).2) Lz.fresh →
    z.cand.length = 3 ∧ ∀ k c, z.cand[k]? = some c →
      c.isFinished = isFinal z.s (z.p + k) z.r ∧
      (z.p + k + 3 ≤ z.r → c.bestLen = longest z.s (z.p + k) z.r ∧
        (c.bestLen ≠ 0 → nearest z.s (z.p + k) z.r = some c.bestDist))

/-- O58. The invariant holds after reset and after each constructor (70_reset_and_hazards.md R490, 70_reset_and_hazards.md
R492, 10_state.md R46). -/
def Obligations.InvariantAtReset : Prop :=
  State.reset.cu = none ∧ State.reset.du = none ∧ MachineInv State.reset ∧ AccClean State.reset ∧
    ∀ m, CuInv (CuCtx.fresh m) ∧ (CuCtx.fresh m).bw.ok ∧ DuInv (DuCtx.fresh m)

/-- O59. Every step keeps the invariant of the machine (10_state.md R23 to R30, 10_state.md R37 to R44, 20_memory.md R74,
41_lz77.md R170, 43_block_chooser.md R222, 46_decompress.md R301). -/
def Obligations.EveryStepKeepsTheInvariant : Prop :=
  ∀ s t, MachineInv s → step s = .next t → MachineInv t

/-- O60. BW.ACC holds exactly BW.N bits after every step (10_state.md R24, 40_bitio.md R141, 42_huffman.md R195,
44_block_emit.md R246). -/
def Obligations.BitAccumulatorStaysClean : Prop :=
  ∀ s t, MachineInv s → AccClean s → step s = .next t → AccClean t
end

