-- ==== Sys2Proof/Laws/Decode.lean ====
section
/-! SUPPORT. What the decoder's shared functions can answer. -/

namespace Sys2Proof.Laws

theorem revBits_lt (n c : Nat) : revBits n c < 2 ^ n := by
  induction n generalizing c with
  | zero => simp [revBits]
  | succ n ih =>
    have h := ih (c / 2)
    rw [revBits, Nat.pow_succ]
    rcases Nat.mod_two_eq_zero_or_one c with hc | hc <;> simp only [hc] <;> omega

/-- `revBits n` looks at the low `n` bits only. -/
theorem revBits_mod (n c : Nat) : revBits n (c % 2 ^ n) = revBits n c := by
  induction n generalizing c with
  | zero => rfl
  | succ n ih =>
    rw [revBits, revBits, ← ih (c / 2)]
    congr 1
    · rw [Nat.pow_succ, Nat.mul_comm (2 ^ n) 2, Nat.mod_mul_right_mod]
    · rw [Nat.pow_succ, Nat.mul_comm (2 ^ n) 2, Nat.mod_mul_right_div_self]

/-- The first `n` of `n + k` bits, as a number, are the leading ones. -/
theorem revBits_add_div (n k c : Nat) : revBits (n + k) c / 2 ^ k = revBits n c := by
  induction n generalizing c with
  | zero =>
    rw [Nat.zero_add, revBits]
    exact Nat.div_eq_of_lt (revBits_lt k c)
  | succ n ih =>
    have h : n + 1 + k = n + k + 1 := by omega
    rw [h, revBits, revBits, ← ih (c / 2), Nat.pow_add, ← Nat.mul_assoc,
      Nat.mul_comm (c % 2 * 2 ^ n) (2 ^ k), Nat.mul_add_div (Nat.two_pow_pos k)]

/-- What `lookupFrom` finds is a code of the table that stands first in the bits. -/
theorem lookupFrom_some {t : Table} {bits : Nat} {k l s l' : Nat} (h : lookupFrom t bits k l = some (s, l')) :
    l ≤ l' ∧ l' < l + k ∧ ∃ c ∈ t, c.len = l' ∧ c.code = revBits l' bits ∧ c.sym = s := by
  induction k generalizing l with
  | zero => simp [lookupFrom] at h
  | succ k ih =>
    rw [lookupFrom] at h
    split at h
    · next c hc =>
      have hm := List.mem_of_find?_eq_some hc
      have hp := List.find?_some hc
      simp only [Bool.and_eq_true, beq_iff_eq] at hp
      simp only [Option.some.injEq, Prod.mk.injEq] at h
      obtain ⟨rfl, rfl⟩ := h
      exact ⟨Nat.le_refl _, by omega, c, hm, hp.1, hp.2, rfl⟩
    · obtain ⟨h1, h2, h3⟩ := ih h
      exact ⟨by omega, by omega, h3⟩

/-- A lookup that finds a symbol has found one of the table's codes, within the available bits (42_huffman.md R203). -/
theorem lookup_sym {t : Table} {bits nbits s l : Nat} (h : lookup t bits nbits = .sym s l) :
    1 ≤ l ∧ l ≤ 15 ∧ l ≤ nbits ∧ ∃ c ∈ t, c.len = l ∧ c.code = revBits l bits ∧ c.sym = s := by
  unfold lookup at h
  split at h
  · next s' l' hs =>
    simp only [Lookup.sym.injEq] at h
    obtain ⟨rfl, rfl⟩ := h
    obtain ⟨h1, h2, h3⟩ := lookupFrom_some hs
    exact ⟨h1, by omega, by omega, h3⟩
  · split at h <;> simp at h

/-- A lookup asks for more bits only while fewer than 15 are available. -/
theorem lookup_more {t : Table} {bits nbits : Nat} (h : lookup t bits nbits = .more) : nbits < 15 := by
  unfold lookup at h
  split at h
  · simp at h
  · split at h
    · next hc => exact hc.1
    · simp at h

/-- The codes `assignCodes` gives are those of the symbols with a non-zero length. -/
theorem mem_assignCodes {lens next : List Nat} {s : Nat} {c : Code} (h : c ∈ assignCodes lens next s) :
    s ≤ c.sym ∧ c.len ≠ 0 ∧ lens[c.sym - s]? = some c.len := by
  induction lens generalizing next s with
  | nil => simp [assignCodes] at h
  | cons l ls ih =>
    rw [assignCodes] at h
    have tail : ∀ {next}, c ∈ assignCodes ls next (s + 1) →
        s ≤ c.sym ∧ c.len ≠ 0 ∧ (l :: ls)[c.sym - s]? = some c.len := fun h => by
      obtain ⟨h1, h2, h3⟩ := ih h
      have : c.sym - s = c.sym - (s + 1) + 1 := by omega
      exact ⟨by omega, h2, by rw [this, List.getElem?_cons_succ]; exact h3⟩
    split at h
    · exact tail h
    · next hl =>
      rcases List.mem_cons.1 h with rfl | h
      · exact ⟨Nat.le_refl _, hl, by simp⟩
      · exact tail h

/-- Every code of a table belongs to a symbol of that length (42_huffman.md R200). -/
theorem mem_codes {lens : List Nat} {c : Code} (h : c ∈ codes lens) : c.len ≠ 0 ∧ lens[c.sym]? = some c.len := by
  have := mem_assignCodes h
  exact ⟨this.2.1, by simpa using this.2.2⟩

theorem mkTable_eq_some {lens : List Nat} {t : Table} : mkTable lens = some t ↔ kraftSum lens ≤ 2 ^ 15 ∧ t = codes lens := by
  unfold mkTable
  split
  · next h => simp; omega
  · next h => simp [eq_comm]; omega

end Sys2Proof.Laws
end

