-- ==== Sys2Proof/Laws/Memory.lean ====
section
/-! SUPPORT. The laws of the private memories: a read after a write, a write leaves every other entry alone, every write
keeps the canonical form, and equal memories are equal data. -/

namespace Sys2Proof.Laws

open Sys2Proof.Machine

variable {α : Type}

theorem memRead_memInsert (dflt : α) (m : Mem α) (a b : Nat) (v : α) :
    memRead dflt (memInsert a v m) b = if a = b then v else memRead dflt m b := by
  induction m with
  | nil => simp [memInsert, memRead]
  | cons e m ih =>
    obtain ⟨k, w⟩ := e
    rw [memInsert]
    split
    · next h => subst h; simp only [memRead]; split <;> rfl
    · split
      · simp only [memRead]
      · next h _ =>
        simp only [memRead, ih]
        split
        · next hk => rw [if_neg fun e => h (hk.trans e.symm)]
        · rfl

theorem memRead_memErase_other (dflt : α) (m : Mem α) {a b : Nat} (h : a ≠ b) :
    memRead dflt (memErase a m) b = memRead dflt m b := by
  induction m with
  | nil => rfl
  | cons e m ih =>
    obtain ⟨k, w⟩ := e
    by_cases hk : k = a <;> simp [memErase, memRead, hk, h, ih]

section
variable [DecidableEq α]

theorem wfFrom_cons {dflt : α} {b : Option Nat} {k : Nat} {v : α} {m : Mem α} :
    Memory.wfFrom dflt b ((k, v) :: m) = true ↔
      (∀ x, b = some x → x < k) ∧ v ≠ dflt ∧ Memory.wfFrom dflt (some k) m = true := by
  cases b <;> simp [Memory.wfFrom, and_assoc]

theorem wfFrom_weaken {dflt : α} {b b' : Option Nat} {m : Mem α} (h : Memory.wfFrom dflt b m = true)
    (hb : ∀ y, b' = some y → ∃ x, b = some x ∧ y ≤ x) : Memory.wfFrom dflt b' m = true := by
  cases m with
  | nil => rfl
  | cons e m =>
    obtain ⟨k, v⟩ := e
    rw [wfFrom_cons] at h ⊢
    refine ⟨fun y hy => ?_, h.2⟩
    obtain ⟨x, hx, hyx⟩ := hb y hy
    exact Nat.lt_of_le_of_lt hyx (h.1 x hx)

/-- An index at or below the bound of a canonical list is not listed. -/
theorem memRead_of_le {dflt : α} {x a : Nat} {m : Mem α} (h : Memory.wfFrom dflt (some x) m = true) (ha : a ≤ x) :
    memRead dflt m a = dflt := by
  induction m generalizing x with
  | nil => rfl
  | cons e m ih =>
    obtain ⟨k, v⟩ := e
    rw [wfFrom_cons] at h
    have hk := h.1 x rfl
    rw [memRead, if_neg (by omega)]
    exact ih h.2.2 (by omega)

theorem memRead_memErase_same {dflt : α} {b : Option Nat} {a : Nat} {m : Mem α}
    (h : Memory.wfFrom dflt b m = true) : memRead dflt (memErase a m) a = dflt := by
  induction m generalizing b with
  | nil => rfl
  | cons e m ih =>
    obtain ⟨k, v⟩ := e
    rw [wfFrom_cons] at h
    by_cases hk : k = a
    · subst hk; simpa [memErase] using memRead_of_le h.2.2 (Nat.le_refl k)
    · simpa [memErase, memRead, hk] using ih h.2.2

/-- Read after write, same entry. -/
@[simp] theorem memRead_memWrite_same {dflt : α} {m : Mem α} (a : Nat) (v : α) (h : Memory.wf dflt m = true) :
    memRead dflt (memWrite dflt m a v) a = v := by
  by_cases hv : v = dflt
  · simpa [memWrite, hv] using memRead_memErase_same h
  · simp [memWrite, hv, memRead_memInsert]

/-- A write leaves every other entry alone. -/
theorem memRead_memWrite_other {dflt : α} {m : Mem α} {a b : Nat} (v : α) (h : a ≠ b) :
    memRead dflt (memWrite dflt m a v) b = memRead dflt m b := by
  by_cases hv : v = dflt
  · simpa [memWrite, hv] using memRead_memErase_other dflt m h
  · simp [memWrite, hv, memRead_memInsert, h]

theorem memRead_memWrite {dflt : α} {m : Mem α} (a b : Nat) (v : α) (h : Memory.wf dflt m = true) :
    memRead dflt (memWrite dflt m a v) b = if a = b then v else memRead dflt m b := by
  split
  · next e => subst e; exact memRead_memWrite_same a v h
  · next e => exact memRead_memWrite_other v e

theorem wfFrom_memErase {dflt : α} {b : Option Nat} {a : Nat} {m : Mem α} (h : Memory.wfFrom dflt b m = true) :
    Memory.wfFrom dflt b (memErase a m) = true := by
  induction m generalizing b with
  | nil => rfl
  | cons e m ih =>
    obtain ⟨k, v⟩ := e
    have h' := wfFrom_cons.1 h
    by_cases hk : k = a
    · rw [memErase, if_pos hk]
      refine wfFrom_weaken h'.2.2 fun y hy => ⟨k, rfl, Nat.le_of_lt (h'.1 y hy)⟩
    · rw [memErase, if_neg hk, wfFrom_cons]
      exact ⟨h'.1, h'.2.1, ih h'.2.2⟩

theorem wfFrom_memInsert {dflt : α} {b : Option Nat} {a : Nat} {v : α} {m : Mem α}
    (h : Memory.wfFrom dflt b m = true) (hv : v ≠ dflt) (hb : ∀ x, b = some x → x < a) :
    Memory.wfFrom dflt b (memInsert a v m) = true := by
  induction m generalizing b with
  | nil => exact wfFrom_cons.2 ⟨hb, hv, rfl⟩
  | cons e m ih =>
    obtain ⟨k, w⟩ := e
    have h' := wfFrom_cons.1 h
    rw [memInsert]
    split
    · next hk => subst hk; exact wfFrom_cons.2 ⟨hb, hv, h'.2.2⟩
    · split
      · next hlt =>
        refine wfFrom_cons.2 ⟨hb, hv, wfFrom_cons.2 ⟨?_, h'.2⟩⟩
        rintro x ⟨⟩; exact hlt
      · refine wfFrom_cons.2 ⟨h'.1, h'.2.1, ih h'.2.2 ?_⟩
        rintro x ⟨⟩; omega

/-- Every write keeps the canonical form. -/
@[simp] theorem wf_memWrite {dflt : α} {m : Mem α} (a : Nat) (v : α) (h : Memory.wf dflt m = true) :
    Memory.wf dflt (memWrite dflt m a v) = true := by
  by_cases hv : v = dflt
  · rw [memWrite, if_pos hv]; exact wfFrom_memErase h
  · rw [memWrite, if_neg hv]; exact wfFrom_memInsert h hv (by simp)

/-- The memory with nothing listed is canonical. -/
@[simp] theorem wf_nil {dflt : α} : Memory.wf dflt ([] : Mem α) = true := rfl

/-- Canonical memories that read alike are equal data. -/
theorem mem_ext {dflt : α} {b : Option Nat} {m m' : Mem α} (h : Memory.wfFrom dflt b m = true)
    (h' : Memory.wfFrom dflt b m' = true) (he : ∀ a, memRead dflt m a = memRead dflt m' a) : m = m' := by
  induction m generalizing b m' with
  | nil =>
    cases m' with
    | nil => rfl
    | cons e' m' =>
      obtain ⟨k', v'⟩ := e'
      exact absurd (by simpa [memRead] using (he k').symm) (wfFrom_cons.1 h').2.1
  | cons e m ih =>
    obtain ⟨k, v⟩ := e
    have hc := wfFrom_cons.1 h
    cases m' with
    | nil => exact absurd (by simpa [memRead] using he k) hc.2.1
    | cons e' m' =>
      obtain ⟨k', v'⟩ := e'
      have hc' := wfFrom_cons.1 h'
      have hkk : k = k' := by
        rcases Nat.lt_trichotomy k k' with hlt | heq | hgt
        · have := he k
          rw [memRead, if_pos rfl, memRead, if_neg (by omega), memRead_of_le hc'.2.2 (by omega)] at this
          exact absurd this hc.2.1
        · exact heq
        · have := he k'
          rw [memRead, if_neg (by omega), memRead_of_le hc.2.2 (by omega), memRead, if_pos rfl] at this
          exact absurd this.symm hc'.2.1
      subst hkk
      have hv : v = v' := by simpa [memRead] using he k
      subst hv
      rw [ih hc.2.2 hc'.2.2 fun a => ?_]
      by_cases ha : a ≤ k
      · rw [memRead_of_le hc.2.2 ha, memRead_of_le hc'.2.2 ha]
      · have := he a
        rwa [memRead, if_neg (by omega), memRead, if_neg (by omega)] at this

end

theorem memBelow_memInsert {n a : Nat} {v : α} {m : Mem α} (h : memBelow n m = true) (ha : a < n) :
    memBelow n (memInsert a v m) = true := by
  induction m with
  | nil => simpa [memInsert, memBelow] using ha
  | cons e m ih =>
    obtain ⟨k, w⟩ := e
    simp only [memBelow, List.all_cons, Bool.and_eq_true, decide_eq_true_eq] at h ih
    rw [memInsert]
    split
    · simpa [memBelow, ha] using h.2
    · split
      · simpa [memBelow, ha, h.1] using h.2
      · simpa [memBelow, h.1] using ih h.2

theorem memBelow_memErase {n a : Nat} {m : Mem α} (h : memBelow n m = true) : memBelow n (memErase a m) = true := by
  induction m with
  | nil => rfl
  | cons e m ih =>
    obtain ⟨k, w⟩ := e
    simp only [memBelow, List.all_cons, Bool.and_eq_true, decide_eq_true_eq] at h ih
    rw [memErase]
    split
    · simpa [memBelow] using h.2
    · simpa [memBelow, h.1] using ih h.2

/-- A write within the memory's entries lists no entry outside them. -/
theorem memBelow_memWrite [DecidableEq α] {dflt v : α} {n a : Nat} {m : Mem α} (h : memBelow n m = true) (ha : a < n) :
    memBelow n (memWrite dflt m a v) = true := by
  by_cases hv : v = dflt
  · simpa [memWrite, hv] using memBelow_memErase h
  · simpa [memWrite, hv] using memBelow_memInsert h ha

/-- The window: read after write (same entry, other entry), and the canonical form. -/
theorem winRead_winWrite {m : List Host.Cell} (a b : Nat) (v : Byte) (h : Memory.wf windowReset m = true) :
    winRead (winWrite m a v) b = if a = b then v else winRead m b := memRead_memWrite a b v h

theorem wf_winWrite {m : List Host.Cell} (a : Nat) (v : Byte) (h : Memory.wf windowReset m = true) :
    Memory.wf windowReset (winWrite m a v) = true := wf_memWrite a v h

theorem chainRead_chainWrite {m : Mem Nat} (a b v : Nat) (h : Memory.wf Config.nilPos m = true) :
    chainRead (chainWrite m a v) b = if a = b then v else chainRead m b := memRead_memWrite a b v h

theorem wf_chainWrite {m : Mem Nat} (a v : Nat) (h : Memory.wf Config.nilPos m = true) :
    Memory.wf Config.nilPos (chainWrite m a v) = true := wf_memWrite a v h

theorem ringRead_ringWrite {m : Mem Slot} (a b : Nat) (v : Slot) (h : Memory.wf slotReset m = true) :
    ringRead (ringWrite m a v) b = if a = b then v else ringRead m b := memRead_memWrite a b v h

theorem wf_ringWrite {m : Mem Slot} (a : Nat) (v : Slot) (h : Memory.wf slotReset m = true) :
    Memory.wf slotReset (ringWrite m a v) = true := wf_memWrite a v h

end Sys2Proof.Laws
end

