-- ==== Sys2Proof/Laws/State.lean ====
section
/-! SUPPORT. For each named update of the state, what each field holds after it: one lemma per field. -/

namespace Sys2Proof.Laws

open Sys2Proof.Machine

/-! D.LASTBLOCK -/

@[simp] theorem setDLastBlock_mode (f : Bool) (d : DuCtx) : (setDLastBlock f d).mode = d.mode := rfl
@[simp] theorem setDLastBlock_state (f : Bool) (d : DuCtx) : (setDLastBlock f d).state = d.state := rfl
@[simp] theorem setDLastBlock_err (f : Bool) (d : DuCtx) : (setDLastBlock f d).err = d.err := rfl
@[simp] theorem setDLastBlock_lastBlock (f : Bool) (d : DuCtx) : (setDLastBlock f d).lastBlock = f := rfl
@[simp] theorem setDLastBlock_bits (f : Bool) (d : DuCtx) : (setDLastBlock f d).bits = d.bits := rfl
@[simp] theorem setDLastBlock_nbits (f : Bool) (d : DuCtx) : (setDLastBlock f d).nbits = d.nbits := rfl
@[simp] theorem setDLastBlock_uncompLen (f : Bool) (d : DuCtx) : (setDLastBlock f d).uncompLen = d.uncompLen := rfl
@[simp] theorem setDLastBlock_hlit (f : Bool) (d : DuCtx) : (setDLastBlock f d).hlit = d.hlit := rfl
@[simp] theorem setDLastBlock_hdist (f : Bool) (d : DuCtx) : (setDLastBlock f d).hdist = d.hdist := rfl
@[simp] theorem setDLastBlock_hclen (f : Bool) (d : DuCtx) : (setDLastBlock f d).hclen = d.hclen := rfl
@[simp] theorem setDLastBlock_lenPtr (f : Bool) (d : DuCtx) : (setDLastBlock f d).lenPtr = d.lenPtr := rfl
@[simp] theorem setDLastBlock_lenExtraBits (f : Bool) (d : DuCtx) : (setDLastBlock f d).lenExtraBits = d.lenExtraBits := rfl
@[simp] theorem setDLastBlock_lenAddOn (f : Bool) (d : DuCtx) : (setDLastBlock f d).lenAddOn = d.lenAddOn := rfl
@[simp] theorem setDLastBlock_lenRep (f : Bool) (d : DuCtx) : (setDLastBlock f d).lenRep = d.lenRep := rfl
@[simp] theorem setDLastBlock_sym (f : Bool) (d : DuCtx) : (setDLastBlock f d).sym = d.sym := rfl
@[simp] theorem setDLastBlock_len (f : Bool) (d : DuCtx) : (setDLastBlock f d).len = d.len := rfl
@[simp] theorem setDLastBlock_cur (f : Bool) (d : DuCtx) : (setDLastBlock f d).cur = d.cur := rfl
@[simp] theorem setDLastBlock_winPos (f : Bool) (d : DuCtx) : (setDLastBlock f d).winPos = d.winPos := rfl
@[simp] theorem setDLastBlock_produced (f : Bool) (d : DuCtx) : (setDLastBlock f d).produced = d.produced := rfl
@[simp] theorem setDLastBlock_adler (f : Bool) (d : DuCtx) : (setDLastBlock f d).adler = d.adler := rfl
@[simp] theorem setDLastBlock_adlerGot (f : Bool) (d : DuCtx) : (setDLastBlock f d).adlerGot = d.adlerGot := rfl
@[simp] theorem setDLastBlock_out (f : Bool) (d : DuCtx) : (setDLastBlock f d).out = d.out := rfl
@[simp] theorem setDLastBlock_lenLen (f : Bool) (d : DuCtx) : (setDLastBlock f d).lenLen = d.lenLen := rfl
@[simp] theorem setDLastBlock_lengths (f : Bool) (d : DuCtx) : (setDLastBlock f d).lengths = d.lengths := rfl
@[simp] theorem setDLastBlock_tabCL (f : Bool) (d : DuCtx) : (setDLastBlock f d).tabCL = d.tabCL := rfl
@[simp] theorem setDLastBlock_tabLL (f : Bool) (d : DuCtx) : (setDLastBlock f d).tabLL = d.tabLL := rfl
@[simp] theorem setDLastBlock_tabD (f : Bool) (d : DuCtx) : (setDLastBlock f d).tabD = d.tabD := rfl
@[simp] theorem setDLastBlock_win (f : Bool) (d : DuCtx) : (setDLastBlock f d).win = d.win := rfl

/-! D.ERR -/

@[simp] theorem latchError_mode (e : Err) (d : DuCtx) : (latchError e d).mode = d.mode := rfl
@[simp] theorem latchError_state (e : Err) (d : DuCtx) : (latchError e d).state = d.state := rfl
@[simp] theorem latchError_err (e : Err) (d : DuCtx) : (latchError e d).err = e := rfl
@[simp] theorem latchError_lastBlock (e : Err) (d : DuCtx) : (latchError e d).lastBlock = d.lastBlock := rfl
@[simp] theorem latchError_bits (e : Err) (d : DuCtx) : (latchError e d).bits = d.bits := rfl
@[simp] theorem latchError_nbits (e : Err) (d : DuCtx) : (latchError e d).nbits = d.nbits := rfl
@[simp] theorem latchError_uncompLen (e : Err) (d : DuCtx) : (latchError e d).uncompLen = d.uncompLen := rfl
@[simp] theorem latchError_hlit (e : Err) (d : DuCtx) : (latchError e d).hlit = d.hlit := rfl
@[simp] theorem latchError_hdist (e : Err) (d : DuCtx) : (latchError e d).hdist = d.hdist := rfl
@[simp] theorem latchError_hclen (e : Err) (d : DuCtx) : (latchError e d).hclen = d.hclen := rfl
@[simp] theorem latchError_lenPtr (e : Err) (d : DuCtx) : (latchError e d).lenPtr = d.lenPtr := rfl
@[simp] theorem latchError_lenExtraBits (e : Err) (d : DuCtx) : (latchError e d).lenExtraBits = d.lenExtraBits := rfl
@[simp] theorem latchError_lenAddOn (e : Err) (d : DuCtx) : (latchError e d).lenAddOn = d.lenAddOn := rfl
@[simp] theorem latchError_lenRep (e : Err) (d : DuCtx) : (latchError e d).lenRep = d.lenRep := rfl
@[simp] theorem latchError_sym (e : Err) (d : DuCtx) : (latchError e d).sym = d.sym := rfl
@[simp] theorem latchError_len (e : Err) (d : DuCtx) : (latchError e d).len = d.len := rfl
@[simp] theorem latchError_cur (e : Err) (d : DuCtx) : (latchError e d).cur = d.cur := rfl
@[simp] theorem latchError_winPos (e : Err) (d : DuCtx) : (latchError e d).winPos = d.winPos := rfl
@[simp] theorem latchError_produced (e : Err) (d : DuCtx) : (latchError e d).produced = d.produced := rfl
@[simp] theorem latchError_adler (e : Err) (d : DuCtx) : (latchError e d).adler = d.adler := rfl
@[simp] theorem latchError_adlerGot (e : Err) (d : DuCtx) : (latchError e d).adlerGot = d.adlerGot := rfl
@[simp] theorem latchError_out (e : Err) (d : DuCtx) : (latchError e d).out = d.out := rfl
@[simp] theorem latchError_lenLen (e : Err) (d : DuCtx) : (latchError e d).lenLen = d.lenLen := rfl
@[simp] theorem latchError_lengths (e : Err) (d : DuCtx) : (latchError e d).lengths = d.lengths := rfl
@[simp] theorem latchError_tabCL (e : Err) (d : DuCtx) : (latchError e d).tabCL = d.tabCL := rfl
@[simp] theorem latchError_tabLL (e : Err) (d : DuCtx) : (latchError e d).tabLL = d.tabLL := rfl
@[simp] theorem latchError_tabD (e : Err) (d : DuCtx) : (latchError e d).tabD = d.tabD := rfl
@[simp] theorem latchError_win (e : Err) (d : DuCtx) : (latchError e d).win = d.win := rfl

/-! D.STATE -/

@[simp] theorem setState_mode (st : DState) (d : DuCtx) : (setState st d).mode = d.mode := rfl
@[simp] theorem setState_state (st : DState) (d : DuCtx) : (setState st d).state = st := rfl
@[simp] theorem setState_err (st : DState) (d : DuCtx) : (setState st d).err = d.err := rfl
@[simp] theorem setState_lastBlock (st : DState) (d : DuCtx) : (setState st d).lastBlock = d.lastBlock := rfl
@[simp] theorem setState_bits (st : DState) (d : DuCtx) : (setState st d).bits = d.bits := rfl
@[simp] theorem setState_nbits (st : DState) (d : DuCtx) : (setState st d).nbits = d.nbits := rfl
@[simp] theorem setState_uncompLen (st : DState) (d : DuCtx) : (setState st d).uncompLen = d.uncompLen := rfl
@[simp] theorem setState_hlit (st : DState) (d : DuCtx) : (setState st d).hlit = d.hlit := rfl
@[simp] theorem setState_hdist (st : DState) (d : DuCtx) : (setState st d).hdist = d.hdist := rfl
@[simp] theorem setState_hclen (st : DState) (d : DuCtx) : (setState st d).hclen = d.hclen := rfl
@[simp] theorem setState_lenPtr (st : DState) (d : DuCtx) : (setState st d).lenPtr = d.lenPtr := rfl
@[simp] theorem setState_lenExtraBits (st : DState) (d : DuCtx) : (setState st d).lenExtraBits = d.lenExtraBits := rfl
@[simp] theorem setState_lenAddOn (st : DState) (d : DuCtx) : (setState st d).lenAddOn = d.lenAddOn := rfl
@[simp] theorem setState_lenRep (st : DState) (d : DuCtx) : (setState st d).lenRep = d.lenRep := rfl
@[simp] theorem setState_sym (st : DState) (d : DuCtx) : (setState st d).sym = d.sym := rfl
@[simp] theorem setState_len (st : DState) (d : DuCtx) : (setState st d).len = d.len := rfl
@[simp] theorem setState_cur (st : DState) (d : DuCtx) : (setState st d).cur = d.cur := rfl
@[simp] theorem setState_winPos (st : DState) (d : DuCtx) : (setState st d).winPos = d.winPos := rfl
@[simp] theorem setState_produced (st : DState) (d : DuCtx) : (setState st d).produced = d.produced := rfl
@[simp] theorem setState_adler (st : DState) (d : DuCtx) : (setState st d).adler = d.adler := rfl
@[simp] theorem setState_adlerGot (st : DState) (d : DuCtx) : (setState st d).adlerGot = d.adlerGot := rfl
@[simp] theorem setState_out (st : DState) (d : DuCtx) : (setState st d).out = d.out := rfl
@[simp] theorem setState_lenLen (st : DState) (d : DuCtx) : (setState st d).lenLen = d.lenLen := rfl
@[simp] theorem setState_lengths (st : DState) (d : DuCtx) : (setState st d).lengths = d.lengths := rfl
@[simp] theorem setState_tabCL (st : DState) (d : DuCtx) : (setState st d).tabCL = d.tabCL := rfl
@[simp] theorem setState_tabLL (st : DState) (d : DuCtx) : (setState st d).tabLL = d.tabLL := rfl
@[simp] theorem setState_tabD (st : DState) (d : DuCtx) : (setState st d).tabD = d.tabD := rfl
@[simp] theorem setState_win (st : DState) (d : DuCtx) : (setState st d).win = d.win := rfl

/-! `eat` -/

@[simp] theorem eat_mode (n : Nat) (d : DuCtx) : (eat n d).mode = d.mode := rfl
@[simp] theorem eat_state (n : Nat) (d : DuCtx) : (eat n d).state = d.state := rfl
@[simp] theorem eat_err (n : Nat) (d : DuCtx) : (eat n d).err = d.err := rfl
@[simp] theorem eat_lastBlock (n : Nat) (d : DuCtx) : (eat n d).lastBlock = d.lastBlock := rfl
@[simp] theorem eat_bits (n : Nat) (d : DuCtx) : (eat n d).bits = d.bits >>> n := rfl
@[simp] theorem eat_nbits (n : Nat) (d : DuCtx) : (eat n d).nbits = d.nbits - n := rfl
@[simp] theorem eat_uncompLen (n : Nat) (d : DuCtx) : (eat n d).uncompLen = d.uncompLen := rfl
@[simp] theorem eat_hlit (n : Nat) (d : DuCtx) : (eat n d).hlit = d.hlit := rfl
@[simp] theorem eat_hdist (n : Nat) (d : DuCtx) : (eat n d).hdist = d.hdist := rfl
@[simp] theorem eat_hclen (n : Nat) (d : DuCtx) : (eat n d).hclen = d.hclen := rfl
@[simp] theorem eat_lenPtr (n : Nat) (d : DuCtx) : (eat n d).lenPtr = d.lenPtr := rfl
@[simp] theorem eat_lenExtraBits (n : Nat) (d : DuCtx) : (eat n d).lenExtraBits = d.lenExtraBits := rfl
@[simp] theorem eat_lenAddOn (n : Nat) (d : DuCtx) : (eat n d).lenAddOn = d.lenAddOn := rfl
@[simp] theorem eat_lenRep (n : Nat) (d : DuCtx) : (eat n d).lenRep = d.lenRep := rfl
@[simp] theorem eat_sym (n : Nat) (d : DuCtx) : (eat n d).sym = d.sym := rfl
@[simp] theorem eat_len (n : Nat) (d : DuCtx) : (eat n d).len = d.len := rfl
@[simp] theorem eat_cur (n : Nat) (d : DuCtx) : (eat n d).cur = d.cur := rfl
@[simp] theorem eat_winPos (n : Nat) (d : DuCtx) : (eat n d).winPos = d.winPos := rfl
@[simp] theorem eat_produced (n : Nat) (d : DuCtx) : (eat n d).produced = d.produced := rfl
@[simp] theorem eat_adler (n : Nat) (d : DuCtx) : (eat n d).adler = d.adler := rfl
@[simp] theorem eat_adlerGot (n : Nat) (d : DuCtx) : (eat n d).adlerGot = d.adlerGot := rfl
@[simp] theorem eat_out (n : Nat) (d : DuCtx) : (eat n d).out = d.out := rfl
@[simp] theorem eat_lenLen (n : Nat) (d : DuCtx) : (eat n d).lenLen = d.lenLen := rfl
@[simp] theorem eat_lengths (n : Nat) (d : DuCtx) : (eat n d).lengths = d.lengths := rfl
@[simp] theorem eat_tabCL (n : Nat) (d : DuCtx) : (eat n d).tabCL = d.tabCL := rfl
@[simp] theorem eat_tabLL (n : Nat) (d : DuCtx) : (eat n d).tabLL = d.tabLL := rfl
@[simp] theorem eat_tabD (n : Nat) (d : DuCtx) : (eat n d).tabD = d.tabD := rfl
@[simp] theorem eat_win (n : Nat) (d : DuCtx) : (eat n d).win = d.win := rfl

/-! The reader's `align` -/

@[simp] theorem alignReader_mode (d : DuCtx) : (alignReader d).mode = d.mode := rfl
@[simp] theorem alignReader_state (d : DuCtx) : (alignReader d).state = d.state := rfl
@[simp] theorem alignReader_err (d : DuCtx) : (alignReader d).err = d.err := rfl
@[simp] theorem alignReader_lastBlock (d : DuCtx) : (alignReader d).lastBlock = d.lastBlock := rfl
@[simp] theorem alignReader_bits (d : DuCtx) : (alignReader d).bits = d.bits >>> (d.nbits % 8) := rfl
@[simp] theorem alignReader_nbits (d : DuCtx) : (alignReader d).nbits = d.nbits - d.nbits % 8 := rfl
@[simp] theorem alignReader_uncompLen (d : DuCtx) : (alignReader d).uncompLen = d.uncompLen := rfl
@[simp] theorem alignReader_hlit (d : DuCtx) : (alignReader d).hlit = d.hlit := rfl
@[simp] theorem alignReader_hdist (d : DuCtx) : (alignReader d).hdist = d.hdist := rfl
@[simp] theorem alignReader_hclen (d : DuCtx) : (alignReader d).hclen = d.hclen := rfl
@[simp] theorem alignReader_lenPtr (d : DuCtx) : (alignReader d).lenPtr = d.lenPtr := rfl
@[simp] theorem alignReader_lenExtraBits (d : DuCtx) : (alignReader d).lenExtraBits = d.lenExtraBits := rfl
@[simp] theorem alignReader_lenAddOn (d : DuCtx) : (alignReader d).lenAddOn = d.lenAddOn := rfl
@[simp] theorem alignReader_lenRep (d : DuCtx) : (alignReader d).lenRep = d.lenRep := rfl
@[simp] theorem alignReader_sym (d : DuCtx) : (alignReader d).sym = d.sym := rfl
@[simp] theorem alignReader_len (d : DuCtx) : (alignReader d).len = d.len := rfl
@[simp] theorem alignReader_cur (d : DuCtx) : (alignReader d).cur = d.cur := rfl
@[simp] theorem alignReader_winPos (d : DuCtx) : (alignReader d).winPos = d.winPos := rfl
@[simp] theorem alignReader_produced (d : DuCtx) : (alignReader d).produced = d.produced := rfl
@[simp] theorem alignReader_adler (d : DuCtx) : (alignReader d).adler = d.adler := rfl
@[simp] theorem alignReader_adlerGot (d : DuCtx) : (alignReader d).adlerGot = d.adlerGot := rfl
@[simp] theorem alignReader_out (d : DuCtx) : (alignReader d).out = d.out := rfl
@[simp] theorem alignReader_lenLen (d : DuCtx) : (alignReader d).lenLen = d.lenLen := rfl
@[simp] theorem alignReader_lengths (d : DuCtx) : (alignReader d).lengths = d.lengths := rfl
@[simp] theorem alignReader_tabCL (d : DuCtx) : (alignReader d).tabCL = d.tabCL := rfl
@[simp] theorem alignReader_tabLL (d : DuCtx) : (alignReader d).tabLL = d.tabLL := rfl
@[simp] theorem alignReader_tabD (d : DuCtx) : (alignReader d).tabD = d.tabD := rfl
@[simp] theorem alignReader_win (d : DuCtx) : (alignReader d).win = d.win := rfl

/-! `discardall` -/

@[simp] theorem discardAll_mode (d : DuCtx) : (discardAll d).mode = d.mode := rfl
@[simp] theorem discardAll_state (d : DuCtx) : (discardAll d).state = d.state := rfl
@[simp] theorem discardAll_err (d : DuCtx) : (discardAll d).err = d.err := rfl
@[simp] theorem discardAll_lastBlock (d : DuCtx) : (discardAll d).lastBlock = d.lastBlock := rfl
@[simp] theorem discardAll_bits (d : DuCtx) : (discardAll d).bits = 0 := rfl
@[simp] theorem discardAll_nbits (d : DuCtx) : (discardAll d).nbits = 0 := rfl
@[simp] theorem discardAll_uncompLen (d : DuCtx) : (discardAll d).uncompLen = d.uncompLen := rfl
@[simp] theorem discardAll_hlit (d : DuCtx) : (discardAll d).hlit = d.hlit := rfl
@[simp] theorem discardAll_hdist (d : DuCtx) : (discardAll d).hdist = d.hdist := rfl
@[simp] theorem discardAll_hclen (d : DuCtx) : (discardAll d).hclen = d.hclen := rfl
@[simp] theorem discardAll_lenPtr (d : DuCtx) : (discardAll d).lenPtr = d.lenPtr := rfl
@[simp] theorem discardAll_lenExtraBits (d : DuCtx) : (discardAll d).lenExtraBits = d.lenExtraBits := rfl
@[simp] theorem discardAll_lenAddOn (d : DuCtx) : (discardAll d).lenAddOn = d.lenAddOn := rfl
@[simp] theorem discardAll_lenRep (d : DuCtx) : (discardAll d).lenRep = d.lenRep := rfl
@[simp] theorem discardAll_sym (d : DuCtx) : (discardAll d).sym = d.sym := rfl
@[simp] theorem discardAll_len (d : DuCtx) : (discardAll d).len = d.len := rfl
@[simp] theorem discardAll_cur (d : DuCtx) : (discardAll d).cur = d.cur := rfl
@[simp] theorem discardAll_winPos (d : DuCtx) : (discardAll d).winPos = d.winPos := rfl
@[simp] theorem discardAll_produced (d : DuCtx) : (discardAll d).produced = d.produced := rfl
@[simp] theorem discardAll_adler (d : DuCtx) : (discardAll d).adler = d.adler := rfl
@[simp] theorem discardAll_adlerGot (d : DuCtx) : (discardAll d).adlerGot = d.adlerGot := rfl
@[simp] theorem discardAll_out (d : DuCtx) : (discardAll d).out = d.out := rfl
@[simp] theorem discardAll_lenLen (d : DuCtx) : (discardAll d).lenLen = d.lenLen := rfl
@[simp] theorem discardAll_lengths (d : DuCtx) : (discardAll d).lengths = d.lengths := rfl
@[simp] theorem discardAll_tabCL (d : DuCtx) : (discardAll d).tabCL = d.tabCL := rfl
@[simp] theorem discardAll_tabLL (d : DuCtx) : (discardAll d).tabLL = d.tabLL := rfl
@[simp] theorem discardAll_tabD (d : DuCtx) : (discardAll d).tabD = d.tabD := rfl
@[simp] theorem discardAll_win (d : DuCtx) : (discardAll d).win = d.win := rfl

/-! `outbyte` -/

@[simp] theorem outByte_mode (b : Byte) (d : DuCtx) : (outByte b d).mode = d.mode := rfl
@[simp] theorem outByte_state (b : Byte) (d : DuCtx) : (outByte b d).state = d.state := rfl
@[simp] theorem outByte_err (b : Byte) (d : DuCtx) : (outByte b d).err = d.err := rfl
@[simp] theorem outByte_lastBlock (b : Byte) (d : DuCtx) : (outByte b d).lastBlock = d.lastBlock := rfl
@[simp] theorem outByte_bits (b : Byte) (d : DuCtx) : (outByte b d).bits = d.bits := rfl
@[simp] theorem outByte_nbits (b : Byte) (d : DuCtx) : (outByte b d).nbits = d.nbits := rfl
@[simp] theorem outByte_uncompLen (b : Byte) (d : DuCtx) : (outByte b d).uncompLen = d.uncompLen := rfl
@[simp] theorem outByte_hlit (b : Byte) (d : DuCtx) : (outByte b d).hlit = d.hlit := rfl
@[simp] theorem outByte_hdist (b : Byte) (d : DuCtx) : (outByte b d).hdist = d.hdist := rfl
@[simp] theorem outByte_hclen (b : Byte) (d : DuCtx) : (outByte b d).hclen = d.hclen := rfl
@[simp] theorem outByte_lenPtr (b : Byte) (d : DuCtx) : (outByte b d).lenPtr = d.lenPtr := rfl
@[simp] theorem outByte_lenExtraBits (b : Byte) (d : DuCtx) : (outByte b d).lenExtraBits = d.lenExtraBits := rfl
@[simp] theorem outByte_lenAddOn (b : Byte) (d : DuCtx) : (outByte b d).lenAddOn = d.lenAddOn := rfl
@[simp] theorem outByte_lenRep (b : Byte) (d : DuCtx) : (outByte b d).lenRep = d.lenRep := rfl
@[simp] theorem outByte_sym (b : Byte) (d : DuCtx) : (outByte b d).sym = d.sym := rfl
@[simp] theorem outByte_len (b : Byte) (d : DuCtx) : (outByte b d).len = d.len := rfl
@[simp] theorem outByte_cur (b : Byte) (d : DuCtx) : (outByte b d).cur = d.cur := rfl
@[simp] theorem outByte_winPos (b : Byte) (d : DuCtx) : (outByte b d).winPos = (d.winPos + 1) % Config.dWinSize := rfl
@[simp] theorem outByte_produced (b : Byte) (d : DuCtx) : (outByte b d).produced = if d.produced < Config.dWinSize then d.produced + 1 else d.produced := rfl
@[simp] theorem outByte_adler (b : Byte) (d : DuCtx) : (outByte b d).adler = adlerInMode d.mode d.adler [b] := rfl
@[simp] theorem outByte_adlerGot (b : Byte) (d : DuCtx) : (outByte b d).adlerGot = d.adlerGot := rfl
@[simp] theorem outByte_out (b : Byte) (d : DuCtx) : (outByte b d).out = d.out ++ [b] := rfl
@[simp] theorem outByte_lenLen (b : Byte) (d : DuCtx) : (outByte b d).lenLen = d.lenLen := rfl
@[simp] theorem outByte_lengths (b : Byte) (d : DuCtx) : (outByte b d).lengths = d.lengths := rfl
@[simp] theorem outByte_tabCL (b : Byte) (d : DuCtx) : (outByte b d).tabCL = d.tabCL := rfl
@[simp] theorem outByte_tabLL (b : Byte) (d : DuCtx) : (outByte b d).tabLL = d.tabLL := rfl
@[simp] theorem outByte_tabD (b : Byte) (d : DuCtx) : (outByte b d).tabD = d.tabD := rfl
@[simp] theorem outByte_win (b : Byte) (d : DuCtx) : (outByte b d).win = winWrite d.win d.winPos b := rfl

/-! `blockend` -/

@[simp] theorem blockEnd_mode (d : DuCtx) : (blockEnd d).mode = d.mode := rfl
@[simp] theorem blockEnd_state (d : DuCtx) : (blockEnd d).state = if d.lastBlock then .finish else .outsideBlk := rfl
@[simp] theorem blockEnd_err (d : DuCtx) : (blockEnd d).err = d.err := rfl
@[simp] theorem blockEnd_lastBlock (d : DuCtx) : (blockEnd d).lastBlock = d.lastBlock := rfl
@[simp] theorem blockEnd_bits (d : DuCtx) : (blockEnd d).bits = d.bits := rfl
@[simp] theorem blockEnd_nbits (d : DuCtx) : (blockEnd d).nbits = d.nbits := rfl
@[simp] theorem blockEnd_uncompLen (d : DuCtx) : (blockEnd d).uncompLen = d.uncompLen := rfl
@[simp] theorem blockEnd_hlit (d : DuCtx) : (blockEnd d).hlit = d.hlit := rfl
@[simp] theorem blockEnd_hdist (d : DuCtx) : (blockEnd d).hdist = d.hdist := rfl
@[simp] theorem blockEnd_hclen (d : DuCtx) : (blockEnd d).hclen = d.hclen := rfl
@[simp] theorem blockEnd_lenPtr (d : DuCtx) : (blockEnd d).lenPtr = d.lenPtr := rfl
@[simp] theorem blockEnd_lenExtraBits (d : DuCtx) : (blockEnd d).lenExtraBits = d.lenExtraBits := rfl
@[simp] theorem blockEnd_lenAddOn (d : DuCtx) : (blockEnd d).lenAddOn = d.lenAddOn := rfl
@[simp] theorem blockEnd_lenRep (d : DuCtx) : (blockEnd d).lenRep = d.lenRep := rfl
@[simp] theorem blockEnd_sym (d : DuCtx) : (blockEnd d).sym = d.sym := rfl
@[simp] theorem blockEnd_len (d : DuCtx) : (blockEnd d).len = d.len := rfl
@[simp] theorem blockEnd_cur (d : DuCtx) : (blockEnd d).cur = d.cur := rfl
@[simp] theorem blockEnd_winPos (d : DuCtx) : (blockEnd d).winPos = d.winPos := rfl
@[simp] theorem blockEnd_produced (d : DuCtx) : (blockEnd d).produced = d.produced := rfl
@[simp] theorem blockEnd_adler (d : DuCtx) : (blockEnd d).adler = d.adler := rfl
@[simp] theorem blockEnd_adlerGot (d : DuCtx) : (blockEnd d).adlerGot = d.adlerGot := rfl
@[simp] theorem blockEnd_out (d : DuCtx) : (blockEnd d).out = d.out := rfl
@[simp] theorem blockEnd_lenLen (d : DuCtx) : (blockEnd d).lenLen = d.lenLen := rfl
@[simp] theorem blockEnd_lengths (d : DuCtx) : (blockEnd d).lengths = d.lengths := rfl
@[simp] theorem blockEnd_tabCL (d : DuCtx) : (blockEnd d).tabCL = d.tabCL := rfl
@[simp] theorem blockEnd_tabLL (d : DuCtx) : (blockEnd d).tabLL = none := rfl
@[simp] theorem blockEnd_tabD (d : DuCtx) : (blockEnd d).tabD = none := rfl
@[simp] theorem blockEnd_win (d : DuCtx) : (blockEnd d).win = d.win := rfl

/-! A length symbol -/

@[simp] theorem selectLength_mode (s : Nat) (d : DuCtx) : (selectLength s d).mode = d.mode := rfl
@[simp] theorem selectLength_state (s : Nat) (d : DuCtx) : (selectLength s d).state = .gotLenSym := rfl
@[simp] theorem selectLength_err (s : Nat) (d : DuCtx) : (selectLength s d).err = d.err := rfl
@[simp] theorem selectLength_lastBlock (s : Nat) (d : DuCtx) : (selectLength s d).lastBlock = d.lastBlock := rfl
@[simp] theorem selectLength_bits (s : Nat) (d : DuCtx) : (selectLength s d).bits = d.bits := rfl
@[simp] theorem selectLength_nbits (s : Nat) (d : DuCtx) : (selectLength s d).nbits = d.nbits := rfl
@[simp] theorem selectLength_uncompLen (s : Nat) (d : DuCtx) : (selectLength s d).uncompLen = d.uncompLen := rfl
@[simp] theorem selectLength_hlit (s : Nat) (d : DuCtx) : (selectLength s d).hlit = d.hlit := rfl
@[simp] theorem selectLength_hdist (s : Nat) (d : DuCtx) : (selectLength s d).hdist = d.hdist := rfl
@[simp] theorem selectLength_hclen (s : Nat) (d : DuCtx) : (selectLength s d).hclen = d.hclen := rfl
@[simp] theorem selectLength_lenPtr (s : Nat) (d : DuCtx) : (selectLength s d).lenPtr = d.lenPtr := rfl
@[simp] theorem selectLength_lenExtraBits (s : Nat) (d : DuCtx) : (selectLength s d).lenExtraBits = d.lenExtraBits := rfl
@[simp] theorem selectLength_lenAddOn (s : Nat) (d : DuCtx) : (selectLength s d).lenAddOn = d.lenAddOn := rfl
@[simp] theorem selectLength_lenRep (s : Nat) (d : DuCtx) : (selectLength s d).lenRep = d.lenRep := rfl
@[simp] theorem selectLength_sym (s : Nat) (d : DuCtx) : (selectLength s d).sym = s := rfl
@[simp] theorem selectLength_len (s : Nat) (d : DuCtx) : (selectLength s d).len = d.len := rfl
@[simp] theorem selectLength_cur (s : Nat) (d : DuCtx) : (selectLength s d).cur = d.cur := rfl
@[simp] theorem selectLength_winPos (s : Nat) (d : DuCtx) : (selectLength s d).winPos = d.winPos := rfl
@[simp] theorem selectLength_produced (s : Nat) (d : DuCtx) : (selectLength s d).produced = d.produced := rfl
@[simp] theorem selectLength_adler (s : Nat) (d : DuCtx) : (selectLength s d).adler = d.adler := rfl
@[simp] theorem selectLength_adlerGot (s : Nat) (d : DuCtx) : (selectLength s d).adlerGot = d.adlerGot := rfl
@[simp] theorem selectLength_out (s : Nat) (d : DuCtx) : (selectLength s d).out = d.out := rfl
@[simp] theorem selectLength_lenLen (s : Nat) (d : DuCtx) : (selectLength s d).lenLen = d.lenLen := rfl
@[simp] theorem selectLength_lengths (s : Nat) (d : DuCtx) : (selectLength s d).lengths = d.lengths := rfl
@[simp] theorem selectLength_tabCL (s : Nat) (d : DuCtx) : (selectLength s d).tabCL = d.tabCL := rfl
@[simp] theorem selectLength_tabLL (s : Nat) (d : DuCtx) : (selectLength s d).tabLL = d.tabLL := rfl
@[simp] theorem selectLength_tabD (s : Nat) (d : DuCtx) : (selectLength s d).tabD = d.tabD := rfl
@[simp] theorem selectLength_win (s : Nat) (d : DuCtx) : (selectLength s d).win = d.win := rfl

/-! Its extra field -/

@[simp] theorem finishLength_mode (x : Nat) (d : DuCtx) : (finishLength x d).mode = d.mode := by simp [finishLength]
@[simp] theorem finishLength_state (x : Nat) (d : DuCtx) : (finishLength x d).state = .gotLen := by simp [finishLength]
@[simp] theorem finishLength_err (x : Nat) (d : DuCtx) : (finishLength x d).err = d.err := by simp [finishLength]
@[simp] theorem finishLength_lastBlock (x : Nat) (d : DuCtx) : (finishLength x d).lastBlock = d.lastBlock := by simp [finishLength]
@[simp] theorem finishLength_bits (x : Nat) (d : DuCtx) : (finishLength x d).bits = d.bits >>> lengthExtra d.sym := by simp [finishLength]
@[simp] theorem finishLength_nbits (x : Nat) (d : DuCtx) : (finishLength x d).nbits = d.nbits - lengthExtra d.sym := by simp [finishLength]
@[simp] theorem finishLength_uncompLen (x : Nat) (d : DuCtx) : (finishLength x d).uncompLen = d.uncompLen := by simp [finishLength]
@[simp] theorem finishLength_hlit (x : Nat) (d : DuCtx) : (finishLength x d).hlit = d.hlit := by simp [finishLength]
@[simp] theorem finishLength_hdist (x : Nat) (d : DuCtx) : (finishLength x d).hdist = d.hdist := by simp [finishLength]
@[simp] theorem finishLength_hclen (x : Nat) (d : DuCtx) : (finishLength x d).hclen = d.hclen := by simp [finishLength]
@[simp] theorem finishLength_lenPtr (x : Nat) (d : DuCtx) : (finishLength x d).lenPtr = d.lenPtr := by simp [finishLength]
@[simp] theorem finishLength_lenExtraBits (x : Nat) (d : DuCtx) : (finishLength x d).lenExtraBits = d.lenExtraBits := by simp [finishLength]
@[simp] theorem finishLength_lenAddOn (x : Nat) (d : DuCtx) : (finishLength x d).lenAddOn = d.lenAddOn := by simp [finishLength]
@[simp] theorem finishLength_lenRep (x : Nat) (d : DuCtx) : (finishLength x d).lenRep = d.lenRep := by simp [finishLength]
@[simp] theorem finishLength_sym (x : Nat) (d : DuCtx) : (finishLength x d).sym = d.sym := by simp [finishLength]
@[simp] theorem finishLength_len (x : Nat) (d : DuCtx) : (finishLength x d).len = matchLength d.sym x := by simp [finishLength]
@[simp] theorem finishLength_cur (x : Nat) (d : DuCtx) : (finishLength x d).cur = d.cur := by simp [finishLength]
@[simp] theorem finishLength_winPos (x : Nat) (d : DuCtx) : (finishLength x d).winPos = d.winPos := by simp [finishLength]
@[simp] theorem finishLength_produced (x : Nat) (d : DuCtx) : (finishLength x d).produced = d.produced := by simp [finishLength]
@[simp] theorem finishLength_adler (x : Nat) (d : DuCtx) : (finishLength x d).adler = d.adler := by simp [finishLength]
@[simp] theorem finishLength_adlerGot (x : Nat) (d : DuCtx) : (finishLength x d).adlerGot = d.adlerGot := by simp [finishLength]
@[simp] theorem finishLength_out (x : Nat) (d : DuCtx) : (finishLength x d).out = d.out := by simp [finishLength]
@[simp] theorem finishLength_lenLen (x : Nat) (d : DuCtx) : (finishLength x d).lenLen = d.lenLen := by simp [finishLength]
@[simp] theorem finishLength_lengths (x : Nat) (d : DuCtx) : (finishLength x d).lengths = d.lengths := by simp [finishLength]
@[simp] theorem finishLength_tabCL (x : Nat) (d : DuCtx) : (finishLength x d).tabCL = d.tabCL := by simp [finishLength]
@[simp] theorem finishLength_tabLL (x : Nat) (d : DuCtx) : (finishLength x d).tabLL = d.tabLL := by simp [finishLength]
@[simp] theorem finishLength_tabD (x : Nat) (d : DuCtx) : (finishLength x d).tabD = d.tabD := by simp [finishLength]
@[simp] theorem finishLength_win (x : Nat) (d : DuCtx) : (finishLength x d).win = d.win := by simp [finishLength]

/-! A distance symbol -/

@[simp] theorem selectDistance_mode (s : Nat) (d : DuCtx) : (selectDistance s d).mode = d.mode := rfl
@[simp] theorem selectDistance_state (s : Nat) (d : DuCtx) : (selectDistance s d).state = .gotDistSym := rfl
@[simp] theorem selectDistance_err (s : Nat) (d : DuCtx) : (selectDistance s d).err = d.err := rfl
@[simp] theorem selectDistance_lastBlock (s : Nat) (d : DuCtx) : (selectDistance s d).lastBlock = d.lastBlock := rfl
@[simp] theorem selectDistance_bits (s : Nat) (d : DuCtx) : (selectDistance s d).bits = d.bits := rfl
@[simp] theorem selectDistance_nbits (s : Nat) (d : DuCtx) : (selectDistance s d).nbits = d.nbits := rfl
@[simp] theorem selectDistance_uncompLen (s : Nat) (d : DuCtx) : (selectDistance s d).uncompLen = d.uncompLen := rfl
@[simp] theorem selectDistance_hlit (s : Nat) (d : DuCtx) : (selectDistance s d).hlit = d.hlit := rfl
@[simp] theorem selectDistance_hdist (s : Nat) (d : DuCtx) : (selectDistance s d).hdist = d.hdist := rfl
@[simp] theorem selectDistance_hclen (s : Nat) (d : DuCtx) : (selectDistance s d).hclen = d.hclen := rfl
@[simp] theorem selectDistance_lenPtr (s : Nat) (d : DuCtx) : (selectDistance s d).lenPtr = d.lenPtr := rfl
@[simp] theorem selectDistance_lenExtraBits (s : Nat) (d : DuCtx) : (selectDistance s d).lenExtraBits = d.lenExtraBits := rfl
@[simp] theorem selectDistance_lenAddOn (s : Nat) (d : DuCtx) : (selectDistance s d).lenAddOn = d.lenAddOn := rfl
@[simp] theorem selectDistance_lenRep (s : Nat) (d : DuCtx) : (selectDistance s d).lenRep = d.lenRep := rfl
@[simp] theorem selectDistance_sym (s : Nat) (d : DuCtx) : (selectDistance s d).sym = s := rfl
@[simp] theorem selectDistance_len (s : Nat) (d : DuCtx) : (selectDistance s d).len = d.len := rfl
@[simp] theorem selectDistance_cur (s : Nat) (d : DuCtx) : (selectDistance s d).cur = d.cur := rfl
@[simp] theorem selectDistance_winPos (s : Nat) (d : DuCtx) : (selectDistance s d).winPos = d.winPos := rfl
@[simp] theorem selectDistance_produced (s : Nat) (d : DuCtx) : (selectDistance s d).produced = d.produced := rfl
@[simp] theorem selectDistance_adler (s : Nat) (d : DuCtx) : (selectDistance s d).adler = d.adler := rfl
@[simp] theorem selectDistance_adlerGot (s : Nat) (d : DuCtx) : (selectDistance s d).adlerGot = d.adlerGot := rfl
@[simp] theorem selectDistance_out (s : Nat) (d : DuCtx) : (selectDistance s d).out = d.out := rfl
@[simp] theorem selectDistance_lenLen (s : Nat) (d : DuCtx) : (selectDistance s d).lenLen = d.lenLen := rfl
@[simp] theorem selectDistance_lengths (s : Nat) (d : DuCtx) : (selectDistance s d).lengths = d.lengths := rfl
@[simp] theorem selectDistance_tabCL (s : Nat) (d : DuCtx) : (selectDistance s d).tabCL = d.tabCL := rfl
@[simp] theorem selectDistance_tabLL (s : Nat) (d : DuCtx) : (selectDistance s d).tabLL = d.tabLL := rfl
@[simp] theorem selectDistance_tabD (s : Nat) (d : DuCtx) : (selectDistance s d).tabD = d.tabD := rfl
@[simp] theorem selectDistance_win (s : Nat) (d : DuCtx) : (selectDistance s d).win = d.win := rfl

/-! A code length -/

@[simp] theorem writeLength_mode (v : Nat) (d : DuCtx) : (writeLength v d).mode = d.mode := rfl
@[simp] theorem writeLength_state (v : Nat) (d : DuCtx) : (writeLength v d).state = d.state := rfl
@[simp] theorem writeLength_err (v : Nat) (d : DuCtx) : (writeLength v d).err = d.err := rfl
@[simp] theorem writeLength_lastBlock (v : Nat) (d : DuCtx) : (writeLength v d).lastBlock = d.lastBlock := rfl
@[simp] theorem writeLength_bits (v : Nat) (d : DuCtx) : (writeLength v d).bits = d.bits := rfl
@[simp] theorem writeLength_nbits (v : Nat) (d : DuCtx) : (writeLength v d).nbits = d.nbits := rfl
@[simp] theorem writeLength_uncompLen (v : Nat) (d : DuCtx) : (writeLength v d).uncompLen = d.uncompLen := rfl
@[simp] theorem writeLength_hlit (v : Nat) (d : DuCtx) : (writeLength v d).hlit = d.hlit := rfl
@[simp] theorem writeLength_hdist (v : Nat) (d : DuCtx) : (writeLength v d).hdist = d.hdist := rfl
@[simp] theorem writeLength_hclen (v : Nat) (d : DuCtx) : (writeLength v d).hclen = d.hclen := rfl
@[simp] theorem writeLength_lenPtr (v : Nat) (d : DuCtx) : (writeLength v d).lenPtr = d.lenPtr + 1 := rfl
@[simp] theorem writeLength_lenExtraBits (v : Nat) (d : DuCtx) : (writeLength v d).lenExtraBits = d.lenExtraBits := rfl
@[simp] theorem writeLength_lenAddOn (v : Nat) (d : DuCtx) : (writeLength v d).lenAddOn = d.lenAddOn := rfl
@[simp] theorem writeLength_lenRep (v : Nat) (d : DuCtx) : (writeLength v d).lenRep = d.lenRep := rfl
@[simp] theorem writeLength_sym (v : Nat) (d : DuCtx) : (writeLength v d).sym = d.sym := rfl
@[simp] theorem writeLength_len (v : Nat) (d : DuCtx) : (writeLength v d).len = d.len := rfl
@[simp] theorem writeLength_cur (v : Nat) (d : DuCtx) : (writeLength v d).cur = d.cur := rfl
@[simp] theorem writeLength_winPos (v : Nat) (d : DuCtx) : (writeLength v d).winPos = d.winPos := rfl
@[simp] theorem writeLength_produced (v : Nat) (d : DuCtx) : (writeLength v d).produced = d.produced := rfl
@[simp] theorem writeLength_adler (v : Nat) (d : DuCtx) : (writeLength v d).adler = d.adler := rfl
@[simp] theorem writeLength_adlerGot (v : Nat) (d : DuCtx) : (writeLength v d).adlerGot = d.adlerGot := rfl
@[simp] theorem writeLength_out (v : Nat) (d : DuCtx) : (writeLength v d).out = d.out := rfl
@[simp] theorem writeLength_lenLen (v : Nat) (d : DuCtx) : (writeLength v d).lenLen = d.lenLen := rfl
@[simp] theorem writeLength_lengths (v : Nat) (d : DuCtx) : (writeLength v d).lengths = d.lengths.set d.lenPtr v := rfl
@[simp] theorem writeLength_tabCL (v : Nat) (d : DuCtx) : (writeLength v d).tabCL = d.tabCL := rfl
@[simp] theorem writeLength_tabLL (v : Nat) (d : DuCtx) : (writeLength v d).tabLL = d.tabLL := rfl
@[simp] theorem writeLength_tabD (v : Nat) (d : DuCtx) : (writeLength v d).tabD = d.tabD := rfl
@[simp] theorem writeLength_win (v : Nat) (d : DuCtx) : (writeLength v d).win = d.win := rfl

/-! C.FIRST -/

@[simp] theorem clearFirst_mode (c : CuCtx) : (clearFirst c).mode = c.mode := rfl
@[simp] theorem clearFirst_first (c : CuCtx) : (clearFirst c).first = false := rfl
@[simp] theorem clearFirst_finished (c : CuCtx) : (clearFirst c).finished = c.finished := rfl
@[simp] theorem clearFirst_lastBlock (c : CuCtx) : (clearFirst c).lastBlock = c.lastBlock := rfl
@[simp] theorem clearFirst_adler (c : CuCtx) : (clearFirst c).adler = c.adler := rfl
@[simp] theorem clearFirst_bw (c : CuCtx) : (clearFirst c).bw = c.bw := rfl
@[simp] theorem clearFirst_lz (c : CuCtx) : (clearFirst c).lz = c.lz := rfl
@[simp] theorem clearFirst_sym (c : CuCtx) : (clearFirst c).sym = c.sym := rfl

/-! C.LASTBLOCK -/

@[simp] theorem setCLastBlock_mode (c : CuCtx) : (setCLastBlock c).mode = c.mode := rfl
@[simp] theorem setCLastBlock_first (c : CuCtx) : (setCLastBlock c).first = c.first := rfl
@[simp] theorem setCLastBlock_finished (c : CuCtx) : (setCLastBlock c).finished = c.finished := rfl
@[simp] theorem setCLastBlock_lastBlock (c : CuCtx) : (setCLastBlock c).lastBlock = true := rfl
@[simp] theorem setCLastBlock_adler (c : CuCtx) : (setCLastBlock c).adler = c.adler := rfl
@[simp] theorem setCLastBlock_bw (c : CuCtx) : (setCLastBlock c).bw = c.bw := rfl
@[simp] theorem setCLastBlock_lz (c : CuCtx) : (setCLastBlock c).lz = c.lz := rfl
@[simp] theorem setCLastBlock_sym (c : CuCtx) : (setCLastBlock c).sym = c.sym := rfl

/-! C.FINISHED -/

@[simp] theorem setFinished_mode (c : CuCtx) : (setFinished c).mode = c.mode := rfl
@[simp] theorem setFinished_first (c : CuCtx) : (setFinished c).first = c.first := rfl
@[simp] theorem setFinished_finished (c : CuCtx) : (setFinished c).finished = true := rfl
@[simp] theorem setFinished_lastBlock (c : CuCtx) : (setFinished c).lastBlock = c.lastBlock := rfl
@[simp] theorem setFinished_adler (c : CuCtx) : (setFinished c).adler = c.adler := rfl
@[simp] theorem setFinished_bw (c : CuCtx) : (setFinished c).bw = c.bw := rfl
@[simp] theorem setFinished_lz (c : CuCtx) : (setFinished c).lz = c.lz := rfl
@[simp] theorem setFinished_sym (c : CuCtx) : (setFinished c).sym = c.sym := rfl

/-! An answer -/

@[simp] theorem answer_cu (r : Reply) (s : State) : (answer r s).cu = s.cu := rfl
@[simp] theorem answer_du (r : Reply) (s : State) : (answer r s).du = s.du := rfl
@[simp] theorem answer_inbox (r : Reply) (s : State) : (answer r s).inbox = s.inbox := rfl
@[simp] theorem answer_replies (r : Reply) (s : State) : (answer r s).replies = s.replies ++ [r] := rfl

/-! The end of a D_FEED -/

@[simp] theorem returnDu_cu (d : DuCtx) (s : State) : (returnDu d s).cu = s.cu := rfl
@[simp] theorem returnDu_du (d : DuCtx) (s : State) : (returnDu d s).du = some { d with out := [] } := rfl
@[simp] theorem returnDu_inbox (d : DuCtx) (s : State) : (returnDu d s).inbox = s.inbox := rfl
@[simp] theorem returnDu_replies (d : DuCtx) (s : State) : (returnDu d s).replies = s.replies ++ [.du d.out d.err] := rfl

/-! Taking an error -/

@[simp] theorem raise_cu (e : Err) (d : DuCtx) (s : State) : (raise e d s).cu = s.cu := rfl
@[simp] theorem raise_du (e : Err) (d : DuCtx) (s : State) : (raise e d s).du = some { d with err := e, out := [] } := rfl
@[simp] theorem raise_inbox (e : Err) (d : DuCtx) (s : State) : (raise e d s).inbox = s.inbox := rfl
@[simp] theorem raise_replies (e : Err) (d : DuCtx) (s : State) : (raise e d s).replies = s.replies ++ [.du d.out e] := rfl

/-! `take` -/

@[simp] theorem takeOutput_cu (c : CuCtx) (s : State) : (takeOutput c s).cu = some { c with bw := { c.bw with out := [] } } := rfl
@[simp] theorem takeOutput_du (c : CuCtx) (s : State) : (takeOutput c s).du = s.du := rfl
@[simp] theorem takeOutput_inbox (c : CuCtx) (s : State) : (takeOutput c s).inbox = s.inbox := rfl
@[simp] theorem takeOutput_replies (c : CuCtx) (s : State) : (takeOutput c s).replies = s.replies ++ [.cu c.bw.out] := rfl

/-! A refused command of the CU -/

@[simp] theorem refuseCu_cu (s : State) : (refuseCu s).cu = s.cu := rfl
@[simp] theorem refuseCu_du (s : State) : (refuseCu s).du = s.du := rfl
@[simp] theorem refuseCu_inbox (s : State) : (refuseCu s).inbox = s.inbox := rfl
@[simp] theorem refuseCu_replies (s : State) : (refuseCu s).replies = s.replies ++ [.cu []] := rfl

/-! A refused command of the DU -/

@[simp] theorem refuseDu_cu (s : State) : (refuseDu s).cu = s.cu := rfl
@[simp] theorem refuseDu_du (s : State) : (refuseDu s).du = s.du := rfl
@[simp] theorem refuseDu_inbox (s : State) : (refuseDu s).inbox = s.inbox := rfl
@[simp] theorem refuseDu_replies (s : State) : (refuseDu s).replies = s.replies ++ [.du [] (match s.du with
      | none => .ok
      | some d => d.err)] := rfl

/-! The arrival of a byte -/

@[simp] theorem lzReceive_s (b : Byte) (z : Lz) : (lzReceive b z).s = z.s ++ [b] := rfl
@[simp] theorem lzReceive_r (b : Byte) (z : Lz) : (lzReceive b z).r = z.r + 1 := rfl
@[simp] theorem lzReceive_p (b : Byte) (z : Lz) : (lzReceive b z).p = z.p := rfl
@[simp] theorem lzReceive_h (b : Byte) (z : Lz) : (lzReceive b z).h = z.h := rfl
@[simp] theorem lzReceive_cand (b : Byte) (z : Lz) : (lzReceive b z).cand = z.cand := rfl
@[simp] theorem lzReceive_win (b : Byte) (z : Lz) : (lzReceive b z).win = winWrite z.win (z.r % Config.cWinSize) b := rfl
@[simp] theorem lzReceive_head (b : Byte) (z : Lz) : (lzReceive b z).head = z.head := rfl
@[simp] theorem lzReceive_next (b : Byte) (z : Lz) : (lzReceive b z).next = z.next := rfl

/-! The pending-match set when a byte has arrived -/

@[simp] theorem candsArrive_s (z : Lz) : (candsArrive z).s = z.s := rfl
@[simp] theorem candsArrive_r (z : Lz) : (candsArrive z).r = z.r := rfl
@[simp] theorem candsArrive_p (z : Lz) : (candsArrive z).p = z.p := rfl
@[simp] theorem candsArrive_h (z : Lz) : (candsArrive z).h = z.h := rfl
@[simp] theorem candsArrive_cand (z : Lz) : (candsArrive z).cand = z.cand.zipIdx.map fun (c, o) => candArrive z (z.p + o) c := rfl
@[simp] theorem candsArrive_win (z : Lz) : (candsArrive z).win = z.win := rfl
@[simp] theorem candsArrive_head (z : Lz) : (candsArrive z).head = z.head := rfl
@[simp] theorem candsArrive_next (z : Lz) : (candsArrive z).next = z.next := rfl

/-! The pending-match set for a new commit position -/

@[simp] theorem candsEstablish_s (z : Lz) : (candsEstablish z).s = z.s := rfl
@[simp] theorem candsEstablish_r (z : Lz) : (candsEstablish z).r = z.r := rfl
@[simp] theorem candsEstablish_p (z : Lz) : (candsEstablish z).p = z.p := rfl
@[simp] theorem candsEstablish_h (z : Lz) : (candsEstablish z).h = z.h := rfl
@[simp] theorem candsEstablish_cand (z : Lz) : (candsEstablish z).cand = (List.range Config.lazy).map fun o => candEstablish z (z.p + o) := rfl
@[simp] theorem candsEstablish_win (z : Lz) : (candsEstablish z).win = z.win := rfl
@[simp] theorem candsEstablish_head (z : Lz) : (candsEstablish z).head = z.head := rfl
@[simp] theorem candsEstablish_next (z : Lz) : (candsEstablish z).next = z.next := rfl

/-! A token is committed -/

@[simp] theorem lzCommit_s (t : Token) (z : Lz) : (lzCommit t z).s = z.s := rfl
@[simp] theorem lzCommit_r (t : Token) (z : Lz) : (lzCommit t z).r = z.r := rfl
@[simp] theorem lzCommit_p (t : Token) (z : Lz) : (lzCommit t z).p = z.p + t.width := rfl
@[simp] theorem lzCommit_h (t : Token) (z : Lz) : (lzCommit t z).h = z.h := rfl
@[simp] theorem lzCommit_cand (t : Token) (z : Lz) : (lzCommit t z).cand = (List.range Config.lazy).map fun o => candEstablish { z with p := z.p + t.width } (z.p + t.width + o) := rfl
@[simp] theorem lzCommit_win (t : Token) (z : Lz) : (lzCommit t z).win = z.win := rfl
@[simp] theorem lzCommit_head (t : Token) (z : Lz) : (lzCommit t z).head = z.head := rfl
@[simp] theorem lzCommit_next (t : Token) (z : Lz) : (lzCommit t z).next = z.next := rfl

end Sys2Proof.Laws
end

