-- ==== Sys2Proof/Laws/Ops.lean ====
section
/-! SUPPORT. For each shared operation, once, what it can do: the provers cite these instead of unfolding the
operation. -/

namespace Sys2Proof.Laws

open Sys2Proof.Machine

/-! ## Bit reader -/

/-- `refill` changes D.BITS and D.NBITS only, by whole bytes from the front of the input, and stops with 24 bits or no
input (40_bitio.md R144). -/
theorem refill_spec (d : DuCtx) (inp : List Byte) : ∃ taken b,
    inp = taken ++ (refill d inp).2 ∧
      (refill d inp).1 = { d with bits := b, nbits := d.nbits + 8 * taken.length } ∧
      (24 ≤ d.nbits + 8 * taken.length ∨ (refill d inp).2 = []) ∧
      (taken ≠ [] → d.nbits + 8 * taken.length ≤ 31) := by
  induction inp generalizing d with
  | nil => exact ⟨[], d.bits, by simp [refill]⟩
  | cons b rest ih =>
    rw [refill]
    split
    · next h =>
      obtain ⟨taken, w, h1, h2, h3, h4⟩ :=
        ih { d with bits := d.bits ||| (b.setWidth 32 <<< d.nbits), nbits := d.nbits + 8 }
      simp only [Config.refillBits] at h
      refine ⟨b :: taken, w, by rw [List.cons_append, ← h1], ?_, ?_, fun _ => ?_⟩
      · rw [h2]; simp only [List.length_cons]; congr 1; omega
      · rcases h3 with h3 | h3
        · left; simp only [List.length_cons]; simp only at h3; omega
        · exact .inr h3
      · by_cases ht : taken = []
        · subst ht; simp; omega
        · have := h4 ht; simp only [List.length_cons]; simp only at this; omega
    · next h =>
      refine ⟨[], d.bits, by simp, by simp, ?_, by simp⟩
      left; simp only [Config.refillBits] at h; simp; omega

theorem need_of_lt {n : Nat} {d : DuCtx} {k : DuCtx → Stepped} (h : d.nbits < n) : need n d k = .suspended d := by
  rw [need, if_pos h]

theorem need_of_le {n : Nat} {d : DuCtx} {k : DuCtx → Stepped} (h : n ≤ d.nbits) : need n d k = k d := by
  rw [need, if_neg (by omega)]

/-! ## DU output -/

theorem copyBytes_succ (dist len : Nat) (d : DuCtx) :
    copyBytes dist (len + 1) d = outByte (windowBack dist (copyBytes dist len d)) (copyBytes dist len d) := by
  induction len generalizing d with
  | zero => rfl
  | succ n ih => rw [copyBytes, ih]; rfl

/-- A copy changes the output, the window with its two counters, and the checksum; nothing else (46_decompress.md
R321). -/
theorem copyBytes_frame (dist len : Nat) (d : DuCtx) : ∃ out win winPos produced adler,
    copyBytes dist len d =
      { d with out := d.out ++ out, win := win, winPos := winPos, produced := produced, adler := adler } ∧
      out.length = len := by
  induction len with
  | zero => exact ⟨[], d.win, d.winPos, d.produced, d.adler, by simp [copyBytes], rfl⟩
  | succ n ih =>
    obtain ⟨o, w, p, q, a, h, hl⟩ := ih
    have key : ∀ b : Byte, ∃ win winPos produced adler, outByte b (copyBytes dist n d) =
        { d with out := d.out ++ (o ++ [b]), win := win, winPos := winPos, produced := produced, adler := adler } :=
      fun b => ⟨_, _, _, _, by rw [h, outByte, List.append_assoc]⟩
    obtain ⟨w', p', q', a', h'⟩ := key (windowBack dist (copyBytes dist n d))
    exact ⟨_, w', p', q', a', (copyBytes_succ dist n d).trans h', by simp [hl]⟩

theorem adlerInMode_append (m : Mode) (a : Word32) (u v : List Byte) :
    adlerInMode m (adlerInMode m a u) v = adlerInMode m a (u ++ v) := by
  cases m <;> simp [adlerInMode, adler32]

@[simp] theorem adlerInMode_nil (m : Mode) (a : Word32) : adlerInMode m a [] = a := by
  cases m <;> rfl

/-- `k` repeats: D.LENREP in `k` places from D.LENPTR on, as far as D.LENGTHS goes (R311). -/
theorem writeRepeats_spec (k : Nat) (d : DuCtx) (h : d.lenPtr + k ≤ d.lengths.length) :
    writeRepeats k d = { d with
      lengths := d.lengths.take d.lenPtr ++ List.replicate k d.lenRep ++ d.lengths.drop (d.lenPtr + k)
      lenPtr := d.lenPtr + k } := by
  induction k generalizing d with
  | zero => simp [writeRepeats]
  | succ k ih =>
    rw [writeRepeats, ih _ (by simp only [writeLength, List.length_set]; omega)]
    simp only [writeLength, DuCtx.mk.injEq, true_and, and_true]
    have hp : d.lenPtr < d.lengths.length := by omega
    refine ⟨by omega, ?_⟩
    rw [List.take_set, List.drop_set, if_pos (by omega), List.replicate_succ]
    rw [List.take_succ_eq_append_getElem hp, List.set_append, if_neg (by rw [List.length_take]; omega), List.length_take,
      Nat.min_eq_left (by omega), Nat.sub_self]
    simp [Nat.add_assoc, Nat.add_comm 1 k]

/-! ## Bit writer -/

theorem spillBytes_spec (k : Nat) (w : BitWriter) : ∃ bytes,
    (spillBytes k w).out = w.out ++ bytes ∧ bytes.length = k ∧ (spillBytes k w).n = w.n - 8 * k := by
  induction k generalizing w with
  | zero => exact ⟨[], by simp [spillBytes]⟩
  | succ k ih =>
    obtain ⟨bytes, h1, h2, h3⟩ := ih { acc := w.acc >>> 8, n := w.n - 8, out := w.out ++ [w.acc.setWidth 8] }
    exact ⟨w.acc.setWidth 8 :: bytes, by simp [spillBytes, h1], by simp [h2], by simp only [spillBytes, h3]; omega⟩

/-- `put` only appends to BW.OUT and leaves at most 7 bits (40_bitio.md R141). -/
theorem put_spec (v n : Nat) (w : BitWriter) : ∃ bytes,
    (put v n w).out = w.out ++ bytes ∧ bytes.length = (w.n + n) / 8 ∧ (put v n w).n = (w.n + n) % 8 := by
  obtain ⟨bytes, h1, h2, h3⟩ :=
    spillBytes_spec ((w.n + n) / 8) { w with acc := w.acc ||| (BitVec.ofNat 32 v <<< w.n), n := w.n + n }
  exact ⟨bytes, h1, h2, by rw [put, h3]; simp only; omega⟩

/-! ## Elements and commands -/

@[simp] theorem settle_completed (d : DuCtx) (s : State) : settle (.completed d) s = { s with du := some d } := rfl
@[simp] theorem settle_suspended (d : DuCtx) (s : State) : settle (.suspended d) s = { s with du := some d } := rfl
@[simp] theorem settle_raised (e : Err) (d : DuCtx) (s : State) : settle (.raised e d) s = raise e d s := rfl
@[simp] theorem settle_cu (r : Stepped) (s : State) : (settle r s).cu = s.cu := by cases r <;> rfl
@[simp] theorem settle_inbox (r : Stepped) (s : State) : (settle r s).inbox = s.inbox := by cases r <;> rfl

/-- An element gives a next state exactly where the automaton decodes its alphabet, and then its effect is settled. -/
theorem onElement_next {a : Alphabet} {f : DuCtx → Stepped} {s t : State} : onElement a f s = .next t ↔
    ∃ d, s.du = some d ∧ d.err = .ok ∧ expected d = some a ∧ t = settle (f d) s := by
  unfold onElement
  cases hd : s.du with
  | none => simp
  | some d =>
    by_cases he : d.err = .ok <;> by_cases ha : expected d = some a <;> simp [DuCtx.inError, he, ha]
    exact eq_comm

/-- An accepted C_FEED ends with `take`; a refused one answers with no bytes (45_compress_driver.md R271, R272). -/
theorem cuFeed_spec (f : CuCtx → CuCtx) (s : State) :
    (∃ c, s.cu = some c ∧ c.finished = false ∧ cuFeed f s = .next (takeOutput (f c) s)) ∨
      ((s.cu = none ∨ ∃ c, s.cu = some c ∧ c.finished = true) ∧ cuFeed f s = .next (refuseCu s)) := by
  unfold cuFeed
  cases hc : s.cu with
  | none => simp
  | some c => cases hf : c.finished <;> simp [hf]

/-- An accepted D_FEED is the loop of R323. -/
theorem execDFeed_accepted {s : State} {d : DuCtx} (data : List Byte) (h : s.du = some d) (he : d.err = .ok) :
    execDFeed data s = match runFeed data d with
      | some (.raised e d') => .next (raise e d' s)
      | some (.suspended d') => .next (returnDu d' s)
      | some (.completed d') => .next (returnDu d' s)
      | none => .fault .feedUnfinished := by
  cases hr : runFeed data d with
  | none => simp [execDFeed, h, DuCtx.inError, he, hr]
  | some r => cases r <;> simp [execDFeed, h, DuCtx.inError, he, hr]

end Sys2Proof.Laws
end

