-- ==== Sys2Proof/Laws/Step.lean ====
section
/-! SUPPORT. What a step can do, the loop of D_FEED, what a decoded element consumes, and what the hash walk finds. -/

namespace Sys2Proof.Laws

open Sys2Proof.Machine

/-- Everything a step that gives a next state has done. -/
theorem step_cases {s t : State} (h : step s = .next t) :
    (s.inbox = [] ∧ t = s) ∨
      (∃ p word data rest, s.inbox = (match p with
          | .cu => .cu word data
          | .du => .du word data) :: rest ∧
        exec (decodeCommand p word data) { s with inbox := rest } = .next t) ∨
      ∃ rest, s.inbox = .advance :: rest ∧
        (t = { s with inbox := rest } ∨
          ∃ d, s.du = some d ∧ d.err = .ok ∧
            (t = settle (automatonStep d) { s with inbox := rest } ∨
              ∃ a e, expected d = some a ∧ elementAt a d = .ok e ∧
                exec e.instr { s with inbox := rest, du := some (eat e.codeBits d) } = .next t)) := by
  unfold step fetch at h
  split at h
  · next hf =>
    split at hf
    · next hi => simp only [Host.Outcome.next.injEq] at h; exact .inl ⟨hi, h.symm⟩
    · simp at hf
    · simp at hf
    · unfold fetchElement at hf
      repeat' split at hf
      all_goals simp at hf
  · next i s' hf =>
    split at hf
    · simp at hf
    · next hi =>
      simp only [Fetched.instr.injEq] at hf
      obtain ⟨rfl, rfl⟩ := hf
      exact .inr (.inl ⟨.cu, _, _, _, hi, h⟩)
    · next hi =>
      simp only [Fetched.instr.injEq] at hf
      obtain ⟨rfl, rfl⟩ := hf
      exact .inr (.inl ⟨.du, _, _, _, hi, h⟩)
    · next rest hi =>
      refine .inr (.inr ⟨rest, hi, .inr ?_⟩)
      unfold fetchElement at hf
      split at hf
      · simp at hf
      · next d hd =>
        split at hf
        · simp at hf
        · next he =>
          split at hf
          · simp at hf
          · next a ha =>
            split at hf
            · next e hel =>
              simp only [Fetched.instr.injEq] at hf
              obtain ⟨rfl, rfl⟩ := hf
              exact ⟨d, hd, by simpa [DuCtx.inError] using he, .inr ⟨a, e, ha, hel, h⟩⟩
            · simp at hf
  · next s' hf =>
    simp only [Host.Outcome.next.injEq] at h
    subst h
    split at hf
    · simp at hf
    · simp at hf
    · simp at hf
    · next rest hi =>
      refine .inr (.inr ⟨rest, hi, ?_⟩)
      unfold fetchElement at hf
      split at hf
      · simp only [Fetched.frame.injEq] at hf; exact .inl hf.symm
      · next d hd =>
        split at hf
        · simp only [Fetched.frame.injEq] at hf; exact .inl hf.symm
        · next he =>
          have he' : d.err = .ok := by simpa [DuCtx.inError] using he
          split at hf
          · simp only [Fetched.frame.injEq] at hf; exact .inr ⟨d, hd, he', .inl hf.symm⟩
          · split at hf
            · simp at hf
            · simp only [Fetched.frame.injEq] at hf; exact .inr ⟨d, hd, he', .inl hf.symm⟩

/-- More fuel does not change what the loop of D_FEED gives. -/
theorem feedLoop_mono {fuel k : Nat} {d : DuCtx} {inp : List Byte} {r : Stepped} (h : feedLoop fuel d inp = some r) :
    feedLoop (fuel + k) d inp = some r := by
  induction fuel generalizing d inp with
  | zero => simp [feedLoop] at h
  | succ n ih =>
    rw [show n + 1 + k = n + k + 1 by omega]
    rw [feedLoop] at h ⊢
    split <;> simp_all
    split <;> simp_all

/-- A decoded element stands whole in the available bits, and its code is not empty. -/
theorem decodeElement_fits {a : Alphabet} {t : Table} {bits nbits : Nat} {e : Decoded}
    (h : decodeElement a t bits nbits = .ok e) : 1 ≤ e.codeBits ∧ e.codeBits + e.extraBits ≤ nbits := by
  have sym : ∀ a, (match lookup t bits nbits with
      | .sym s l => decodeSymbol a s l bits nbits
      | .more => .error .needBits
      | .bad => .error .noCode) = Except.ok e → 1 ≤ e.codeBits ∧ e.codeBits + e.extraBits ≤ nbits := fun a h => by
    split at h
    · next s l hs =>
      unfold decodeSymbol at h
      split at h
      · simp at h
      · next hn =>
        split at h
        · simp only [Except.ok.injEq] at h
          subst h
          exact ⟨(lookup_sym hs).1, Nat.not_lt.1 hn⟩
        · simp at h
    · simp at h
    · simp at h
  cases a with
  | blockHeader =>
    simp only [decodeElement] at h
    split at h
    · simp at h
    · simp only [Except.ok.injEq] at h; subst h; simp only; omega
  | litLen => exact sym _ h
  | distance => exact sym _ h
  | codeLength => exact sym _ h

theorem walkFrom_mem {z : Lz} {q k x dprev d : Nat} (h : d ∈ walkFrom z q k x dprev) :
    dprev < d ∧ d ≤ Config.maxDist ∧ d ≤ q ∧ lzSame3 z q d = true := by
  induction k generalizing x dprev with
  | zero => simp [walkFrom] at h
  | succ k ih =>
    rw [walkFrom] at h
    split at h
    · simp at h
    · simp only at h
      split at h
      · simp at h
      · next hc =>
        simp only [not_or, Nat.not_le, Nat.not_lt] at hc
        have tail : ∀ {y}, d ∈ walkFrom z q k y ((q + Config.cWinSize - x) % Config.cWinSize) →
            dprev < d ∧ d ≤ Config.maxDist ∧ d ≤ q ∧ lzSame3 z q d = true := fun h => by
          obtain ⟨h1, h2⟩ := ih h
          exact ⟨by omega, h2⟩
        split at h
        · next hs =>
          rcases List.mem_cons.1 h with rfl | h
          · exact ⟨hc.1, hc.2.1, hc.2.2, hs⟩
          · exact tail h
        · exact tail h

/-- The walk gives only candidates in range whose three bytes agree (41_lz77.md R163, R173). -/
theorem lzWalk_mem {z : Lz} {q d : Nat} (h : d ∈ lzWalk z q) :
    1 ≤ d ∧ d ≤ Config.maxDist ∧ d ≤ q ∧ lzSame3 z q d = true := walkFrom_mem h

/-- The pending-match set keeps its number of slots when a byte arrives. -/
theorem candsArrive_length (z : Lz) : (candsArrive z).cand.length = z.cand.length := by
  simp [candsArrive]

/-- It has LAZY slots after every commit. -/
theorem candsEstablish_length (z : Lz) : (candsEstablish z).cand.length = Config.lazy := by
  simp [candsEstablish]

/-- Its slot `o` after a commit. -/
theorem candsEstablish_getElem? (z : Lz) {o : Nat} (h : o < Config.lazy) :
    (candsEstablish z).cand[o]? = some (candEstablish z (z.p + o)) := by
  simp [candsEstablish, h]

/-- Instructions run one list after another. -/
theorem execAll_append (l k : List Instr) (s : State) : execAll (l ++ k) s = (execAll l s).bind (execAll k) := by
  induction l generalizing s with
  | nil => rfl
  | cons i is ih =>
    simp only [List.cons_append, execAll]
    cases exec i s with
    | next t => exact ih t
    | fault _ => rfl
    | refused _ => rfl

end Sys2Proof.Laws
end

