-- ==== Sys2Proof/Tests/Slice0.lean ====
section
/-! SUPPORT. Small tests of the model. Each expected result is taken from the spec: an encoding written out bit by bit
(47_symbols.md, 30_encoding.md), or a vector of 95_test_vectors.md; the witnesses at the end meet the hypotheses of the
statements. -/

namespace Sys2Proof.Tests

open Sys2Proof.Machine

/-- The outcome is a next state with property `p`. -/
def nextWith (p : State → Bool) : Host.Outcome State Fault Refusal → Bool
  | .next t => p t
  | .fault _ => false
  | .refused _ => false

/-- The number of a bit string in stream order, first bit least significant. -/
def streamBits (s : String) : Nat := s.toList.foldr (fun c n => (if c = '1' then 1 else 0) + 2 * n) 0

/-- The element that a bit string in stream order spells, whole. -/
def readElement (a : Alphabet) (t : Table) (s : String) : Option Instr :=
  match decodeElement a t (streamBits s) s.length with
  | .ok e => if e.codeBits + e.extraBits = s.length then some e.instr else none
  | .error _ => none

/-- A bare DU context in state `st`. -/
def duIn (st : DState) : DuCtx := { DuCtx.fresh .bare with state := st }

/-- A machine whose DU holds `d`. -/
def withDu (d : DuCtx) : State := { State.reset with du := some d }

/-- A machine whose CU holds `c`. -/
def withCu (c : CuCtx) : State := { State.reset with cu := some c }

/-! ## Well-formedness: for each check, an operand in range and one out of range -/

theorem test_wf_literals :
    Instr.wf (.lit0To143 143) = true ∧ Instr.wf (.lit0To143 144) = false ∧
    Instr.wf (.lit144To255 144) = true ∧ Instr.wf (.lit144To255 143) = false := by decide

theorem test_wf_lengths :
    Instr.wf (.len265 1) = true ∧ Instr.wf (.len265 2) = false ∧
    Instr.wf (.len266 1) = true ∧ Instr.wf (.len266 2) = false ∧
    Instr.wf (.len267 1) = true ∧ Instr.wf (.len267 2) = false ∧
    Instr.wf (.len268 1) = true ∧ Instr.wf (.len268 2) = false ∧
    Instr.wf (.len269 3) = true ∧ Instr.wf (.len269 4) = false ∧
    Instr.wf (.len270 3) = true ∧ Instr.wf (.len270 4) = false ∧
    Instr.wf (.len271 3) = true ∧ Instr.wf (.len271 4) = false ∧
    Instr.wf (.len272 3) = true ∧ Instr.wf (.len272 4) = false ∧
    Instr.wf (.len273 7) = true ∧ Instr.wf (.len273 8) = false ∧
    Instr.wf (.len274 7) = true ∧ Instr.wf (.len274 8) = false ∧
    Instr.wf (.len275 7) = true ∧ Instr.wf (.len275 8) = false ∧
    Instr.wf (.len276 7) = true ∧ Instr.wf (.len276 8) = false ∧
    Instr.wf (.len277 15) = true ∧ Instr.wf (.len277 16) = false ∧
    Instr.wf (.len278 15) = true ∧ Instr.wf (.len278 16) = false ∧
    Instr.wf (.len279 15) = true ∧ Instr.wf (.len279 16) = false ∧
    Instr.wf (.len280 15) = true ∧ Instr.wf (.len280 16) = false ∧
    Instr.wf (.len281 31) = true ∧ Instr.wf (.len281 32) = false ∧
    Instr.wf (.len282 31) = true ∧ Instr.wf (.len282 32) = false ∧
    Instr.wf (.len283 31) = true ∧ Instr.wf (.len283 32) = false ∧
    Instr.wf (.len284 31) = true ∧ Instr.wf (.len284 32) = false := by decide

theorem test_wf_distances :
    Instr.wf (.dist4 1) = true ∧ Instr.wf (.dist4 2) = false ∧
    Instr.wf (.dist5 1) = true ∧ Instr.wf (.dist5 2) = false ∧
    Instr.wf (.dist6 3) = true ∧ Instr.wf (.dist6 4) = false ∧
    Instr.wf (.dist7 3) = true ∧ Instr.wf (.dist7 4) = false ∧
    Instr.wf (.dist8 7) = true ∧ Instr.wf (.dist8 8) = false ∧
    Instr.wf (.dist9 7) = true ∧ Instr.wf (.dist9 8) = false ∧
    Instr.wf (.dist10 15) = true ∧ Instr.wf (.dist10 16) = false ∧
    Instr.wf (.dist11 15) = true ∧ Instr.wf (.dist11 16) = false ∧
    Instr.wf (.dist12 31) = true ∧ Instr.wf (.dist12 32) = false ∧
    Instr.wf (.dist13 31) = true ∧ Instr.wf (.dist13 32) = false ∧
    Instr.wf (.dist14 63) = true ∧ Instr.wf (.dist14 64) = false ∧
    Instr.wf (.dist15 63) = true ∧ Instr.wf (.dist15 64) = false ∧
    Instr.wf (.dist16 127) = true ∧ Instr.wf (.dist16 128) = false ∧
    Instr.wf (.dist17 127) = true ∧ Instr.wf (.dist17 128) = false ∧
    Instr.wf (.dist18 255) = true ∧ Instr.wf (.dist18 256) = false ∧
    Instr.wf (.dist19 255) = true ∧ Instr.wf (.dist19 256) = false ∧
    Instr.wf (.dist20 511) = true ∧ Instr.wf (.dist20 512) = false ∧
    Instr.wf (.dist21 511) = true ∧ Instr.wf (.dist21 512) = false ∧
    Instr.wf (.dist22 1023) = true ∧ Instr.wf (.dist22 1024) = false ∧
    Instr.wf (.dist23 1023) = true ∧ Instr.wf (.dist23 1024) = false ∧
    Instr.wf (.dist24 2047) = true ∧ Instr.wf (.dist24 2048) = false ∧
    Instr.wf (.dist25 2047) = true ∧ Instr.wf (.dist25 2048) = false ∧
    Instr.wf (.dist26 4095) = true ∧ Instr.wf (.dist26 4096) = false ∧
    Instr.wf (.dist27 4095) = true ∧ Instr.wf (.dist27 4096) = false ∧
    Instr.wf (.dist28 8191) = true ∧ Instr.wf (.dist28 8192) = false ∧
    Instr.wf (.dist29 8191) = true ∧ Instr.wf (.dist29 8192) = false := by decide

theorem test_wf_code_lengths :
    Instr.wf (.cl0To15 15) = true ∧ Instr.wf (.cl0To15 16) = false ∧
    Instr.wf (.cl16 3) = true ∧ Instr.wf (.cl16 4) = false ∧
    Instr.wf (.cl17 7) = true ∧ Instr.wf (.cl17 8) = false ∧
    Instr.wf (.cl18 127) = true ∧ Instr.wf (.cl18 128) = false := by decide

/-! ## Decoding: every constructor from its words -/

theorem test_decode_cu_words :
    decodeCommand .cu 0b0000 [0x61] = .cNewBare ∧
    decodeCommand .cu 0b0001 [0x61] = .cNewZlib ∧
    decodeCommand .cu 0b0010 [0x61] = .cuReserved0010 ∧
    decodeCommand .cu 0b0011 [0x61] = .cuReserved0011 ∧
    decodeCommand .cu 0b0100 [0x61] = .cFeedNone [0x61] ∧
    decodeCommand .cu 0b0101 [0x61] = .cFeedSync [0x61] ∧
    decodeCommand .cu 0b0110 [0x61] = .cFeedFinish [0x61] ∧
    decodeCommand .cu 0b0111 [0x61] = .cFeedReserved [0x61] ∧
    decodeCommand .cu 0b1000 [0x61] = .cuReserved1000 ∧
    decodeCommand .cu 0b1001 [0x61] = .cuReserved1001 ∧
    decodeCommand .cu 0b1010 [0x61] = .cuReserved1010 ∧
    decodeCommand .cu 0b1011 [0x61] = .cuReserved1011 ∧
    decodeCommand .cu 0b1100 [0x61] = .cFree ∧
    decodeCommand .cu 0b1101 [0x61] = .cuReserved1101 ∧
    decodeCommand .cu 0b1110 [0x61] = .cuReserved1110 ∧
    decodeCommand .cu 0b1111 [0x61] = .cuReserved1111 := by decide

theorem test_decode_du_words :
    decodeCommand .du 0b0000 [0x61] = .dNewBare ∧
    decodeCommand .du 0b0001 [0x61] = .dNewZlib ∧
    decodeCommand .du 0b0010 [0x61] = .duReserved0010 ∧
    decodeCommand .du 0b0011 [0x61] = .duReserved0011 ∧
    decodeCommand .du 0b0100 [0x61] = .dFeed [0x61] ∧
    decodeCommand .du 0b0101 [0x61] = .duReserved0101 ∧
    decodeCommand .du 0b0110 [0x61] = .duReserved0110 ∧
    decodeCommand .du 0b0111 [0x61] = .duReserved0111 ∧
    decodeCommand .du 0b1000 [0x61] = .dEof ∧
    decodeCommand .du 0b1001 [0x61] = .duReserved1001 ∧
    decodeCommand .du 0b1010 [0x61] = .duReserved1010 ∧
    decodeCommand .du 0b1011 [0x61] = .duReserved1011 ∧
    decodeCommand .du 0b1100 [0x61] = .dFree ∧
    decodeCommand .du 0b1101 [0x61] = .duReserved1101 ∧
    decodeCommand .du 0b1110 [0x61] = .duReserved1110 ∧
    decodeCommand .du 0b1111 [0x61] = .duReserved1111 := by decide

theorem test_decode_headers :
    readElement .blockHeader [] "000" = some (.blkStored false) ∧
    readElement .blockHeader [] "100" = some (.blkStored true) ∧
    readElement .blockHeader [] "010" = some (.blkStatic false) ∧
    readElement .blockHeader [] "110" = some (.blkStatic true) ∧
    readElement .blockHeader [] "001" = some (.blkDynamic false) ∧
    readElement .blockHeader [] "101" = some (.blkDynamic true) ∧
    readElement .blockHeader [] "011" = some (.blkReserved false) ∧
    readElement .blockHeader [] "111" = some (.blkReserved true) := by decide +kernel

theorem test_decode_literals :
    readElement .litLen staticLitLen "00110000" = some (.lit0To143 0) ∧
    readElement .litLen staticLitLen "10010001" = some (.lit0To143 97) ∧
    readElement .litLen staticLitLen "10111111" = some (.lit0To143 143) ∧
    readElement .litLen staticLitLen "110010000" = some (.lit144To255 144) ∧
    readElement .litLen staticLitLen "111111111" = some (.lit144To255 255) := by decide +kernel

theorem test_decode_end_and_lengths :
    readElement .litLen staticLitLen "0000000" = some .eob ∧
    readElement .litLen staticLitLen "0000001" = some .len257 ∧
    readElement .litLen staticLitLen "0000010" = some .len258 ∧
    readElement .litLen staticLitLen "0000011" = some .len259 ∧
    readElement .litLen staticLitLen "0000100" = some .len260 ∧
    readElement .litLen staticLitLen "0000101" = some .len261 ∧
    readElement .litLen staticLitLen "0000110" = some .len262 ∧
    readElement .litLen staticLitLen "0000111" = some .len263 ∧
    readElement .litLen staticLitLen "0001000" = some .len264 ∧
    readElement .litLen staticLitLen "00010011" = some (.len265 1) ∧
    readElement .litLen staticLitLen "00010101" = some (.len266 1) ∧
    readElement .litLen staticLitLen "00010111" = some (.len267 1) ∧
    readElement .litLen staticLitLen "00011001" = some (.len268 1) ∧
    readElement .litLen staticLitLen "000110110" = some (.len269 1) ∧
    readElement .litLen staticLitLen "000111010" = some (.len270 1) ∧
    readElement .litLen staticLitLen "000111110" = some (.len271 1) ∧
    readElement .litLen staticLitLen "001000010" = some (.len272 1) ∧
    readElement .litLen staticLitLen "0010001100" = some (.len273 1) := by decide +kernel

theorem test_decode_longer_lengths :
    readElement .litLen staticLitLen "0010010100" = some (.len274 1) ∧
    readElement .litLen staticLitLen "0010011100" = some (.len275 1) ∧
    readElement .litLen staticLitLen "0010100100" = some (.len276 1) ∧
    readElement .litLen staticLitLen "00101011000" = some (.len277 1) ∧
    readElement .litLen staticLitLen "00101101000" = some (.len278 1) ∧
    readElement .litLen staticLitLen "00101111000" = some (.len279 1) ∧
    readElement .litLen staticLitLen "110000001000" = some (.len280 1) ∧
    readElement .litLen staticLitLen "1100000110000" = some (.len281 1) ∧
    readElement .litLen staticLitLen "1100001010000" = some (.len282 1) ∧
    readElement .litLen staticLitLen "1100001110000" = some (.len283 1) ∧
    readElement .litLen staticLitLen "1100010010000" = some (.len284 1) ∧
    readElement .litLen staticLitLen "11000101" = some .len285 ∧
    readElement .litLen staticLitLen "11000110" = some .ll286 ∧
    readElement .litLen staticLitLen "11000111" = some .ll287 := by decide +kernel

theorem test_decode_distances :
    readElement .distance staticDist "00000" = some .dist0 ∧
    readElement .distance staticDist "00001" = some .dist1 ∧
    readElement .distance staticDist "00010" = some .dist2 ∧
    readElement .distance staticDist "00011" = some .dist3 ∧
    readElement .distance staticDist "001001" = some (.dist4 1) ∧
    readElement .distance staticDist "001011" = some (.dist5 1) ∧
    readElement .distance staticDist "0011010" = some (.dist6 1) ∧
    readElement .distance staticDist "0011110" = some (.dist7 1) ∧
    readElement .distance staticDist "01000100" = some (.dist8 1) ∧
    readElement .distance staticDist "01001100" = some (.dist9 1) ∧
    readElement .distance staticDist "010101000" = some (.dist10 1) ∧
    readElement .distance staticDist "010111000" = some (.dist11 1) ∧
    readElement .distance staticDist "0110010000" = some (.dist12 1) ∧
    readElement .distance staticDist "0110110000" = some (.dist13 1) ∧
    readElement .distance staticDist "01110100000" = some (.dist14 1) ∧
    readElement .distance staticDist "01111100000" = some (.dist15 1) ∧
    readElement .distance staticDist "100001000000" = some (.dist16 1) ∧
    readElement .distance staticDist "100011000000" = some (.dist17 1) ∧
    readElement .distance staticDist "1001010000000" = some (.dist18 1) ∧
    readElement .distance staticDist "1001110000000" = some (.dist19 1) ∧
    readElement .distance staticDist "10100100000000" = some (.dist20 1) ∧
    readElement .distance staticDist "10101100000000" = some (.dist21 1) ∧
    readElement .distance staticDist "101101000000000" = some (.dist22 1) ∧
    readElement .distance staticDist "101111000000000" = some (.dist23 1) ∧
    readElement .distance staticDist "1100010000000000" = some (.dist24 1) ∧
    readElement .distance staticDist "1100110000000000" = some (.dist25 1) ∧
    readElement .distance staticDist "11010100000000000" = some (.dist26 1) ∧
    readElement .distance staticDist "11011100000000000" = some (.dist27 1) ∧
    readElement .distance staticDist "111001000000000000" = some (.dist28 1) ∧
    readElement .distance staticDist "111011000000000000" = some (.dist29 1) ∧
    readElement .distance staticDist "11110" = some .dist30 ∧
    readElement .distance staticDist "11111" = some .dist31 := by decide +kernel

/-- The code-length alphabet with 5 bits for each of its 19 symbols: the canonical code of symbol s is s. -/
theorem test_decode_code_lengths :
    readElement .codeLength (codes (List.replicate 19 5)) "00000" = some (.cl0To15 0) ∧
    readElement .codeLength (codes (List.replicate 19 5)) "01111" = some (.cl0To15 15) ∧
    readElement .codeLength (codes (List.replicate 19 5)) "1000001" = some (.cl16 2) ∧
    readElement .codeLength (codes (List.replicate 19 5)) "10001101" = some (.cl17 5) ∧
    readElement .codeLength (codes (List.replicate 19 5)) "100100110101" = some (.cl18 86) := by decide +kernel

/-- A number of the table alone: a command word of the CU, then symbols of the static codes (assumption log 8). -/
theorem test_decode_table_word :
    decodeTableWord 8 0b0110 = some (.cFeedFinish []) ∧ decodeTableWord 8 0b11000110 = some .ll286 ∧
    decodeTableWord 24 (0b11101 * 8192) = some (.dist29 0) ∧ decodeTableWord 16 0b111111111 = some (.lit144To255 255) := by
  decide +kernel

/-- The next step runs the instruction placed by `withFetchWord`: distance symbol 29 at the start of a stream raises
E_FORMAT (46_decompress.md R322), symbol 286 E_TABLE, a literal is output. -/
theorem test_fetch_word :
    nextWith (fun t => t.replies == [.du [] .format]) (step (State.reset.withFetchWord 24 (0b11101 * 8192))) = true ∧
    nextWith (fun t => t.replies == [.du [] .table]) (step (State.reset.withFetchWord 8 0b11000110)) = true ∧
    nextWith (fun t => t.du.map DuCtx.out == some [255]) (step (State.reset.withFetchWord 16 0b111111111)) = true ∧
    nextWith (fun t => t.replies == [.cu []]) (step (State.reset.withFetchWord 8 0b0110)) = true := by decide +kernel

/-! ## Codes and tables (42_huffman.md R196, R203; 95_test_vectors.md 2.3) -/

/-- `len = [3, 3, 3, 2, 2, 3]` gives 100, 101, 110, 00, 01, 111 (R196). -/
theorem test_canonical : (codes [3, 3, 3, 2, 2, 3]).map Code.code = [0b100, 0b101, 0b110, 0b00, 0b01, 0b111] := by decide

theorem test_lookup :
    lookup (codes [2, 2, 1]) (streamBits "0") 1 = .sym 2 1 ∧ lookup (codes [2, 2, 1]) (streamBits "11") 2 = .sym 1 2 ∧
    lookup (codes [2, 2, 1]) (streamBits "1") 1 = .more ∧ lookup (codes [2, 2, 1]) 0 0 = .more ∧
    lookup (codes [2, 2, 2]) (streamBits "11") 2 = .bad ∧ mkTable [1, 1, 1] = none ∧ lookup (codes [0, 0]) 0 0 = .bad := by
  decide +kernel

theorem test_hufflimited :
    huffLimited [1, 1, 1] 15 = [2, 2, 1] ∧ huffLimited [3, 3, 2, 2, 1] 15 = [2, 2, 3, 2, 3] ∧
    huffLimited [1, 1, 2, 3, 5, 8, 13, 21, 34] 7 = [5, 5, 4, 4, 4, 3, 3, 2, 2] := by decide +kernel

/-! ## Bit writer, chooser, emission (95_test_vectors.md 2.1, 2.4, 2.5) -/

theorem test_put : put 0xFFFF 16 (put 1 3 BitWriter.fresh) = ⟨0b111, 3, [0xF9, 0xFF]⟩ := by decide +kernel

theorem test_putcode : putCode 0b110 3 BitWriter.fresh = ⟨0b011, 3, []⟩ := by decide +kernel

theorem test_choose : choose [.litLen 97, .litLen 98, .litLen 99, .litLen 260, .dist 2] = 5 := by decide +kernel

theorem test_rle : rle (List.replicate 140 0) = [.codeLen 18, .extra 7 127, .codeLen 0, .codeLen 0] ∧
    rle (List.replicate 8 8) = [.codeLen 8, .codeLen 16, .extra 2 3, .codeLen 8] := by decide +kernel

theorem test_stored_empty : (emitStoredEmpty (putCode 0b110 3 BitWriter.fresh)).out = [0x03, 0x00, 0x00, 0xFF, 0xFF] := by
  decide +kernel

/-- R132: an EXTRA slot; an unlisted bit, and a width that R43 does not give (U21). -/
theorem test_unpack : unpackSlot 0x88000002 = some (.extra 2 2) ∧ unpackSlot 0x200 = none ∧ unpackSlot 0x80000000 = none ∧
    unpackSlot 0xB8000000 = none ∧ unpackSlot 0x4000001D = some (.dist 29) := by decide

/-! ## LZ77 (95_test_vectors.md 2.2) -/

/-- R168 at its ties: L0 = L1 and L0 + 1 = L2 give a match, one more at either gives a literal. -/
theorem test_lazy : lazyMatch 3 [3, 4] = true ∧ lazyMatch 3 [4, 0] = false ∧ lazyMatch 3 [0, 5] = false ∧
    lazyMatch 2 [0, 0] = false := by decide

theorem test_lz_overlap : lzTokens [97, 97, 97, 97] = [.lit 97, .copy 1 3] := by decide +kernel

theorem test_lz_lazy : lzTokens ("abcXbcdeYabcde".toList.map fun c => BitVec.ofNat 8 c.toNat) =
    ("abcXbcdeYa".toList.map fun c => .lit (BitVec.ofNat 8 c.toNat)) ++ [.copy 6 4] := by decide +kernel

/-! ## Commands (95_test_vectors.md 2.6 to 2.8) -/

/-- V-DRV-11, V-DRV-1: SYNC of nothing, FINISH of nothing. -/
theorem test_sync_empty : nextWith (fun t => t.replies == [.cu [0x00, 0x00, 0x00, 0xFF, 0xFF]])
    (exec (.cFeedSync []) (withCu (CuCtx.fresh .bare))) = true := by decide +kernel

/-- V-DRV-3. -/
theorem test_finish_a : nextWith (fun t => t.replies ==
      [.cu [0x05, 0xC0, 0x81, 0x08, 0x00, 0x00, 0x00, 0x00, 0x20, 0xD6, 0xFD, 0x25, 0x4E]])
    (exec (.cFeedFinish [0x61]) (withCu (CuCtx.fresh .bare))) = true := by decide +kernel

/-- C_FEED("abc", NONE) holds the bytes back (45_compress_driver.md R274). -/
theorem test_feed_none : nextWith (fun t => t.replies == [.cu []] &&
      t.cu.map (fun c => (c.lz.r, c.lz.p, c.sym.n)) == some (3, 0, 0))
    (exec (.cFeedNone [0x61, 0x62, 0x63]) (withCu (CuCtx.fresh .bare))) = true := by decide +kernel

/-- V-DRV-16: flush 3 is refused. -/
theorem test_feed_reserved : nextWith (fun t => t.replies == [.cu []] && t.cu == some (CuCtx.fresh .bare))
    (exec (.cFeedReserved [0x61]) (withCu (CuCtx.fresh .bare))) = true := by decide +kernel

/-- V-DEC-3: a stored block. -/
theorem test_stored : nextWith (fun t => t.replies == [.du [0x61, 0x62, 0x63] .ok] &&
      t.du.map DuCtx.state == some .finalSpin)
    (exec (.dFeed [0x01, 0x03, 0x00, 0xFC, 0xFF, 0x61, 0x62, 0x63]) (withDu (DuCtx.fresh .bare))) = true := by
  decide +kernel

/-- V-DEC-6: a literal and an overlapping match in a static block. -/
theorem test_static : nextWith (fun t => t.replies == [.du [0x61, 0x61, 0x61, 0x61] .ok])
    (exec (.dFeed [0x4B, 0x04, 0x02, 0x00]) (withDu (DuCtx.fresh .bare))) = true := by decide +kernel

/-- V-DEC-13: a dynamic block. -/
theorem test_dynamic : nextWith (fun t => t.replies == [.du [0x61] .ok])
    (exec (.dFeed [0x05, 0xC0, 0x81, 0x08, 0x00, 0x00, 0x00, 0x00, 0x20, 0xD6, 0xFD, 0x25, 0x4E])
      (withDu (DuCtx.fresh .bare))) = true := by decide +kernel

/-- V-ERR-19: the byte is returned with E_CHECKSUM. -/
theorem test_checksum : nextWith (fun t => t.replies == [.du [0x61] .checksum])
    (exec (.dFeed [0x78, 0x9C, 0x4B, 0x04, 0x00, 0x00, 0x62, 0x00, 0x63]) (withDu (DuCtx.fresh .zlib))) = true := by
  decide +kernel

/-- V-ERR-4 and V-ERR-10. -/
theorem test_errors : nextWith (fun t => t.replies == [.du [] .header])
      (exec (.dFeed [0x78, 0x9D]) (withDu (DuCtx.fresh .zlib))) = true ∧
    nextWith (fun t => t.replies == [.du [] .table])
      (exec (.dFeed [0x05, 0x00, 0x82, 0x00]) (withDu (DuCtx.fresh .bare))) = true := by decide +kernel

/-- V-ERR-20b: D_EOF on a fresh context. -/
theorem test_eof : nextWith (fun t => t.replies == [.du [] .eof]) (exec .dEof (withDu (DuCtx.fresh .bare))) = true := by
  decide +kernel

/-! ## Elements -/

/-- Length symbol 265 with extra 1 is length 12 (46_decompress.md R312), 284 with 31 is 258 (R381). -/
theorem test_lengths : nextWith (fun t => t.du.map DuCtx.len == some 12) (exec (.len265 1) (withDu (duIn .inBlk))) = true ∧
    nextWith (fun t => t.du.map DuCtx.len == some 258) (exec (.len284 31) (withDu (duIn .inBlk))) = true := by
  decide +kernel

/-- `O = "ab"`, `copy(2, 5)` appends `ababa` (R321). -/
theorem test_copy : nextWith (fun t => t.du.map DuCtx.out == some [97, 98, 97, 98, 97, 98, 97])
    (exec .dist1 (withDu { outByte 98 (outByte 97 (duIn .gotLen)) with len := 5 })) = true := by decide +kernel

/-- A TREES_LEN context that wants `n` lengths and has `k` of them, each 8. -/
def duLengths (n k : Nat) : DuCtx :=
  { duIn .treesLen with
    hlit := n - 1, hdist := 1, lenPtr := k
    lengths := List.replicate k 8 ++ List.replicate (316 - k) 0
    lenLen := List.replicate 19 0
    tabCL := some (codes (List.replicate 19 0)) }

/-- Previous length 8, extra 3: six more entries of 8 (47_symbols.md R418). -/
theorem test_repeat : nextWith (fun t => t.du.map (fun d => (d.lengths.take 8, d.lenPtr, d.state)) ==
      some ([8, 8, 8, 8, 8, 8, 8, 0], 7, .treesLen))
    (exec (.cl16 3) (withDu (duLengths 258 1))) = true := by decide +kernel

/-- R418: nothing to repeat; R420: 258 lengths wanted, 138 + 138 overrun. -/
theorem test_repeat_errors : nextWith (fun t => t.replies == [.du [] .table])
      (exec (.cl16 0) (withDu (duLengths 258 0))) = true ∧
    nextWith (fun t => t.replies == [.du [] .table])
      (exec (.cl18 127) (withDu (duLengths 258 138))) = true := by decide +kernel

/-! ## Witnesses: for each statement with hypotheses, states and operands that meet them -/

/-- The clauses of `DuInv` but the last, as one computation. -/
theorem duInv_of {d : DuCtx} (h : (decide (d.nbits ≤ 31) && decide (d.bits.toNat < 2 ^ d.nbits) &&
      decide (d.uncompLen < 2 ^ 16) && decide (d.hlit ≤ 288) && decide (d.hdist ≤ 32) && decide (d.hclen ≤ 19) &&
      decide (d.lenPtr ≤ 316) && decide (d.lenExtraBits ≤ 7) && decide (d.lenAddOn ≤ 11) && decide (d.lenRep ≤ 15) &&
      decide (d.sym ≤ 287) && decide (d.len ≤ 258) && decide (d.winPos < Config.dWinSize) &&
      decide (d.produced ≤ Config.dWinSize) && decide (d.produced < Config.dWinSize → d.winPos = d.produced) &&
      decide (d.adler.toNat % 2 ^ 16 < Config.adlerMod ∧ d.adler.toNat / 2 ^ 16 < Config.adlerMod) &&
      decide (d.mode = .bare → d.adler = 1) && decide (d.lenLen.length = 19 ∧ ∀ l ∈ d.lenLen, l ≤ 7) &&
      decide (d.lengths.length = 316 ∧ ∀ l ∈ d.lengths, l ≤ 15) && Memory.wf windowReset d.win &&
      memBelow Config.dWinSize d.win) = true) (live : d.err = .ok → d.live) : DuInv d := by
  simp only [Bool.and_eq_true, decide_eq_true_eq] at h
  obtain ⟨⟨⟨⟨⟨⟨⟨⟨⟨⟨⟨⟨⟨⟨⟨⟨⟨⟨⟨⟨h1, h2⟩, h3⟩, h4⟩, h5⟩, h6⟩, h7⟩, h8⟩, h9⟩, h10⟩, h11⟩, h12⟩, h13⟩, h14⟩, h15⟩, h16⟩,
    h17⟩, h18⟩, h19⟩, h20⟩, h21⟩ := h
  exact ⟨h1, h2, h3, h4, h5, h6, h7, h8, h9, h10, h11, h12, h13, h14, h15, h16, h17, h18, h19, h20, h21, live⟩

/-- A bare DU context with a latched error. -/
def duBad : DuCtx := { duIn .inBlk with err := .table }

/-- In GOTLEN with a length read and `produced` bytes of output behind it. -/
def duDist (produced len : Nat) : DuCtx :=
  { duIn .gotLen with len := len, produced := produced, winPos := produced % 32768 }

/-- In ADLER1 of a zlib stream whose output was the byte 97. -/
def duTrailer : DuCtx :=
  { DuCtx.fresh .zlib with state := .adler1, lastBlock := true, produced := 1, winPos := 1, adler := 0x00620062, win := [(0, 97)] }

/-- A CU context that has taken the bytes aaaa: the match at position 1 is still extending. -/
def cuFed (m : Mode) : CuCtx :=
  { CuCtx.fresh m with first := false, lz := [97, 97, 97, 97].foldl (fun z b => (lzByte b z).2) Lz.fresh }

/-- A decoding result, by computation. -/
theorem ok_of {ε α : Type} [DecidableEq α] {r : Except ε α} {x : α} (h : (match r with
    | .ok y => decide (y = x)
    | .error _ => false) = true) : r = .ok x := by
  split at h
  · rw [of_decide_eq_true h]
  · simp at h

/-- A decoding failure, by computation. -/
theorem error_of {ε α : Type} [DecidableEq ε] {r : Except ε α} {x : ε} (h : (match r with
    | .error y => decide (y = x)
    | .ok _ => false) = true) : r = .error x := by
  split at h
  · rw [of_decide_eq_true h]
  · simp at h

theorem du_start : DuInv { DuCtx.fresh .zlib with out := [7] } :=
  duInv_of (by decide +kernel) fun _ => ⟨rfl, rfl, rfl, rfl, rfl⟩

theorem du_outside (f : Bool) : DuInv { duIn .outsideBlk with lastBlock := f } := by
  cases f <;> exact duInv_of (by decide +kernel) fun _ => ⟨rfl, rfl, rfl⟩

theorem du_dist : DuInv (duDist 32768 258) ∧ DuInv (duDist 1 3) ∧ DuInv (duDist 24577 3) :=
  ⟨duInv_of (by decide +kernel) fun _ => ⟨by decide, rfl, fun _ => ⟨rfl, rfl⟩, nofun⟩,
    duInv_of (by decide +kernel) fun _ => ⟨by decide, rfl, fun _ => ⟨rfl, rfl⟩, nofun⟩,
    duInv_of (by decide +kernel) fun _ => ⟨by decide, rfl, fun _ => ⟨rfl, rfl⟩, nofun⟩⟩

theorem du_lengths : DuInv (duLengths 258 120) ∧ DuInv (duLengths 258 0) :=
  ⟨duInv_of (by decide +kernel) fun _ => ⟨by simp only [DuCtx.countsOk]; decide, by decide, rfl, rfl, _, rfl, by decide +kernel⟩,
    duInv_of (by decide +kernel) fun _ => ⟨by simp only [DuCtx.countsOk]; decide, by decide, rfl, rfl, _, rfl, by decide +kernel⟩⟩

theorem du_trailer : DuInv duTrailer := duInv_of (by decide +kernel) fun _ => ⟨rfl, rfl, rfl, rfl, rfl, rfl⟩

theorem cu_started (m : Mode) : CuInv { CuCtx.fresh m with first := false } := by
  have h : LzInv Lz.fresh := by
    refine ⟨rfl, by decide, by decide, rfl, rfl, fun o c ho => ?_, nofun, rfl, rfl, rfl, rfl, rfl, rfl⟩
    obtain rfl : c = .empty := (List.mem_replicate.1 (List.mem_of_getElem? ho)).2
    show (0 : Nat) < _
    simp only [Config.minMatch]
    omega
  cases m <;> exact ⟨nofun, rfl, nofun, ⟨by decide, by decide⟩, fun _ => rfl, by decide, rfl, h, by decide, by decide,
    nofun, rfl, rfl⟩

theorem cu_fed (m : Mode) : CuInv (cuFed m) := by
  have h : LzInv (cuFed .bare).lz := by
    refine ⟨by decide +kernel, by decide +kernel, by decide +kernel, by decide +kernel, by decide +kernel,
      fun o c ho => ?_, by decide +kernel, by decide +kernel, by decide +kernel, by decide +kernel, by decide +kernel,
      by decide +kernel, by decide +kernel⟩
    rw [show (cuFed .bare).lz.cand = [.finished 0 0, .extending [1] 3, .empty] by decide +kernel] at ho
    match o, ho with
    | 0, ho =>
      obtain rfl := Option.some.inj ho
      exact ⟨by decide +kernel, .inl rfl⟩
    | 1, ho =>
      obtain rfl := Option.some.inj ho
      exact ⟨by decide, by decide +kernel, by decide, by decide, by decide +kernel⟩
    | 2, ho =>
      obtain rfl := Option.some.inj ho
      show (cuFed .bare).lz.r < _
      decide +kernel
  cases m <;> exact ⟨nofun, rfl, nofun, ⟨by decide, by decide⟩, fun _ => rfl, by decide, rfl, h, by decide, by decide,
    nofun, rfl, rfl⟩

/-- O1, each clause: a command of each port; a whole element; a state that decodes none, an element not whole and one
no code begins with; an error, and no context; no input. -/
theorem witness_o1 : ({ State.reset with inbox := [.cu 6 [97]] } : State).inbox = .cu 6 [97] :: [] ∧
    ({ State.reset with inbox := [.du 8 []] } : State).inbox = .du 8 [] :: [] ∧
    (expected (duIn .inBlk) = some .litLen ∧ elementAt .litLen { duIn .inBlk with nbits := 7 } = .ok ⟨.eob, 7, 0⟩) ∧
    expected (duIn .start) = none ∧ elementAt .litLen (duIn .inBlk) = .error .needBits ∧
    elementAt .litLen { duIn .inBlk with cur := true, nbits := 7, tabLL := some [⟨1, 1, 256⟩] } = .error .noCode ∧
    duBad.err ≠ .ok ∧ State.reset.du = none ∧ State.reset.inbox = [] :=
  ⟨rfl, rfl, ⟨rfl, ok_of (by decide +kernel)⟩, rfl, error_of (by decide +kernel), error_of (by decide +kernel), by decide, rfl,
    rfl⟩

/-- O4. -/
theorem witness_o4 : Instr.wf (.len284 31) = true ∧ wireOf (.len284 31) = some (.litLen 284 31) ∧
    Instr.wf (.dist29 8191) = true ∧ wireOf (.dist29 8191) = some (.dist 29 8191) ∧ wireOf .dFree = none := by decide

/-- O5, O7: one code of each alphabet, and a repeat symbol of the last. -/
theorem witness_o5 : (∀ l ∈ ([1, 2, 2] : List Nat), l ≤ 15) ∧ mkTable [1, 2, 2] = some (codes [1, 2, 2]) ∧
    mkTable (List.replicate 19 5) = some (codes (List.replicate 19 5)) ∧ Instr.wf (.cl18 127) = true ∧
    (encode ⟨codes [1, 2, 2], codes [1, 2, 2], codes (List.replicate 19 5)⟩ (.cl18 127)).isSome = true := by
  decide +kernel

/-- O6, O8: an element that decodes; a lookup that finds a symbol, and one that finds none. -/
theorem witness_o8 : decodeWords staticTables (.element .litLen 0 7) = .ok .eob ∧
    lookup (codes [2, 2, 1]) 0 1 = .sym 2 1 ∧ lookup (codes [2, 2, 2]) 3 2 = .bad :=
  ⟨ok_of (by decide +kernel), by decide +kernel⟩

/-- O12. -/
theorem witness_o12 : reservedCommand .cuReserved0010 = some .cu ∧ reservedCommand (.cFeedReserved [1]) = some .cu ∧
    reservedCommand .duReserved1111 = some .du ∧ (2 : BitVec 4).toNat ∈ [2, 3, 7, 8, 9, 10, 11, 13, 14, 15] ∧
    Err.table = ((withDu duBad).du.map DuCtx.err).getD .ok := by decide

/-- O13: no context; a finished one. -/
theorem witness_o13 : State.reset.cu = none ∧ (withCu { CuCtx.fresh .bare with finished := true }).cu =
    some { CuCtx.fresh .bare with finished := true } := ⟨rfl, rfl⟩

/-- O14 to O17, O19: a context that has taken bytes, and one that has taken none, in each mode. -/
theorem witness_o14 (m : Mode) : (withCu (cuFed m)).cu = some (cuFed m) ∧ CuInv (cuFed m) ∧
    (cuFed m).finished = false ∧ (cuFed m).bw.ok ∧ CuInv { CuCtx.fresh m with first := false } ∧
    (CuCtx.fresh m).first = true ∧ (CuCtx.fresh m).finished = false :=
  ⟨rfl, cu_fed m, rfl, ⟨by cases m <;> decide, by cases m <;> decide⟩, cu_started m, rfl, rfl⟩

/-- O18. -/
theorem witness_o18 : ({ CuCtx.fresh .zlib with first := false } : CuCtx).lz.p = (CuCtx.fresh .zlib).lz.r ∧
    (CuCtx.fresh .zlib).sym.n = 0 ∧ (CuCtx.fresh .zlib).bw = ⟨0, 0, []⟩ ∧ (CuCtx.fresh .zlib).finished = false := by decide

/-- O20: fresh contexts of one mode in both units; a NONE, a SYNC and a FINISH that carry bytes. -/
theorem witness_o20 (m : Mode) :
    ({ State.reset with cu := some (CuCtx.fresh m), du := some (DuCtx.fresh m) } : State).cu = some (CuCtx.fresh m) ∧
    ({ State.reset with cu := some (CuCtx.fresh m), du := some (DuCtx.fresh m) } : State).du = some (DuCtx.fresh m) ∧
    (∀ i ∈ [Instr.cFeedNone [97], .cFeedSync [98]], ∃ x, i = .cFeedNone x ∨ i = .cFeedSync x) ∧
    ([Instr.cFeedNone [97], .cFeedSync [98]] ++ [Instr.cFeedFinish [99]]).flatMap feedData = ([97, 98, 99] : List Byte) := by
  refine ⟨rfl, rfl, fun i h => ?_, rfl⟩
  rcases List.mem_cons.1 h with rfl | h
  · exact ⟨_, .inl rfl⟩
  · obtain rfl := List.mem_singleton.1 h
    exact ⟨_, .inr rfl⟩

/-- O21, O22: a context with output, at the start of a zlib stream, and one inside a copy of the longest length. -/
theorem witness_o21 : DuInv { DuCtx.fresh .zlib with out := [7] } ∧ (DuCtx.fresh .zlib).err = .ok ∧
    DuInv (duDist 32768 258) ∧ (duDist 32768 258).err = .ok := ⟨du_start, rfl, du_dist.1, rfl⟩

/-- O23, O24, O25, each clause. -/
theorem witness_o24 : State.reset.du = none ∧ (withDu duBad).du = some duBad ∧ duBad.err ≠ .ok ∧
    (duIn .finalSpin).err = .ok ∧ (duIn .finalSpin).state = .finalSpin ∧
    (duIn .inBlk).err = .ok ∧ (duIn .inBlk).out = [] ∧ (duIn .inBlk).state ≠ .finalSpin ∧
    nextWith (fun t => t.du == some duBad) (exec (.dFeed [1]) (withDu duBad)) = true := by decide +kernel

/-- O26, O27. -/
theorem witness_o26 : portOf .cFree = .cu ∧ portOf .eob = .du ∧
    nextWith (fun _ => true) (exec .cFree State.reset) = true ∧
    nextWith (fun _ => true) (exec .eob (withDu (duIn .inBlk))) = true := by decide

/-- O28, each clause for an end-of-block symbol; every alphabet has elements. -/
theorem witness_o28 : elementAlphabet .eob = some .litLen ∧ State.reset.du = none ∧ duBad.err ≠ .ok ∧
    expected (duIn .gotLen) ≠ some .litLen ∧ elementAlphabet (.blkStored true) = some .blockHeader ∧
    elementAlphabet .dist31 = some .distance ∧ elementAlphabet (.cl0To15 15) = some .codeLength := by decide

/-- Contexts ready for each alphabet (O28 to O39). -/
theorem witness_ready : ReadyFor (withDu (duIn .outsideBlk)) (duIn .outsideBlk) .blockHeader ∧
    ReadyFor (withDu (duIn .inBlk)) (duIn .inBlk) .litLen ∧
    ReadyFor (withDu (duDist 1 3)) (duDist 1 3) .distance ∧
    ReadyFor (withDu (duLengths 258 120)) (duLengths 258 120) .codeLength :=
  ⟨⟨rfl, rfl, rfl⟩, ⟨rfl, rfl, rfl⟩, ⟨rfl, rfl, rfl⟩, ⟨rfl, rfl, by decide⟩⟩

/-- O29, O30: the window filling and full, the last block and another. -/
theorem witness_o29 : Memory.wf windowReset (duIn .inBlk).win = true ∧
    ReadyFor (withDu { duIn .inBlk with produced := 32768 }) { duIn .inBlk with produced := 32768 } .litLen ∧
    ReadyFor (withDu { duIn .inBlk with lastBlock := true }) { duIn .inBlk with lastBlock := true } .litLen :=
  ⟨rfl, ⟨rfl, rfl, rfl⟩, ⟨rfl, rfl, rfl⟩⟩

/-- O31: the shortest and the longest match. -/
theorem witness_o31 : lengthValue .len257 = some (257, 0, 3) ∧ Instr.wf .len257 = true ∧
    lengthValue (.len284 31) = some (284, 5, 258) ∧ Instr.wf (.len284 31) = true := by decide

/-- O32, O33: the nearest and the farthest distance that the output reaches, and one byte farther. -/
theorem witness_o32 : distanceValue .dist0 = some (0, 0, 1) ∧ 1 ≤ (duDist 1 3).produced ∧ (duDist 1 3).produced < 2 ∧
    distanceValue .dist1 = some (1, 0, 2) ∧
    distanceValue (.dist29 8191) = some (29, 13, 32768) ∧ Instr.wf (.dist29 8191) = true ∧
    32768 ≤ (duDist 32768 258).produced ∧
    ReadyFor (withDu (duDist 32768 258)) (duDist 32768 258) .distance ∧ DuInv (duDist 32768 258) ∧ DuInv (duDist 1 3) :=
  ⟨by decide, by decide, by decide, by decide, by decide, by decide, by decide, ⟨rfl, rfl, rfl⟩, du_dist.1, du_dist.2.1⟩

/-- O34. -/
theorem witness_o34 : reservedSymbol .ll286 = some .litLen ∧ reservedSymbol .dist31 = some .distance := by decide

/-- O37, O38: 120 lengths defined, 258 wanted: code 18 with extra 127 fills them to the last; 121 defined, it overruns;
no length defined. -/
theorem witness_o37 : repeatValue (.cl18 127) = some (18, 7, 138) ∧ Instr.wf (.cl18 127) = true ∧
    (duLengths 258 120).lenPtr + 138 = (duLengths 258 120).hlit + (duLengths 258 120).hdist ∧
    (duLengths 258 121).hlit + (duLengths 258 121).hdist < (duLengths 258 121).lenPtr + 138 ∧
    repeatValue (.cl16 0) = some (16, 2, 3) ∧ (duLengths 258 0).lenPtr = 0 ∧ 0 < (duLengths 258 120).lenPtr ∧
    ReadyFor (withDu (duLengths 258 0)) (duLengths 258 0) .codeLength ∧ DuInv (duLengths 258 120) :=
  ⟨by decide, by decide, by decide, by decide, by decide, by decide, by decide, ⟨rfl, rfl, by decide⟩, du_lengths.1⟩

/-- O39: a whole element at the front of D.BITS. -/
theorem witness_o39 : ReadyFor (withDu { duIn .inBlk with nbits := 7 }) { duIn .inBlk with nbits := 7 } .litLen ∧
    elementAt .litLen { duIn .inBlk with nbits := 7 } = .ok ⟨.eob, 7, 0⟩ :=
  ⟨⟨rfl, rfl, rfl⟩, ok_of (by decide +kernel)⟩

/-- O40 to O42: a step that suspends, one that completes, one that raises. -/
theorem witness_o41 : automatonStep (duIn .uncompLen) = .suspended (duIn .uncompLen) ∧
    automatonStep (duIn .finish) = .completed (duIn .finalSpin) ∧
    automatonStep { duIn .outsideBlk with bits := 6, nbits := 3 } = .raised .format (duIn .outsideBlk) ∧
    (duIn .finalSpin).state = .finalSpin := by decide +kernel

/-- O43, START: too few bits; the header 78 9C; the header 78 9D. -/
theorem witness_o43 : (DuCtx.fresh .zlib).state = .start ∧ (DuCtx.fresh .zlib).nbits < 16 ∧
    (0x78 % 16 = 8 ∧ 0x78 / 16 ≤ 7 ∧ 0x9C / 32 % 2 = 0 ∧ (0x78 * 256 + 0x9C) % 31 = 0) ∧
    ¬(0x78 * 256 + 0x9D) % 31 = 0 ∧ (0x9C78#32).toNat % 256 = 0x78 ∧ (0x9C78#32).toNat / 256 % 256 = 0x9C := by decide

/-- O43, the table steps: the largest counts and the first ones beyond; the last length and one before it, a set that
builds a table and one that does not; all lengths defined. -/
theorem witness_o43_tables : (duIn .treesHdr).nbits < 14 ∧ 257 + 29 ≤ 286 ∧ 1 + 958 / 32 % 32 = 30 ∧ 958 % 32 = 30 ∧
    286 < 257 + 958 % 32 ∧ 30 < 1 + 960 / 32 % 32 ∧ (duIn .treesLenLen).lenPtr + 1 ≠ 4 ∧ 3 + 1 = 4 ∧
    (mkTable [1, 2, 2]).isSome = true ∧ mkTable [1, 1, 1] = none ∧
    (duLengths 258 258).hlit + (duLengths 258 258).hdist ≤ (duLengths 258 258).lenPtr ∧
    (mkTable ((duLengths 257 256).lengths.take 256)).isSome = true ∧
    mkTable ((duLengths 258 258).lengths.take 257) = none := by decide +kernel

/-- O44: the empty block and the longest, final and not. -/
theorem witness_o44 (f : Bool) : DuInv { duIn .outsideBlk with lastBlock := f } ∧ (duIn .outsideBlk).err = .ok ∧
    (duIn .outsideBlk).nbits = 0 ∧ ([] : List Byte).length < 65536 ∧
    (List.replicate 65535 (0 : Byte)).length < 65536 :=
  ⟨du_outside f, rfl, rfl, by decide, by rw [List.length_replicate]; decide⟩

/-- O45: the trailer that agrees, and one that does not. -/
theorem witness_o45 : DuInv duTrailer ∧ duTrailer.err = .ok ∧ duTrailer.state = .adler1 ∧ duTrailer.nbits = 0 ∧
    duTrailer.adler = (0x00 : Byte) ++ (0x62 : Byte) ++ (0x00 : Byte) ++ (0x62 : Byte) ∧
    duTrailer.adler ≠ (0x00 : Byte) ++ (0x62 : Byte) ++ (0x00 : Byte) ++ (0x63 : Byte) :=
  ⟨du_trailer, rfl, rfl, rfl, by decide, by decide⟩

/-- O46, O47: the longest field after seven buffered bits. -/
theorem witness_o46 : (⟨127, 7, []⟩ : BitWriter).ok ∧ (65535 : Nat) < 2 ^ 16 ∧ (32767 : Nat) < 2 ^ 15 ∧
    BitWriter.fresh.ok ∧ (∀ x ∈ [Slot.litLen 285, .extra 5 0, .dist 29, .extra 13 8191], x.legal = true) :=
  ⟨⟨by decide, by decide⟩, by decide, by decide, ⟨by decide, by decide⟩, by decide⟩

/-- O48, O49: an empty accumulator and a full one. -/
theorem witness_o48 : (duIn .inBlk).nbits ≤ 31 ∧ (duIn .inBlk).bits.toNat < 2 ^ (duIn .inBlk).nbits ∧
    ({ duIn .inBlk with bits := 0x7FFFFFFF, nbits := 31 } : DuCtx).bits.toNat < 2 ^ 31 ∧
    24 ≤ ({ duIn .inBlk with bits := 0x7FFFFFFF, nbits := 31 } : DuCtx).nbits := by decide

/-- O50. -/
theorem witness_o50 : adlerOk 1 ∧ adlerOk 0xFFF0FFF0 := ⟨⟨by decide, by decide⟩, ⟨by decide, by decide⟩⟩

/-- O51, O52: both limits, no symbol, one symbol, two symbols. -/
theorem witness_o51 : (List.replicate 286 1).length ≤ 286 ∧ (List.replicate 19 0).length ≤ 19 ∧
    2 ≤ activeCount [1, 0, 1] ∧ activeCount [0, 1] = 1 := by decide +kernel

/-- O53: a literal, then a match of two slots. -/
theorem witness_o53 : (∀ x ∈ [Slot.litLen 97, .litLen 257, .dist 0], x.legal = true) ∧
    choose [.litLen 97, .litLen 257, .dist 0] = 3 ∧
    boundaryAt ([Slot.litLen 97, .litLen 257, .dist 0].drop 1) = true := by decide +kernel

/-- O55: each kind at the end of its range. -/
theorem witness_o55 : (Slot.litLen 285).legal = true ∧ (Slot.dist 29).legal = true ∧
    (Slot.extra 13 8191).legal = true ∧ (Slot.codeLen 18).legal = true := by decide

/-- O56, O57: a run has a match, and each slot of the pending-match set takes part. -/
theorem witness_o56 : lzTokens [97, 97, 97, 97] = [.lit 97] ++ .copy 1 3 :: [] ∧
    (cuFed .bare).lz.cand[0]? = some (.finished 0 0) ∧ (cuFed .bare).lz.cand[1]? = some (.extending [1] 3) ∧
    (cuFed .bare).lz.p + 1 + 3 ≤ (cuFed .bare).lz.r ∧ (Cand.extending [1] 3).bestLen ≠ 0 := by decide +kernel

/-- O59, O60: a machine with both contexts, taking a command. -/
theorem witness_o59 : MachineInv { cu := some (cuFed .zlib), du := some (duDist 1 3), inbox := [.cu 5 []], replies := [] } ∧
    AccClean { cu := some (cuFed .zlib), du := some (duDist 1 3), inbox := [.cu 5 []], replies := [] } ∧
    nextWith (fun _ => true)
      (step { cu := some (cuFed .zlib), du := some (duDist 1 3), inbox := [.cu 5 []], replies := [] }) = true :=
  ⟨⟨fun c h => by obtain rfl := Option.some.inj h; exact cu_fed .zlib,
      fun d h _ => by obtain rfl := Option.some.inj h; exact du_dist.2.1⟩,
    fun c h => by obtain rfl := Option.some.inj h; exact ⟨by decide, by decide⟩, by decide +kernel⟩


end Sys2Proof.Tests
end

