-- ==== Sys2Proof/Proofs/Scope.lean ====
section
/-! PROOFS. What one step takes from the inbox, and what an instruction does to the inbox and the answers
(00_scope.md R14). -/

namespace Sys2Proof.Proofs

open Sys2Proof.Machine Sys2Proof.Laws

/-! ## A step and the oldest input -/

@[simp] theorem inError_eq_false {d : DuCtx} : d.inError = false ↔ d.err = .ok := by simp [DuCtx.inError]

@[simp] theorem inError_eq_true {d : DuCtx} : d.inError = true ↔ d.err ≠ .ok := by simp [DuCtx.inError]

/-- `advance` runs the wire element that stands whole in D.BITS, its code consumed. -/
theorem fetchElement_of_element {s : State} {d : DuCtx} {a : Alphabet} {e : Decoded} (hd : s.du = some d)
    (hok : d.err = .ok) (ha : expected d = some a) (he : elementAt a d = .ok e) :
    fetchElement s = .instr e.instr { s with du := some (eat e.codeBits d) } := by
  simp [fetchElement, hd, hok, ha, he]

/-- Where no wire element stands whole, `advance` runs the step of D.STATE. -/
theorem fetchElement_of_no_element {s : State} {d : DuCtx} (hd : s.du = some d) (hok : d.err = .ok)
    (hn : expected d = none ∨ ∃ a e, expected d = some a ∧ elementAt a d = .error e) :
    fetchElement s = .frame (settle (automatonStep d) s) := by
  obtain ha | ⟨a, e, ha, he⟩ := hn
  · simp [fetchElement, hd, hok, ha]
  · simp [fetchElement, hd, hok, ha, he]

/-- `advance` finds nothing to do without a context and after an error (60_exceptions.md R456). -/
theorem fetchElement_of_not_running {s : State} (h : ∀ d, s.du = some d → d.err ≠ .ok) :
    fetchElement s = .frame s := by
  cases hd : s.du with
  | none => simp [fetchElement, hd]
  | some d => simp [fetchElement, hd, h d hd]

/-- Settles O1: the clauses are the cases of `fetch` on the oldest input and of `fetchElement` for `advance`. -/
theorem stepRunsTheNextInput : Obligations.StepRunsTheNextInput := by
  unfold Obligations.StepRunsTheNextInput
  refine ⟨fun s word data rest hi => ?_, fun s word data rest hi => ?_, fun s rest d a e hi hd hok ha he => ?_,
    fun s rest d hi hd hok hn => ?_, fun s rest hi hstop => ?_, fun s hi => ?_⟩
  · simp [step, fetch, hi]
  · simp [step, fetch, hi]
  · simp [step, fetch, hi, fetchElement_of_element (s := { s with inbox := rest }) hd hok ha he]
  · simp [step, fetch, hi, fetchElement_of_no_element (s := { s with inbox := rest }) hd hok hn]
  · simp [step, fetch, hi, fetchElement_of_not_running (s := { s with inbox := rest }) hstop]
  · simp [step, fetch, hi]

/-! ## The kinds of instructions -/

/-- The constructors and destructors, which return nothing (45_compress_driver.md R270, R277, 46_decompress.md R300,
R326). -/
def newsOrFrees (i : Instr) : Prop :=
  i = .cNewBare ∨ i = .cNewZlib ∨ i = .cFree ∨ i = .dNewBare ∨ i = .dNewZlib ∨ i = .dFree

/-- What a unit does with a command it refuses (60_exceptions.md R457). -/
def refuse : Port → State → State
  | .cu => refuseCu
  | .du => refuseDu

/-- Every instruction is a wire element, a reserved command word, a constructor or destructor, or a command that runs a
context: C_FEED, D_FEED or D_EOF. -/
theorem instr_kinds (i : Instr) :
    (∃ a, elementAlphabet i = some a) ∨ (∃ p, reservedCommand i = some p) ∨ newsOrFrees i ∨
      (∃ data, i = .cFeedNone data ∨ i = .cFeedSync data ∨ i = .cFeedFinish data) ∨ (∃ data, i = .dFeed data) ∨
      i = .dEof := by
  cases i <;> simp [elementAlphabet, wireOf, reservedCommand, newsOrFrees]

/-- Every wire element runs through `onElement`, in its own alphabet. -/
theorem exec_of_elementAlphabet {i : Instr} {a : Alphabet} (h : elementAlphabet i = some a) :
    ∃ f, ∀ s, exec i s = onElement a f s := by
  cases i <;> simp only [elementAlphabet, wireOf, reduceCtorEq, Option.some.injEq] at h
  all_goals
    subst h
    exact ⟨_, fun _ => rfl⟩

/-- Every reserved command word is refused on its port (70_reset_and_hazards.md R493). -/
theorem exec_of_reservedCommand {i : Instr} {p : Port} (h : reservedCommand i = some p) (s : State) :
    exec i s = .next (refuse p s) := by
  cases i <;> simp only [reservedCommand, reduceCtorEq, Option.some.injEq] at h
  all_goals
    subst h
    rfl

/-- A constructor or destructor changes which contexts the units hold, and nothing else. -/
theorem exec_of_newsOrFrees {i : Instr} (h : newsOrFrees i) (s : State) :
    ∃ c d, exec i s = .next { s with cu := c, du := d } := by
  obtain rfl | rfl | rfl | rfl | rfl | rfl := h <;> exact ⟨_, _, rfl⟩

/-- Every C_FEED with a flush value that is not reserved runs through `cuFeed`. -/
theorem exec_of_cFeed {i : Instr} {data : List Byte}
    (h : i = .cFeedNone data ∨ i = .cFeedSync data ∨ i = .cFeedFinish data) : ∃ f, ∀ s, exec i s = cuFeed f s := by
  obtain rfl | rfl | rfl := h <;> exact ⟨_, fun _ => rfl⟩

/-- A D_FEED that gives a next state was refused, or has returned the output, with the error that ended it or with
D.ERR (46_decompress.md R323). -/
theorem execDFeed_next {data : List Byte} {s t : State} (h : execDFeed data s = .next t) :
    t = refuseDu s ∨ (∃ e d, t = raise e d s) ∨ ∃ d, t = returnDu d s := by
  unfold execDFeed at h
  split at h
  · exact .inl (Host.Outcome.next.inj h).symm
  · split at h
    · exact .inl (Host.Outcome.next.inj h).symm
    · split at h
      · exact .inr (.inl ⟨_, _, (Host.Outcome.next.inj h).symm⟩)
      · exact .inr (.inr ⟨_, (Host.Outcome.next.inj h).symm⟩)
      · exact .inr (.inr ⟨_, (Host.Outcome.next.inj h).symm⟩)
      · cases h

/-- A D_EOF is refused, answers with D.ERR, or raises E_EOF (46_decompress.md R325). -/
theorem execDEof_next {s t : State} (h : execDEof s = .next t) :
    t = refuseDu s ∨ (∃ d : DuCtx, t = answer (.du [] d.err) s) ∨ ∃ d, t = raise .eof d s := by
  unfold execDEof at h
  split at h
  · exact .inl (Host.Outcome.next.inj h).symm
  · split at h
    · exact .inl (Host.Outcome.next.inj h).symm
    · split at h
      · exact .inr (.inl ⟨_, (Host.Outcome.next.inj h).symm⟩)
      · exact .inr (.inr ⟨_, (Host.Outcome.next.inj h).symm⟩)

/-! ## The answers -/

/-- From `s` to `t` no input was taken or added, and at most one answer was appended. -/
def AppendsAnswer (s t : State) : Prop :=
  t.inbox = s.inbox ∧ (t.replies = s.replies ∨ ∃ r, t.replies = s.replies ++ [r])

theorem refuse_appendsAnswer (p : Port) (s : State) : AppendsAnswer s (refuse p s) := by
  cases p <;> exact ⟨rfl, .inr ⟨_, rfl⟩⟩

theorem settle_appendsAnswer (r : Stepped) (s : State) : AppendsAnswer s (settle r s) := by
  refine ⟨settle_inbox r s, ?_⟩
  cases r with
  | raised e d => exact .inr ⟨_, rfl⟩
  | suspended d => exact .inl rfl
  | completed d => exact .inl rfl

theorem cuFeed_appendsAnswer {f : CuCtx → CuCtx} {s t : State} (h : cuFeed f s = .next t) : AppendsAnswer s t := by
  obtain ⟨c, -, -, hf⟩ | ⟨-, hf⟩ := cuFeed_spec f s <;> obtain rfl := Host.Outcome.next.inj (hf.symm.trans h)
  · exact ⟨rfl, .inr ⟨_, rfl⟩⟩
  · exact refuse_appendsAnswer .cu s

theorem execDFeed_appendsAnswer {data : List Byte} {s t : State} (h : execDFeed data s = .next t) :
    AppendsAnswer s t := by
  obtain rfl | ⟨e, d, rfl⟩ | ⟨d, rfl⟩ := execDFeed_next h <;> exact ⟨rfl, .inr ⟨_, rfl⟩⟩

theorem execDEof_appendsAnswer {s t : State} (h : execDEof s = .next t) : AppendsAnswer s t := by
  obtain rfl | ⟨d, rfl⟩ | ⟨d, rfl⟩ := execDEof_next h <;> exact ⟨rfl, .inr ⟨_, rfl⟩⟩

theorem newsOrFrees_appendsNothing {i : Instr} {s t : State} (hi : newsOrFrees i) (h : exec i s = .next t) :
    t.inbox = s.inbox ∧ t.replies = s.replies := by
  obtain ⟨c, d, he⟩ := exec_of_newsOrFrees hi s
  obtain rfl := Host.Outcome.next.inj (he.symm.trans h)
  exact ⟨rfl, rfl⟩

/-- Whatever an instruction does, it leaves the inbox and appends at most one answer. -/
theorem exec_appendsAnswer {i : Instr} {s t : State} (h : exec i s = .next t) : AppendsAnswer s t := by
  obtain ⟨a, ha⟩ | ⟨p, hp⟩ | hn | ⟨data, hc⟩ | ⟨data, rfl⟩ | rfl := instr_kinds i
  · obtain ⟨f, hf⟩ := exec_of_elementAlphabet ha
    obtain ⟨d, -, -, -, rfl⟩ := onElement_next.1 ((hf s).symm.trans h)
    exact settle_appendsAnswer (f d) s
  · obtain rfl := Host.Outcome.next.inj ((exec_of_reservedCommand hp s).symm.trans h)
    exact refuse_appendsAnswer p s
  · exact (newsOrFrees_appendsNothing hn h).imp_right .inl
  · obtain ⟨f, hf⟩ := exec_of_cFeed hc
    exact cuFeed_appendsAnswer ((hf s).symm.trans h)
  · exact execDFeed_appendsAnswer h
  · exact execDEof_appendsAnswer h

/-- Settles O27, by the kind of the instruction. -/
theorem answersAreAppended : Obligations.AnswersAreAppended := by
  unfold Obligations.AnswersAreAppended
  intro i s t h
  obtain ⟨hinbox, hreplies⟩ := exec_appendsAnswer h
  exact ⟨hinbox, hreplies, fun hn => (newsOrFrees_appendsNothing hn h).2⟩

end Sys2Proof.Proofs
end

