-- ==== Sys2Proof/Proofs/Units.lean ====
section
/-! PROOFS. An instruction of one unit neither changes nor reads the other unit's context (10_state.md R20). -/

namespace Sys2Proof.Proofs

open Sys2Proof.Machine Sys2Proof.Laws

/-! ## The unit of each kind of instruction -/

theorem portOf_of_elementAlphabet {i : Instr} {a : Alphabet} (h : elementAlphabet i = some a) : portOf i = .du := by
  cases i <;> simp_all [elementAlphabet, wireOf, portOf, commandOf]

theorem portOf_of_reservedCommand {i : Instr} {p : Port} (h : reservedCommand i = some p) : portOf i = p := by
  cases i <;> simp_all [reservedCommand, portOf, commandOf]

theorem portOf_of_cFeed {i : Instr} {data : List Byte}
    (h : i = .cFeedNone data ∨ i = .cFeedSync data ∨ i = .cFeedFinish data) : portOf i = .cu := by
  obtain rfl | rfl | rfl := h <;> rfl

/-! ## Each kind of meaning beside another context -/

theorem settle_with_cu (r : Stepped) (s : State) (c : Option CuCtx) :
    settle r { s with cu := c } = { settle r s with cu := c } := by
  cases r <;> rfl

theorem cuFeed_independent {f : CuCtx → CuCtx} {s t : State} (h : cuFeed f s = .next t) (d : Option DuCtx) :
    t.du = s.du ∧ cuFeed f { s with du := d } = .next { t with du := d } := by
  obtain ⟨cu, du, inbox, replies⟩ := s
  unfold cuFeed at h ⊢
  cases cu with
  | none => cases h; exact ⟨rfl, rfl⟩
  | some c =>
    dsimp only at h ⊢
    split at h <;> cases h <;> exact ⟨rfl, by simp only [*]; rfl⟩

theorem onElement_independent {a : Alphabet} {f : DuCtx → Stepped} {s t : State} (h : onElement a f s = .next t)
    (c : Option CuCtx) : t.cu = s.cu ∧ onElement a f { s with cu := c } = .next { t with cu := c } := by
  obtain ⟨d, hd, hok, ha, rfl⟩ := onElement_next.1 h
  exact ⟨settle_cu _ _, onElement_next.2 ⟨d, hd, hok, ha, (settle_with_cu _ s c).symm⟩⟩

theorem execDFeed_independent {data : List Byte} {s t : State} (h : execDFeed data s = .next t) (c : Option CuCtx) :
    t.cu = s.cu ∧ execDFeed data { s with cu := c } = .next { t with cu := c } := by
  obtain ⟨cu, du, inbox, replies⟩ := s
  unfold execDFeed at h ⊢
  cases du with
  | none => cases h; exact ⟨rfl, rfl⟩
  | some d =>
    dsimp only at h ⊢
    generalize d.inError = b at h ⊢
    generalize runFeed data d = r at h ⊢
    cases b
    · rcases r with _ | ⟨d' | ⟨e, d'⟩ | d'⟩ <;> cases h <;> exact ⟨rfl, rfl⟩
    · cases h; exact ⟨rfl, rfl⟩

theorem execDEof_independent {s t : State} (h : execDEof s = .next t) (c : Option CuCtx) :
    t.cu = s.cu ∧ execDEof { s with cu := c } = .next { t with cu := c } := by
  obtain ⟨cu, du, inbox, replies⟩ := s
  unfold execDEof at h ⊢
  cases du with
  | none => cases h; exact ⟨rfl, rfl⟩
  | some d =>
    dsimp only at h ⊢
    split at h
    · cases h; exact ⟨rfl, by simp only [*]; rfl⟩
    · split at h <;> cases h <;> exact ⟨rfl, by simp only [*]; rfl⟩

/-! ## Every instruction -/

theorem exec_cu_independent {i : Instr} {s t : State} (hp : portOf i = .cu) (h : exec i s = .next t)
    (d : Option DuCtx) : t.du = s.du ∧ exec i { s with du := d } = .next { t with du := d } := by
  obtain ⟨a, ha⟩ | ⟨p, hr⟩ | hn | ⟨data, hc⟩ | ⟨data, rfl⟩ | rfl := instr_kinds i
  · cases (portOf_of_elementAlphabet ha).symm.trans hp
  · obtain rfl := (portOf_of_reservedCommand hr).symm.trans hp
    obtain rfl := Host.Outcome.next.inj ((exec_of_reservedCommand hr s).symm.trans h)
    exact ⟨rfl, (exec_of_reservedCommand hr _).trans rfl⟩
  · obtain rfl | rfl | rfl | rfl | rfl | rfl := hn
    iterate 3 obtain rfl := Host.Outcome.next.inj h; exact ⟨rfl, rfl⟩
    all_goals cases hp
  · obtain ⟨f, hf⟩ := exec_of_cFeed hc
    rw [hf] at h ⊢
    exact cuFeed_independent h d
  · cases hp
  · cases hp

theorem exec_du_independent {i : Instr} {s t : State} (hp : portOf i = .du) (h : exec i s = .next t)
    (c : Option CuCtx) : t.cu = s.cu ∧ exec i { s with cu := c } = .next { t with cu := c } := by
  obtain ⟨a, ha⟩ | ⟨p, hr⟩ | hn | ⟨data, hc⟩ | ⟨data, rfl⟩ | rfl := instr_kinds i
  · obtain ⟨f, hf⟩ := exec_of_elementAlphabet ha
    rw [hf] at h ⊢
    exact onElement_independent h c
  · obtain rfl := (portOf_of_reservedCommand hr).symm.trans hp
    obtain rfl := Host.Outcome.next.inj ((exec_of_reservedCommand hr s).symm.trans h)
    exact ⟨rfl, (exec_of_reservedCommand hr _).trans rfl⟩
  · obtain rfl | rfl | rfl | rfl | rfl | rfl := hn
    iterate 3 cases hp
    all_goals obtain rfl := Host.Outcome.next.inj h; exact ⟨rfl, rfl⟩
  · cases (portOf_of_cFeed hc).symm.trans hp
  · exact execDFeed_independent h c
  · exact execDEof_independent h c

/-- Settles O26, by the kind of the instruction. -/
theorem unitsAreIndependent : Obligations.UnitsAreIndependent := by
  unfold Obligations.UnitsAreIndependent
  exact ⟨fun i s t d hp h => exec_cu_independent hp h d, fun i s t c hp h => exec_du_independent hp h c⟩

end Sys2Proof.Proofs
end

