-- ==== Sys2Proof/Proofs/DuRegisters.lean ====
section
/-! PROOFS. The registers of a decompression context and what its state says, after each shared operation and each
symbol (10_state.md R27 to R30, R37 to R40). -/

namespace Sys2Proof.Proofs

open Sys2Proof.Machine Sys2Proof.Laws

/-! ## The registers, and what the state says -/

/-- The register part of the invariant, without what the automaton state says: that of the context with an error
latched. -/
def DuRegs (d : DuCtx) : Prop := DuInv (latchError .eof d)

/-- A context without an error that meets the invariant. -/
structure DuRuns (d : DuCtx) : Prop where
  ok : d.err = .ok
  regs : DuRegs d
  live : d.live

theorem duRegs_of_inv {d : DuCtx} (h : DuInv d) : DuRegs d := { h with live := nofun }

theorem duRuns_of_inv {d : DuCtx} (h : DuInv d) (hok : d.err = .ok) : DuRuns d :=
  ⟨hok, duRegs_of_inv h, h.live hok⟩

theorem duInv_of_runs {d : DuCtx} (h : DuRuns d) : DuInv d := { h.regs with live := fun _ => h.live }

/-- How a step ends from a context that meets the invariant: in one that meets it, or with an error. -/
inductive Safe : Stepped → Prop
  | suspended {d : DuCtx} (h : DuRuns d) : Safe (.suspended d)
  | completed {d : DuCtx} (h : DuRuns d) : Safe (.completed d)
  | raised {e : Err} {d : DuCtx} (h : e ≠ .ok) : Safe (.raised e d)

theorem need_safe {n : Nat} {d : DuCtx} {k : DuCtx → Stepped} (h : DuRuns d) (hk : n ≤ d.nbits → Safe (k d)) :
    Safe (need n d k) := by
  by_cases hn : n ≤ d.nbits
  · rw [need_of_le hn]; exact hk hn
  · rw [need_of_lt (by omega)]; exact .suspended h

/-! ## The registers after each operation -/

theorem shiftRight_lt {b : AccWord} {m : Nat} (n : Nat) (h : b.toNat < 2 ^ m) : (b >>> n).toNat < 2 ^ (m - n) := by
  rw [BitVec.toNat_ushiftRight, Nat.shiftRight_eq_div_pow]
  refine Nat.div_lt_of_lt_mul (Nat.lt_of_lt_of_le h ?_)
  rw [← Nat.pow_add]
  exact Nat.pow_le_pow_right (by omega) (by omega)

theorem eat_regs {d : DuCtx} (n : Nat) (h : DuRegs d) : DuRegs (eat n d) :=
  { h with
    nbits := Nat.le_trans (Nat.sub_le _ _) h.nbits
    bits := shiftRight_lt n h.bits
    live := nofun }

theorem setState_regs {d : DuCtx} (st : DState) (h : DuRegs d) : DuRegs (setState st d) := { h with live := nofun }

theorem blockEnd_regs {d : DuCtx} (h : DuRegs d) : DuRegs (blockEnd d) := { h with live := nofun }

/-- The two halves put together are the two halves read back. -/
theorem adlerOk_ofHalves {hi lo : Nat} (hhi : hi < Config.adlerMod) (hlo : lo < Config.adlerMod) :
    adlerOk (BitVec.ofNat 32 (hi * 2 ^ 16 + lo)) := by
  simp only [Config.adlerMod] at hhi hlo
  simp only [adlerOk, Config.adlerMod, BitVec.toNat_ofNat]
  omega

theorem adlerOk_one : adlerOk 1 := ⟨by decide, by decide⟩

theorem adlerByte_ok (a : Word32) (x : Byte) : adlerOk (adlerByte a x) :=
  adlerOk_ofHalves (Nat.mod_lt _ (by decide)) (Nat.mod_lt _ (by decide))

theorem adler32_ok {a : Word32} (h : adlerOk a) (data : List Byte) : adlerOk (adler32 a data) := by
  induction data generalizing a with
  | nil => exact h
  | cons x xs ih => exact ih (adlerByte_ok a x)

theorem adlerInMode_ok {a : Word32} (m : Mode) (h : adlerOk a) (data : List Byte) : adlerOk (adlerInMode m a data) := by
  cases m with
  | bare => exact h
  | zlib => exact adler32_ok h data

theorem adlerInMode_bare {m : Mode} {a : Word32} (data : List Byte) (hm : m = .bare) : adlerInMode m a data = a := by
  rw [hm, adlerInMode]

theorem outByte_regs {d : DuCtx} (b : Byte) (h : DuRegs d) : DuRegs (outByte b d) := by
  have hprod : d.produced ≤ Config.dWinSize := h.produced
  have hfill : d.produced < Config.dWinSize → d.winPos = d.produced := h.filling
  have hcount : (outByte b d).produced ≤ Config.dWinSize ∧
      ((outByte b d).produced < Config.dWinSize → (outByte b d).winPos = (outByte b d).produced) := by
    rw [outByte_winPos, outByte_produced]
    obtain hlt | hfull := Nat.lt_or_eq_of_le hprod
    · rw [if_pos hlt, hfill hlt]
      exact ⟨hlt, Nat.mod_eq_of_lt⟩
    · rw [if_neg (by omega)]
      exact ⟨hprod, fun hlt => by omega⟩
  exact
    { h with
      winPos := Nat.mod_lt _ (by decide)
      produced := hcount.1
      filling := hcount.2
      adler := adlerInMode_ok d.mode h.adler [b]
      bare := fun hm => (adlerInMode_bare [b] hm).trans (h.bare hm)
      win := wf_winWrite d.winPos b h.win
      winBelow := memBelow_memWrite h.winBelow h.winPos
      live := nofun }

theorem copyBytes_regs {dist len : Nat} {d : DuCtx} (h : DuRegs d) : DuRegs (copyBytes dist len d) := by
  induction len generalizing d with
  | zero => exact h
  | succ n ih => exact ih (outByte_regs _ h)

/-- A bounded entry may be written into a list of bounded entries. -/
theorem set_bounded {l : List Nat} {n m i v : Nat} (h : l.length = n ∧ ∀ x ∈ l, x ≤ m) (hv : v ≤ m) :
    (l.set i v).length = n ∧ ∀ x ∈ l.set i v, x ≤ m := by
  refine ⟨List.length_set.trans h.1, fun x hx => ?_⟩
  obtain hx | rfl := List.mem_or_eq_of_mem_set hx
  · exact h.2 x hx
  · exact hv

theorem replicate_zero_bounded (n m : Nat) :
    (List.replicate n 0).length = n ∧ ∀ x ∈ List.replicate n 0, x ≤ m :=
  ⟨List.length_replicate, fun _ hx => (List.eq_of_mem_replicate hx).trans_le (Nat.zero_le m)⟩

theorem writeLength_regs {d : DuCtx} {v : Nat} (h : DuRegs d) (hv : v ≤ 15) (hp : d.lenPtr < 316) :
    DuRegs (writeLength v d) :=
  { h with
    lenPtr := hp
    lengths := set_bounded h.lengths hv
    live := nofun }

/-- While lengths are missing, D.LENPTR stands inside D.LENGTHS. -/
theorem lenPtr_lt_of_countsOk {d : DuCtx} (hc : d.countsOk) (hp : d.lenPtr < d.hlit + d.hdist) : d.lenPtr < 316 := by
  obtain ⟨-, hlit, -, hdist⟩ := hc
  omega

theorem writeRepeats_regs {k : Nat} {d : DuCtx} (h : DuRegs d) (hp : d.lenPtr + k ≤ 316) :
    DuRegs (writeRepeats k d) := by
  induction k generalizing d with
  | zero => exact h
  | succ k ih =>
    have hrep : d.lenRep ≤ 15 := h.lenRep
    refine ih (writeLength_regs h hrep (by omega)) ?_
    rw [writeLength_lenPtr]
    omega

/-! ## What the state says after each operation -/

theorem alignReader_aligned (d : DuCtx) : (alignReader d).nbits % 8 = 0 := by
  rw [alignReader_nbits]
  omega

theorem blockEnd_live {d : DuCtx} (h : d.tabCL = none) : (blockEnd d).live := by
  cases hl : d.lastBlock <;> simp [DuCtx.live, DuCtx.noTables, hl, h]

/-- The reader may take in whole bytes in any state. -/
theorem live_of_same_alignment {d : DuCtx} {b : AccWord} {n : Nat} (h : d.live) (hn : n % 8 = d.nbits % 8) :
    ({ d with bits := b, nbits := n } : DuCtx).live := by
  unfold DuCtx.live at h ⊢
  dsimp only
  rw [hn]
  exact h

/-- Where the automaton decodes elements, the reader may stand on any bit. -/
theorem eat_live_of_expected {d : DuCtx} {a : Alphabet} (n : Nat) (h : d.live) (ha : expected d = some a) :
    (eat n d).live := by
  unfold DuCtx.live at h ⊢
  unfold expected at ha
  cases hs : d.state <;> simp only [hs, eat_state, reduceCtorEq] at h ha ⊢ <;> exact h

/-- A byte above `n` buffered bits. -/
theorem orByte_lt {bits : AccWord} {n : Nat} (b : Byte) (h : bits.toNat < 2 ^ n) :
    (bits ||| (b.setWidth Config.accW <<< n)).toNat < 2 ^ (n + 8) := by
  rw [BitVec.toNat_or]
  refine Nat.or_lt_two_pow (Nat.lt_of_lt_of_le h (Nat.pow_le_pow_right (by omega) (by omega))) ?_
  rw [BitVec.toNat_shiftLeft, Nat.shiftLeft_eq]
  refine Nat.lt_of_le_of_lt (Nat.mod_le _ _) ?_
  rw [BitVec.toNat_setWidth, Nat.pow_add, Nat.mul_comm (2 ^ n)]
  exact Nat.mul_lt_mul_of_pos_right (Nat.lt_of_le_of_lt (Nat.mod_le _ _) b.isLt) (Nat.two_pow_pos n)

theorem refill_regs {d : DuCtx} (inp : List Byte) (h : DuRegs d) : DuRegs (refill d inp).1 := by
  induction inp generalizing d with
  | nil => exact h
  | cons b rest ih =>
    rw [refill]
    split
    · next hn =>
      have hn : d.nbits < 24 := hn
      exact ih { h with
        nbits := Nat.le_of_lt_succ (by omega : d.nbits + 8 < 32)
        bits := orByte_lt b h.bits
        live := nofun }
    · exact h

/-- The step begins with the refill (46_decompress.md R323). -/
theorem refill_runs {d : DuCtx} (inp : List Byte) (h : DuRuns d) : DuRuns (refill d inp).1 := by
  obtain ⟨hok, hregs, hlive⟩ := h
  have hr := refill_regs inp hregs
  obtain ⟨taken, b, -, heq, -⟩ := refill_spec d inp
  rw [heq] at hr ⊢
  exact ⟨hok, hr, live_of_same_alignment hlive (by omega)⟩

/-! ## The symbols -/

theorem startBlock_safe {d : DuCtx} (hok : d.err = .ok) (h : DuRegs d) (hn : d.noTables) (f : Bool) (t : Nat) :
    Safe (startBlock f t d) := by
  have hr : DuRegs (setDLastBlock f d) := { h with live := nofun }
  unfold startBlock
  dsimp only
  split
  · exact .completed ⟨hok, setState_regs _ (eat_regs _ hr), alignReader_aligned _, hn⟩
  · split
    · exact .completed ⟨hok, { hr with live := nofun }, hn.1, fun _ => hn.2, nofun⟩
    · split
      · exact .completed ⟨hok, setState_regs _ hr, hn⟩
      · exact .raised nofun

/-- The match lengths stay within 3..258 (30_encoding.md R108). -/
theorem matchLength_range {s x : Nat} (hs : 257 ≤ s ∧ s ≤ 285) (hx : x < 2 ^ lengthExtra s) :
    3 ≤ matchLength s x ∧ matchLength s x ≤ 258 := by
  have table : ∀ k < 29, 3 ≤ lenBase.getD k 0 ∧ lenBase.getD k 0 + 2 ^ lenExtra.getD k 0 ≤ 259 := by decide
  have := table (s - 257) (by omega)
  unfold matchLength lengthBase
  unfold lengthExtra at hx
  omega

theorem finishLength_runs {d : DuCtx} {x : Nat} (hok : d.err = .ok) (h : DuRegs d) (hsym : 257 ≤ d.sym ∧ d.sym ≤ 285)
    (hx : x < 2 ^ lengthExtra d.sym) (hr : d.readsSymbols) : DuRuns (finishLength x d) := by
  have hlen := matchLength_range hsym hx
  unfold finishLength
  generalize matchLength d.sym x = len, lengthExtra d.sym = n at hlen ⊢
  exact ⟨hok, { eat_regs n h with len := hlen.2, live := nofun }, hlen.1, hr⟩

theorem selectLength_runs {d : DuCtx} {s : Nat} (hok : d.err = .ok) (h : DuRegs d) (hs : 257 ≤ s ∧ s ≤ 285)
    (hr : d.readsSymbols) : DuRuns (selectLength s d) :=
  ⟨hok, { h with sym := Nat.le_trans hs.2 (by decide), live := nofun }, hs.1, hs.2, hr⟩

theorem selectDistance_runs {d : DuCtx} {s : Nat} (hok : d.err = .ok) (h : DuRegs d) (hs : s ≤ 29)
    (hlen : 3 ≤ d.len) (hr : d.readsSymbols) : DuRuns (selectDistance s d) :=
  ⟨hok, { h with sym := Nat.le_trans hs (by decide), live := nofun }, hs, hlen, hr⟩

theorem finishDistance_safe {d : DuCtx} (hok : d.err = .ok) (h : DuRegs d) (hr : d.readsSymbols) (x : Nat) :
    Safe (finishDistance x d) := by
  unfold finishDistance
  dsimp only
  split
  · exact .raised nofun
  · have hc := copyBytes_regs (dist := matchDistance d.sym x) (len := (eat (distanceExtra d.sym) d).len)
      (eat_regs (distanceExtra d.sym) h)
    obtain ⟨out, win, winPos, produced, adler, heq, -⟩ :=
      copyBytes_frame (matchDistance d.sym x) (eat (distanceExtra d.sym) d).len (eat (distanceExtra d.sym) d)
    rw [heq] at hc ⊢
    exact .completed ⟨hok, setState_regs _ hc, hr⟩

theorem literal_runs {d : DuCtx} (b : Byte) (hok : d.err = .ok) (h : DuRegs d) (hs : d.state = .inBlk)
    (hr : d.readsSymbols) : DuRuns (outByte b d) :=
  ⟨hok, outByte_regs b h, by unfold DuCtx.live; rw [outByte_state, hs]; exact hr⟩

theorem blockEnd_runs {d : DuCtx} (hok : d.err = .ok) (h : DuRegs d) (ht : d.tabCL = none) : DuRuns (blockEnd d) :=
  ⟨hok, blockEnd_regs h, blockEnd_live ht⟩

theorem codeLength_runs {d : DuCtx} {v : Nat} (hok : d.err = .ok) (h : DuRegs d) (hs : d.state = .treesLen)
    (hr : d.readsLengths) (hn : lengthsDone d = false) (hv : v ≤ 15) : DuRuns (writeLength v d) := by
  obtain ⟨hcounts, -, htabs⟩ := hr
  have hp : d.lenPtr < d.hlit + d.hdist := by simpa [lengthsDone] using hn
  refine ⟨hok, writeLength_regs h hv (lenPtr_lt_of_countsOk hcounts hp), ?_⟩
  unfold DuCtx.live
  rw [writeLength_state, hs]
  exact ⟨hcounts, hp, htabs⟩

theorem extraBitsOf_codeLength_le (c : Nat) : extraBitsOf .codeLength c ≤ 7 := by
  unfold extraBitsOf
  dsimp only
  split_ifs <;> decide

theorem repeatBase_le (c : Nat) : repeatBase c ≤ 11 := by
  unfold repeatBase
  split_ifs <;> decide

theorem getD_le_of_forall {l : List Nat} {m : Nat} (h : ∀ x ∈ l, x ≤ m) (i : Nat) : l.getD i 0 ≤ m := by
  rw [List.getD_eq_getElem?_getD]
  cases hi : l[i]? with
  | none => exact Nat.zero_le m
  | some x => exact h x (List.mem_of_getElem? hi)

theorem selectRepeat_safe {d : DuCtx} (hok : d.err = .ok) (h : DuRegs d) (hr : d.readsLengths) (c : Nat) :
    Safe (selectRepeat c d) := by
  have hrep : (if c = 16 then d.lengths.getD (d.lenPtr - 1) 0 else 0) ≤ 15 := by
    split
    · exact getD_le_of_forall h.lengths.2 _
    · omega
  unfold selectRepeat
  split
  · exact .raised nofun
  · exact .completed ⟨hok, { h with
      lenRep := hrep
      lenExtraBits := extraBitsOf_codeLength_le c
      lenAddOn := repeatBase_le c
      live := nofun }, hr⟩

/-- The overrun check keeps the repeats inside D.LENGTHS (46_decompress.md R311). -/
theorem finishRepeat_safe {d : DuCtx} (hok : d.err = .ok) (h : DuRegs d) (hr : d.readsLengths) (x : Nat) :
    Safe (finishRepeat x d) := by
  obtain ⟨⟨hlit, hlit', hdist, hdist'⟩, -, htabs⟩ := hr
  unfold finishRepeat
  dsimp only
  split
  · exact .raised nofun
  · next hfit =>
    simp only [eat_hlit, eat_hdist, eat_lenPtr] at hfit
    have hlen : d.lengths.length = 316 := h.lengths.1
    have hw := writeRepeats_regs (k := d.lenAddOn + x) (eat_regs d.lenExtraBits h) (by rw [eat_lenPtr]; omega)
    rw [writeRepeats_spec _ _ (by rw [eat_lenPtr, eat_lengths]; omega)] at hw ⊢
    exact .completed ⟨hok, setState_regs _ hw, ⟨hlit, hlit', hdist, hdist'⟩, Nat.le_of_not_lt hfit, htabs⟩

end Sys2Proof.Proofs
end

