-- ==== Sys2Proof/Proofs/Automaton.lean ====
section
/-! PROOFS. Every step of the automaton, and the loop of D_FEED, keeps the invariant of a decompression context or
raises an error (46_decompress.md R301 to R318, R323). -/

namespace Sys2Proof.Proofs

open Sys2Proof.Machine Sys2Proof.Laws

/-! ## The automaton -/

/-- What the state says, once the state is known. -/
theorem live_of_state {d : DuCtx} {st : DState} (h : d.live) (hs : d.state = st) :
    ({ d with state := st } : DuCtx).live := by
  subst hs
  exact h

theorem peek_lt (n : Nat) (d : DuCtx) : peek n d < 2 ^ n := Nat.mod_lt _ (Nat.two_pow_pos n)

theorem sub_aligned {n k : Nat} (h : n % 8 = 0) (hk : k % 8 = 0) : (n - k) % 8 = 0 := by omega

theorem stepStart_safe {d : DuCtx} (h : DuRuns d) (hs : d.state = .start) : Safe (stepStart d) := by
  obtain ⟨-, -, hn⟩ := live_of_state h.live hs
  refine need_safe h fun _ => ?_
  split
  · exact .completed ⟨h.ok, setState_regs _ (eat_regs 16 h.regs), hn⟩
  · exact .raised nofun

theorem stepOutsideBlk_safe {d : DuCtx} (h : DuRuns d) (hs : d.state = .outsideBlk) : Safe (stepOutsideBlk d) :=
  need_safe h fun _ => startBlock_safe (d := eat 3 d) h.ok (eat_regs 3 h.regs) (live_of_state h.live hs) _ _

theorem stepUncompLen_safe {d : DuCtx} (h : DuRuns d) (hs : d.state = .uncompLen) : Safe (stepUncompLen d) := by
  obtain ⟨ha, hn⟩ := live_of_state h.live hs
  refine need_safe h fun _ => .completed ⟨h.ok, ?_, sub_aligned ha rfl, hn⟩
  exact { eat_regs 16 h.regs with uncompLen := peek_lt 16 d, live := nofun }

theorem stepUncompNlen_safe {d : DuCtx} (h : DuRuns d) (hs : d.state = .uncompNlen) : Safe (stepUncompNlen d) := by
  obtain ⟨ha, hn⟩ := live_of_state h.live hs
  refine need_safe h fun _ => ?_
  split
  · exact .raised nofun
  · split
    · exact .completed (blockEnd_runs h.ok (eat_regs 16 h.regs) hn.1)
    · next hlen =>
      have hpos := Nat.pos_of_ne_zero hlen
      exact .completed ⟨h.ok, setState_regs _ (eat_regs 16 h.regs), sub_aligned ha rfl, hpos, hn⟩

/-- After a stored byte the block goes on or ends (46_decompress.md R306). -/
theorem uncompDataEnd_runs {d : DuCtx} (hok : d.err = .ok) (h : DuRegs d) (hs : d.state = .uncompData)
    (ha : d.nbits % 8 = 0) (hn : d.noTables) : DuRuns (if d.uncompLen = 0 then blockEnd d else d) := by
  split
  · exact blockEnd_runs hok h hn.1
  · next hlen =>
    refine ⟨hok, h, ?_⟩
    unfold DuCtx.live
    rw [hs]
    exact ⟨ha, Nat.pos_of_ne_zero hlen, hn⟩

theorem stepUncompData_safe {d : DuCtx} (h : DuRuns d) (hs : d.state = .uncompData) : Safe (stepUncompData d) := by
  obtain ⟨ha, -, hn⟩ := live_of_state h.live hs
  refine need_safe h fun _ => ?_
  generalize BitVec.ofNat 8 (peek 8 d) = b
  have hb := eat_regs 8 (outByte_regs b h.regs)
  refine .completed (uncompDataEnd_runs (d := { eat 8 (outByte b d) with uncompLen := d.uncompLen - 1 })
    h.ok { hb with uncompLen := Nat.lt_of_le_of_lt (Nat.sub_le _ _) h.regs.uncompLen, live := nofun } hs
    (sub_aligned ha rfl) hn)

theorem stepInBlk_safe {d : DuCtx} (h : DuRuns d) (hs : d.state = .inBlk) : Safe (stepInBlk d) := by
  have hr : d.readsSymbols := live_of_state h.live hs
  unfold stepInBlk
  split
  · exact .suspended h
  · exact .raised nofun
  · next s l _ =>
    have he := eat_regs l h.regs
    dsimp only
    split
    · exact .completed (literal_runs _ h.ok he hs hr)
    · split
      · exact .completed (blockEnd_runs h.ok he hr.1)
      · split
        · next hlt => exact .completed (selectLength_runs h.ok he (by simp only [Config.nLL] at hlt; omega) hr)
        · exact .raised nofun

theorem stepTreesHdr_safe {d : DuCtx} (h : DuRuns d) (hs : d.state = .treesHdr) : Safe (stepTreesHdr d) := by
  have hn : d.noTables := live_of_state h.live hs
  refine need_safe h fun _ => ?_
  have hv : peek 14 d < 2 ^ 14 := peek_lt 14 d
  generalize peek 14 d = v at hv ⊢
  dsimp only
  split
  · exact .raised nofun
  · next hc =>
    simp only [Config.nLL, Config.nDist] at hc
    have hlit : 257 ≤ 257 + v % 32 ∧ 257 + v % 32 ≤ 286 := by omega
    have hdist : 1 ≤ 1 + v / 32 % 32 ∧ 1 + v / 32 % 32 ≤ 30 := by omega
    have hclen : 0 < 4 + v / 1024 ∧ 4 + v / 1024 ≤ 19 := by omega
    generalize 257 + v % 32 = nlit, 1 + v / 32 % 32 = ndist, 4 + v / 1024 = nclen at hlit hdist hclen
    refine .completed ⟨h.ok, { eat_regs 14 h.regs with
      hlit := Nat.le_trans hlit.2 (by decide)
      hdist := Nat.le_trans hdist.2 (by decide)
      hclen := hclen.2
      lenPtr := Nat.zero_le _
      lenLen := replicate_zero_bounded _ _
      live := nofun }, ⟨hlit.1, hlit.2, hdist.1, hdist.2⟩, hclen.1, hn⟩

theorem stepTreesLenLen_safe {d : DuCtx} (h : DuRuns d) (hs : d.state = .treesLenLen) : Safe (stepTreesLenLen d) := by
  obtain ⟨hc, hp, hn, hll, hd⟩ := live_of_state h.live hs
  refine need_safe h fun _ => ?_
  have hv : peek 3 d ≤ 7 := Nat.le_of_lt_succ (peek_lt 3 d)
  generalize peek 3 d = v at hv ⊢
  have hclen : d.hclen ≤ 19 := h.regs.hclen
  have hset : (d.lenLen.set (clOrder.getD d.lenPtr 0) v).length = 19 ∧
      ∀ l ∈ d.lenLen.set (clOrder.getD d.lenPtr 0) v, l ≤ 7 := set_bounded h.regs.lenLen hv
  dsimp only
  split
  · split
    · exact .raised nofun
    · next t ht =>
      exact .completed ⟨h.ok, { eat_regs 3 h.regs with
        lenPtr := Nat.zero_le _
        lenLen := hset
        lengths := replicate_zero_bounded _ _
        live := nofun }, hc, Nat.zero_le _, hll, hd, t, rfl, ht⟩
  · next hne =>
    have hp' : d.lenPtr + 1 < d.hclen := Nat.lt_of_le_of_ne hp hne
    refine .completed ⟨h.ok, { eat_regs 3 h.regs with
      lenPtr := Nat.le_trans (Nat.le_of_lt hp') (Nat.le_trans hclen (by decide))
      lenLen := hset
      live := nofun }, ?_⟩
    unfold DuCtx.live
    dsimp only [eat_state]
    rw [hs]
    exact ⟨hc, hp', hn, hll, hd⟩

theorem buildMainTables_safe {d : DuCtx} (h : DuRuns d) (hr : d.readsLengths) : Safe (buildMainTables d) := by
  obtain ⟨hc, -, -⟩ := hr
  unfold buildMainTables
  split
  · exact .raised nofun
  · next ll hll =>
    split
    · exact .raised nofun
    · next dt hdt =>
      exact .completed ⟨h.ok, { h.regs with live := nofun }, rfl, nofun, fun _ => ⟨hc, ⟨ll, rfl, hll⟩, dt, rfl, hdt⟩⟩

theorem stepTreesLen_safe {d : DuCtx} (h : DuRuns d) (hs : d.state = .treesLen) : Safe (stepTreesLen d) := by
  have hr : d.readsLengths := live_of_state h.live hs
  unfold stepTreesLen
  split
  · exact buildMainTables_safe h hr
  · next hmore =>
    split
    · exact .suspended h
    · exact .raised nofun
    · next c l _ =>
      have he := eat_regs l h.regs
      split
      · next hc =>
        have hn : lengthsDone (eat l d) = false := Bool.eq_false_iff.2 hmore
        exact .completed (codeLength_runs h.ok he hs hr hn (by omega))
      · exact selectRepeat_safe (d := eat l d) h.ok he hr c

theorem stepTreesLenRep_safe {d : DuCtx} (h : DuRuns d) (hs : d.state = .treesLenRep) : Safe (stepTreesLenRep d) :=
  need_safe h fun _ => finishRepeat_safe h.ok h.regs (live_of_state h.live hs) _

theorem stepGotLenSym_safe {d : DuCtx} (h : DuRuns d) (hs : d.state = .gotLenSym) : Safe (stepGotLenSym d) := by
  have hl : 257 ≤ d.sym ∧ d.sym ≤ 285 ∧ d.readsSymbols := live_of_state h.live hs
  obtain ⟨hlo, hhi, hr⟩ := hl
  exact need_safe h fun _ =>
    .completed (finishLength_runs h.ok h.regs ⟨hlo, hhi⟩ (peek_lt (lengthExtra d.sym) d) hr)

theorem stepGotLen_safe {d : DuCtx} (h : DuRuns d) (hs : d.state = .gotLen) : Safe (stepGotLen d) := by
  obtain ⟨hlen, hr⟩ := live_of_state h.live hs
  unfold stepGotLen
  split
  · exact .suspended h
  · exact .raised nofun
  · next s l _ =>
    split
    · exact .raised nofun
    · next hlt =>
      have hs29 : s ≤ 29 := Nat.le_of_lt_succ (Nat.lt_of_not_le hlt)
      exact .completed (selectDistance_runs h.ok (eat_regs l h.regs) hs29 hlen hr)

theorem stepGotDistSym_safe {d : DuCtx} (h : DuRuns d) (hs : d.state = .gotDistSym) : Safe (stepGotDistSym d) := by
  obtain ⟨-, -, hr⟩ := live_of_state h.live hs
  exact need_safe h fun _ => finishDistance_safe h.ok h.regs hr _

theorem stepFinish_safe {d : DuCtx} (h : DuRuns d) (hs : d.state = .finish) : Safe (stepFinish d) := by
  obtain ⟨hlast, hn⟩ := live_of_state h.live hs
  unfold stepFinish
  cases hm : d.mode with
  | zlib => exact .completed ⟨h.ok, setState_regs _ (eat_regs _ h.regs), hm, hlast, alignReader_aligned d, hn⟩
  | bare => exact .completed ⟨h.ok, setState_regs _ h.regs, hlast, hn⟩

theorem stepAdler1_safe {d : DuCtx} (h : DuRuns d) (hs : d.state = .adler1) : Safe (stepAdler1 d) := by
  obtain ⟨hm, hlast, ha, hn⟩ := live_of_state h.live hs
  have hregs := eat_regs 16 h.regs
  exact need_safe h fun _ => .completed ⟨h.ok, { hregs with live := nofun }, hm, hlast, sub_aligned ha rfl, hn⟩

theorem stepAdler2_safe {d : DuCtx} (h : DuRuns d) (hs : d.state = .adler2) : Safe (stepAdler2 d) := by
  obtain ⟨-, hlast, -, hn⟩ := live_of_state h.live hs
  refine need_safe h fun _ => ?_
  dsimp only
  split
  · exact .completed ⟨h.ok, { eat_regs 16 h.regs with live := nofun }, hlast, hn⟩
  · exact .raised nofun

theorem stepFinalSpin_safe {d : DuCtx} (h : DuRuns d) (hs : d.state = .finalSpin) : Safe (stepFinalSpin d) := by
  obtain ⟨hlast, hn⟩ := live_of_state h.live hs
  have hregs : DuRegs (discardAll d) := { h.regs with nbits := Nat.zero_le _, bits := Nat.one_pos, live := nofun }
  refine .suspended ⟨h.ok, hregs, ?_⟩
  unfold DuCtx.live
  rw [discardAll_state, hs]
  exact ⟨hlast, hn⟩

/-- Every step of the automaton keeps the invariant, or raises an error. -/
theorem automatonStep_safe {d : DuCtx} (h : DuRuns d) : Safe (automatonStep d) := by
  rw [automatonStep]
  cases hs : d.state with
  | start => exact stepStart_safe h hs
  | outsideBlk => exact stepOutsideBlk_safe h hs
  | uncompLen => exact stepUncompLen_safe h hs
  | uncompNlen => exact stepUncompNlen_safe h hs
  | uncompData => exact stepUncompData_safe h hs
  | inBlk => exact stepInBlk_safe h hs
  | treesHdr => exact stepTreesHdr_safe h hs
  | treesLenLen => exact stepTreesLenLen_safe h hs
  | treesLen => exact stepTreesLen_safe h hs
  | treesLenRep => exact stepTreesLenRep_safe h hs
  | gotLenSym => exact stepGotLenSym_safe h hs
  | gotLen => exact stepGotLen_safe h hs
  | gotDistSym => exact stepGotDistSym_safe h hs
  | finish => exact stepFinish_safe h hs
  | adler1 => exact stepAdler1_safe h hs
  | adler2 => exact stepAdler2_safe h hs
  | finalSpin => exact stepFinalSpin_safe h hs

/-- The loop of D_FEED keeps the invariant, or raises an error (46_decompress.md R323). -/
theorem feedLoop_safe {fuel : Nat} {d : DuCtx} {inp : List Byte} {r : Stepped} (h : DuRuns d)
    (hl : feedLoop fuel d inp = some r) : Safe r := by
  induction fuel generalizing d inp with
  | zero => cases hl
  | succ n ih =>
    have hstep := automatonStep_safe (refill_runs inp h)
    rw [feedLoop] at hl
    split at hl
    · next e d' he =>
      obtain rfl := Option.some.inj hl
      exact he ▸ hstep
    · next d' he =>
      rw [he] at hstep
      split at hl
      · obtain rfl := Option.some.inj hl
        exact hstep
      · cases hstep with | suspended hd => exact ih hd hl
    · next d' he =>
      rw [he] at hstep
      cases hstep with | completed hd => exact ih hd hl

theorem runFeed_safe {d : DuCtx} {data : List Byte} {r : Stepped} (h : DuRuns d) (hr : runFeed data d = some r) :
    Safe r := feedLoop_safe h hr

end Sys2Proof.Proofs
end

