-- ==== Sys2Proof/Proofs/DuInvariant.lean ====
section
/-! PROOFS. Every wire element and every host command keeps the invariant of a decompression context (46_decompress.md
R300, R323 to R326, 47_symbols.md). -/

namespace Sys2Proof.Proofs

open Sys2Proof.Machine Sys2Proof.Laws

/-! ## The wire elements -/

/-- What a literal/length symbol with its extra field does (47_symbols.md R351 to R384). -/
def litLenEffect (s x : Nat) (d : DuCtx) : Stepped :=
  if s < 256 then .completed (outByte (BitVec.ofNat 8 s) d)
  else if s = 256 then .completed (blockEnd d)
  else if s < Config.nLL then .completed (finishLength x (selectLength s d))
  else .raised .table d

/-- What a distance symbol with its extra field does (R385 to R416). -/
def distEffect (s x : Nat) (d : DuCtx) : Stepped :=
  if s < Config.nDist then finishDistance x (selectDistance s d) else .raised .table d

/-- What a code-length symbol with its extra field does (R417 to R420). -/
def codeLenEffect (s x : Nat) (d : DuCtx) : Stepped :=
  if s < 16 then .completed (writeLength s d)
  else match selectRepeat s d with
    | .completed d' => finishRepeat x d'
    | .suspended d' => .suspended d'
    | .raised e d' => .raised e d'

theorem exec_blockInstr (f : Bool) (t : Nat) (s : State) :
    exec (blockInstr f t) s = onElement .blockHeader (startBlock f (t % 4)) s := by
  have ht : t % 4 < 4 := Nat.mod_lt _ (by decide)
  unfold blockInstr
  obtain h | h | h | h : t % 4 = 0 ∨ t % 4 = 1 ∨ t % 4 = 2 ∨ t % 4 = 3 := by omega
  all_goals
    rw [h]
    rfl

/-- A symbol without an extra field is decoded with 0 for it. -/
theorem eq_zero_of_no_extra {a : Alphabet} {s x : Nat} (hx : x < 2 ^ extraBitsOf a s) (h : extraBitsOf a s = 0) :
    x = 0 := by
  rw [h] at hx
  exact Nat.lt_one_iff.1 hx

theorem exec_litLenInstr {s x : Nat} {i : Instr} (h : litLenInstr s x = some i) (hx : x < 2 ^ extraBitsOf .litLen s)
    (st : State) : exec i st = onElement .litLen (litLenEffect s x) st := by
  have literal : s < 256 → literalElement (BitVec.ofNat 8 s) st = onElement .litLen (litLenEffect s x) st := by
    intro hs
    have : litLenEffect s x = fun d => .completed (outByte (BitVec.ofNat 8 s) d) := by
      funext d
      rw [litLenEffect, if_pos hs]
    rw [this]
    rfl
  unfold litLenInstr at h
  split at h
  · cases h; exact literal (by omega)
  · split at h
    · cases h; exact literal ‹_›
    · have hzero := eq_zero_of_no_extra hx
      split at h <;> cases h
      iterate 9 obtain rfl := hzero rfl; rfl
      iterate 20 rfl
      iterate 3 obtain rfl := hzero rfl; rfl

theorem exec_distInstr {s x : Nat} {i : Instr} (h : distInstr s x = some i) (hx : x < 2 ^ extraBitsOf .distance s)
    (st : State) : exec i st = onElement .distance (distEffect s x) st := by
  have hzero := eq_zero_of_no_extra hx
  unfold distInstr at h
  split at h <;> cases h
  iterate 4 obtain rfl := hzero rfl; rfl
  all_goals rfl

theorem exec_codeLenInstr {s x : Nat} {i : Instr} (h : codeLenInstr s x = some i) (st : State) :
    exec i st = onElement .codeLength (codeLenEffect s x) st := by
  unfold codeLenInstr at h
  split at h
  · next hs =>
    cases h
    have : codeLenEffect s x = fun d => .completed (writeLength s d) := by
      funext d
      rw [codeLenEffect, if_pos hs]
    rw [this]
    rfl
  · split at h <;> cases h <;> rfl

/-- The state in which an alphabet is decoded (30_encoding.md R116). -/
theorem state_of_expected {d : DuCtx} {a : Alphabet} (h : expected d = some a) :
    d.state = stateFor a ∧ (a = .codeLength → lengthsDone d = false) := by
  cases hs : d.state <;> simp only [expected, hs, reduceCtorEq, Option.some.injEq] at h
  case treesLen =>
    split at h
    · cases h
    · next hn =>
      cases h
      exact ⟨rfl, fun _ => Bool.eq_false_iff.2 hn⟩
  all_goals
    subst h
    exact ⟨rfl, nofun⟩

theorem litLenEffect_safe {d : DuCtx} {s x : Nat} (h : DuRuns d) (ha : expected d = some .litLen)
    (hx : x < 2 ^ extraBitsOf .litLen s) : Safe (litLenEffect s x d) := by
  have hs := (state_of_expected ha).1
  have hr : d.readsSymbols := live_of_state h.live hs
  unfold litLenEffect
  split
  · exact .completed (literal_runs _ h.ok h.regs hs hr)
  · split
    · exact .completed (blockEnd_runs h.ok h.regs hr.1)
    · split
      · next hlt =>
        simp only [Config.nLL] at hlt
        have hsym : 257 ≤ s ∧ s ≤ 285 := by omega
        have hx' : x < 2 ^ lengthExtra s := by rwa [extraBitsOf, if_pos hsym] at hx
        have hsel := selectLength_runs h.ok h.regs hsym hr
        exact .completed (finishLength_runs hsel.ok hsel.regs hsym hx' hr)
      · exact .raised nofun

theorem distEffect_safe {d : DuCtx} {s x : Nat} (h : DuRuns d) (ha : expected d = some .distance) :
    Safe (distEffect s x d) := by
  have hl : 3 ≤ d.len ∧ d.readsSymbols := live_of_state h.live (state_of_expected ha).1
  unfold distEffect
  split
  · next hlt =>
    have hsel := selectDistance_runs h.ok h.regs (Nat.le_of_lt_succ hlt) hl.1 hl.2
    exact finishDistance_safe hsel.ok hsel.regs hl.2 x
  · exact .raised nofun

theorem codeLenEffect_safe {d : DuCtx} {s x : Nat} (h : DuRuns d) (ha : expected d = some .codeLength) :
    Safe (codeLenEffect s x d) := by
  obtain ⟨hs, hn⟩ := state_of_expected ha
  have hr : d.readsLengths := live_of_state h.live hs
  unfold codeLenEffect
  split
  · next hlt => exact .completed (codeLength_runs h.ok h.regs hs hr (hn rfl) (Nat.le_of_lt_succ hlt))
  · have hsel := selectRepeat_safe h.ok h.regs hr s
    unfold selectRepeat at hsel ⊢
    split at hsel
    · next hc =>
      rw [if_pos hc]
      exact .raised nofun
    · next hc =>
      rw [if_neg hc]
      cases hsel with | completed hd => exact finishRepeat_safe hd.ok hd.regs hr x

/-- A decoded element runs through `onElement` in its alphabet, and its effect keeps the invariant. -/
theorem decoded_safe {a : Alphabet} {d : DuCtx} {e : Decoded} (h : elementAt a d = .ok e) :
    ∃ f, (∀ st, exec e.instr st = onElement a f st) ∧ ∀ d', DuRuns d' → expected d' = some a → Safe (f d') := by
  have symbol : ∀ {s l}, decodeSymbol a s l d.bits.toNat d.nbits = .ok e →
      ∃ x, symbolInstr a s x = some e.instr ∧ x < 2 ^ extraBitsOf a s := fun {s l} h => by
    unfold decodeSymbol at h
    split at h
    · cases h
    · split at h
      · next i hi =>
        cases h
        exact ⟨_, hi, Nat.mod_lt _ (Nat.two_pow_pos _)⟩
      · cases h
  unfold elementAt decodeElement at h
  split at h
  · split at h
    · cases h
    · cases h
      exact ⟨_, exec_blockInstr _ _, fun d' h ha =>
        startBlock_safe h.ok h.regs (live_of_state h.live (state_of_expected ha).1) _ _⟩
  · split at h
    · obtain ⟨x, hi, hx⟩ := symbol h
      cases a with
      | blockHeader => cases hi
      | litLen => exact ⟨_, exec_litLenInstr hi hx, fun d' h ha => litLenEffect_safe h ha hx⟩
      | distance => exact ⟨_, exec_distInstr hi hx, fun d' h ha => distEffect_safe h ha⟩
      | codeLength => exact ⟨_, exec_codeLenInstr hi, fun d' h ha => codeLenEffect_safe h ha⟩
    · cases h
    · cases h

/-! ## The DU's half -/

/-- The DU's half of the invariant of the machine. -/
def DuHalf (s : State) : Prop := ∀ d, s.du = some d → d.err = .ok → DuInv d

theorem duHalf_of_eq {s t : State} (h : DuHalf s) (he : t.du = s.du) : DuHalf t := fun d hd => h d (he ▸ hd)

theorem settle_duHalf {r : Stepped} (h : Safe r) (s : State) : DuHalf (settle r s) := by
  intro d hd hok
  cases h with
  | suspended h => cases hd; exact duInv_of_runs h
  | completed h => cases hd; exact duInv_of_runs h
  | raised h => cases hd; exact absurd hok h

theorem returnDu_duHalf {d : DuCtx} (h : DuRuns d) (s : State) : DuHalf (returnDu d s) := by
  intro d' hd _
  cases hd
  exact { h.regs with live := fun _ => h.live }

theorem raise_duHalf {e : Err} (he : e ≠ .ok) (d : DuCtx) (s : State) : DuHalf (raise e d s) := by
  intro d' hd hok
  cases hd
  exact absurd hok he

/-- The base case (46_decompress.md R300). -/
theorem duInv_fresh (m : Mode) : DuInv (DuCtx.fresh m) where
  nbits := Nat.zero_le _
  bits := Nat.one_pos
  uncompLen := Nat.two_pow_pos 16
  hlit := Nat.zero_le _
  hdist := Nat.zero_le _
  hclen := Nat.zero_le _
  lenPtr := Nat.zero_le _
  lenExtraBits := Nat.zero_le _
  lenAddOn := Nat.zero_le _
  lenRep := Nat.zero_le _
  sym := Nat.zero_le _
  len := Nat.zero_le _
  winPos := Nat.two_pow_pos 15
  produced := Nat.zero_le _
  filling := fun _ => rfl
  adler := adlerOk_one
  bare := fun _ => rfl
  lenLen := replicate_zero_bounded _ _
  lengths := replicate_zero_bounded _ _
  win := rfl
  winBelow := rfl
  live := by cases m <;> exact fun _ => by simp [DuCtx.live, DuCtx.fresh, DuCtx.noTables]

theorem execDFeed_duHalf {data : List Byte} {s t : State} (h : DuHalf s) (he : execDFeed data s = .next t) :
    DuHalf t := by
  unfold execDFeed at he
  split at he
  · cases he; exact duHalf_of_eq h (refuseDu_du s)
  · next d hd =>
    split at he
    · cases he; exact duHalf_of_eq h (refuseDu_du s)
    · next hok =>
      have hrun := duRuns_of_inv (h d hd (by simpa using hok)) (by simpa using hok)
      split at he
      · next hr =>
        cases he
        cases runFeed_safe hrun hr with | raised hne => exact raise_duHalf hne _ s
      · next hr =>
        cases he
        cases runFeed_safe hrun hr with | suspended hd => exact returnDu_duHalf hd s
      · next hr =>
        cases he
        cases runFeed_safe hrun hr with | completed hd => exact returnDu_duHalf hd s
      · cases he

theorem execDEof_duHalf {s t : State} (h : DuHalf s) (he : execDEof s = .next t) : DuHalf t := by
  obtain rfl | ⟨d, rfl⟩ | ⟨d, rfl⟩ := execDEof_next he
  · exact duHalf_of_eq h (refuseDu_du s)
  · exact duHalf_of_eq h rfl
  · exact raise_duHalf (by decide) d s

/-- Every host command keeps the DU's half: a command of the CU does not touch it. -/
theorem exec_duHalf {i : Instr} {s t : State} (hi : elementAlphabet i = none) (h : DuHalf s)
    (he : exec i s = .next t) : DuHalf t := by
  cases hp : portOf i with
  | cu => exact duHalf_of_eq h (exec_cu_independent hp he none).1
  | du =>
    obtain ⟨a, ha⟩ | ⟨p, hr⟩ | hn | ⟨data, hc⟩ | ⟨data, rfl⟩ | rfl := instr_kinds i
    · cases hi.symm.trans ha
    · obtain rfl := Host.Outcome.next.inj ((exec_of_reservedCommand hr s).symm.trans he)
      cases p <;> exact duHalf_of_eq h rfl
    · obtain rfl | rfl | rfl | rfl | rfl | rfl := hn
      iterate 3 cases hp
      all_goals obtain rfl := Host.Outcome.next.inj he
      · intro d hd _; cases hd; exact duInv_fresh .bare
      · intro d hd _; cases hd; exact duInv_fresh .zlib
      · intro d hd; cases hd
    · cases (portOf_of_cFeed hc).symm.trans hp
    · exact execDFeed_duHalf h he
    · exact execDEof_duHalf h he

theorem elementAlphabet_decodeCommand (p : Port) (w : BitVec 4) (data : List Byte) :
    elementAlphabet (decodeCommand p w data) = none := by
  cases p
  · unfold decodeCommand decodeCu
    dsimp only
    split <;> rfl
  · unfold decodeCommand decodeDu
    dsimp only
    split <;> rfl

theorem step_duHalf {s t : State} (h : DuHalf s) (hstep : step s = .next t) : DuHalf t := by
  obtain ⟨-, rfl⟩ | ⟨p, w, data, rest, -, he⟩ | ⟨rest, -, rfl | ⟨d, hd, hok, rfl | ⟨a, e, ha, he, hx⟩⟩⟩ :=
    step_cases hstep
  · exact h
  · exact exec_duHalf (s := { s with inbox := rest }) (elementAlphabet_decodeCommand p w data) h he
  · exact duHalf_of_eq h rfl
  · exact settle_duHalf (automatonStep_safe (duRuns_of_inv (h d hd hok) hok)) _
  · have hrun := duRuns_of_inv (h d hd hok) hok
    obtain ⟨f, hf, hsafe⟩ := decoded_safe he
    rw [hf] at hx
    obtain ⟨d', hd', -, ha', rfl⟩ := onElement_next.1 hx
    obtain rfl := Option.some.inj hd'
    have heat : DuRuns (eat e.codeBits d) := ⟨hok, eat_regs _ hrun.regs, eat_live_of_expected _ hrun.live ha⟩
    exact settle_duHalf (hsafe _ heat ha') _

end Sys2Proof.Proofs
end

