-- ==== Sys2Proof/Proofs/HuffmanDepth.lean ====
section
/-! PROOFS. The depth of a Huffman tree against its weight, and with it the length limit of `hufflimited`
(42_huffman.md R193 to R195). -/

namespace Sys2Proof.Proofs

open Sys2Proof.Machine Sys2Proof.Laws

/-! ## The pool of nodes -/

/-- The total weight of a pool of nodes. -/
def poolWeight (h : List HuffNode) : Nat := (h.map HuffNode.weight).sum

/-- A pool as the merge keeps it: least weights first, with distinct ids below the next one. -/
structure Pool (next : Nat) (h : List HuffNode) : Prop where
  sorted : h.Pairwise fun x y => x.weight ≤ y.weight
  ids : (h.map HuffNode.id).Nodup
  below : ∀ x ∈ h, x.id < next

theorem huffInsert_perm (x : HuffNode) (h : List HuffNode) : (huffInsert x h).Perm (x :: h) := by
  induction h with
  | nil => exact .refl _
  | cons y ys ih =>
    rw [huffInsert]
    split
    · exact .refl _
    · exact (ih.cons y).trans (.swap x y ys)

theorem weight_le_of_before {x y : HuffNode} (h : x.before y = true) : x.weight ≤ y.weight := by
  simp only [HuffNode.before, Bool.or_eq_true, decide_eq_true_eq, Bool.and_eq_true, beq_iff_eq] at h
  omega

theorem weight_le_of_not_before {x y : HuffNode} (h : ¬x.before y = true) : y.weight ≤ x.weight := by
  simp only [HuffNode.before, Bool.or_eq_true, decide_eq_true_eq, Bool.and_eq_true, beq_iff_eq] at h
  omega

theorem huffInsert_sorted {x : HuffNode} {h : List HuffNode} (hs : h.Pairwise fun x y => x.weight ≤ y.weight) :
    (huffInsert x h).Pairwise fun x y => x.weight ≤ y.weight := by
  induction h with
  | nil => exact List.pairwise_singleton _ _
  | cons y ys ih =>
    rw [huffInsert]
    have hy := List.pairwise_cons.1 hs
    split
    · next hb =>
      have hxy := weight_le_of_before hb
      refine List.pairwise_cons.2 ⟨fun z hz => ?_, hs⟩
      obtain rfl | hz := List.mem_cons.1 hz
      · exact hxy
      · exact Nat.le_trans hxy (hy.1 z hz)
    · next hb =>
      refine List.pairwise_cons.2 ⟨fun z hz => ?_, ih hy.2⟩
      obtain rfl | hz := List.mem_cons.1 ((huffInsert_perm x ys).mem_iff.1 hz)
      · exact weight_le_of_not_before hb
      · exact hy.1 z hz

theorem pool_huffInsert {next : Nat} {x : HuffNode} {h : List HuffNode} (hp : Pool next h) (hx : x.id < next)
    (hnew : x.id ∉ h.map HuffNode.id) : Pool next (huffInsert x h) where
  sorted := huffInsert_sorted hp.sorted
  ids := (((huffInsert_perm x h).map _).nodup_iff).2 (List.nodup_cons.2 ⟨hnew, hp.ids⟩)
  below := fun y hy => by
    obtain rfl | hy := List.mem_cons.1 ((huffInsert_perm x h).mem_iff.1 hy)
    · exact hx
    · exact hp.below y hy

theorem poolWeight_huffInsert (x : HuffNode) (h : List HuffNode) :
    poolWeight (huffInsert x h) = x.weight + poolWeight h := ((huffInsert_perm x h).map _).sum_eq

theorem weight_le_poolWeight {x : HuffNode} {h : List HuffNode} (hx : x ∈ h) : x.weight ≤ poolWeight h :=
  List.le_sum_of_mem (List.mem_map_of_mem hx)

/-! ## Parent links -/

theorem huffMerge_parent {k next : Nat} {h : List HuffNode} {e : Nat × Nat} (he : e ∈ huffMerge k h next) :
    next ≤ e.2 := by
  induction k generalizing h next with
  | zero => simp [huffMerge] at he
  | succ k ih =>
    match h with
    | [] => simp [huffMerge] at he
    | [x] => simp [huffMerge] at he
    | x :: y :: rest =>
      rw [huffMerge] at he
      obtain rfl | he := List.mem_cons.1 he
      · exact Nat.le_refl _
      · obtain rfl | he := List.mem_cons.1 he
        · exact Nat.le_refl _
        · exact Nat.le_of_succ_le (ih he)

theorem mem_of_lookup {ps : List (Nat × Nat)} {i p : Nat} (h : ps.lookup i = some p) : (i, p) ∈ ps := by
  obtain ⟨l, r, rfl, -⟩ := List.lookup_eq_some_iff.1 h
  exact List.mem_append_right l (List.mem_cons_self ..)

/-- A link of a node that no link leads to does not change the depth of another node. -/
theorem huffDepth_cons_of_ne {ps : List (Nat × Nat)} {i p : Nat} (hps : ∀ e ∈ ps, e.2 ≠ i) {id : Nat} (hid : id ≠ i)
    (k : Nat) : huffDepth ((i, p) :: ps) k id = huffDepth ps k id := by
  induction k generalizing id with
  | zero => rfl
  | succ k ih =>
    have hl : ((i, p) :: ps).lookup id = ps.lookup id := by rw [List.lookup_cons, beq_false_of_ne hid]
    rw [huffDepth, huffDepth, hl]
    cases hq : ps.lookup id with
    | none => rfl
    | some q =>
      dsimp only
      rw [ih (hps _ (mem_of_lookup hq))]

theorem huffDepth_nil (k id : Nat) : huffDepth [] k id = 0 := by cases k <;> rfl

/-- The node that takes the place of the two least ones. -/
def merged (a b : HuffNode) (next : Nat) : HuffNode := ⟨a.weight + b.weight, next⟩

theorem huffMerge_cons_cons (k next : Nat) (a b : HuffNode) (rest : List HuffNode) :
    huffMerge (k + 1) (a :: b :: rest) next =
      (a.id, next) :: (b.id, next) :: huffMerge k (huffInsert (merged a b next) rest) (next + 1) := rfl

theorem poolWeight_merge (a b : HuffNode) (next : Nat) (rest : List HuffNode) :
    poolWeight (huffInsert (merged a b next) rest) = poolWeight (a :: b :: rest) := by
  rw [poolWeight_huffInsert]
  simp only [poolWeight, merged, List.map_cons, List.sum_cons]
  omega

section
variable {k next : Nat} {a b : HuffNode} {rest : List HuffNode}

theorem pool_merge (hp : Pool next (a :: b :: rest)) : Pool (next + 1) (huffInsert (merged a b next) rest) := by
  refine pool_huffInsert ⟨?_, ?_, fun x hx => ?_⟩ (Nat.lt_succ_self next) fun hmem => ?_
  · exact (List.pairwise_cons.1 (List.pairwise_cons.1 hp.sorted).2).2
  · exact (List.nodup_cons.1 (List.nodup_cons.1 hp.ids).2).2
  · exact Nat.lt_succ_of_lt (hp.below x (by simp [hx]))
  · obtain ⟨x, hx, hid⟩ := List.mem_map.1 hmem
    have : x.id < next := hp.below x (by simp [hx])
    exact Nat.ne_of_lt this hid

/-- The links of a merge lead to later ids only, so they do not touch the depth of a node that is not merged in it. -/
theorem huffDepth_merge_of_ne (hp : Pool next (a :: b :: rest)) {id : Nat} (ha : id ≠ a.id) (hb : id ≠ b.id)
    (fuel : Nat) : huffDepth (huffMerge (k + 1) (a :: b :: rest) next) fuel id =
      huffDepth (huffMerge k (huffInsert (merged a b next) rest) (next + 1)) fuel id := by
  have hlt : ∀ i, i < next → ∀ e ∈ huffMerge k (huffInsert (merged a b next) rest) (next + 1), e.2 ≠ i := by
    intro i hi e he
    have := huffMerge_parent he
    omega
  have hab : a.id < next ∧ b.id < next := ⟨hp.below a (by simp), hp.below b (by simp)⟩
  rw [huffMerge_cons_cons, huffDepth_cons_of_ne (fun e he => ?_) ha, huffDepth_cons_of_ne (hlt _ hab.2) hb]
  obtain rfl | he := List.mem_cons.1 he
  · exact Nat.ne_of_gt hab.1
  · exact hlt _ hab.1 e he

/-- A merged node stands one below the new node. -/
theorem huffDepth_merge_of_eq {x : HuffNode} (hx : x = a ∨ x = b) (fuel : Nat) :
    huffDepth (huffMerge (k + 1) (a :: b :: rest) next) (fuel + 1) x.id =
      huffDepth (huffMerge (k + 1) (a :: b :: rest) next) fuel next + 1 := by
  have hl : (huffMerge (k + 1) (a :: b :: rest) next).lookup x.id = some next := by
    rw [huffMerge_cons_cons]
    obtain rfl | rfl := hx
    · exact List.lookup_cons_self
    · rw [List.lookup_cons]
      split
      · rfl
      · exact List.lookup_cons_self
  rw [huffDepth, hl]

/-- The sibling of a merged node, and how the pool lies about the two. -/
theorem sibling_of_merged (hp : Pool next (a :: b :: rest)) {x : HuffNode} (hx : x = a ∨ x = b) :
    ∃ z ∈ a :: b :: rest, z.id ≠ x.id ∧ (merged a b next).weight = x.weight + z.weight ∧
      ∀ o ∈ rest, x.weight ≤ o.weight := by
  obtain ⟨ha, hs⟩ := List.pairwise_cons.1 hp.sorted
  obtain ⟨hb, -⟩ := List.pairwise_cons.1 hs
  have hne : a.id ≠ b.id := fun h => (List.nodup_cons.1 hp.ids).1 (by simp [h])
  obtain rfl | rfl := hx
  · exact ⟨b, by simp, hne.symm, rfl, fun o ho => ha o (by simp [ho])⟩
  · exact ⟨a, by simp, hne, Nat.add_comm _ _, hb⟩

end

/-! ## A node at depth δ outweighs the Fibonacci number -/

/-- The bound at depth 0. -/
theorem fib_bound_zero {x : HuffNode} {h : List HuffNode} (hx : x ∈ h) (q : Nat) :
    Nat.fib 1 * x.weight + Nat.fib 0 * q ≤ poolWeight h := by
  have := weight_le_poolWeight hx
  simpa using this

/-- Merging `x` with a sibling of weight at least `q` moves the bound one level up. -/
theorem fib_bound_succ {δ x z q w : Nat} (hq : q ≤ z) (h : Nat.fib (δ + 1) * (x + z) + Nat.fib δ * x ≤ w) :
    Nat.fib (δ + 2) * x + Nat.fib (δ + 1) * q ≤ w := by
  have hmul := Nat.mul_le_mul_left (Nat.fib (δ + 1)) hq
  rw [Nat.fib_add_two, Nat.add_mul]
  rw [Nat.mul_add] at h
  omega

/-- The key to R194: the pool of a node `x` at depth `δ`, all others of weight at least `q`, weighs at least
`fib (δ + 1) * x + fib δ * q`. When `x` is merged, the nodes left weigh no less than `x`. -/
theorem fib_le_poolWeight {k next fuel q : Nat} {h : List HuffNode} {x : HuffNode} (hp : Pool next h) (hx : x ∈ h)
    (hq : ∀ o ∈ h, o.id ≠ x.id → q ≤ o.weight) :
    Nat.fib (huffDepth (huffMerge k h next) fuel x.id + 1) * x.weight +
      Nat.fib (huffDepth (huffMerge k h next) fuel x.id) * q ≤ poolWeight h := by
  induction k generalizing h next fuel x q with
  | zero =>
    rw [huffMerge, huffDepth_nil]
    · exact fib_bound_zero hx q
    · exact nofun
  | succ k ih =>
    match h with
    | [] => cases hx
    | [y] =>
      rw [huffMerge, huffDepth_nil]
      · exact fib_bound_zero hx q
      · exact nofun
    | a :: b :: rest =>
      have hmem : ∀ {o}, o ∈ huffInsert (merged a b next) rest → o = merged a b next ∨ o ∈ rest := fun ho =>
        List.mem_cons.1 ((huffInsert_perm _ rest).mem_iff.1 ho)
      have hp' := pool_merge hp
      rw [← poolWeight_merge a b next rest]
      by_cases hab : x = a ∨ x = b
      · cases fuel with
        | zero =>
          rw [poolWeight_merge, huffDepth]
          exact fib_bound_zero hx q
        | succ fuel =>
          obtain ⟨z, hz, hzx, hw, hrest⟩ := sibling_of_merged hp hab
          have ha : next ≠ a.id := Nat.ne_of_gt (hp.below a (by simp))
          have hb : next ≠ b.id := Nat.ne_of_gt (hp.below b (by simp))
          have hup := ih (fuel := fuel) (x := merged a b next) (q := x.weight) hp'
            ((huffInsert_perm _ rest).mem_iff.2 (by simp)) fun o ho hne => by
              obtain rfl | ho := hmem ho
              · exact absurd rfl hne
              · exact hrest o ho
          rw [huffDepth_merge_of_eq hab, huffDepth_merge_of_ne hp ha hb]
          rw [hw] at hup
          exact fib_bound_succ (hq z hz hzx) hup
      · obtain ⟨hxa, hxb⟩ := not_or.1 hab
        have hxr : x ∈ rest := by simpa [hxa, hxb] using hx
        have hne : a.id ≠ x.id := fun h => (List.nodup_cons.1 hp.ids).1 (by simp [h, List.mem_map_of_mem hxr])
        have hne' : b.id ≠ x.id := fun h =>
          (List.nodup_cons.1 (List.nodup_cons.1 hp.ids).2).1 (by simp [h, List.mem_map_of_mem hxr])
        rw [huffDepth_merge_of_ne hp hne.symm hne'.symm]
        refine ih hp' ((huffInsert_perm _ rest).mem_iff.2 (by simp [hxr])) fun o ho hox => ?_
        obtain rfl | ho := hmem ho
        · exact Nat.le_trans (hq a (by simp) hne) (Nat.le_add_right _ _)
        · exact hq o (by simp [ho]) hox

/-! ## The leaves -/

/-- The active symbols among (frequency, symbol) pairs, as nodes. -/
def leafNodes (l : List (Nat × Nat)) : List HuffNode := (l.filter (·.1 ≠ 0)).map fun p => ⟨p.1, p.2⟩

/-- The leaves of `l` put into the pool `h`, the loop of `huffLeaves`. -/
def insertLeaves (l : List (Nat × Nat)) (h : List HuffNode) : List HuffNode :=
  l.foldl (fun h p => if p.1 = 0 then h else huffInsert ⟨p.1, p.2⟩ h) h

theorem huffLeaves_eq (f : List Nat) : huffLeaves f = insertLeaves f.zipIdx [] := rfl

theorem insertLeaves_perm (l : List (Nat × Nat)) (h : List HuffNode) :
    (insertLeaves l h).Perm (leafNodes l ++ h) := by
  induction l generalizing h with
  | nil => exact .refl _
  | cons p l ih =>
    refine (ih _).trans ?_
    by_cases hp : p.1 = 0
    · simp [leafNodes, hp]
    · simp only [leafNodes, hp, if_false, ne_eq, not_false_eq_true, decide_true, List.filter_cons_of_pos, List.map_cons,
        List.cons_append]
      exact ((huffInsert_perm _ h).append_left _).trans List.perm_middle

theorem insertLeaves_sorted (l : List (Nat × Nat)) {h : List HuffNode}
    (hs : h.Pairwise fun x y => x.weight ≤ y.weight) :
    (insertLeaves l h).Pairwise fun x y => x.weight ≤ y.weight := by
  induction l generalizing h with
  | nil => exact hs
  | cons p l ih =>
    refine ih ?_
    dsimp only
    split
    · exact hs
    · exact huffInsert_sorted hs

theorem huffLeaves_perm (f : List Nat) : (huffLeaves f).Perm (leafNodes f.zipIdx) := by
  rw [huffLeaves_eq]
  simpa using insertLeaves_perm f.zipIdx []

theorem mem_huffLeaves {f : List Nat} {x : HuffNode} :
    x ∈ huffLeaves f ↔ x.weight ≠ 0 ∧ (x.weight, x.id) ∈ f.zipIdx := by
  rw [(huffLeaves_perm f).mem_iff]
  simp only [leafNodes, List.mem_map, List.mem_filter, decide_eq_true_eq]
  constructor
  · rintro ⟨p, ⟨hp, h0⟩, rfl⟩
    exact ⟨h0, hp⟩
  · rintro ⟨h0, hp⟩
    exact ⟨_, ⟨hp, h0⟩, rfl⟩

theorem huffLeaves_pool (f : List Nat) : Pool f.length (huffLeaves f) where
  sorted := insertLeaves_sorted f.zipIdx .nil
  ids := by
    refine (((huffLeaves_perm f).map _).nodup_iff).2 ?_
    rw [leafNodes, List.map_map]
    exact (List.filter_sublist.map Prod.snd).nodup (List.nodup_zipIdx_map_snd f)
  below := fun x hx => by simpa using List.snd_lt_of_mem_zipIdx (mem_huffLeaves.1 hx).2

theorem sum_filter_ne_zero (l : List Nat) : (l.filter (· ≠ 0)).sum = l.sum := by
  induction l with
  | nil => rfl
  | cons w l ih => by_cases hw : w = 0 <;> simp_all

theorem poolWeight_huffLeaves (f : List Nat) : poolWeight (huffLeaves f) = f.sum := by
  have hl : (leafNodes f.zipIdx).map HuffNode.weight = f.filter (· ≠ 0) := by
    conv_rhs => rw [← List.zipIdx_map_fst 0 f, List.filter_map]
    simp [leafNodes, Function.comp_def]
  rw [poolWeight, ((huffLeaves_perm f).map _).sum_eq, hl, sum_filter_ne_zero]

/-! ## The length limit -/

/-- A code length above `D` needs a total of `fib (D + 3)` times the least active frequency. -/
theorem huffRaw_le {f : List Nat} {m D : Nat} (hD : 1 ≤ D) (hm : ∀ w ∈ f, w ≠ 0 → m ≤ w)
    (hsum : f.sum < Nat.fib (D + 3) * m) : ∀ l ∈ huffRaw f, l ≤ D := by
  unfold huffRaw
  split
  · intro l hl
    obtain ⟨w, -, rfl⟩ := List.mem_map.1 hl
    split <;> omega
  · intro l hl
    obtain ⟨p, hp, rfl⟩ := List.mem_map.1 hl
    split
    · exact Nat.zero_le D
    · next h0 =>
      have hw := fib_le_poolWeight (k := activeCount f) (fuel := activeCount f) (x := ⟨p.1, p.2⟩) (q := m)
        (huffLeaves_pool f) (mem_huffLeaves.2 ⟨h0, hp⟩) fun o ho _ =>
          hm _ (List.fst_mem_of_mem_zipIdx (mem_huffLeaves.1 ho).2) (mem_huffLeaves.1 ho).1
      rw [poolWeight_huffLeaves] at hw
      dsimp only at hw ⊢
      generalize huffDepth _ _ p.2 = δ at hw ⊢
      by_contra hgt
      have hmono : Nat.fib (D + 3) ≤ Nat.fib (δ + 2) := Nat.fib_mono (by omega)
      have hpm : m ≤ p.1 := hm _ (List.fst_mem_of_mem_zipIdx hp) h0
      have hfib := Nat.mul_le_mul_right m hmono
      have hstep := Nat.mul_le_mul_left (Nat.fib (δ + 1)) hpm
      rw [Nat.fib_add_two (n := δ), Nat.add_mul] at hfib
      omega

theorem activeCount_cons (w : Nat) (f : List Nat) :
    activeCount (w :: f) = activeCount f + if w = 0 then 0 else 1 := by
  by_cases hw : w = 0 <;> simp [activeCount, hw]

theorem activeCount_le (f : List Nat) : activeCount f ≤ f.length := List.length_filter_le _ _

theorem smallestActive_le {f : List Nat} {w : Nat} (hw : w ∈ f) (h0 : w ≠ 0) : smallestActive f ≤ w :=
  List.min?_getD_le_of_mem (List.mem_filter.2 ⟨hw, by simpa using h0⟩)

/-- Every active frequency raised by `c` raises the total by `c` for each active symbol. -/
theorem sum_raised (f : List Nat) (c : Nat) :
    (f.map fun w => if w = 0 then 0 else w + c).sum = f.sum + activeCount f * c := by
  induction f with
  | nil => simp [activeCount]
  | cons w f ih =>
    rw [List.map_cons, List.sum_cons, List.sum_cons, ih, activeCount_cons, Nat.add_mul]
    by_cases hw : w = 0 <;> simp only [hw, if_true, if_false] <;> omega

/-- R194's constant brings the total under the bound of the limit. -/
theorem raised_lt {f : List Nat} {limit : Nat} (hn : activeCount f < maxProb limit) :
    f.sum + activeCount f * huffAdjust f limit < maxProb limit * (smallestActive f + huffAdjust f limit) := by
  unfold huffAdjust
  have hlt := Nat.lt_mul_div_succ (f.sum - smallestActive f * maxProb limit) (Nat.sub_pos_of_lt hn)
  generalize (f.sum - smallestActive f * maxProb limit) / (maxProb limit - activeCount f) + 1 = c at hlt ⊢
  rw [Nat.sub_mul] at hlt
  rw [Nat.mul_add, Nat.mul_comm (maxProb limit) (smallestActive f)]
  have := Nat.mul_le_mul_right c (Nat.le_of_lt hn)
  omega

/-- No code length is above the limit, where the limit's bound on the frequencies is the Fibonacci number that a longer
code needs (R194, R195, 90_conflicts.md C2). -/
theorem huffLimited_le {f : List Nat} {limit : Nat} (hlimit : 1 ≤ limit) (hfib : Nat.fib (limit + 3) = maxProb limit)
    (hn : activeCount f < maxProb limit) : ∀ l ∈ huffLimited f limit, l ≤ limit := by
  unfold huffLimited
  dsimp only
  split
  · next hall => simpa using hall
  · refine huffRaw_le (m := smallestActive f + huffAdjust f limit) hlimit (fun w hw h0 => ?_) ?_
    · obtain ⟨v, hv, rfl⟩ := List.mem_map.1 hw
      split at h0
      · exact absurd rfl h0
      · next hv0 =>
        rw [if_neg hv0]
        exact Nat.add_le_add_right (smallestActive_le hv hv0) _
    · rw [sum_raised, hfib]
      exact raised_lt hn

theorem huffLimited_aux_le {f : List Nat} (hf : f.length ≤ Config.nCL) :
    ∀ l ∈ huffLimited f Config.limitAux, l ≤ Config.limitAux :=
  huffLimited_le (by decide) (by decide) (Nat.lt_of_le_of_lt (Nat.le_trans (activeCount_le f) hf) (by decide))

end Sys2Proof.Proofs
end

