-- ==== Sys2Proof/Proofs/Emission.lean ====
section
/-! PROOFS. Every field that block emission puts fits its width (40_bitio.md R141, 44_block_emit.md R246). -/

namespace Sys2Proof.Proofs

open Sys2Proof.Machine Sys2Proof.Laws

/-! ## The bit writer -/

/-- A property of the bit writer that every field within its width keeps. -/
def KeptByPut (P : BitWriter → Prop) : Prop := ∀ v n w, v < 2 ^ n → P w → P (put v n w)

theorem put_n_le (v n : Nat) (w : BitWriter) : (put v n w).n ≤ 7 := by
  obtain ⟨-, -, -, hn⟩ := put_spec v n w
  omega

theorem n_le_keptByPut : KeptByPut fun w => w.n ≤ 7 := fun v n w _ _ => put_n_le v n w

theorem spillBytes_acc_lt (k : Nat) {w : BitWriter} (h : w.acc.toNat < 2 ^ w.n) :
    (spillBytes k w).acc.toNat < 2 ^ (spillBytes k w).n := by
  induction k generalizing w with
  | zero => exact h
  | succ k ih => exact ih (shiftRight_lt 8 h)

theorem ok_keptByPut : KeptByPut BitWriter.ok := by
  intro v n w hv hw
  refine ⟨put_n_le v n w, spillBytes_acc_lt _ ?_⟩
  dsimp only
  rw [BitVec.toNat_or]
  refine Nat.or_lt_two_pow (Nat.lt_of_lt_of_le hw.2 (Nat.pow_le_pow_right (by omega) (by omega))) ?_
  rw [BitVec.toNat_shiftLeft, Nat.shiftLeft_eq, BitVec.toNat_ofNat]
  refine Nat.lt_of_le_of_lt (Nat.mod_le _ _) (Nat.lt_of_le_of_lt (Nat.mul_le_mul_right _ (Nat.mod_le _ _)) ?_)
  rw [Nat.pow_add, Nat.mul_comm (2 ^ w.n)]
  exact Nat.mul_lt_mul_of_pos_right hv (Nat.two_pow_pos _)

/-! ## What the emission puts -/

/-- The value of an extra field is within its width. -/
def fits : Slot → Prop
  | .extra n v => v < 2 ^ n
  | _ => True

theorem fits_of_legal {x : Slot} (h : x.legal = true) : fits x := by
  cases x with
  | extra n v =>
    simp only [Slot.legal, Bool.and_eq_true, decide_eq_true_eq] at h
    exact h.2
  | _ => trivial

theorem rleZeros_fits (fuel k : Nat) : ∀ x ∈ rleZeros fuel k, fits x := by
  induction fuel generalizing k with
  | zero => exact nofun
  | succ fuel ih =>
    rw [rleZeros]
    split_ifs with h0 h11 h3
    · exact nofun
    · have hv : min k 138 - 11 < 2 ^ 7 := by omega
      exact List.forall_mem_cons.2 ⟨trivial, List.forall_mem_cons.2 ⟨hv, ih _⟩⟩
    · have hv : k - 3 < 2 ^ 3 := by omega
      exact List.forall_mem_cons.2 ⟨trivial, List.forall_mem_singleton.2 hv⟩
    · exact List.forall_mem_cons.2 ⟨trivial, ih _⟩

theorem rleSame_fits (v fuel k : Nat) : ∀ x ∈ rleSame v fuel k, fits x := by
  induction fuel generalizing k with
  | zero => exact nofun
  | succ fuel ih =>
    rw [rleSame]
    split_ifs with h0 h3
    · exact nofun
    · have hv : min k 6 - 3 < 2 ^ 2 := by omega
      exact List.forall_mem_cons.2 ⟨trivial, List.forall_mem_cons.2 ⟨hv, ih _⟩⟩
    · exact List.forall_mem_cons.2 ⟨trivial, ih _⟩

theorem rle_fits (q : List Nat) : ∀ x ∈ rle q, fits x := by
  intro x hx
  obtain ⟨r, -, hx⟩ := List.mem_flatMap.1 hx
  unfold rleRun at hx
  split at hx
  · exact rleZeros_fits _ _ x hx
  · obtain rfl | hx := List.mem_cons.1 hx
    · trivial
    · exact rleSame_fits _ _ _ x hx

theorem countCL_length (b : List Slot) : (countCL b).length = Config.nCL := by
  suffices ∀ f : List Nat, f.length = Config.nCL → (b.foldl (fun f x => match x with
      | .codeLen s => bump f s
      | _ => f) f).length = Config.nCL from this _ List.length_replicate
  induction b with
  | nil => exact fun _ h => h
  | cons x b ih =>
    intro f hf
    refine ih _ ?_
    cases x with
    | codeLen s => exact List.length_set.trans hf
    | _ => exact hf

theorem trimCount_le (low : Nat) (at_ : Nat → Nat) (n : Nat) : trimCount low at_ n ≤ n := by
  induction n with
  | zero => exact Nat.le_refl 0
  | succ n ih =>
    rw [trimCount]
    split
    · exact Nat.le_succ_of_le ih
    · exact Nat.le_refl _

/-- The counts and lengths of a dynamic block's header are within the fields of R246; for the lengths this is R195. -/
structure HeaderFits (t : DynTables) : Prop where
  nlit : t.nlit ≤ Config.nLL
  ndist : t.ndist ≤ Config.nDist
  nclen : t.nclen ≤ Config.nCL
  clLens : ∀ l ∈ t.clLens, l ≤ Config.limitAux
  treeSrc : ∀ x ∈ t.treeSrc, fits x

theorem buildTables_fits (b : List Slot) : HeaderFits (buildTables b) := by
  unfold buildTables
  refine ⟨?_, ?_, ?_, ?_, ?_⟩ <;> dsimp only
  · exact trimCount_le _ _ _
  · exact trimCount_le _ _ _
  · exact trimCount_le _ _ _
  · exact huffLimited_aux_le (Nat.le_of_eq (countCL_length _))
  · exact rle_fits _

/-! ## The emission keeps what every field keeps -/

section
variable {P : BitWriter → Prop} (hP : KeptByPut P)
include hP

theorem putCode_keeps (c n : Nat) {w : BitWriter} (h : P w) : P (putCode c n w) := hP _ n w (revBits_lt n c) h

theorem alignWriter_keeps {w : BitWriter} (h : P w) : P (alignWriter w) := by
  unfold alignWriter
  split
  · exact h
  · exact hP 0 _ w (Nat.two_pow_pos _) h

theorem putSlot_keeps (ll d cl : Table) {x : Slot} (hx : fits x) {w : BitWriter} (h : P w) :
    P (putSlot ll d cl w x) := by
  cases x with
  | extra n v => exact hP v n w hx h
  | _ => exact putCode_keeps hP _ _ h

theorem putSlots_keep (ll d cl : Table) {b : List Slot} (hb : ∀ x ∈ b, fits x) {w : BitWriter} (h : P w) :
    P (b.foldl (putSlot ll d cl) w) := by
  induction b generalizing w with
  | nil => exact h
  | cons x b ih =>
    exact ih (fun y hy => hb y (List.mem_cons_of_mem x hy)) (putSlot_keeps hP ll d cl (hb x List.mem_cons_self) h)

theorem putLengths_keep {lens : List Nat} (hl : ∀ l ∈ lens, l ≤ 7) (order : List Nat) {w : BitWriter} (h : P w) :
    P (order.foldl (fun w s => put (lens.getD s 0) 3 w) w) := by
  induction order generalizing w with
  | nil => exact h
  | cons s order ih => exact ih (hP _ 3 w (Nat.lt_succ_of_le (getD_le_of_forall hl s)) h)

theorem bit_keeps (f : Bool) {w : BitWriter} (h : P w) : P (put f.toNat 1 w) := hP _ 1 w (Bool.toNat_lt f) h

theorem putHeader_keeps {t : DynTables} (ht : HeaderFits t) (bfinal : Bool) {w : BitWriter} (h : P w) :
    P (putHeader t bfinal w) := by
  obtain ⟨hlit, hdist, hclen, hlens, hsrc⟩ := ht
  simp only [Config.nLL, Config.nDist, Config.nCL] at hlit hdist hclen
  unfold putHeader
  refine putSlots_keep hP _ _ _ hsrc (putLengths_keep hP hlens _ ?_)
  refine hP _ 4 _ (by omega) (hP _ 5 _ (by omega) (hP _ 5 _ (by omega) ?_))
  exact hP 2 2 _ (by decide) (bit_keeps hP bfinal h)

theorem emitDynamic_keeps {b : List Slot} (hb : ∀ x ∈ b, fits x) (bfinal : Bool) {w : BitWriter} (h : P w) :
    P (emitDynamic b bfinal w) :=
  putSlot_keeps hP (codes (buildTables b).llLens) (codes (buildTables b).dLens) [] (x := .litLen 256) trivial
    (putSlots_keep hP _ _ [] hb (putHeader_keeps hP (buildTables_fits b) bfinal h))

theorem emitStaticEmpty_keeps (bfinal : Bool) {w : BitWriter} (h : P w) : P (emitStaticEmpty bfinal w) :=
  putCode_keeps hP 0 7 (hP 1 2 _ (by decide) (bit_keeps hP bfinal h))

theorem emitStoredEmpty_keeps {w : BitWriter} (h : P w) : P (emitStoredEmpty w) :=
  hP _ 16 _ (by decide) (hP _ 16 _ (by decide)
    (alignWriter_keeps hP (hP 0 2 _ (by decide) (hP 0 1 _ (by decide) h))))

end

end Sys2Proof.Proofs
end

