-- ==== Sys2Proof/Proofs/SymbolRing.lean ====
section
/-! PROOFS. The slots of a token are legal (43_block_chooser.md R221, R223), and the symbol ring holds legal slots
through every append and drain (R224, R229). -/

namespace Sys2Proof.Proofs

open Sys2Proof.Machine Sys2Proof.Laws

/-! ## The codes of a length and a distance -/

/-- `lastAtMost` finds a base at most `v`, and every later base is above it. -/
theorem lastAtMost_spec {bases : List Nat} {v : Nat} (h0 : bases.getD 0 0 ≤ v) (hne : 0 < bases.length) :
    lastAtMost bases v < bases.length ∧ bases.getD (lastAtMost bases v) 0 ≤ v ∧
      ∀ k, lastAtMost bases v < k → k < bases.length → v < bases.getD k 0 := by
  suffices ∀ n, ∀ best, best = (List.range (n + 1)).foldl (fun best k => if bases.getD k 0 ≤ v then k else best) 0 →
      best < n + 1 ∧ bases.getD best 0 ≤ v ∧ ∀ k, best < k → k < n + 1 → v < bases.getD k 0 by
    have := this (bases.length - 1) (lastAtMost bases v) (by rw [lastAtMost, Nat.sub_add_cancel hne])
    rwa [Nat.sub_add_cancel hne] at this
  intro n
  induction n with
  | zero =>
    rintro _ rfl
    have : (List.range (0 + 1)).foldl (fun best k => if bases.getD k 0 ≤ v then k else best) 0 = 0 := by simp
    rw [this]
    exact ⟨Nat.one_pos, h0, fun k hk hk' => by omega⟩
  | succ n ih =>
    intro best hbest
    obtain ⟨hlt, hle, hgt⟩ := ih _ rfl
    rw [List.range_succ, List.foldl_append, List.foldl_cons, List.foldl_nil] at hbest
    split at hbest
    · next hn =>
      subst hbest
      exact ⟨Nat.lt_succ_self _, hn, fun k hk hk' => by omega⟩
    · next hn =>
      rw [← hbest] at hlt hle hgt
      refine ⟨Nat.lt_succ_of_lt hlt, hle, fun k hk hk' => ?_⟩
      obtain rfl | hk' := Nat.eq_or_lt_of_le (Nat.le_of_lt_succ hk')
      · exact Nat.lt_of_not_le hn
      · exact hgt k hk hk'

/-- The length symbol of R223: its base and an extra field within its width give the length back. -/
theorem lcode_spec {l : Nat} (h3 : Config.minMatch ≤ l) (h258 : l ≤ Config.maxMatch) :
    lcode l ≤ 28 ∧ lenBase.getD (lcode l) 0 ≤ l ∧ l - lenBase.getD (lcode l) 0 < 2 ^ lenExtra.getD (lcode l) 0 := by
  by_cases hmax : l = Config.maxMatch
  · subst hmax
    decide
  · rw [lcode, if_neg hmax]
    simp only [Config.maxMatch] at h258 hmax
    have table : ∀ k < 28, (lenBase.take 28).getD k 0 = lenBase.getD k 0 ∧
        (if k = 27 then 258 else (lenBase.take 28).getD (k + 1) 0) ≤ lenBase.getD k 0 + 2 ^ lenExtra.getD k 0 := by
      decide
    obtain ⟨hlt, hle, hgt⟩ := lastAtMost_spec (bases := lenBase.take 28) (v := l) h3 (by decide)
    have hlen : (lenBase.take 28).length = 28 := by decide
    rw [hlen] at hlt hgt
    generalize lastAtMost (lenBase.take 28) l = k at hlt hle hgt ⊢
    obtain ⟨heq, hnext⟩ := table k hlt
    rw [heq] at hle
    refine ⟨Nat.le_of_lt hlt, hle, ?_⟩
    split at hnext
    · omega
    · have := hgt (k + 1) (Nat.lt_succ_self k) (by omega)
      omega

/-- The distance symbol of R223. -/
theorem dcode_spec {d : Nat} (h1 : 1 ≤ d) (hmax : d ≤ Config.maxDist) :
    dcode d ≤ 29 ∧ distBase.getD (dcode d) 0 ≤ d ∧ d - distBase.getD (dcode d) 0 < 2 ^ distExtra.getD (dcode d) 0 := by
  simp only [Config.maxDist] at hmax
  unfold dcode
  have table : ∀ k < 30,
      (if k = 29 then 32769 else distBase.getD (k + 1) 0) ≤ distBase.getD k 0 + 2 ^ distExtra.getD k 0 := by decide
  obtain ⟨hlt, hle, hgt⟩ := lastAtMost_spec (bases := distBase) (v := d) h1 (by decide)
  have hlen : distBase.length = 30 := by decide
  rw [hlen] at hlt hgt
  generalize lastAtMost distBase d = k at hlt hle hgt ⊢
  have hnext := table k hlt
  refine ⟨Nat.le_of_lt_succ hlt, hle, ?_⟩
  split at hnext
  · omega
  · have := hgt (k + 1) (Nat.lt_succ_self k) (by omega)
    omega

/-! ## The slots of a token -/

/-- A match of the lengths and distances of 00_scope.md R7. -/
def inRange : Token → Prop
  | .lit _ => True
  | .copy d l => 1 ≤ d ∧ d ≤ Config.maxDist ∧ Config.minMatch ≤ l ∧ l ≤ Config.maxMatch

theorem extraSlot_legal {n v : Nat} (hn : n ≤ 13) (hv : v < 2 ^ n) :
    ∀ x ∈ (if n = 0 then [] else [Slot.extra n v]), x.legal = true := by
  split
  · exact nofun
  · next h0 =>
    refine List.forall_mem_singleton.2 ?_
    simp only [Slot.legal, Bool.and_eq_true, decide_eq_true_eq]
    omega

theorem tokenSlots_legal {t : Token} (ht : inRange t) : ∀ x ∈ tokenSlots t, x.legal = true := by
  cases t with
  | lit b =>
    have := b.isLt
    refine List.forall_mem_singleton.2 ?_
    simp only [Slot.legal, Bool.and_eq_true, decide_eq_true_eq]
    omega
  | copy d l =>
    obtain ⟨hd1, hd, hl3, hl⟩ := ht
    obtain ⟨hk, -, hkx⟩ := lcode_spec hl3 hl
    obtain ⟨hj, -, hjx⟩ := dcode_spec hd1 hd
    have lenWidth : ∀ k ≤ 28, lenExtra.getD k 0 ≤ 13 := by decide
    have distWidth : ∀ j ≤ 29, distExtra.getD j 0 ≤ 13 := by decide
    simp only [tokenSlots, List.forall_mem_append, List.forall_mem_singleton]
    refine ⟨⟨⟨?_, extraSlot_legal (lenWidth _ hk) hkx⟩, ?_⟩, extraSlot_legal (distWidth _ hj) hjx⟩
    · simp only [Slot.legal, Bool.and_eq_true, decide_eq_true_eq]
      omega
    · simpa [Slot.legal] using hj

/-! ## The ring -/

/-- The ring's part of the invariant, but for the room that a token needs. -/
structure RingOk (r : SymRing) : Prop where
  start : r.start < Config.symLimit
  slots : ∀ x ∈ ringSlots r, x.legal = true
  ring : Memory.wf slotReset r.ring = true
  below : memBelow Config.symLimit r.ring = true

/-- Room for one more token (43_block_chooser.md R222, R224). -/
def HasRoom (r : SymRing) : Prop := r.n ≤ Config.symLimit - 4

theorem mem_ringSlots {r : SymRing} {x : Slot} :
    x ∈ ringSlots r ↔ ∃ j < r.n, ringRead r.ring ((r.start + j) % Config.symLimit) = x := by
  simp [ringSlots]

theorem ringPush_ok {r : SymRing} {x : Slot} (h : RingOk r) (hx : x.legal = true) : RingOk (ringPush x r) where
  start := h.start
  slots := by
    intro y hy
    obtain ⟨j, hj, rfl⟩ := mem_ringSlots.1 hy
    simp only [ringPush] at hj ⊢
    rw [ringRead_ringWrite _ _ _ h.ring]
    split
    · exact hx
    · next hne =>
      refine h.slots _ (mem_ringSlots.2 ⟨j, Nat.lt_of_le_of_ne (Nat.le_of_lt_succ hj) ?_, rfl⟩)
      rintro rfl
      exact hne rfl
  ring := wf_ringWrite _ _ h.ring
  below := memBelow_memWrite h.below (Nat.mod_lt _ (by decide))

theorem ringPushAll_ok {xs : List Slot} {r : SymRing} (h : RingOk r) (hx : ∀ x ∈ xs, x.legal = true) :
    RingOk (xs.foldl (fun r x => ringPush x r) r) := by
  induction xs generalizing r with
  | nil => exact h
  | cons x xs ih =>
    obtain ⟨hx0, hxs⟩ := List.forall_mem_cons.1 hx
    exact ih (ringPush_ok h hx0) hxs

theorem ringDrop_ok {r : SymRing} (h : RingOk r) (i : Nat) : RingOk (ringDrop i r) where
  start := Nat.mod_lt _ (by decide)
  slots := by
    intro y hy
    obtain ⟨j, hj, rfl⟩ := mem_ringSlots.1 hy
    simp only [ringDrop] at hj ⊢
    rw [Nat.mod_add_mod, Nat.add_assoc]
    exact h.slots _ (mem_ringSlots.2 ⟨i + j, by omega, rfl⟩)
  ring := h.ring
  below := h.below

/-! ## The chooser takes at least one slot -/

theorem betterBoundary_isSome_pos {best : Option (Nat × Nat)} {i : Nat} (e : Nat) (hi : 0 < i)
    (hb : ∀ p, best = some p → 0 < p.1) : ∃ p, betterBoundary best i e = some p ∧ 0 < p.1 := by
  unfold betterBoundary
  split
  · exact ⟨_, rfl, hi⟩
  · next bi be =>
    split
    · exact ⟨_, rfl, hi⟩
    · exact ⟨_, rfl, hb _ rfl⟩

theorem chooseFrom_isSome_pos {slots : List Slot} (hne : slots ≠ []) (i : Nat) (c : Scan) {best : Option (Nat × Nat)}
    (hb : ∀ p, best = some p → 0 < p.1) : ∃ p, chooseFrom slots i c best = some p ∧ 0 < p.1 := by
  induction slots generalizing i c best with
  | nil => exact absurd rfl hne
  | cons b rest ih =>
    have hbetter := betterBoundary_isSome_pos (scanEstimate (scanSlot c b)) (Nat.succ_pos i) hb
    rw [chooseFrom]
    cases rest with
    | nil => exact hbetter
    | cons b' rest =>
      refine ih (List.cons_ne_nil _ _) _ _ ?_
      split
      · obtain ⟨p, hp, hpos⟩ := hbetter
        rintro p' hp'
        obtain rfl := Option.some.inj (hp.symm.trans hp')
        exact hpos
      · exact hb

theorem choose_pos {slots : List Slot} (hne : slots ≠ []) : 0 < choose slots := by
  obtain ⟨p, hp, hpos⟩ := chooseFrom_isSome_pos hne 0 Scan.fresh (best := none) nofun
  rw [choose, hp]
  exact hpos

/-! ## Drain and append -/

/-- The registers of a context that neither the engine nor the emission touches: C.MODE, C.FIRST, C.FINISHED,
C.LASTBLOCK and C.ADLER. -/
def control (c : CuCtx) : Mode × Bool × Bool × Bool × Word32 := (c.mode, c.first, c.finished, c.lastBlock, c.adler)

theorem drainFor_frame (last : Bool) (k : Nat) (c : CuCtx) :
    (drainFor last k c).lz = c.lz ∧ control (drainFor last k c) = control c := by
  induction k generalizing c with
  | zero => exact ⟨rfl, rfl⟩
  | succ k ih =>
    rw [drainFor]
    split
    · exact ⟨rfl, rfl⟩
    · exact ih _

/-- `drain` empties the ring, since the chooser takes at least one slot in each round. -/
theorem drainFor_n {last : Bool} {k : Nat} {c : CuCtx} (hk : c.sym.n ≤ k) : (drainFor last k c).sym.n = 0 := by
  induction k generalizing c with
  | zero => exact Nat.le_zero.1 hk
  | succ k ih =>
    rw [drainFor]
    split
    · assumption
    · next h0 =>
      have hne : ringSlots c.sym ≠ [] := by
        intro h
        simp only [ringSlots, List.map_eq_nil_iff, List.range_eq_nil] at h
        exact h0 h
      have hpos := choose_pos hne
      refine ih ?_
      simp only [ringDrop]
      omega

theorem drain_n (last : Bool) (c : CuCtx) : (drain last c).sym.n = 0 := drainFor_n (Nat.le_refl _)

@[simp] theorem drain_lz (last : Bool) (c : CuCtx) : (drain last c).lz = c.lz := (drainFor_frame last _ c).1

@[simp] theorem drain_control (last : Bool) (c : CuCtx) : control (drain last c) = control c :=
  (drainFor_frame last _ c).2

theorem append_frame (c : CuCtx) (t : Token) : (append c t).lz = c.lz ∧ control (append c t) = control c := by
  unfold append
  dsimp only
  split
  · exact drainFor_frame _ _ _
  · exact ⟨rfl, rfl⟩

/-- After an append there is room for the next token (R224). -/
theorem append_room (c : CuCtx) (t : Token) : HasRoom (append c t).sym := by
  unfold append HasRoom
  dsimp only
  split
  · rw [drain_n]
    exact Nat.zero_le _
  · next h => exact Nat.le_of_not_lt h

/-- What the emission side of a context keeps: a property of the bit writer, and the ring's legal slots. -/
structure EmitOk (P : BitWriter → Prop) (c : CuCtx) : Prop where
  bw : P c.bw
  sym : RingOk c.sym

section
variable {P : BitWriter → Prop} (hP : KeptByPut P)
include hP

theorem drainFor_emitOk (last : Bool) (k : Nat) {c : CuCtx} (h : EmitOk P c) : EmitOk P (drainFor last k c) := by
  induction k generalizing c with
  | zero => exact h
  | succ k ih =>
    rw [drainFor]
    split
    · exact h
    · have hfits : ∀ x ∈ (ringSlots c.sym).take (choose (ringSlots c.sym)), fits x := fun x hx =>
        fits_of_legal (h.sym.slots x (List.mem_of_mem_take hx))
      exact ih ⟨emitDynamic_keeps hP hfits _ h.bw, ringDrop_ok h.sym _⟩

theorem drain_emitOk (last : Bool) {c : CuCtx} (h : EmitOk P c) : EmitOk P (drain last c) :=
  drainFor_emitOk hP last _ h

theorem append_emitOk {c : CuCtx} {t : Token} (h : EmitOk P c) (ht : inRange t) : EmitOk P (append c t) := by
  have hpush : EmitOk P { c with sym := (tokenSlots t).foldl (fun r x => ringPush x r) c.sym } :=
    ⟨h.bw, ringPushAll_ok h.sym (tokenSlots_legal ht)⟩
  unfold append
  dsimp only
  split
  · exact drain_emitOk hP false hpush
  · exact hpush

theorem appends_emitOk {ts : List Token} {c : CuCtx} (h : EmitOk P c) (ht : ∀ t ∈ ts, inRange t) :
    EmitOk P (ts.foldl append c) := by
  induction ts generalizing c with
  | nil => exact h
  | cons t ts ih =>
    obtain ⟨ht0, hts⟩ := List.forall_mem_cons.1 ht
    exact ih (append_emitOk hP h ht0) hts

end

theorem appends_frame (ts : List Token) (c : CuCtx) :
    (ts.foldl append c).lz = c.lz ∧ control (ts.foldl append c) = control c := by
  induction ts generalizing c with
  | nil => exact ⟨rfl, rfl⟩
  | cons t ts ih =>
    obtain ⟨hlz, hcontrol⟩ := append_frame c t
    exact ⟨(ih _).1.trans hlz, (ih _).2.trans hcontrol⟩

theorem appends_room {ts : List Token} {c : CuCtx} (h : HasRoom c.sym) : HasRoom (ts.foldl append c).sym := by
  induction ts generalizing c with
  | nil => exact h
  | cons t ts ih => exact ih (append_room c t)

end Sys2Proof.Proofs
end

