-- ==== Sys2Proof/Proofs/MatchEngine.lean ====
section
/-! PROOFS. The LZ77 engine keeps its invariant with every byte and flush, and every match it decides is in range
(41_lz77.md R161, R169 to R173, R178). -/

namespace Sys2Proof.Proofs

open Sys2Proof.Machine Sys2Proof.Laws

/-! ## The parts of the invariant -/

/-- The history, the window and the hash chain: what a commit does not touch. -/
structure LzStore (z : Lz) : Prop where
  received : z.s.length = z.r
  window : ∀ a, a < z.r → z.r ≤ a + Config.cWinSize → lzByteAt z a = seqAt z.s a
  win : Memory.wf windowReset z.win = true
  winBelow : memBelow Config.cWinSize z.win = true
  head : Memory.wf Config.nilPos z.head = true
  headBelow : memBelow Config.hashMax z.head = true
  next : Memory.wf Config.nilPos z.next = true
  nextBelow : memBelow Config.cWinSize z.next = true

/-- The commit position and the pending-match set. -/
structure LzPending (z : Lz) : Prop where
  committed : z.p ≤ z.r
  depth : z.cand.length = Config.lazy
  cand : ∀ o c, z.cand[o]? = some c → candOk z (z.p + o) c

theorem lzStore_of_inv {z : Lz} (h : LzInv z) : LzStore z := { h with }

theorem lzPending_of_inv {z : Lz} (h : LzInv z) : LzPending z := { h with }

theorem lzInv_of_parts {z : Lz} (hs : LzStore z) (hp : LzPending z) (hh : z.h = z.r - 2) (hb : z.r ≤ z.p + 259) :
    LzInv z := { hs, hp with indexed := hh, heldBack := hb }

/-- `z'` is `z` with another commit position and pending-match set. -/
def SameStore (z z' : Lz) : Prop := z' = { z with p := z'.p, cand := z'.cand }

theorem lzStore_of_same {z z' : Lz} (h : SameStore z z') (hs : LzStore z) : LzStore z' := by
  rw [h]
  exact { hs with }

theorem sameStore_frame {z z' : Lz} (h : SameStore z z') : z'.h = z.h ∧ z'.r = z.r := by
  rw [h]
  exact ⟨rfl, rfl⟩

/-! ## The pending-match set -/

/-- What a slot holds for position `q` when `e` bytes have arrived. -/
def candOkAt (e q : Nat) : Cand → Prop
  | .empty => e < q + Config.minMatch
  | .extending live len =>
    live ≠ [] ∧ (∀ d ∈ live, 1 ≤ d ∧ d ≤ Config.maxDist ∧ d ≤ q) ∧ Config.minMatch ≤ len ∧ len < Config.maxMatch ∧
      q + len = e
  | .finished len d =>
    q + Config.minMatch ≤ e ∧ (len = 0 ∨
      (Config.minMatch ≤ len ∧ len ≤ Config.maxMatch ∧ q + len ≤ e ∧ 1 ≤ d ∧ d ≤ Config.maxDist ∧ d ≤ q))

theorem candOk_iff {z : Lz} {q : Nat} {c : Cand} : candOk z q c ↔ candOkAt z.r q c := by cases c <;> exact Iff.rfl

theorem minLive_mem {live : List Nat} (h : live ≠ []) : minLive live ∈ live := by
  unfold minLive
  cases hm : live.min? with
  | none => exact absurd (List.min?_eq_none_iff.1 hm) h
  | some d => exact List.min?_mem hm

theorem candStart_ok (z : Lz) (q : Nat) : candOkAt (q + Config.minMatch) q (candStart z q) := by
  unfold candStart
  dsimp only
  split
  · exact ⟨Nat.le_refl _, .inl rfl⟩
  · next hne =>
    refine ⟨hne, fun d hd => ?_, Nat.le_refl _, by decide, rfl⟩
    obtain ⟨h1, h2, h3, -⟩ := lzWalk_mem hd
    exact ⟨h1, h2, h3⟩

theorem candStart_ne_empty (z : Lz) (q : Nat) : candStart z q ≠ .empty := by
  unfold candStart
  dsimp only
  split <;> exact nofun

/-- One more byte for a position that has its three. -/
theorem candExtend_ok {z : Lz} {e q : Nat} {c : Cand} (h : candOkAt e q c) (hne : c ≠ .empty) :
    candOkAt (e + 1) q (candExtend z q c) ∧ candExtend z q c ≠ .empty := by
  cases c with
  | empty => exact absurd rfl hne
  | finished len d =>
    obtain ⟨h3, hl⟩ := h
    refine ⟨⟨Nat.le_succ_of_le h3, hl.imp_right ?_⟩, nofun⟩
    rintro ⟨hlo, hhi, hq, hd⟩
    exact ⟨hlo, hhi, Nat.le_succ_of_le hq, hd⟩
  | extending live len =>
    obtain ⟨hlive, hd, hlo, hhi, hq⟩ := h
    unfold candExtend
    dsimp only
    have hkeep : ∀ d ∈ live.filter fun d => lzByteAt z (q - d + len) == lzByteAt z (q + len), d ∈ live := fun d hm =>
      (List.mem_filter.1 hm).1
    generalize (live.filter fun d => lzByteAt z (q - d + len) == lzByteAt z (q + len)) = keep at hkeep ⊢
    split
    · exact ⟨⟨by omega, .inr ⟨hlo, Nat.le_of_lt hhi, by omega, hd _ (minLive_mem hlive)⟩⟩, nofun⟩
    · next hne' =>
      split
      · next hmax =>
        exact ⟨⟨by omega, .inr ⟨by omega, Nat.le_of_eq hmax, by omega, hd _ (hkeep _ (minLive_mem hne'))⟩⟩, nofun⟩
      · next hmax =>
        exact ⟨⟨hne', fun d hm => hd d (hkeep d hm), by omega, Nat.lt_of_le_of_ne hhi hmax, by omega⟩, nofun⟩

theorem candExtendBy_ok {z : Lz} {e q k : Nat} {c : Cand} (h : candOkAt e q c) (hne : c ≠ .empty) :
    candOkAt (e + k) q (candExtendBy z q k c) := by
  induction k generalizing e c with
  | zero => exact h
  | succ k ih =>
    obtain ⟨hok, hne'⟩ := candExtend_ok (z := z) h hne
    rw [show e + (k + 1) = e + 1 + k by omega]
    exact ih hok hne'

theorem candEstablish_ok (z : Lz) (q : Nat) : candOkAt z.r q (candEstablish z q) := by
  unfold candEstablish
  split
  · assumption
  · have h := candExtendBy_ok (z := z) (k := z.r - (q + Config.minMatch)) (candStart_ok z q) (candStart_ne_empty z q)
    rwa [Nat.add_sub_cancel' (by omega)] at h

theorem candArrive_ok {z : Lz} {e q : Nat} {c : Cand} (h : candOkAt e q c) (he : z.r = e + 1) :
    candOkAt z.r q (candArrive z q c) := by
  cases c with
  | empty =>
    have h : e < q + Config.minMatch := h
    unfold candArrive
    dsimp only
    split
    · rw [show z.r = q + Config.minMatch by omega]
      exact candStart_ok z q
    · exact Nat.lt_of_not_le ‹_›
  | extending live len => rw [he]; exact (candExtend_ok (z := z) h nofun).1
  | finished len d => rw [he]; exact (candExtend_ok (z := z) h nofun).1

theorem candsEstablish_pending {z : Lz} (h : z.p ≤ z.r) : LzPending (candsEstablish z) where
  committed := h
  depth := candsEstablish_length z
  cand := by
    intro o c ho
    have hlt : o < Config.lazy := by
      have := (List.getElem?_eq_some_iff.1 ho).1
      rwa [candsEstablish_length] at this
    rw [candsEstablish_getElem? z hlt] at ho
    obtain rfl := Option.some.inj ho
    exact candOk_iff.2 (candEstablish_ok z _)

/-- Every slot follows the byte that has arrived since `z`. -/
theorem candsArrive_pending {z z' : Lz} (h : LzPending z) (hr : z'.r = z.r + 1) (hp : z'.p = z.p)
    (hc : z'.cand = z.cand) : LzPending (candsArrive z') where
  committed := by
    have := h.committed
    rw [candsArrive_p, candsArrive_r]
    omega
  depth := by rw [candsArrive_length, hc, h.depth]
  cand := by
    intro o c ho
    rw [candsArrive_cand, List.getElem?_map, List.getElem?_zipIdx, hc] at ho
    cases hz : z.cand[o]? with
    | none => simp [hz] at ho
    | some c' =>
      simp only [hz, Option.map_some, Nat.zero_add, Option.some.injEq] at ho
      subst ho
      have hok := candOk_iff.1 (h.cand o c' hz)
      rw [← hp] at hok
      exact candOk_iff.2 (candArrive_ok hok hr)

/-! ## The decided token -/

theorem lazyMatch_min {l0 : Nat} {later : List Nat} (h : lazyMatch l0 later = true) : Config.minMatch ≤ l0 := by
  simp only [lazyMatch, Bool.and_eq_true, decide_eq_true_eq] at h
  exact h.1

/-- A slot with a match of at least three bytes holds one in range, within the bytes received. -/
theorem copy_of_candOk {e q : Nat} {c : Cand} (h : candOkAt e q c) (hm : Config.minMatch ≤ c.bestLen) :
    inRange (.copy c.bestDist c.bestLen) ∧ q + c.bestLen ≤ e := by
  cases c with
  | empty => exact absurd hm (by decide)
  | extending live len =>
    obtain ⟨hlive, hd, hlo, hhi, hq⟩ := h
    obtain ⟨h1, h2, -⟩ := hd _ (minLive_mem hlive)
    exact ⟨⟨h1, h2, hlo, Nat.le_of_lt hhi⟩, Nat.le_of_eq hq⟩
  | finished len d =>
    obtain ⟨-, rfl | ⟨hlo, hhi, hq, h1, h2, -⟩⟩ := h
    · cases hm
    · exact ⟨⟨h1, h2, hlo, hhi⟩, hq⟩

theorem lzChoose_ok {z : Lz} (h : LzPending z) (hlt : z.p < z.r) :
    inRange (lzChoose z) ∧ 1 ≤ (lzChoose z).width ∧ z.p + (lzChoose z).width ≤ z.r := by
  unfold lzChoose
  split
  · exact ⟨trivial, Nat.le_refl 1, hlt⟩
  · next c later hc =>
    split
    · next hl =>
      have hm := lazyMatch_min hl
      have hok := candOk_iff.1 (h.cand 0 c (by rw [hc]; rfl))
      obtain ⟨hrange, hle⟩ := copy_of_candOk hok hm
      exact ⟨hrange, Nat.le_trans (by decide) hm, hle⟩
    · exact ⟨trivial, Nat.le_refl 1, hlt⟩

/-- Fewer than three final slots hold at most 259 bytes back (41_lz77.md R170). -/
theorem heldBack_of_not_final {z : Lz} (h : LzPending z) (hf : candsFinal z = false) : z.r ≤ z.p + 259 := by
  simp only [candsFinal, List.all_eq_false] at hf
  obtain ⟨c, hc, hnot⟩ := hf
  obtain ⟨o, ho⟩ := List.mem_iff_getElem?.1 hc
  have hlt : o < 3 := Nat.lt_of_lt_of_eq (List.getElem?_eq_some_iff.1 ho).1 h.depth
  have hok := candOk_iff.1 (h.cand o c ho)
  cases c with
  | empty =>
    have : z.r < z.p + o + 3 := hok
    omega
  | extending live len =>
    obtain ⟨-, -, -, hhi, hq⟩ := hok
    simp only [Config.maxMatch] at hhi
    omega
  | finished len d => exact absurd rfl hnot

/-! ## The run -/

/-- What `LZ.run` gives (41_lz77.md R169): tokens in range, and the engine with its slots for the new commit position,
where either everything is committed or, unless it flushes, some slot is not final. -/
structure RunOk (flushing : Bool) (z : Lz) (r : List Token × Lz) : Prop where
  tokens : ∀ t ∈ r.1, inRange t
  pending : LzPending r.2
  store : SameStore z r.2
  stop : r.2.p = r.2.r ∨ flushing = false ∧ candsFinal r.2 = false

theorem lzRunFor_ok {flushing : Bool} {k : Nat} {z : Lz} (h : LzPending z) (hk : z.r - z.p ≤ k) :
    RunOk flushing z (lzRunFor flushing k z) := by
  induction k generalizing z with
  | zero =>
    have := h.committed
    exact ⟨nofun, h, rfl, .inl (by show z.p = z.r; omega)⟩
  | succ k ih =>
    rw [lzRunFor]
    split
    · next hle => exact ⟨nofun, h, rfl, .inl (Nat.le_antisymm h.committed hle)⟩
    · next hlt =>
      split
      · obtain ⟨hrange, hpos, hle⟩ := lzChoose_ok h (Nat.lt_of_not_le hlt)
        have hrest : RunOk flushing (lzCommit (lzChoose z) z) (lzRunFor flushing k (lzCommit (lzChoose z) z)) :=
          ih (candsEstablish_pending hle) (by rw [lzCommit_r, lzCommit_p]; omega)
        refine ⟨List.forall_mem_cons.2 ⟨hrange, hrest.tokens⟩, hrest.pending, ?_, hrest.stop⟩
        have hs : _ = _ := hrest.store
        exact hs
      · next hf =>
        simp only [Bool.or_eq_true, not_or, Bool.not_eq_true] at hf
        exact ⟨nofun, h, rfl, .inr hf⟩

theorem lzRun_ok {z : Lz} (flushing : Bool) (h : LzPending z) : RunOk flushing z (lzRun flushing z) :=
  lzRunFor_ok h (Nat.le_refl _)

/-! ## A byte and a flush -/

theorem lzIndex_frame (z : Lz) : (lzIndex z).s = z.s ∧ (lzIndex z).r = z.r ∧ (lzIndex z).p = z.p ∧
    (lzIndex z).cand = z.cand ∧ (lzIndex z).win = z.win := by
  unfold lzIndex
  split <;> exact ⟨rfl, rfl, rfl, rfl, rfl⟩

theorem lzReceive_store {z : Lz} (b : Byte) (h : LzStore z) : LzStore (lzReceive b z) where
  received := by rw [lzReceive_s, lzReceive_r, List.length_append, h.received, List.length_singleton]
  window := by
    intro a ha hwin
    rw [lzReceive_r] at ha hwin
    have hread : lzByteAt (lzReceive b z) a =
        if z.r % Config.cWinSize = a % Config.cWinSize then b else lzByteAt z a :=
      winRead_winWrite _ _ _ h.win
    rw [hread, lzReceive_s, seqAt]
    obtain rfl | ha := Nat.eq_or_lt_of_le (Nat.le_of_lt_succ ha)
    · rw [if_pos rfl, ← h.received]
      simp
    · have hne : z.r % Config.cWinSize ≠ a % Config.cWinSize := by
        simp only [Config.cWinSize] at hwin ⊢
        omega
      rw [if_neg hne, h.window a ha (by omega), seqAt, List.getD_eq_getElem?_getD, List.getD_eq_getElem?_getD,
        List.getElem?_append_left (by rw [h.received]; exact ha)]
  win := wf_winWrite _ _ h.win
  winBelow := memBelow_memWrite h.winBelow (Nat.mod_lt _ (by decide))
  head := h.head
  headBelow := h.headBelow
  next := h.next
  nextBelow := h.nextBelow

theorem lzInsert_store {z : Lz} (q : Nat) (h : LzStore z) : LzStore (lzInsert q z) :=
  { h with
    head := wf_chainWrite _ _ h.head
    headBelow := memBelow_memWrite h.headBelow (Nat.mod_lt _ (by decide))
    next := wf_chainWrite _ _ h.next
    nextBelow := memBelow_memWrite h.nextBelow (Nat.mod_lt _ (by decide)) }

theorem lzIndex_store {z : Lz} (h : LzStore z) : LzStore (lzIndex z) := by
  unfold lzIndex
  split
  · exact lzInsert_store _ h
  · exact h

/-- LZ.H follows LZ.R (R161). -/
theorem lzIndex_h {z : Lz} (h : z.h = z.r - 1 - 2) : (lzIndex z).h = z.r - 2 := by
  by_cases h3 : Config.minMatch ≤ z.r
  · rw [lzIndex, if_pos h3]
    simp only [Config.minMatch, lzInsert] at h3 ⊢
    omega
  · rw [lzIndex, if_neg h3]
    simp only [Config.minMatch] at h3
    omega

theorem lzInv_of_run {flushing : Bool} {z : Lz} {r : List Token × Lz} (hrun : RunOk flushing z r) (hs : LzStore z)
    (hh : z.h = z.r - 2) : LzInv r.2 := by
  obtain ⟨hh', hr'⟩ := sameStore_frame hrun.store
  refine lzInv_of_parts (lzStore_of_same hrun.store hs) hrun.pending (by rw [hh', hr', hh]) ?_
  obtain heq | ⟨-, hf⟩ := hrun.stop
  · omega
  · exact heldBack_of_not_final hrun.pending hf

theorem lzByte_ok {z : Lz} (b : Byte) (h : LzInv z) : (∀ t ∈ (lzByte b z).1, inRange t) ∧ LzInv (lzByte b z).2 := by
  obtain ⟨-, hr, hp, hc, -⟩ := lzIndex_frame (lzReceive b z)
  have hstore : LzStore (candsArrive (lzIndex (lzReceive b z))) :=
    { lzIndex_store (lzReceive_store b (lzStore_of_inv h)) with }
  have hh : (lzIndex (lzReceive b z)).h = (lzReceive b z).r - 2 := lzIndex_h h.indexed
  have hrun := lzRun_ok false (candsArrive_pending (lzPending_of_inv h) hr hp hc)
  exact ⟨hrun.tokens, lzInv_of_run hrun hstore (by rw [candsArrive_h, candsArrive_r, hh, hr])⟩

/-- A flush commits everything (R178). -/
theorem lzFlush_ok {z : Lz} (h : LzInv z) :
    (∀ t ∈ (lzFlush z).1, inRange t) ∧ LzInv (lzFlush z).2 ∧ (lzFlush z).2.p = (lzFlush z).2.r := by
  have hrun := lzRun_ok true (lzPending_of_inv h)
  have hinv := lzInv_of_run hrun (lzStore_of_inv h) h.indexed
  have hpr : (lzRun true z).2.p = (lzRun true z).2.r := hrun.stop.resolve_right fun hf => nomatch hf.1
  refine ⟨hrun.tokens, { hinv with depth := List.length_replicate, cand := fun o c ho => ?_ }, hpr⟩
  obtain rfl : c = .empty := (List.mem_replicate.1 (List.mem_of_getElem? ho)).2
  show (lzRun true z).2.r < (lzRun true z).2.p + o + 3
  omega

end Sys2Proof.Proofs
end

