-- ==== Sys2Proof/Proofs/Compression.lean ====
section
/-! PROOFS. The invariant of a compression context: every accepted C_FEED keeps it, and every field it puts fits its
width (45_compress_driver.md R270 to R277). -/

namespace Sys2Proof.Proofs

open Sys2Proof.Machine Sys2Proof.Laws

/-! ## A context inside a feed -/

/-- What a context keeps from byte to byte of a feed, with `P` a property of its bit writer. -/
structure CuMid (P : BitWriter → Prop) (c : CuCtx) : Prop where
  lz : LzInv c.lz
  emit : EmitOk P c
  room : HasRoom c.sym

/-- The control registers of a context that has taken a feed. -/
structure Started (c : CuCtx) : Prop where
  first : c.first = false
  adler : adlerOk c.adler
  bare : c.mode = .bare → c.adler = 1

theorem started_of_control {c c' : CuCtx} (h : control c' = control c) (hs : Started c) : Started c' := by
  simp only [control, Prod.mk.injEq] at h
  obtain ⟨hmode, hfirst, -, -, hadler⟩ := h
  exact ⟨hfirst.trans hs.first, hadler ▸ hs.adler, fun hm => hadler.trans (hs.bare (hmode ▸ hm))⟩

section
variable {P : BitWriter → Prop} (hP : KeptByPut P)
include hP

theorem appendAll_mid {r : List Token × Lz} {c : CuCtx} (h : CuMid P c) (ht : ∀ t ∈ r.1, inRange t)
    (hz : LzInv r.2) : CuMid P (appendAll r c) where
  lz := (appends_frame r.1 { c with lz := r.2 }).1 ▸ hz
  emit := appends_emitOk hP (c := { c with lz := r.2 }) ⟨h.emit.bw, h.emit.sym⟩ ht
  room := appends_room (c := { c with lz := r.2 }) h.room

theorem cuByte_mid (b : Byte) {c : CuCtx} (h : CuMid P c) : CuMid P (cuByte c b) := by
  obtain ⟨ht, hz⟩ := lzByte_ok b h.lz
  exact appendAll_mid hP h ht hz

theorem cuBytes_mid (data : List Byte) {c : CuCtx} (h : CuMid P c) : CuMid P (data.foldl cuByte c) := by
  induction data generalizing c with
  | nil => exact h
  | cons b data ih => exact ih (cuByte_mid hP b h)

theorem cuFlush_mid {c : CuCtx} (h : CuMid P c) : CuMid P (cuFlush c) := by
  obtain ⟨ht, hz, -⟩ := lzFlush_ok h.lz
  exact appendAll_mid hP h ht hz

theorem drain_mid (last : Bool) {c : CuCtx} (h : CuMid P c) : CuMid P (drain last c) where
  lz := (drain_lz last c).symm ▸ h.lz
  emit := drain_emitOk hP last h.emit
  room := by rw [HasRoom, drain_n]; exact Nat.zero_le _

theorem cuHeader_bw {c : CuCtx} (h : P c.bw) : P (cuHeader c).bw := by
  unfold cuHeader
  split
  · cases c.mode with
    | bare => exact h
    | zlib => exact hP _ 8 _ (by decide) (hP _ 8 _ (by decide) h)
  · exact h

end

theorem appendAll_control (r : List Token × Lz) (c : CuCtx) : control (appendAll r c) = control c :=
  (appends_frame r.1 { c with lz := r.2 }).2

theorem cuBytes_control (data : List Byte) (c : CuCtx) : control (data.foldl cuByte c) = control c := by
  induction data generalizing c with
  | nil => rfl
  | cons b data ih => exact (ih _).trans (appendAll_control _ c)

theorem cuFlush_control (c : CuCtx) : control (cuFlush c) = control c := appendAll_control _ c

theorem cuFlush_committed {c : CuCtx} (h : LzInv c.lz) : (cuFlush c).lz.p = (cuFlush c).lz.r := by
  obtain ⟨-, -, hpr⟩ := lzFlush_ok h
  have hlz : (cuFlush c).lz = (lzFlush c.lz).2 := (appends_frame (lzFlush c.lz).1 { c with lz := (lzFlush c.lz).2 }).1
  rw [hlz, hpr]

/-- The header touches C.FIRST and the bit writer only (R272). -/
theorem cuHeader_frame (c : CuCtx) : cuHeader c = { c with first := false, bw := (cuHeader c).bw } := by
  unfold cuHeader
  split
  · split <;> rfl
  · next hf =>
    obtain ⟨mode, first, finished, lastBlock, adler, bw, lz, sym⟩ := c
    obtain rfl : first = false := Bool.eq_false_iff.2 hf
    rfl

/-! ## The common part of a feed -/

/-- What an accepted feed has made of the context `c` before `take`: C.FINISHED and C.LASTBLOCK are as before. -/
structure Fed (P : BitWriter → Prop) (c c' : CuCtx) : Prop where
  mid : CuMid P c'
  started : Started c'
  flags : c'.finished = c.finished ∧ c'.lastBlock = c.lastBlock

theorem feedCommon_fed {P : BitWriter → Prop} (hP : KeptByPut P) (data : List Byte) {c : CuCtx} (h : CuMid P c)
    (ha : adlerOk c.adler) (hb : c.mode = .bare → c.adler = 1) : Fed P c (feedCommon data c) := by
  have hbw := cuHeader_bw hP h.emit.bw
  unfold feedCommon
  rw [cuHeader_frame]
  generalize (cuHeader c).bw = bw at hbw ⊢
  dsimp only
  generalize hc1 : ({ c with first := false, bw := bw, adler := adlerInMode c.mode c.adler data } : CuCtx) = c1
  have hmid : CuMid P c1 := by
    subst hc1
    exact ⟨h.lz, ⟨hbw, h.emit.sym⟩, h.room⟩
  have hstarted : Started c1 := by
    subst hc1
    exact ⟨rfl, adlerInMode_ok c.mode ha data, fun hm => (adlerInMode_bare data hm).trans (hb hm)⟩
  have hflags : c1.finished = c.finished ∧ c1.lastBlock = c.lastBlock := by
    subst hc1
    exact ⟨rfl, rfl⟩
  have hcontrol := cuBytes_control data c1
  refine ⟨cuBytes_mid hP data hmid, started_of_control hcontrol hstarted, ?_⟩
  simp only [control, Prod.mk.injEq] at hcontrol
  obtain ⟨-, -, hfin, hlast, -⟩ := hcontrol
  exact ⟨hfin.trans hflags.1, hlast.trans hflags.2⟩

/-! ## SYNC and FINISH -/

theorem cuSync_fed {P : BitWriter → Prop} (hP : KeptByPut P) {c c' : CuCtx} (h : Fed P c c') : Fed P c (cuSync c') := by
  have hcontrol : control (cuSync c') = control c' := (drain_control false _).trans (cuFlush_control c')
  have hmid := drain_mid hP false (cuFlush_mid hP h.mid)
  refine ⟨⟨hmid.lz, ⟨emitStoredEmpty_keeps hP hmid.emit.bw, hmid.emit.sym⟩, hmid.room⟩,
    started_of_control hcontrol h.started, ?_⟩
  simp only [control, Prod.mk.injEq] at hcontrol
  obtain ⟨-, -, hfin, hlast, -⟩ := hcontrol
  exact ⟨hfin.trans h.flags.1, hlast.trans h.flags.2⟩

/-- The last block leaves the ring empty (R276). -/
theorem cuLastBlock_mid {P : BitWriter → Prop} (hP : KeptByPut P) {c : CuCtx} (h : CuMid P c) :
    CuMid P (cuLastBlock c) := by
  unfold cuLastBlock
  split
  · exact drain_mid hP true h
  · exact ⟨h.lz, ⟨emitStaticEmpty_keeps hP true h.emit.bw, h.emit.sym⟩, h.room⟩

theorem cuLastBlock_frame (c : CuCtx) : (cuLastBlock c).lz = c.lz ∧ control (cuLastBlock c) = control c := by
  unfold cuLastBlock
  split
  · exact ⟨drain_lz true c, drain_control true c⟩
  · exact ⟨rfl, rfl⟩

theorem cuLastBlock_n (c : CuCtx) : (cuLastBlock c).sym.n = 0 := by
  unfold cuLastBlock
  split
  · exact drain_n true c
  · next h => exact Nat.eq_zero_of_not_pos h

theorem put_n (v n : Nat) (w : BitWriter) : (put v n w).n = (w.n + n) % 8 := by
  obtain ⟨-, -, -, hn⟩ := put_spec v n w
  exact hn

theorem alignWriter_n {w : BitWriter} (h : w.n ≤ 7) : (alignWriter w).n = 0 := by
  unfold alignWriter
  split
  · assumption
  · rw [put_n]
    omega

/-- The trailer appends to the output of the bit writer only, and whole bytes to an aligned one. -/
theorem cuTrailer_frame (c : CuCtx) : cuTrailer c = { c with bw := (cuTrailer c).bw } := by
  unfold cuTrailer
  split <;> rfl

theorem cuTrailer_n {c : CuCtx} (h : c.bw.n = 0) : (cuTrailer c).bw.n = 0 := by
  unfold cuTrailer
  split
  · exact h
  · simp only [put_n, h]

theorem byteOf_lt (a : Word32) (i : Nat) : byteOf a i < 2 ^ 8 := Nat.mod_lt _ (by decide)

theorem cuTrailer_bw {P : BitWriter → Prop} (hP : KeptByPut P) {c : CuCtx} (h : P c.bw) : P (cuTrailer c).bw := by
  unfold cuTrailer
  split
  · exact h
  · exact hP _ 8 _ (byteOf_lt _ 0) (hP _ 8 _ (byteOf_lt _ 1) (hP _ 8 _ (byteOf_lt _ 2) (hP _ 8 _ (byteOf_lt _ 3) h)))

/-- FINISH ends with whole bytes put and both flags set; the rest is as its last block leaves it. -/
theorem cuFinish_eq (c : CuCtx) : cuFinish c =
    { cuLastBlock (setCLastBlock (cuFlush c)) with finished := true, bw := (cuFinish c).bw } := by
  unfold cuFinish
  dsimp only
  rw [cuTrailer_frame]
  rfl

theorem cuFinish_bw_n {c : CuCtx} (h : (cuLastBlock (setCLastBlock (cuFlush c))).bw.n ≤ 7) : (cuFinish c).bw.n = 0 :=
  cuTrailer_n (c := { cuLastBlock (setCLastBlock (cuFlush c)) with bw := _ }) (alignWriter_n h)

/-! ## What an accepted feed leaves -/

/-- What every accepted feed makes of a context before `take`. -/
structure Accepted (P : BitWriter → Prop) (c : CuCtx) : Prop where
  mid : CuMid P c
  started : Started c
  flags : c.lastBlock = c.finished

/-- Nothing is pending: what holds of a finished context. -/
def AllOut (c : CuCtx) : Prop := c.lz.p = c.lz.r ∧ c.sym.n = 0 ∧ c.bw.n = 0

theorem accepted_of_fed {P : BitWriter → Prop} {c c' : CuCtx} (h : Fed P c c') (hflags : c.lastBlock = c.finished) :
    Accepted P c' := ⟨h.mid, h.started, h.flags.2.trans (hflags.trans h.flags.1.symm)⟩

theorem cuLastBlock_setCLastBlock_mid {P : BitWriter → Prop} (hP : KeptByPut P) {c : CuCtx} (h : CuMid P c) :
    CuMid P (cuLastBlock (setCLastBlock (cuFlush c))) := by
  have hflush := cuFlush_mid hP h
  exact cuLastBlock_mid hP ⟨hflush.lz, ⟨hflush.emit.bw, hflush.emit.sym⟩, hflush.room⟩

theorem cuFinish_accepted {P : BitWriter → Prop} (hP : KeptByPut P) {c : CuCtx} (h : CuMid P c) (hs : Started c) :
    Accepted P (cuFinish c) := by
  have hblock := cuLastBlock_setCLastBlock_mid hP h
  have hflush : Started (cuFlush c) := started_of_control (cuFlush_control c) hs
  obtain ⟨-, hcontrol⟩ := cuLastBlock_frame (setCLastBlock (cuFlush c))
  have hstarted := started_of_control hcontrol { hflush with }
  have hbw : P (cuFinish c).bw :=
    cuTrailer_bw hP (c := { cuLastBlock (setCLastBlock (cuFlush c)) with bw := _ })
      (alignWriter_keeps hP hblock.emit.bw)
  simp only [control, Prod.mk.injEq] at hcontrol
  obtain ⟨-, -, -, hlast, -⟩ := hcontrol
  rw [cuFinish_eq]
  exact ⟨⟨hblock.lz, ⟨hbw, hblock.emit.sym⟩, hblock.room⟩, { hstarted with }, hlast⟩

/-- FINISH leaves nothing pending (R276). -/
theorem cuFinish_allOut {c : CuCtx} (h : CuMid (·.n ≤ 7) c) : AllOut (cuFinish c) := by
  have hn := cuFinish_bw_n (cuLastBlock_setCLastBlock_mid n_le_keptByPut h).emit.bw
  rw [cuFinish_eq]
  refine ⟨?_, cuLastBlock_n _, hn⟩
  dsimp only
  rw [(cuLastBlock_frame _).1]
  exact cuFlush_committed h.lz

/-- The accepted parts of the three C_FEEDs (R274 to R276). -/
def IsFeed (f : CuCtx → CuCtx) : Prop :=
  ∃ data, f = feedCommon data ∨ f = (fun c => cuSync (feedCommon data c)) ∨ f = fun c => cuFinish (feedCommon data c)

theorem exec_of_feed {i : Instr} {data : List Byte}
    (h : i = .cFeedNone data ∨ i = .cFeedSync data ∨ i = .cFeedFinish data) :
    ∃ f, IsFeed f ∧ ∀ s, exec i s = cuFeed f s := by
  obtain rfl | rfl | rfl := h
  · exact ⟨_, ⟨data, .inl rfl⟩, fun _ => rfl⟩
  · exact ⟨_, ⟨data, .inr (.inl rfl)⟩, fun _ => rfl⟩
  · exact ⟨_, ⟨data, .inr (.inr rfl)⟩, fun _ => rfl⟩

theorem cuMid_of_inv {P : BitWriter → Prop} {c : CuCtx} (h : CuInv c) (hbw : P c.bw) : CuMid P c where
  lz := h.lz
  emit := ⟨hbw, h.symStart, h.slots, h.ring, h.ringBelow⟩
  room := h.symN

section
variable {f : CuCtx → CuCtx} {c : CuCtx} (hf : IsFeed f) (h : CuInv c)
include hf h

theorem feed_accepted {P : BitWriter → Prop} (hP : KeptByPut P) (hbw : P c.bw) : Accepted P (f c) := by
  obtain ⟨data, hf⟩ := hf
  have hfed := feedCommon_fed hP data (cuMid_of_inv h hbw) h.adler h.bare
  obtain rfl | rfl | rfl := hf
  · exact accepted_of_fed hfed h.flags
  · exact accepted_of_fed (cuSync_fed hP hfed) h.flags
  · exact cuFinish_accepted hP hfed.mid hfed.started

theorem feed_allOut (hfin : c.finished = false) : (f c).finished = true → AllOut (f c) := by
  obtain ⟨data, hf⟩ := hf
  have hfed := feedCommon_fed n_le_keptByPut data (cuMid_of_inv h h.bwN) h.adler h.bare
  have unfinished : ∀ {c'}, Fed (·.n ≤ 7) c c' → c'.finished = true → AllOut c' := fun hc' ht => by
    rw [hc'.flags.1, hfin] at ht
    cases ht
  obtain rfl | rfl | rfl := hf
  · exact unfinished hfed
  · exact unfinished (cuSync_fed n_le_keptByPut hfed)
  · exact fun _ => cuFinish_allOut hfed.mid

/-- `take` hands BW.OUT over and leaves a context that meets the invariant. -/
theorem feed_inv (hfin : c.finished = false) : CuInv { f c with bw := { (f c).bw with out := [] } } := by
  obtain ⟨hmid, hstarted, hflags⟩ := feed_accepted hf h n_le_keptByPut h.bwN
  exact
    { fresh := fun ht => nomatch hstarted.first.symm.trans ht
      flags := hflags
      done := feed_allOut hf h hfin
      adler := hstarted.adler
      bare := hstarted.bare
      bwN := hmid.emit.bw
      bwOut := rfl
      lz := hmid.lz
      symStart := hmid.emit.sym.start
      symN := hmid.room
      slots := hmid.emit.sym.slots
      ring := hmid.emit.sym.ring
      ringBelow := hmid.emit.sym.below }

theorem feed_ok (hbw : c.bw.ok) : (f c).bw.ok := (feed_accepted hf h ok_keptByPut hbw).mid.emit.bw

end

/-! ## The base case -/

theorem lzInv_fresh : LzInv Lz.fresh where
  received := rfl
  committed := Nat.le_refl _
  heldBack := Nat.zero_le _
  indexed := rfl
  depth := rfl
  cand := fun o c ho => by
    obtain rfl : c = .empty := (List.mem_replicate.1 (List.mem_of_getElem? ho)).2
    exact Nat.lt_of_lt_of_le (by decide) (Nat.le_add_left Config.minMatch _)
  window := nofun
  win := rfl
  winBelow := rfl
  head := rfl
  headBelow := rfl
  next := rfl
  nextBelow := rfl

/-- A constructed context (R270). -/
theorem cuInv_fresh (m : Mode) : CuInv (CuCtx.fresh m) where
  fresh := fun _ => rfl
  flags := rfl
  done := nofun
  adler := adlerOk_one
  bare := fun _ => rfl
  bwN := Nat.zero_le _
  bwOut := rfl
  lz := lzInv_fresh
  symStart := Nat.two_pow_pos 16
  symN := Nat.zero_le _
  slots := nofun
  ring := rfl
  ringBelow := rfl

theorem bitWriter_fresh_ok : BitWriter.fresh.ok := ⟨Nat.zero_le _, Nat.one_pos⟩

end Sys2Proof.Proofs
end

