-- ==== Sys2Proof/Proofs/MachineInvariant.lean ====
section
/-! PROOFS. The invariant of the machine and the clean bit accumulator, from the halves of the two units
(10_state.md R20 to R45). -/

namespace Sys2Proof.Proofs

open Sys2Proof.Machine Sys2Proof.Laws

/-! ## The CU's half -/

section
variable {Q : CuCtx → Prop} (hfresh : ∀ m, Q (CuCtx.fresh m))
  (hfeed : ∀ f c, IsFeed f → c.finished = false → Q c → Q { f c with bw := { (f c).bw with out := [] } })
include hfresh hfeed

/-- What every constructed context has and every accepted feed keeps, every instruction keeps. -/
theorem exec_keepsCu {i : Instr} {s t : State} (h : ∀ c, s.cu = some c → Q c) (he : exec i s = .next t) :
    ∀ c, t.cu = some c → Q c := by
  cases hp : portOf i with
  | du => rwa [(exec_du_independent hp he none).1]
  | cu =>
    obtain ⟨a, ha⟩ | ⟨p, hr⟩ | hn | ⟨data, hc⟩ | ⟨data, rfl⟩ | rfl := instr_kinds i
    · cases (portOf_of_elementAlphabet ha).symm.trans hp
    · obtain rfl := Host.Outcome.next.inj ((exec_of_reservedCommand hr s).symm.trans he)
      cases p <;> exact h
    · obtain rfl | rfl | rfl | rfl | rfl | rfl := hn
      · obtain rfl := Host.Outcome.next.inj he
        intro c hc
        cases hc
        exact hfresh .bare
      · obtain rfl := Host.Outcome.next.inj he
        intro c hc
        cases hc
        exact hfresh .zlib
      · obtain rfl := Host.Outcome.next.inj he
        intro c hc
        cases hc
      all_goals cases hp
    · obtain ⟨f, hf, hx⟩ := exec_of_feed hc
      rw [hx] at he
      obtain ⟨c, hc, hfin, hacc⟩ | ⟨-, href⟩ := cuFeed_spec f s
      · obtain rfl := Host.Outcome.next.inj (hacc.symm.trans he)
        intro c' hc'
        cases hc'
        exact hfeed f c hf hfin (h c hc)
      · obtain rfl := Host.Outcome.next.inj (href.symm.trans he)
        exact h
    · cases hp
    · cases hp

theorem step_keepsCu {s t : State} (h : ∀ c, s.cu = some c → Q c) (hstep : step s = .next t) :
    ∀ c, t.cu = some c → Q c := by
  obtain ⟨-, rfl⟩ | ⟨p, w, data, rest, -, he⟩ | ⟨rest, -, rfl | ⟨d, -, -, rfl | ⟨a, e, -, -, hx⟩⟩⟩ := step_cases hstep
  · exact h
  · exact exec_keepsCu hfresh hfeed (s := { s with inbox := rest }) h he
  · exact h
  · rwa [settle_cu]
  · exact exec_keepsCu hfresh hfeed (s := { s with inbox := rest, du := some (eat e.codeBits d) }) h hx

end

/-! ## The statements -/

/-- Settles O59: the invariant of each unit's context is kept apart from the other's. -/
theorem everyStepKeepsTheInvariant : Obligations.EveryStepKeepsTheInvariant := by
  unfold Obligations.EveryStepKeepsTheInvariant
  rintro s t ⟨hcu, hdu⟩ hstep
  exact ⟨step_keepsCu cuInv_fresh (fun f c hf hfin h => feed_inv hf h hfin) hcu hstep, step_duHalf hdu hstep⟩

/-- Settles O60, with the invariant of the context, which keeps the buffered slots legal, carried along. -/
theorem bitAccumulatorStaysClean : Obligations.BitAccumulatorStaysClean := by
  unfold Obligations.BitAccumulatorStaysClean
  intro s t hinv hclean hstep c hc
  exact (step_keepsCu (Q := fun c => CuInv c ∧ c.bw.ok) (fun m => ⟨cuInv_fresh m, bitWriter_fresh_ok⟩)
    (fun f c hf hfin h => ⟨feed_inv hf h.1 hfin, feed_ok hf h.1 h.2⟩)
    (fun c hc => ⟨hinv.1 c hc, hclean c hc⟩) hstep c hc).2

end Sys2Proof.Proofs
end

