-- ==== Sys2Proof/Proofs/CanonicalCodes.lean ====
section
/-! PROOFS. The canonical codes are prefix-free, and a lookup in a prefix-free table reads back every code written
(42_huffman.md R196, R200, R203, 40_bitio.md R142). -/

namespace Sys2Proof.Proofs

open Sys2Proof.Laws

/-! ## Reversed bits -/

theorem revBits_succ_top (n c : Nat) : revBits (n + 1) c = 2 * revBits n c + c / 2 ^ n % 2 := by
  induction n generalizing c with
  | zero => simp [revBits]
  | succ n ih =>
    rw [revBits, ih, revBits, Nat.div_div_eq_div_mul, ← Nat.pow_succ', Nat.pow_succ]
    ring

/-- Reversing twice gives the number back. -/
theorem revBits_revBits {n c : Nat} (h : c < 2 ^ n) : revBits n (revBits n c) = c := by
  induction n generalizing c with
  | zero => simp only [Nat.pow_zero, Nat.lt_one_iff] at h; simp [revBits, h]
  | succ n ih =>
    have hlow := revBits_lt n (c / 2)
    have hc : c / 2 < 2 ^ n := by rw [Nat.pow_succ] at h; omega
    have hrev : revBits (n + 1) c = 2 ^ n * (c % 2) + revBits n (c / 2) := by rw [revBits, Nat.mul_comm]
    have hdiv : revBits (n + 1) c / 2 ^ n = c % 2 := by
      rw [hrev, Nat.mul_add_div (Nat.two_pow_pos n), Nat.div_eq_of_lt hlow, Nat.add_zero]
    have hmod : revBits (n + 1) c % 2 ^ n = revBits n (c / 2) := by
      rw [hrev, Nat.mul_add_mod, Nat.mod_eq_of_lt hlow]
    rw [revBits_succ_top, ← revBits_mod, hmod, ih hc, hdiv]
    omega

/-! ## The codes of a vector of lengths -/

/-- A symbol's canonical code: the first code of its length, plus the number of earlier symbols of that length
(42_huffman.md R196). -/
theorem code_of_mem_assignCodes {lens next : List Nat} {s : Nat} {c : Code} (hl : ∀ l ∈ lens, l < next.length)
    (h : c ∈ assignCodes lens next s) : c.code = next.getD c.len 0 + (lens.take (c.sym - s)).count c.len := by
  induction lens generalizing next s with
  | nil => simp [assignCodes] at h
  | cons l ls ih =>
    obtain ⟨hlt, hls⟩ := List.forall_mem_cons.1 hl
    have step : ∀ {next'}, next'.length = next.length → c ∈ assignCodes ls next' (s + 1) →
        c.code = next'.getD c.len 0 + (ls.take (c.sym - (s + 1))).count c.len ∧
          (l :: ls).take (c.sym - s) = l :: ls.take (c.sym - (s + 1)) := fun {next'} hlen h => by
      refine ⟨ih (fun l hm => by rw [hlen]; exact hls l hm) h, ?_⟩
      rw [show c.sym - s = c.sym - (s + 1) + 1 by have := (mem_assignCodes h).1; omega, List.take_succ_cons]
    rw [assignCodes] at h
    split at h
    · next h0 =>
      obtain ⟨hcode, htake⟩ := step rfl h
      rw [hcode, htake, List.count_cons_of_ne (by have := (mem_assignCodes h).2.1; omega)]
    · rcases List.mem_cons.1 h with rfl | h
      · simp
      · obtain ⟨hcode, htake⟩ := step List.length_set h
        rw [hcode, htake, List.count_cons]
        by_cases he : l = c.len
        · subst he
          simp [List.getD_eq_getElem?_getD, hlt, Nat.add_assoc, Nat.add_comm 1]
        · simp [List.getD_eq_getElem?_getD, he]

theorem firstCodesFrom_length (c : Nat) (ks : List Nat) : (firstCodesFrom c ks).length = ks.length := by
  induction ks generalizing c with
  | nil => rfl
  | cons k ks ih => simp [firstCodesFrom, ih]

theorem firstCodes_length (lens : List Nat) : (firstCodes lens).length = 16 := by
  simp [firstCodes, firstCodesFrom_length, lengthCounts]

theorem firstCodesFrom_getD {c i : Nat} {ks : List Nat} (h : i < ks.length) :
    (firstCodesFrom c ks).getD i 0 = ((c :: firstCodesFrom c ks).getD i 0 + ks.getD i 0) * 2 := by
  induction ks generalizing c i with
  | nil => cases h
  | cons k ks ih =>
    cases i with
    | zero => rfl
    | succ i => exact ih (Nat.lt_of_succ_lt_succ h)

/-- The recurrence of `canon` (R196): the codes of the next length begin behind those of this one. -/
theorem firstCodes_succ (lens : List Nat) {l : Nat} (h1 : 1 ≤ l) (h : l < 15) :
    (firstCodes lens).getD (l + 1) 0 = ((firstCodes lens).getD l 0 + lens.count l) * 2 := by
  have hcount : ((lengthCounts lens).take 15).getD l 0 = lens.count l := by
    simp [lengthCounts, List.getD_eq_getElem?_getD, h, Nat.ne_of_gt h1]
  rw [firstCodes, ← hcount]
  exact firstCodesFrom_getD (by simpa [lengthCounts] using h)

/-- Every longer code lies behind all codes of length `l`, read as prefixes of its length. -/
theorem firstCodes_add (lens : List Nat) {l : Nat} (h1 : 1 ≤ l) (k : Nat) (h : l + k < 15) :
    ((firstCodes lens).getD l 0 + lens.count l) * 2 ^ (k + 1) ≤ (firstCodes lens).getD (l + k + 1) 0 := by
  induction k with
  | zero => exact (firstCodes_succ lens h1 h).ge
  | succ k ih =>
    rw [firstCodes_succ lens (l := l + (k + 1)) (by omega) h, Nat.pow_succ, ← Nat.mul_assoc]
    exact Nat.mul_le_mul_right 2 (Nat.le_add_right_of_le (ih (by omega)))

theorem count_take_lt {lens : List Nat} {s n l : Nat} (h : lens[s]? = some l) (hn : s < n) :
    (lens.take s).count l < (lens.take n).count l := by
  have hsucc : (lens.take (s + 1)).count l = (lens.take s).count l + 1 := by simp [List.take_add_one, h]
  have hle : (lens.take (s + 1)).count l ≤ (lens.take n).count l := (List.take_sublist_take_left hn).count_le l
  omega

theorem exists_mem_assignCodes {lens next : List Nat} {s k l : Nat} (h : lens[k]? = some l) (hl : l ≠ 0) :
    ∃ c ∈ assignCodes lens next s, c.sym = s + k := by
  induction lens generalizing next s k with
  | nil => simp at h
  | cons l' ls ih =>
    rw [assignCodes]
    cases k with
    | zero =>
      obtain rfl : l' = l := by simpa using h
      rw [if_neg hl]
      exact ⟨_, List.mem_cons_self, rfl⟩
    | succ k =>
      split
      · obtain ⟨c, hc, hs⟩ := ih (next := next) (s := s + 1) h
        exact ⟨c, hc, by omega⟩
      · obtain ⟨c, hc, hs⟩ := ih (next := next.set l' (next.getD l' 0 + 1)) (s := s + 1) h
        exact ⟨c, List.mem_cons_of_mem _ hc, by omega⟩

/-- A symbol with a non-zero length has a code (R200). -/
theorem exists_mem_codes {lens : List Nat} {s l : Nat} (h : lens[s]? = some l) (hl : l ≠ 0) :
    ∃ c ∈ codes lens, c.sym = s := by
  obtain ⟨c, hc, hs⟩ := exists_mem_assignCodes (next := firstCodes lens) (s := 0) h hl
  exact ⟨c, hc, by omega⟩

/-- The code of a symbol of the table: the first of its length, plus the number of earlier symbols of that length. -/
theorem code_of_mem_codes {lens : List Nat} (hl : ∀ l ∈ lens, l ≤ 15) {c : Code} (h : c ∈ codes lens) :
    c.code = (firstCodes lens).getD c.len 0 + (lens.take c.sym).count c.len :=
  code_of_mem_assignCodes (fun l hm => by rw [firstCodes_length]; exact Nat.lt_succ_of_le (hl l hm)) h

/-! ## Prefix-freedom -/

/-- No code of the table begins another one. -/
def PrefixFree (t : Table) : Prop :=
  ∀ c ∈ t, ∀ c' ∈ t, c.len ≤ c'.len → c'.code / 2 ^ (c'.len - c.len) = c.code → c = c'

section
variable {lens : List Nat} (hl : ∀ l ∈ lens, l ≤ 15) {c c' : Code} (hc : c ∈ codes lens) (hc' : c' ∈ codes lens)
include hl hc hc'

/-- The codes of one length are counted up, so that two symbols never share one. -/
theorem eq_of_len_eq_of_code_eq (hlen : c'.len = c.len) (hcode : c'.code = c.code) : c = c' := by
  have hsym := (mem_codes hc).2
  have hsym' := (mem_codes hc').2
  have hcount : (lens.take c'.sym).count c.len = (lens.take c.sym).count c.len := by
    have h := code_of_mem_codes hl hc
    have h' := code_of_mem_codes hl hc'
    rw [hlen] at h'
    omega
  rw [hlen] at hsym'
  have heq : c.sym = c'.sym := by
    rcases Nat.lt_trichotomy c.sym c'.sym with h | h | h
    · exact absurd hcount (count_take_lt hsym h).ne'
    · exact h
    · exact absurd hcount (count_take_lt hsym' h).ne
  cases c
  cases c'
  simp_all

/-- The codes of a longer length begin behind all those of a shorter one. -/
theorem code_lt_of_len_lt (hlen : c.len < c'.len) : c.code < c'.code / 2 ^ (c'.len - c.len) := by
  obtain ⟨hpos, hsym⟩ := mem_codes hc
  have h15 := hl _ (List.mem_of_getElem? (mem_codes hc').2)
  obtain ⟨k, hk⟩ : ∃ k, c'.len = c.len + k + 1 := ⟨c'.len - c.len - 1, by omega⟩
  have hcount : (lens.take c.sym).count c.len < lens.count c.len := by
    simpa using count_take_lt hsym (List.getElem?_eq_some_iff.1 hsym).1
  calc c.code < (firstCodes lens).getD c.len 0 + lens.count c.len := by
        rw [code_of_mem_codes hl hc]; exact Nat.add_lt_add_left hcount _
    _ ≤ c'.code / 2 ^ (k + 1) := by
        rw [Nat.le_div_iff_mul_le (Nat.two_pow_pos _), code_of_mem_codes hl hc', hk]
        exact Nat.le_add_right_of_le (firstCodes_add lens (Nat.pos_of_ne_zero hpos) k (by omega))
    _ = c'.code / 2 ^ (c'.len - c.len) := by rw [show c'.len - c.len = k + 1 by omega]

end

theorem prefixFree_codes {lens : List Nat} (hl : ∀ l ∈ lens, l ≤ 15) : PrefixFree (codes lens) := by
  intro c hc c' hc' hle hpre
  rcases hle.eq_or_lt with hlen | hlen
  · rw [hlen, Nat.sub_self, Nat.pow_zero, Nat.div_one] at hpre
    exact eq_of_len_eq_of_code_eq hl hc hc' hlen.symm hpre
  · exact absurd hpre (code_lt_of_len_lt hl hc hc' hlen).ne'

/-! ## Reading a code back -/

/-- A table whose every code can be read back: prefix-free, of 1 to 15 bits, each value within its length. -/
structure Readable (t : Table) : Prop where
  prefixFree : PrefixFree t
  len_pos : ∀ c ∈ t, 1 ≤ c.len
  len_le : ∀ c ∈ t, c.len ≤ 15
  code_lt : ∀ c ∈ t, c.code < 2 ^ c.len

theorem readable_codes {lens : List Nat} (hl : ∀ l ∈ lens, l ≤ 15) (hlt : ∀ c ∈ codes lens, c.code < 2 ^ c.len) :
    Readable (codes lens) where
  prefixFree := prefixFree_codes hl
  len_pos _ hc := Nat.pos_of_ne_zero (mem_codes hc).1
  len_le _ hc := hl _ (List.mem_of_getElem? (mem_codes hc).2)
  code_lt := hlt

/-- The code that stands first in the bits is found at its own length: a shorter one found before would begin it. -/
theorem lookupFrom_of_mem {t : Table} {c : Code} {bits k l : Nat} (ht : PrefixFree t) (hc : c ∈ t)
    (hb : revBits c.len bits = c.code) (hl : l ≤ c.len) (hk : c.len < l + k) :
    lookupFrom t bits k l = some (c.sym, c.len) := by
  induction k generalizing l with
  | zero => omega
  | succ k ih =>
    rw [lookupFrom]
    split
    · next c' hc' =>
      have hp := List.find?_some hc'
      simp only [Bool.and_eq_true, beq_iff_eq] at hp
      obtain ⟨rfl, hcode⟩ := hp
      have hpre : c.code / 2 ^ (c.len - c'.len) = c'.code := by
        rw [← hb, hcode, ← revBits_add_div c'.len (c.len - c'.len), Nat.add_sub_cancel' hl]
      rw [ht c' (List.mem_of_find?_eq_some hc') c hc hl hpre]
    · next hnone =>
      have hne : l ≠ c.len := by
        rintro rfl
        simpa [hb] using List.find?_eq_none.1 hnone c hc
      exact ih (by omega) (by omega)

theorem lookup_of_mem {t : Table} {c : Code} {bits nbits : Nat} (ht : Readable t) (hc : c ∈ t)
    (hb : revBits c.len bits = c.code) (hn : c.len ≤ nbits) : lookup t bits nbits = .sym c.sym c.len := by
  have h15 := ht.len_le c hc
  rw [lookup, lookupFrom_of_mem ht.prefixFree hc hb (ht.len_pos c hc) (by omega)]

end Sys2Proof.Proofs
end

