-- ==== Sys2Proof/Proofs/Encoding.lean ====
section
/-! PROOFS. The encoder and the decoder agree: every command word, every block header, and every symbol with its extra
field in a readable table; and the decoder keeps every operand in range (30_encoding.md R102 to R111, R131). -/

namespace Sys2Proof.Proofs

open Sys2Proof.Machine Sys2Proof.Laws

/-! ## Commands -/

/-- The encoder gives every command word back, on its port (30_encoding.md R131); a C_FEED and a D_FEED keep their
bytes. -/
theorem commandOf_decodeCommand (p : Port) (word : BitVec 4) (data : List Byte) : ∃ data',
    commandOf (decodeCommand p word data) = some (p, word, data') ∧
      (word.toNat = 4 → data' = data) ∧ (p = .cu → 4 ≤ word.toNat → word.toNat ≤ 7 → data' = data) := by
  obtain ⟨⟨n, hn⟩⟩ := word
  cases p
  all_goals
    interval_cases n
    all_goals exact ⟨_, rfl, by simp, by simp⟩

/-- The decoder gives every command back. -/
theorem decodeCommand_of_commandOf {i : Instr} {p : Port} {word : BitVec 4} {data : List Byte}
    (h : commandOf i = some (p, word, data)) : decodeCommand p word data = i := by
  cases i <;> cases h <;> rfl

theorem encode_of_commandOf {i : Instr} {p : Port} {word : BitVec 4} {data : List Byte} (w : WireTables)
    (h : commandOf i = some (p, word, data)) : encode w i = some (.command p word data) := by
  rw [encode, h]

/-- Settles O3: the words of a decoded command are those it was decoded from. -/
theorem everyCommandWordIsAnInstruction : Obligations.EveryCommandWordIsAnInstruction := by
  unfold Obligations.EveryCommandWordIsAnInstruction
  intro p word data
  obtain ⟨data', hc, hkept⟩ := commandOf_decodeCommand p word data
  exact ⟨data', encode_of_commandOf staticTables hc, hkept⟩

/-! ## Wire elements and their symbols -/

/-- Every instruction that is no command is a wire element. -/
theorem encode_of_wire {i : Instr} (w : WireTables) (h : commandOf i = none) :
    ∃ e, wireOf i = some e ∧ encode w i = encodeWire w e := by
  cases i <;> cases h <;> exact ⟨_, rfl, rfl⟩

/-- A wire element spells the instruction: its fields are in range and the decoder's tables give the instruction for
them. -/
def Spells (i : Instr) : Wire → Prop
  | .blockHeader f t => t < 4 ∧ blockInstr f t = i
  | .litLen s x => x < 2 ^ extraBitsOf .litLen s ∧ symbolInstr .litLen s x = some i
  | .dist s x => x < 2 ^ extraBitsOf .distance s ∧ symbolInstr .distance s x = some i
  | .codeLen s x => x < 2 ^ extraBitsOf .codeLength s ∧ symbolInstr .codeLength s x = some i

theorem litLenInstr_low {b : Byte} (h : b.toNat ≤ 143) : litLenInstr b.toNat 0 = some (.lit0To143 b) := by
  unfold litLenInstr
  rw [if_pos (by omega), BitVec.ofNat_toNat, BitVec.setWidth_eq]

theorem litLenInstr_high {b : Byte} (h : 144 ≤ b.toNat) : litLenInstr b.toNat 0 = some (.lit144To255 b) := by
  unfold litLenInstr
  rw [if_neg (by omega), if_pos b.isLt, BitVec.ofNat_toNat, BitVec.setWidth_eq]

theorem codeLenInstr_low {v : Nat} (h : v ≤ 15) : codeLenInstr v 0 = some (.cl0To15 v) := by
  unfold codeLenInstr
  rw [if_pos (by omega)]

/-- The fields of a well-formed wire element spell it (R106, R108, R109). -/
theorem spells_of_wireOf {i : Instr} {e : Wire} (hwf : i.wf = true) (h : wireOf i = some e) : Spells i e := by
  cases i <;> cases h
  case lit0To143 b => exact ⟨Nat.two_pow_pos _, litLenInstr_low (of_decide_eq_true hwf)⟩
  case lit144To255 b => exact ⟨Nat.two_pow_pos _, litLenInstr_high (of_decide_eq_true hwf)⟩
  case cl0To15 v => exact ⟨Nat.two_pow_pos _, codeLenInstr_low (of_decide_eq_true hwf)⟩
  all_goals exact ⟨by simp_all [Instr.wf, extraBitsOf, lenExtra, distExtra], rfl⟩

/-! ## A symbol's words -/

theorem encodeSymbol_of_mem {t : Table} {s : Nat} (h : ∃ c ∈ t, c.sym = s) (x e : Nat) :
    ∃ p, encodeSymbol t s x e = some p := by
  obtain ⟨c, hc, hs⟩ := h
  obtain ⟨c', hc'⟩ := Option.isSome_iff_exists.1
    (List.find?_isSome.2 ⟨c, hc, beq_iff_eq.2 hs⟩ : (t.find? fun c => c.sym == s).isSome = true)
  exact ⟨_, by rw [encodeSymbol, hc']⟩

/-- The words of a symbol are the bits of its code and then its extra field (20_memory.md R71, R72). -/
theorem encodeSymbol_some {t : Table} {s x e : Nat} {p : Nat × Nat} (h : encodeSymbol t s x e = some p) :
    ∃ c ∈ t, c.sym = s ∧ p = (revBits c.len c.code + 2 ^ c.len * x, c.len + e) := by
  unfold encodeSymbol at h
  split at h
  · next c hc =>
    cases h
    exact ⟨c, List.mem_of_find?_eq_some hc, by simpa using List.find?_some hc, by rw [Nat.mul_comm]⟩
  · cases h

/-- The element of the symbol that the lookup finds, with the extra field behind its code (R106, R107). -/
theorem decodeElement_of_lookup {a : Alphabet} {t : Table} {bits nbits s l : Nat} {i : Instr} (ha : a ≠ .blockHeader)
    (h : lookup t bits nbits = .sym s l) (hn : l + extraBitsOf a s ≤ nbits)
    (hi : symbolInstr a s (bits / 2 ^ l % 2 ^ extraBitsOf a s) = some i) :
    decodeElement a t bits nbits = .ok ⟨i, l, extraBitsOf a s⟩ := by
  have hsym : decodeSymbol a s l bits nbits = .ok ⟨i, l, extraBitsOf a s⟩ := by
    rw [decodeSymbol, if_neg (Nat.not_lt.2 hn), hi]
  cases a with
  | blockHeader => exact absurd rfl ha
  | _ => simp only [decodeElement, h, hsym]

theorem decodeWords_of_element {w : WireTables} {a : Alphabet} {bits nbits : Nat} {e : Decoded}
    (h : decodeElement a (w.of a) bits nbits = .ok e) (hn : e.codeBits + e.extraBits = nbits) :
    decodeWords w (.element a bits nbits) = .ok e.instr := by
  rw [decodeWords, h]
  exact if_pos hn

/-- In a readable table the words of a symbol with a field in range decode to that symbol and field. -/
theorem decodeWords_encodeSymbol {w : WireTables} {a : Alphabet} {s x : Nat} {i : Instr} {p : Nat × Nat}
    (ha : a ≠ .blockHeader) (ht : Readable (w.of a)) (hx : x < 2 ^ extraBitsOf a s)
    (hi : symbolInstr a s x = some i) (h : encodeSymbol (w.of a) s x (extraBitsOf a s) = some p) :
    decodeWords w (.element a p.1 p.2) = .ok i := by
  obtain ⟨c, hc, rfl, rfl⟩ := encodeSymbol_some h
  have hlow : revBits c.len c.code < 2 ^ c.len := revBits_lt c.len c.code
  have hcode : revBits c.len (revBits c.len c.code + 2 ^ c.len * x) = c.code := by
    rw [← revBits_mod, Nat.add_mul_mod_self_left, revBits_mod, revBits_revBits (ht.code_lt c hc)]
  have hfield : (revBits c.len c.code + 2 ^ c.len * x) / 2 ^ c.len % 2 ^ extraBitsOf a c.sym = x := by
    rw [Nat.add_mul_div_left _ _ (Nat.two_pow_pos c.len), Nat.div_eq_of_lt hlow, Nat.zero_add, Nat.mod_eq_of_lt hx]
  exact decodeWords_of_element (decodeElement_of_lookup ha
    (lookup_of_mem ht hc hcode (Nat.le_add_right _ _)) (Nat.le_refl _) (by rw [hfield]; exact hi)) rfl

/-- The three bits of a block header decode to it (R102). -/
theorem decodeWords_blockHeader (w : WireTables) (f : Bool) {t : Nat} :
    decodeWords w (.element .blockHeader (f.toNat + 2 * t) 3) = .ok (blockInstr f t) := by
  have hflag : ((f.toNat + 2 * t) % 2 == 1) = f := by cases f <;> simp
  have htype : (f.toNat + 2 * t) / 2 = t := by have := Bool.toNat_lt f; omega
  refine decodeWords_of_element (e := ⟨blockInstr f t, 3, 0⟩) ?_ rfl
  rw [decodeElement, if_neg (Nat.lt_irrefl 3), hflag, htype]

/-! ## The static codes -/

theorem staticLitLenLengths_bounds : ∀ l ∈ staticLitLenLengths, l ≠ 0 ∧ l ≤ 15 := by
  simp [staticLitLenLengths, -List.reduceReplicate]

theorem staticDistLengths_bounds : ∀ l ∈ staticDistLengths, l ≠ 0 ∧ l ≤ 15 := by
  simp [staticDistLengths, -List.reduceReplicate]

theorem readable_staticLitLen : Readable staticLitLen :=
  readable_codes (fun l hl => (staticLitLenLengths_bounds l hl).2) (by decide +kernel)

theorem readable_staticDist : Readable staticDist :=
  readable_codes (fun l hl => (staticDistLengths_bounds l hl).2) (by decide +kernel)

/-- Where all lengths are non-zero every symbol has a code. -/
theorem exists_mem_codes_of_ne_zero {lens : List Nat} (h : ∀ l ∈ lens, l ≠ 0) {s : Nat} (hs : s < lens.length) :
    ∃ c ∈ codes lens, c.sym = s :=
  exists_mem_codes (List.getElem?_eq_getElem hs) (h _ (List.getElem_mem hs))

/-- Each of the 288 literal/length symbols has a static code (R110). -/
theorem exists_mem_staticLitLen {s : Nat} (hs : s < 288) : ∃ c ∈ staticLitLen, c.sym = s :=
  exists_mem_codes_of_ne_zero (fun l hl => (staticLitLenLengths_bounds l hl).1)
    (by simpa [staticLitLenLengths, -List.reduceReplicate] using hs)

/-- Each of the 32 distance symbols has a static code (R111). -/
theorem exists_mem_staticDist {s : Nat} (hs : s < 32) : ∃ c ∈ staticDist, c.sym = s :=
  exists_mem_codes_of_ne_zero (fun l hl => (staticDistLengths_bounds l hl).1)
    (by simpa [staticDistLengths, -List.reduceReplicate] using hs)

/-- The static alphabets end with symbol 287 and 31 (R110, R111). -/
theorem lt_of_litLenInstr {s x : Nat} {i : Instr} (h : litLenInstr s x = some i) : s < 288 := by
  by_contra hs
  unfold litLenInstr at h
  rw [if_neg (by omega), if_neg (by omega)] at h
  split at h
  iterate 32 omega
  cases h

theorem lt_of_distInstr {s x : Nat} {i : Instr} (h : distInstr s x = some i) : s < 32 := by
  by_contra hs
  unfold distInstr at h
  split at h
  iterate 32 omega
  cases h

/-- Every element with a static code has words and reads back. -/
theorem encodeWire_static {i : Instr} {e : Wire} (h : Spells i e) (hcl : ∀ s x, e ≠ .codeLen s x) :
    ∃ words, encodeWire staticTables e = some words ∧ decodeWords staticTables words = .ok i := by
  cases e with
  | blockHeader f t =>
    obtain ⟨-, rfl⟩ := h
    exact ⟨_, rfl, decodeWords_blockHeader staticTables f⟩
  | litLen s x =>
    obtain ⟨hx, hi⟩ := h
    obtain ⟨p, hp⟩ := encodeSymbol_of_mem (exists_mem_staticLitLen (lt_of_litLenInstr hi)) x (extraBitsOf .litLen s)
    exact ⟨.element .litLen p.1 p.2, by rw [encodeWire, staticTables, hp]; rfl,
      decodeWords_encodeSymbol (by decide) readable_staticLitLen hx hi hp⟩
  | dist s x =>
    obtain ⟨hx, hi⟩ := h
    obtain ⟨p, hp⟩ := encodeSymbol_of_mem (exists_mem_staticDist (lt_of_distInstr hi)) x (extraBitsOf .distance s)
    exact ⟨.element .distance p.1 p.2, by rw [encodeWire, staticTables, hp]; rfl,
      decodeWords_encodeSymbol (by decide) readable_staticDist hx hi hp⟩
  | codeLen s x => exact absurd rfl (hcl s x)

/-- Settles O4: a command by its word, an element by its symbol's static code and extra field. -/
theorem staticEncodeDecode : Obligations.StaticEncodeDecode := by
  unfold Obligations.StaticEncodeDecode
  intro i hwf hcl
  cases hc : commandOf i with
  | some c =>
    obtain ⟨p, word, data⟩ := c
    exact ⟨_, encode_of_commandOf staticTables hc, congrArg Except.ok (decodeCommand_of_commandOf hc)⟩
  | none =>
    obtain ⟨e, he, henc⟩ := encode_of_wire staticTables hc
    rw [henc]
    exact encodeWire_static (spells_of_wireOf hwf he) fun s x h => hcl s x (h ▸ he)

/-- Settles O2: each sample's lookup is computed, and its symbol and extra field name the instruction. -/
theorem sampleWordsDecode : Obligations.SampleWordsDecode := by
  unfold Obligations.SampleWordsDecode
  exact ⟨rfl, rfl, rfl,
    decodeElement_of_lookup (s := 97) (by decide) (by decide +kernel) (by decide) rfl,
    decodeElement_of_lookup (s := 265) (by decide) (by decide +kernel) (by decide) rfl,
    decodeElement_of_lookup (s := 4) (by decide) (by decide +kernel) (by decide) rfl,
    decodeElement_of_lookup (s := 1) (by decide) (by decide +kernel) (by decide) rfl,
    decodeElement_of_lookup (s := 18) (by decide) (by decide +kernel) (by decide) rfl⟩

/-! ## The decoder keeps operands in range -/

theorem decodeCommand_wf (p : Port) (word : BitVec 4) (data : List Byte) :
    (decodeCommand p word data).wf = true := by
  cases p
  · unfold decodeCommand decodeCu
    dsimp only
    split <;> rfl
  · unfold decodeCommand decodeDu
    dsimp only
    split <;> rfl

theorem blockInstr_wf (f : Bool) (t : Nat) : (blockInstr f t).wf = true := by
  unfold blockInstr
  repeat' split
  all_goals rfl

theorem litLenInstr_wf {s x : Nat} {i : Instr} (h : litLenInstr s x = some i) (hx : x < 2 ^ extraBitsOf .litLen s) :
    i.wf = true := by
  unfold litLenInstr at h
  split at h
  · cases h
    simp only [Instr.wf, BitVec.toNat_ofNat, decide_eq_true_eq]
    omega
  · split at h
    · cases h
      simp only [Instr.wf, BitVec.toNat_ofNat, decide_eq_true_eq]
      omega
    · split at h <;> cases h
      iterate 9 rfl
      iterate 20 exact decide_eq_true hx
      iterate 3 rfl

theorem distInstr_wf {s x : Nat} {i : Instr} (h : distInstr s x = some i) (hx : x < 2 ^ extraBitsOf .distance s) :
    i.wf = true := by
  unfold distInstr at h
  split at h <;> cases h
  iterate 4 rfl
  iterate 26 exact decide_eq_true hx
  iterate 2 rfl

theorem codeLenInstr_wf {s x : Nat} {i : Instr} (h : codeLenInstr s x = some i)
    (hx : x < 2 ^ extraBitsOf .codeLength s) : i.wf = true := by
  unfold codeLenInstr at h
  split at h
  · cases h
    exact decide_eq_true (by omega)
  · split at h <;> cases h
    all_goals exact decide_eq_true hx

/-- A decoded symbol with a field of its width is well-formed (R106, R108, R109). -/
theorem symbolInstr_wf {a : Alphabet} {s x : Nat} {i : Instr} (h : symbolInstr a s x = some i)
    (hx : x < 2 ^ extraBitsOf a s) : i.wf = true := by
  cases a with
  | blockHeader => cases h
  | litLen => exact litLenInstr_wf h hx
  | distance => exact distInstr_wf h hx
  | codeLength => exact codeLenInstr_wf h hx

theorem decodeSymbol_wf {a : Alphabet} {s l bits nbits : Nat} {e : Decoded}
    (h : decodeSymbol a s l bits nbits = .ok e) : e.instr.wf = true := by
  unfold decodeSymbol at h
  split at h
  · cases h
  · split at h
    · next hi =>
      cases h
      exact symbolInstr_wf hi (Nat.mod_lt _ (Nat.two_pow_pos _))
    · cases h

theorem decodeElement_wf {a : Alphabet} {t : Table} {bits nbits : Nat} {e : Decoded}
    (h : decodeElement a t bits nbits = .ok e) : e.instr.wf = true := by
  unfold decodeElement at h
  split at h
  · split at h
    · cases h
    · cases h
      exact blockInstr_wf _ _
  · split at h
    · exact decodeSymbol_wf h
    · cases h
    · cases h

/-- Settles O6: a command carries any bytes, and an element's operand is its symbol's or a field of its width. -/
theorem decodedInstructionsAreWellFormed : Obligations.DecodedInstructionsAreWellFormed := by
  unfold Obligations.DecodedInstructionsAreWellFormed
  intro w words i h
  cases words with
  | command p word data =>
    cases h
    exact decodeCommand_wf p word data
  | element a bits nbits =>
    rw [decodeWords] at h
    split at h
    · next he =>
      split at h
      · cases h
        exact decodeElement_wf he
      · cases h
    · cases h

end Sys2Proof.Proofs
end

