-- ==== Sys2Proof/Proofs/ElementScope.lean ====
section
/-! PROOFS. Where a wire element runs (30_encoding.md R116, 46_decompress.md R301). -/

namespace Sys2Proof.Proofs

open Sys2Proof.Machine Sys2Proof.Laws

theorem onElement_of_no_context {a : Alphabet} {f : DuCtx → Stepped} {s : State} (h : s.du = none) :
    onElement a f s = .refused .elementWithoutContext := by
  rw [onElement, h]

theorem onElement_of_error {a : Alphabet} {f : DuCtx → Stepped} {s : State} {d : DuCtx} (hd : s.du = some d)
    (he : d.err ≠ .ok) : onElement a f s = .refused .elementAfterError := by
  simp [onElement, hd, he]

theorem onElement_of_not_expected {a : Alphabet} {f : DuCtx → Stepped} {s : State} {d : DuCtx} (hd : s.du = some d)
    (hok : d.err = .ok) (ha : expected d ≠ some a) : onElement a f s = .refused .elementNotExpected := by
  simp [onElement, hd, hok, ha]

/-- Settles O28: every wire element runs through `onElement`, whose cases are the clauses. -/
theorem elementsRunWhereTheAutomatonDecodesThem : Obligations.ElementsRunWhereTheAutomatonDecodesThem := by
  unfold Obligations.ElementsRunWhereTheAutomatonDecodesThem
  intro i a s hi
  obtain ⟨f, hf⟩ := exec_of_elementAlphabet hi
  rw [hf]
  exact ⟨onElement_of_no_context, fun _ hd he => onElement_of_error hd he,
    fun _ hd hok ha => onElement_of_not_expected hd hok ha,
    fun d ⟨hd, hok, ha⟩ => ⟨_, onElement_next.2 ⟨d, hd, hok, ha, rfl⟩⟩⟩

end Sys2Proof.Proofs
end

