-- ==== Sys2Proof/Proofs/PackedSlots.lean ====
section
/-! PROOFS. The packed form of a slot, and that unpacking undoes it exactly on the legal slots (30_encoding.md R132,
10_state.md R43). -/

namespace Sys2Proof.Proofs

open Sys2Proof.Machine Sys2Proof.Laws

/-! ## The operands of a legal slot fit their fields -/

theorem litLen_lt_of_legal {s : Nat} (h : (Slot.litLen s).legal = true) : s < 512 := by
  simp only [Slot.legal, Bool.and_eq_true, decide_eq_true_eq] at h
  omega

theorem dist_lt_of_legal {s : Nat} (h : (Slot.dist s).legal = true) : s < 512 := by
  simp only [Slot.legal, decide_eq_true_eq] at h
  omega

theorem codeLen_lt_of_legal {s : Nat} (h : (Slot.codeLen s).legal = true) : s < 512 := by
  simp only [Slot.legal, decide_eq_true_eq] at h
  omega

theorem extra_lt_of_legal {n v : Nat} (h : (Slot.extra n v).legal = true) : n < 16 ∧ v < 2 ^ 16 := by
  simp only [Slot.legal, Bool.and_eq_true, decide_eq_true_eq] at h
  obtain ⟨⟨-, hn⟩, hv⟩ := h
  exact ⟨by omega, hv.trans_le (Nat.pow_le_pow_right two_pos (by omega))⟩

/-! ## The packed word as a number -/

theorem packSlot_litLen_toNat {s : Nat} (h : s < 512) : (packSlot (.litLen s)).toNat = s :=
  (BitVec.toNat_ofNat _ _).trans (Nat.mod_eq_of_lt (by omega))

theorem packSlot_dist_toNat {s : Nat} (h : s < 512) : (packSlot (.dist s)).toNat = 2 ^ 30 + s :=
  (BitVec.toNat_ofNat _ _).trans (Nat.mod_eq_of_lt (by omega))

theorem packSlot_codeLen_toNat {s : Nat} (h : s < 512) : (packSlot (.codeLen s)).toNat = 3 * 2 ^ 30 + s :=
  (BitVec.toNat_ofNat _ _).trans (Nat.mod_eq_of_lt (by omega))

theorem packSlot_extra_toNat {n v : Nat} (hn : n < 16) (hv : v < 2 ^ 16) :
    (packSlot (.extra n v)).toNat = 2 * 2 ^ 30 + n * 2 ^ 26 + v :=
  (BitVec.toNat_ofNat _ _).trans (Nat.mod_eq_of_lt (by omega))

/-! ## Unpacking -/

/-- What the fields of a packed word spell, legal or not: the slot `unpackSlot` tests. -/
def fieldsSlot (w : Word32) : Slot :=
  if w.toNat / 2 ^ 30 = 0 then .litLen (w.toNat % 512)
  else if w.toNat / 2 ^ 30 = 1 then .dist (w.toNat % 512)
  else if w.toNat / 2 ^ 30 = 2 then .extra (w.toNat / 2 ^ 26 % 16) (w.toNat % 2 ^ 16)
  else .codeLen (w.toNat % 512)

theorem unpackSlot_eq_some {w : Word32} {x : Slot} :
    unpackSlot w = some x ↔ (x.legal = true ∧ packSlot x = w) ∧ fieldsSlot w = x := by
  have hdef : unpackSlot w =
      if (fieldsSlot w).legal = true ∧ packSlot (fieldsSlot w) = w then some (fieldsSlot w) else none := rfl
  rw [hdef, Option.ite_none_right_eq_some, Option.some.injEq]
  constructor <;> rintro ⟨h, rfl⟩ <;> exact ⟨h, rfl⟩

/-- The fields of a legal slot's packed word spell the slot. -/
theorem fieldsSlot_packSlot {x : Slot} (h : x.legal = true) : fieldsSlot (packSlot x) = x := by
  unfold fieldsSlot
  cases x with
  | litLen s =>
    have hs := litLen_lt_of_legal h
    rw [packSlot_litLen_toNat hs, if_pos (by omega), Nat.mod_eq_of_lt hs]
  | dist s =>
    have hs := dist_lt_of_legal h
    rw [packSlot_dist_toNat hs, if_neg (by omega), if_pos (by omega), show (2 ^ 30 + s) % 512 = s by omega]
  | extra n v =>
    obtain ⟨hn, hv⟩ := extra_lt_of_legal h
    rw [packSlot_extra_toNat hn hv, if_neg (by omega), if_neg (by omega), if_pos (by omega),
      show (2 * 2 ^ 30 + n * 2 ^ 26 + v) / 2 ^ 26 % 16 = n by omega,
      show (2 * 2 ^ 30 + n * 2 ^ 26 + v) % 2 ^ 16 = v by omega]
  | codeLen s =>
    have hs := codeLen_lt_of_legal h
    rw [packSlot_codeLen_toNat hs, if_neg (by omega), if_neg (by omega), if_neg (by omega),
      show (3 * 2 ^ 30 + s) % 512 = s by omega]

/-- Settles O55, by the kind of the slot. -/
theorem packedSlots : Obligations.PackedSlots := by
  unfold Obligations.PackedSlots
  refine ⟨fun w x => ?_, fun s h => ?_, fun s h => ?_, fun n v h => ?_, fun s h => ?_⟩
  · rw [unpackSlot_eq_some]
    refine ⟨fun h => h.1, ?_⟩
    rintro ⟨h, rfl⟩
    exact ⟨⟨h, rfl⟩, fieldsSlot_packSlot h⟩
  · have hs := litLen_lt_of_legal h
    exact ⟨packSlot_litLen_toNat hs, hs⟩
  · have hs := dist_lt_of_legal h
    exact ⟨packSlot_dist_toNat hs, hs⟩
  · obtain ⟨hn, hv⟩ := extra_lt_of_legal h
    exact ⟨packSlot_extra_toNat hn hv, hn, hv⟩
  · have hs := codeLen_lt_of_legal h
    exact ⟨packSlot_codeLen_toNat hs, hs⟩

end Sys2Proof.Proofs
end

