-- ==== Sys2Proof/Proofs/BitStreams.lean ====
section
/-! PROOFS. The bitstreams behind the two bit accumulators: what the writer's operations append, and what the reader's
operations move and consume (40_bitio.md R141, R142, R144 to R148). -/

namespace Sys2Proof.Proofs

open Sys2Proof.Machine Sys2Proof.Laws

/-! ## Fields in stream order -/

@[simp] theorem bitsOf_length (n v : Nat) : (bitsOf n v).length = n := by
  induction n generalizing v with
  | zero => rfl
  | succ n ih => rw [bitsOf, List.length_cons, ih]

theorem bitsOf_zero_right (n : Nat) : bitsOf n 0 = List.replicate n false := by
  induction n with
  | zero => rfl
  | succ n ih => rw [bitsOf, Nat.zero_div, ih]; rfl

/-- A field is its low bits, then the rest of it. -/
theorem bitsOf_add (m n v : Nat) : bitsOf (m + n) v = bitsOf m v ++ bitsOf n (v / 2 ^ m) := by
  induction m generalizing v with
  | zero => rw [Nat.zero_add, Nat.pow_zero, Nat.div_one]; rfl
  | succ m ih => rw [Nat.add_right_comm, bitsOf, ih, bitsOf, Nat.pow_succ', ← Nat.div_div_eq_div_mul, List.cons_append]

/-- `bitsOf n` looks at the low `n` bits only. -/
theorem bitsOf_mod (n v : Nat) : bitsOf n (v % 2 ^ n) = bitsOf n v := by
  induction n generalizing v with
  | zero => rfl
  | succ n ih => rw [bitsOf, bitsOf, Nat.pow_succ', Nat.mod_mul_right_mod, Nat.mod_mul_right_div_self, ih]

/-- A number put together from two fields, the first one in its low bits. -/
theorem bitsOf_concat {m a : Nat} (ha : a < 2 ^ m) (n v : Nat) :
    bitsOf (m + n) (a + 2 ^ m * v) = bitsOf m a ++ bitsOf n v := by
  rw [bitsOf_add, ← bitsOf_mod m, Nat.add_mul_mod_self_left, bitsOf_mod, Nat.add_mul_div_left _ _ (Nat.two_pow_pos m),
    Nat.div_eq_of_lt ha, Nat.zero_add]

theorem bitsOf_revBits (n c : Nat) : bitsOf n (revBits n c) = (bitsOf n c).reverse := by
  induction n generalizing c with
  | zero => rfl
  | succ n ih =>
    rw [revBits, Nat.add_comm (c % 2 * 2 ^ n), Nat.mul_comm, bitsOf_concat (revBits_lt n _), ih]
    simp [bitsOf]

theorem byteBits_append (l l' : List Byte) : byteBits (l ++ l') = byteBits l ++ byteBits l' := List.flatMap_append

theorem byteBits_cons (b : Byte) (l : List Byte) : byteBits (b :: l) = bitsOf 8 b.toNat ++ byteBits l :=
  List.flatMap_cons

/-- An accumulator of `m` bits and the field of `n` bits set above them, with room for both (10_state.md R24, R28). -/
theorem bitsOf_orShift {a x : AccWord} {m n : Nat} (ha : a.toNat < 2 ^ m) (hx : x.toNat < 2 ^ n) (hmn : m + n ≤ 32) :
    bitsOf (m + n) (a ||| (x <<< m)).toNat = bitsOf m a.toNat ++ bitsOf n x.toNat := by
  have hroom : 2 ^ m * x.toNat < 2 ^ 32 :=
    calc 2 ^ m * x.toNat < 2 ^ m * 2 ^ n := Nat.mul_lt_mul_of_pos_left hx (Nat.two_pow_pos m)
      _ = 2 ^ (m + n) := (Nat.pow_add ..).symm
      _ ≤ 2 ^ 32 := Nat.pow_le_pow_right (by decide) hmn
  have hsum : (a ||| (x <<< m)).toNat = a.toNat + 2 ^ m * x.toNat := by
    rw [BitVec.toNat_or, BitVec.toNat_shiftLeft, Nat.shiftLeft_eq, Nat.mul_comm, Nat.mod_eq_of_lt hroom, Nat.or_comm,
      ← Nat.two_pow_add_eq_or_of_lt ha, Nat.add_comm]
  rw [hsum, bitsOf_concat ha]

/-- The low bits of an accumulator, and what a shift leaves of it. -/
theorem bitsOf_append_ushiftRight (a : AccWord) (m n : Nat) :
    bitsOf m a.toNat ++ bitsOf n (a >>> m).toNat = bitsOf (m + n) a.toNat := by
  rw [BitVec.toNat_ushiftRight, Nat.shiftRight_eq_div_pow, bitsOf_add]

/-! ## Bit writer -/

/-- A whole byte that leaves the accumulator stays in the stream. -/
theorem spillBytes_bits {k : Nat} {w : BitWriter} (h : 8 * k ≤ w.n) : (spillBytes k w).bits = w.bits := by
  induction k generalizing w with
  | zero => rfl
  | succ k ih =>
    have hbyte : bitsOf 8 (w.acc.setWidth 8).toNat = bitsOf 8 w.acc.toNat := by rw [BitVec.toNat_setWidth, bitsOf_mod]
    calc (spillBytes (k + 1) w).bits
        = byteBits (w.out ++ [w.acc.setWidth 8]) ++ bitsOf (w.n - 8) (w.acc >>> 8).toNat :=
          ih (w := ⟨w.acc >>> 8, w.n - 8, w.out ++ [w.acc.setWidth 8]⟩) (by dsimp only; omega)
      _ = byteBits w.out ++ (bitsOf 8 w.acc.toNat ++ bitsOf (w.n - 8) (w.acc >>> 8).toNat) := by
          rw [byteBits_append, byteBits_cons, hbyte]
          simp [byteBits]
      _ = w.bits := by rw [bitsOf_append_ushiftRight, Nat.add_sub_cancel' (by omega), BitWriter.bits]

/-- `w'` is a clean writer that has put what `w` has, and then `bs`. -/
structure Appends (bs : List Bool) (w w' : BitWriter) : Prop where
  ok : w'.ok
  bits : w'.bits = w.bits ++ bs

theorem Appends.refl {w : BitWriter} (h : w.ok) : Appends [] w w := ⟨h, (List.append_nil _).symm⟩

theorem Appends.trans {bs bs' : List Bool} {w w' w'' : BitWriter} (h : Appends bs w w') (h' : Appends bs' w' w'') :
    Appends (bs ++ bs') w w'' := ⟨h'.ok, by rw [h'.bits, h.bits, List.append_assoc]⟩

theorem put_appends {w : BitWriter} {v n : Nat} (hw : w.ok) (hn : n ≤ 16) (hv : v < 2 ^ n) :
    Appends (bitsOf n v) w (put v n w) := by
  refine ⟨ok_keptByPut v n w hv hw, ?_⟩
  obtain ⟨hwn, hacc⟩ := hw
  have hval : (BitVec.ofNat 32 v).toNat = v :=
    Nat.mod_eq_of_lt (Nat.lt_of_lt_of_le hv (Nat.pow_le_pow_right (by decide) (by omega)))
  rw [put, spillBytes_bits (by dsimp only; omega), BitWriter.bits, bitsOf_orShift hacc (by rwa [hval]) (by omega), hval,
    ← List.append_assoc, BitWriter.bits]

theorem putCode_appends {w : BitWriter} {n : Nat} (c : Nat) (hw : w.ok) (hn : n ≤ 15) :
    Appends (bitsOf n c).reverse w (putCode c n w) := by
  rw [← bitsOf_revBits]
  exact put_appends hw (Nat.le_succ_of_le hn) (revBits_lt n c)

theorem alignWriter_appends {w : BitWriter} (hw : w.ok) :
    Appends (List.replicate ((8 - w.n) % 8) false) w (alignWriter w) := by
  have hn := hw.1
  unfold alignWriter
  split
  · next h0 =>
    rw [h0]
    exact .refl hw
  · next h0 =>
    rw [Nat.mod_eq_of_lt (by omega), ← bitsOf_zero_right]
    exact put_appends hw (by omega) (Nat.two_pow_pos _)

/-- Without buffered bits a clean accumulator is empty. -/
theorem acc_eq_zero_of_n {w : BitWriter} (hw : w.ok) (h : w.n = 0) : w.acc = 0 := by
  have hacc := hw.2
  rw [h] at hacc
  exact BitVec.eq_of_toNat_eq (Nat.lt_one_iff.1 hacc)

/-- A loop appends what its rounds append, one after the other. -/
theorem foldl_appends {α : Type} {f : BitWriter → α → BitWriter} {g : α → List Bool} {l : List α}
    (h : ∀ x ∈ l, ∀ w : BitWriter, w.ok → Appends (g x) w (f w x)) {w : BitWriter} (hw : w.ok) :
    Appends (l.flatMap g) w (l.foldl f w) := by
  induction l generalizing w with
  | nil => exact .refl hw
  | cons x l ih =>
    have hx := h x List.mem_cons_self w hw
    exact hx.trans (ih (fun y hy => h y (List.mem_cons_of_mem x hy)) hx.ok)

/-- Settles O46: the accumulator is the buffered bits with the field above them, and a byte that leaves it stays in the
stream. -/
theorem putAppendsTheField : Obligations.PutAppendsTheField := by
  unfold Obligations.PutAppendsTheField
  intro w v n hw hn hv
  have h := put_appends hw hn hv
  obtain ⟨bytes, hout, -, hmod⟩ := put_spec v n w
  exact ⟨h.bits, h.ok, hmod, bytes, hout⟩

/-! ## Bit reader -/

/-- Moving bytes into D.BITS changes no upcoming bit, and D.BITS holds exactly D.NBITS bits again (40_bitio.md R144). -/
theorem refill_upcoming {d : DuCtx} (inp : List Byte) (h : d.bits.toNat < 2 ^ d.nbits) :
    (refill d inp).1.upcoming (refill d inp).2 = d.upcoming inp ∧
      (refill d inp).1.bits.toNat < 2 ^ (refill d inp).1.nbits := by
  induction inp generalizing d with
  | nil => exact ⟨rfl, h⟩
  | cons b rest ih =>
    rw [refill]
    split
    · next hn =>
      have hn : d.nbits < 24 := hn
      have hval : (b.setWidth Config.accW).toNat = b.toNat := BitVec.toNat_setWidth_of_le (by decide)
      obtain ⟨hup, hclean⟩ := ih (d := { d with
        bits := d.bits ||| (b.setWidth Config.accW <<< d.nbits), nbits := d.nbits + 8 }) (orByte_lt b h)
      refine ⟨hup.trans ?_, hclean⟩
      rw [DuCtx.upcoming, DuCtx.upcoming, byteBits_cons, bitsOf_orShift h (hval ▸ b.isLt) (by omega), hval,
        List.append_assoc]
    · exact ⟨rfl, h⟩

/-- The upcoming bits are what `peek` reads, then what `eat` leaves (40_bitio.md R145, R146). -/
theorem upcoming_eq_peek_append_eat {d : DuCtx} {n : Nat} (hn : n ≤ d.nbits) (inp : List Byte) :
    d.upcoming inp = bitsOf n (peek n d) ++ (eat n d).upcoming inp := by
  rw [DuCtx.upcoming, DuCtx.upcoming, peek, bitsOf_mod, eat, ← List.append_assoc, bitsOf_append_ushiftRight,
    Nat.add_sub_cancel' hn]

theorem eat_upcoming {d : DuCtx} {n : Nat} (hn : n ≤ d.nbits) (inp : List Byte) :
    (eat n d).upcoming inp = (d.upcoming inp).drop n := by
  rw [upcoming_eq_peek_append_eat hn, List.drop_left' (bitsOf_length ..)]

/-- Settles O48: a byte set above the buffered bits is the next byte of the input. -/
theorem refillMovesWholeBytes : Obligations.RefillMovesWholeBytes := by
  unfold Obligations.RefillMovesWholeBytes
  intro d inp hn hbits
  obtain ⟨taken, b, hinp, heq, hstop, hmoved⟩ := refill_spec d inp
  obtain ⟨hup, hclean⟩ := refill_upcoming inp hbits
  rw [heq] at hup hclean
  have hnone : 24 ≤ d.nbits → taken = [] := fun h24 => by
    by_contra hne
    have := hmoved hne
    have := List.length_pos_iff.2 hne
    omega
  refine ⟨taken, (refill d inp).2, b, _, hinp, Prod.ext heq rfl, rfl, ?_, hclean, hstop, hnone, hup⟩
  by_cases ht : taken = []
  · simpa [ht] using hn
  · exact hmoved ht

/-- Settles O49: the upcoming bits are the bits read, then the bits left. -/
theorem peekAndEat : Obligations.PeekAndEat := by
  unfold Obligations.PeekAndEat
  refine ⟨fun d inp n hn _ => ⟨?_, peek_lt n d, eat_upcoming hn inp, rfl⟩, fun d inp _ => ⟨?_, ?_⟩⟩
  · rw [upcoming_eq_peek_append_eat hn, List.take_left' (bitsOf_length ..)]
  · exact eat_upcoming (Nat.mod_le ..) inp
  · have hleft : (alignReader d).nbits = d.nbits - d.nbits % 8 := rfl
    omega

end Sys2Proof.Proofs
end

