-- ==== Sys2Proof/Proofs/DynamicBlockBits.lean ====
section
/-! PROOFS. A dynamic block bit for bit (44_block_emit.md R240, R246, R247, R250): its counts and code lengths are
within their fields, so every field put is appended. -/

namespace Sys2Proof.Proofs

open Sys2Proof.Machine Sys2Proof.Laws

/-! ## The code lengths of a block's tables -/

theorem bump_length (f : List Nat) (i : Nat) : (bump f i).length = f.length := List.length_set

theorem foldl_length {α : Type} {g : List Nat → α → List Nat} (hg : ∀ f x, (g f x).length = f.length) (l : List α)
    (f : List Nat) : (l.foldl g f).length = f.length := by
  induction l generalizing f with
  | nil => rfl
  | cons x l ih => exact (ih _).trans (hg f x)

theorem countLL_length (b : List Slot) : (countLL b).length = Config.nLL := by
  refine (bump_length _ _).trans ((foldl_length (fun f x => ?_) b _).trans List.length_replicate)
  cases x with
  | litLen s => exact bump_length f s
  | _ => rfl

theorem countD_length (b : List Slot) : (countD b).length = Config.nDist := by
  refine (foldl_length (fun f x => ?_) b _).trans List.length_replicate
  cases x with
  | dist s => exact bump_length f s
  | _ => rfl

theorem huffLimited_main_le {f : List Nat} (hf : f.length ≤ Config.nLL) :
    ∀ l ∈ huffLimited f Config.limitMain, l ≤ Config.limitMain :=
  huffLimited_le (by decide) (by decide) (Nat.lt_of_le_of_lt (Nat.le_trans (activeCount_le f) hf) (by decide))

/-- No code of the table is longer than `putcode` takes (40_bitio.md R142). -/
def ShortCodes (t : Table) : Prop := ∀ c ∈ t, c.len ≤ 15

theorem shortCodes_nil : ShortCodes [] := nofun

theorem shortCodes_codes {lens : List Nat} (h : ∀ l ∈ lens, l ≤ 15) : ShortCodes (codes lens) :=
  fun _ hc => h _ (List.mem_of_getElem? (mem_codes hc).2)

theorem codeOf_len_le {t : Table} (ht : ShortCodes t) (s : Nat) : (codeOf t s).2 ≤ 15 := by
  unfold codeOf
  split
  · next c hc => exact ht c (List.mem_of_find?_eq_some hc)
  · exact Nat.zero_le 15

/-- The tables of a block hold no code longer than 15 bits (42_huffman.md R195). -/
structure TablesShort (t : DynTables) : Prop where
  ll : ShortCodes (codes t.llLens)
  d : ShortCodes (codes t.dLens)
  cl : ShortCodes (codes t.clLens)

theorem buildTables_short (b : List Slot) : TablesShort (buildTables b) where
  ll := shortCodes_codes (huffLimited_main_le (Nat.le_of_eq (countLL_length b)))
  d := shortCodes_codes (huffLimited_main_le (Nat.le_trans (Nat.le_of_eq (countD_length b)) (by decide)))
  cl := shortCodes_codes fun l hl => Nat.le_trans ((buildTables_fits b).clLens l hl) (by decide)

theorem le_trimCount {low : Nat} (at_ : Nat → Nat) {n : Nat} (h : low ≤ n) : low ≤ trimCount low at_ n := by
  induction n with
  | zero => exact h
  | succ n ih =>
    rw [trimCount]
    split
    · next hlow => exact ih (Nat.le_of_lt_succ hlow.1)
    · exact h

/-- `trim` keeps the counts at their least values, where the header's fields read 0 (44_block_emit.md R243, R246). -/
structure CountsLeast (t : DynTables) : Prop where
  nlit : 257 ≤ t.nlit
  ndist : 1 ≤ t.ndist
  nclen : 4 ≤ t.nclen

theorem buildTables_least (b : List Slot) : CountsLeast (buildTables b) := by
  unfold buildTables
  refine ⟨?_, ?_, ?_⟩ <;> dsimp only <;> exact le_trimCount _ (by decide)

/-! ## The run-length coded lengths -/

@[simp] theorem extraBits_codeLen (s : Nat) : (Slot.codeLen s).extraBits = 0 := rfl
@[simp] theorem extraBits_extra (n v : Nat) : (Slot.extra n v).extraBits = n := rfl

theorem rleZeros_width (fuel k : Nat) : ∀ x ∈ rleZeros fuel k, x.extraBits ≤ 16 := by
  induction fuel generalizing k with
  | zero => exact nofun
  | succ fuel ih =>
    rw [rleZeros]
    split_ifs with h0 h11 h3
    · exact nofun
    · simpa using ih _
    · simp
    · simpa using ih _

theorem rleSame_width (v fuel k : Nat) : ∀ x ∈ rleSame v fuel k, x.extraBits ≤ 16 := by
  induction fuel generalizing k with
  | zero => exact nofun
  | succ fuel ih =>
    rw [rleSame]
    split_ifs with h0 h3
    · exact nofun
    · simpa using ih _
    · simpa using ih _

theorem rle_width (q : List Nat) : ∀ x ∈ rle q, x.extraBits ≤ 16 := by
  intro x hx
  obtain ⟨r, -, hx⟩ := List.mem_flatMap.1 hx
  unfold rleRun at hx
  split at hx
  · exact rleZeros_width _ _ x hx
  · obtain rfl | hx := List.mem_cons.1 hx
    · exact Nat.zero_le 16
    · exact rleSame_width _ _ _ x hx

theorem width_of_legal {x : Slot} (h : x.legal = true) : x.extraBits ≤ 16 := by
  cases x with
  | extra n v =>
    simp only [Slot.legal, Bool.and_eq_true, decide_eq_true_eq] at h
    exact Nat.le_trans h.1.2 (by decide)
  | _ => exact Nat.zero_le 16

/-! ## What slots and a header append -/

section
variable {ll d cl : Table} (hll : ShortCodes ll) (hd : ShortCodes d) (hcl : ShortCodes cl)
include hll hd hcl

theorem putSlot_appends {x : Slot} (hx : fits x) (hn : x.extraBits ≤ 16) {w : BitWriter} (hw : w.ok) :
    Appends (slotBits ll d cl x) w (putSlot ll d cl w x) := by
  cases x with
  | litLen s => exact putCode_appends _ hw (codeOf_len_le hll s)
  | dist s => exact putCode_appends _ hw (codeOf_len_le hd s)
  | codeLen s => exact putCode_appends _ hw (codeOf_len_le hcl s)
  | extra n v => exact put_appends hw hn hx

theorem putSlots_append {b : List Slot} (hb : ∀ x ∈ b, fits x ∧ x.extraBits ≤ 16) {w : BitWriter} (hw : w.ok) :
    Appends (b.flatMap (slotBits ll d cl)) w (b.foldl (putSlot ll d cl) w) :=
  foldl_appends (fun x hx _ hw' => putSlot_appends hll hd hcl (hb x hx).1 (hb x hx).2 hw') hw

end

theorem putLengths_append {lens : List Nat} (hl : ∀ l ∈ lens, l ≤ 7) (order : List Nat) {w : BitWriter} (hw : w.ok) :
    Appends (order.flatMap fun s => bitsOf 3 (lens.getD s 0)) w
      (order.foldl (fun w s => put (lens.getD s 0) 3 w) w) :=
  foldl_appends (fun s _ _ hw' => put_appends hw' (by decide) (Nat.lt_succ_of_le (getD_le_of_forall hl s))) hw

/-- The bits of a dynamic block's header: BFINAL, the block type, the three counts, the code lengths of the code-length
alphabet, and the run-length coded lengths of the two main alphabets (44_block_emit.md R246). -/
def headerBits (t : DynTables) (bfinal : Bool) : List Bool :=
  [bfinal, false, true] ++ bitsOf 5 (t.nlit - 257) ++ bitsOf 5 (t.ndist - 1) ++ bitsOf 4 (t.nclen - 4) ++
    (clOrder.take t.nclen).flatMap (fun s => bitsOf 3 (t.clLens.getD s 0)) ++
    t.treeSrc.flatMap (slotBits [] [] (codes t.clLens))

theorem bitsOf_bool (f : Bool) : bitsOf 1 f.toNat = [f] := by cases f <;> rfl

theorem putHeader_appends {t : DynTables} (ht : HeaderFits t) (hcl : ShortCodes (codes t.clLens))
    (hsrc : ∀ x ∈ t.treeSrc, x.extraBits ≤ 16) (bfinal : Bool) {w : BitWriter} (hw : w.ok) :
    Appends (headerBits t bfinal) w (putHeader t bfinal w) := by
  obtain ⟨hlit, hdist, hclen, hlens, hfits⟩ := ht
  simp only [Config.nLL, Config.nDist, Config.nCL] at hlit hdist hclen
  have hfinal := put_appends (n := 1) hw (by decide) (Bool.toNat_lt bfinal)
  have htype := hfinal.trans (put_appends (v := 2) (n := 2) hfinal.ok (by decide) (by decide))
  have hnlit := htype.trans (put_appends (v := t.nlit - 257) (n := 5) htype.ok (by decide) (by omega))
  have hndist := hnlit.trans (put_appends (v := t.ndist - 1) (n := 5) hnlit.ok (by decide) (by omega))
  have hnclen := hndist.trans (put_appends (v := t.nclen - 4) (n := 4) hndist.ok (by decide) (by omega))
  have hcodeLens := hnclen.trans (putLengths_append hlens (clOrder.take t.nclen) hnclen.ok)
  have hall := hcodeLens.trans
    (putSlots_append shortCodes_nil shortCodes_nil hcl (fun x hx => ⟨hfits x hx, hsrc x hx⟩) hcodeLens.ok)
  rwa [bitsOf_bool] at hall

/-- A dynamic block is its header, its slots in the two main codes, and the end-of-block code (R240, R247, R250). -/
theorem emitDynamic_appends {b : List Slot} (hb : ∀ x ∈ b, x.legal = true) (bfinal : Bool) {w : BitWriter} (hw : w.ok) :
    Appends (headerBits (buildTables b) bfinal ++
      b.flatMap (slotBits (codes (buildTables b).llLens) (codes (buildTables b).dLens) []) ++
      codeBits (codes (buildTables b).llLens) 256) w (emitDynamic b bfinal w) := by
  obtain ⟨hll, hd, hcl⟩ := buildTables_short b
  have hhead := putHeader_appends (buildTables_fits b) hcl (rle_width _) bfinal hw
  have hbody := hhead.trans
    (putSlots_append hll hd shortCodes_nil (fun x hx => ⟨fits_of_legal (hb x hx), width_of_legal (hb x hx)⟩) hhead.ok)
  exact hbody.trans (putSlot_appends (x := .litLen 256) hll hd shortCodes_nil trivial (Nat.zero_le 16) hbody.ok)

/-- Settles O47: reversing a code turns its first bit into the low one, which `put` sends first; every field of a block
is within its width, and the block's bits are those of its fields in the order they are put. -/
theorem codesPaddingAndBlocks : Obligations.CodesPaddingAndBlocks := by
  unfold Obligations.CodesPaddingAndBlocks
  refine ⟨fun w c n hw _ hn _ => ?_, fun w hw => ?_, fun b f w t hw hb ht => ?_⟩
  · have h := putCode_appends c hw hn
    exact ⟨h.bits, h.ok⟩
  · have h := alignWriter_appends hw
    have hn := alignWriter_n hw.1
    exact ⟨h.bits, hn, acc_eq_zero_of_n h.ok hn⟩
  · subst ht
    obtain ⟨hlit, hdist, hclen, -, -⟩ := buildTables_fits b
    obtain ⟨hlit', hdist', hclen'⟩ := buildTables_least b
    refine ⟨hlit', hlit, hdist', hdist, hclen', hclen, ?_⟩
    rw [(emitDynamic_appends hb f hw).bits, headerBits, clOrder]
    simp only [List.append_assoc]

end Sys2Proof.Proofs
end

