-- ==== Sys2Proof/Proofs/MatchFunctions.lean ====
section
/-! PROOFS. The match functions `L`, `Dst` and `final` of a byte sequence, in terms of the distances that agree over a
number of bytes, and what a slot of the pending-match set must hold to compute them (41_lz77.md R163 to R167, R171). -/

namespace Sys2Proof.Proofs

open Sys2Proof.Machine Sys2Proof.Laws

/-! ## The distances that agree over a number of bytes -/

/-- `S[q−d+i] = S[q+i]` for all `i < l` (41_lz77.md R163, R164). -/
def agrees (s : List Byte) (q d l : Nat) : Bool :=
  (List.range l).all fun i => seqAt s (q - d + i) == seqAt s (q + i)

/-- The distances in range at `q` that agree over `l` bytes, nearest first: the candidates at `l = 3`, and then what
LIVE holds when LEN is `l` (R171). -/
def agreeing (s : List Byte) (q l : Nat) : List Nat :=
  ((List.range (min q Config.maxDist)).map (· + 1)).filter fun d => agrees s q d l

theorem agrees_iff {s : List Byte} {q d l : Nat} :
    agrees s q d l = true ↔ ∀ i < l, seqAt s (q - d + i) = seqAt s (q + i) := by
  simp [agrees]

theorem agrees_succ (s : List Byte) (q d l : Nat) :
    agrees s q d (l + 1) = (agrees s q d l && (seqAt s (q - d + l) == seqAt s (q + l))) := by
  simp [agrees, List.range_succ]

theorem agrees_of_le {s : List Byte} {q d l l' : Nat} (h : agrees s q d l = true) (hl : l' ≤ l) :
    agrees s q d l' = true :=
  agrees_iff.2 fun i hi => agrees_iff.1 h i (Nat.lt_of_lt_of_le hi hl)

theorem mem_agreeing {s : List Byte} {q l d : Nat} :
    d ∈ agreeing s q l ↔ (1 ≤ d ∧ d ≤ Config.maxDist ∧ d ≤ q) ∧ agrees s q d l = true := by
  simp only [agreeing, List.mem_filter, List.mem_map, List.mem_range]
  refine and_congr_left' ⟨?_, fun h => ⟨d - 1, by omega, by omega⟩⟩
  rintro ⟨i, hi, rfl⟩
  omega

theorem agreeing_sorted (s : List Byte) (q l : Nat) : (agreeing s q l).Pairwise (· < ·) :=
  (List.pairwise_lt_range.map _ fun _ _ h => Nat.succ_lt_succ h).filter _

theorem agreeing_succ (s : List Byte) (q l : Nat) :
    agreeing s q (l + 1) = (agreeing s q l).filter fun d => seqAt s (q - d + l) == seqAt s (q + l) := by
  simp only [agreeing, List.filter_filter, agrees_succ, Bool.and_comm]

/-- The nearest of the agreeing distances is the least. -/
theorem head?_agreeing {s : List Byte} {q l : Nat} (h : agreeing s q l ≠ []) :
    (agreeing s q l).head? = some (minLive (agreeing s q l)) := by
  have hmin : (agreeing s q l).min? = (agreeing s q l).head? :=
    List.min?_eq_head? ((agreeing_sorted s q l).imp fun hlt => Nat.min_eq_left (Nat.le_of_lt hlt))
  rw [minLive, hmin, List.head?_eq_some_head h, Option.getD_some]

/-! ## Later bytes change nothing that has been compared -/

theorem seqAt_append {s t : List Byte} {i : Nat} (h : i < s.length) : seqAt (s ++ t) i = seqAt s i :=
  List.getD_append _ _ _ _ h

theorem agrees_append {s t : List Byte} {q d l : Nat} (h : q + l ≤ s.length) :
    agrees (s ++ t) q d l = agrees s q d l := by
  rw [Bool.eq_iff_iff, agrees_iff, agrees_iff]
  refine forall₂_congr fun i hi => ?_
  rw [seqAt_append (by omega), seqAt_append (by omega)]

theorem agreeing_append {s t : List Byte} {q l : Nat} (h : q + l ≤ s.length) :
    agreeing (s ++ t) q l = agreeing s q l :=
  List.filter_congr fun _ _ => agrees_append h

/-! ## The match functions -/

theorem candidates_eq {s : List Byte} {q e : Nat} (h : q + Config.minMatch ≤ e) :
    candidates s q e = agreeing s q Config.minMatch := by
  refine List.filter_congr fun d hd => ?_
  obtain ⟨i, hi, rfl⟩ := List.mem_map.1 hd
  have hle : i + 1 ≤ min q Config.maxDist := List.mem_range.1 hi
  simp [isCandidate, agrees, h, hle]

theorem le_agreeFrom_iff {s : List Byte} {q d k i l : Nat} (h : agrees s q d i = true) :
    l ≤ agreeFrom s q d k i ↔ l ≤ i + k ∧ agrees s q d l = true := by
  induction k generalizing i with
  | zero => exact ⟨fun hl => ⟨hl, agrees_of_le h hl⟩, And.left⟩
  | succ k ih =>
    rw [agreeFrom]
    split
    · next hnext =>
      rw [ih (by simp [agrees_succ, h, hnext]), Nat.add_right_comm, Nat.add_assoc]
    · next hnext =>
      refine ⟨fun hl => ⟨by omega, agrees_of_le h hl⟩, fun ⟨_, hagrees⟩ => ?_⟩
      by_contra hlt
      exact hnext (agrees_iff.1 hagrees i (by omega))

/-- `mlen` is the largest length in reach over which `d` agrees (41_lz77.md R164). -/
theorem le_matchLen_iff {s : List Byte} {q d e l : Nat} :
    l ≤ matchLen s q d e ↔ l ≤ min Config.maxMatch (e - q) ∧ agrees s q d l = true := by
  rw [matchLen, le_agreeFrom_iff (agrees_iff.2 fun _ h => absurd h (Nat.not_lt_zero _)), Nat.zero_add]

theorem le_foldl_max_iff {xs : List Nat} {f : Nat → Nat} {a l : Nat} :
    l ≤ xs.foldl (fun best d => max best (f d)) a ↔ l ≤ a ∨ ∃ d ∈ xs, l ≤ f d := by
  induction xs generalizing a with
  | nil => simp
  | cons x xs ih => simp [ih, or_assoc]

/-- `L` is the largest length in reach over which some distance agrees (R165). -/
theorem le_longest_iff {s : List Byte} {q e l : Nat} (he : q + Config.minMatch ≤ e) (hl : Config.minMatch ≤ l) :
    l ≤ longest s q e ↔ l ≤ min Config.maxMatch (e - q) ∧ agreeing s q l ≠ [] := by
  rw [longest, candidates_eq he, le_foldl_max_iff]
  constructor
  · rintro (h0 | ⟨d, hd, hlen⟩)
    · exact absurd (Nat.le_trans hl h0) (by decide)
    · obtain ⟨hreach, hagrees⟩ := le_matchLen_iff.1 hlen
      exact ⟨hreach, List.ne_nil_of_mem (mem_agreeing.2 ⟨(mem_agreeing.1 hd).1, hagrees⟩)⟩
  · rintro ⟨hreach, hne⟩
    obtain ⟨d, hd⟩ := List.exists_mem_of_ne_nil _ hne
    obtain ⟨hrange, hagrees⟩ := mem_agreeing.1 hd
    exact .inr ⟨d, mem_agreeing.2 ⟨hrange, agrees_of_le hagrees hl⟩, le_matchLen_iff.2 ⟨hreach, hagrees⟩⟩

theorem longest_eq {s : List Byte} {q e len : Nat} (he : q + Config.minMatch ≤ e) (hlo : Config.minMatch ≤ len)
    (hreach : len ≤ min Config.maxMatch (e - q)) (hne : agreeing s q len ≠ [])
    (hstop : len + 1 ≤ min Config.maxMatch (e - q) → agreeing s q (len + 1) = []) : longest s q e = len := by
  refine Nat.le_antisymm (Nat.le_of_not_lt fun hlt => ?_) ((le_longest_iff he hlo).2 ⟨hreach, hne⟩)
  obtain ⟨hreach', hne'⟩ := (le_longest_iff he (Nat.le_succ_of_le hlo)).1 hlt
  exact hne' (hstop hreach')

theorem matchLen_le_longest {s : List Byte} {q e d : Nat} (hd : d ∈ candidates s q e) :
    matchLen s q d e ≤ longest s q e :=
  le_foldl_max_iff.2 (.inr ⟨d, hd, Nat.le_refl _⟩)

/-- `Dst` is the nearest distance that agrees over `L` bytes (R166). -/
theorem nearest_eq {s : List Byte} {q e len : Nat} (he : q + Config.minMatch ≤ e) (hlo : Config.minMatch ≤ len)
    (hreach : len ≤ min Config.maxMatch (e - q)) (hlongest : longest s q e = len) :
    nearest s q e = (agreeing s q len).head? := by
  have hfilter : (candidates s q e).filter (fun d => matchLen s q d e == longest s q e) = agreeing s q len := by
    refine List.Pairwise.eq_of_mem_iff (r := (· < ·)) ?_ (agreeing_sorted s q len) fun d => ?_
    · rw [candidates_eq he]
      exact (agreeing_sorted _ _ _).filter _
    · rw [List.mem_filter, beq_iff_eq, hlongest]
      constructor
      · rintro ⟨hd, hlen⟩
        rw [candidates_eq he] at hd
        exact mem_agreeing.2 ⟨(mem_agreeing.1 hd).1, (le_matchLen_iff.1 (Nat.le_of_eq hlen.symm)).2⟩
      · intro hd
        obtain ⟨hrange, hagrees⟩ := mem_agreeing.1 hd
        have hcand : d ∈ candidates s q e := by
          rw [candidates_eq he]
          exact mem_agreeing.2 ⟨hrange, agrees_of_le hagrees hlo⟩
        exact ⟨hcand, Nat.le_antisymm (hlongest ▸ matchLen_le_longest hcand) (le_matchLen_iff.2 ⟨hreach, hagrees⟩)⟩
  rw [nearest, ← List.head?_filter, hfilter]

/-! ## What a slot follows -/

/-- What a slot holds for position `q` beyond `candOkAt` when `e` bytes have arrived: the distances that agree so far,
or the nearest one of the longest match (41_lz77.md R171). -/
def slotFollows (s : List Byte) (e q : Nat) : Cand → Prop
  | .empty => True
  | .extending live len => live = agreeing s q len
  | .finished len d =>
    (len = 0 ∧ agreeing s q Config.minMatch = []) ∨
      (Config.minMatch ≤ len ∧ (agreeing s q len).head? = some d ∧
        (len = Config.maxMatch ∨ (q + len < e ∧ agreeing s q (len + 1) = [])))

theorem slotFollows_append {s t : List Byte} {e q : Nat} {c : Cand} (hok : candOkAt e q c) (he : e ≤ s.length)
    (h : slotFollows s e q c) : slotFollows (s ++ t) e q c := by
  cases c with
  | empty => trivial
  | extending live len =>
    obtain ⟨-, -, -, -, hq⟩ := hok
    exact h.trans (agreeing_append (by omega)).symm
  | finished len d =>
    obtain ⟨h3, hlen⟩ := hok
    refine h.imp ?_ ?_
    · rintro ⟨rfl, hnil⟩
      exact ⟨rfl, (agreeing_append (by omega)).trans hnil⟩
    · rintro ⟨hlo, hhead, hstop⟩
      obtain rfl | ⟨-, -, hq, -⟩ := hlen
      · exact absurd hlo (by decide)
      · refine ⟨hlo, by rwa [agreeing_append (by omega)], hstop.imp_right ?_⟩
        rintro ⟨hlt, hnil⟩
        exact ⟨hlt, (agreeing_append (by omega)).trans hnil⟩

/-- What O57 says of one slot. -/
def slotComputes (s : List Byte) (e q : Nat) (c : Cand) : Prop :=
  c.isFinished = isFinal s q e ∧
    (q + Config.minMatch ≤ e → c.bestLen = longest s q e ∧ (c.bestLen ≠ 0 → nearest s q e = some c.bestDist))

theorem slotComputes_extending {s : List Byte} {e q len : Nat} (hok : candOkAt e q (.extending (agreeing s q len) len)) :
    slotComputes s e q (.extending (agreeing s q len) len) := by
  obtain ⟨hne, -, hlo, hhi, hq⟩ := hok
  have he : q + Config.minMatch ≤ e := by omega
  have hreach : len ≤ min Config.maxMatch (e - q) := by omega
  have hlongest : longest s q e = len := longest_eq he hlo hreach hne (by omega)
  refine ⟨?_, fun _ => ⟨hlongest.symm, fun _ => ?_⟩⟩
  · have h0 : len ≠ 0 := by rintro rfl; exact absurd hlo (by decide)
    simp [Cand.isFinished, isFinal, hlongest, h0, hq, Nat.ne_of_lt hhi]
  · rw [nearest_eq he hlo hreach hlongest, head?_agreeing hne]
    rfl

theorem slotComputes_noCandidate {s : List Byte} {e q d : Nat} (he : q + Config.minMatch ≤ e)
    (hnil : agreeing s q Config.minMatch = []) : slotComputes s e q (.finished 0 d) := by
  have hlongest : longest s q e = 0 := by rw [longest, candidates_eq he, hnil]; rfl
  refine ⟨?_, fun _ => ⟨hlongest.symm, (absurd rfl ·)⟩⟩
  simp [Cand.isFinished, isFinal, hlongest, he]

theorem slotComputes_finished {s : List Byte} {e q len d : Nat} (hq : q + len ≤ e) (hlo : Config.minMatch ≤ len)
    (hhi : len ≤ Config.maxMatch) (hhead : (agreeing s q len).head? = some d)
    (hstop : len = Config.maxMatch ∨ q + len < e ∧ agreeing s q (len + 1) = []) :
    slotComputes s e q (.finished len d) := by
  have he : q + Config.minMatch ≤ e := by omega
  have hreach : len ≤ min Config.maxMatch (e - q) := by omega
  have hne : agreeing s q len ≠ [] := by intro hnil; simp [hnil] at hhead
  have hlongest : longest s q e = len :=
    longest_eq he hlo hreach hne fun hmore => (hstop.resolve_left (by omega)).2
  refine ⟨?_, fun _ => ⟨hlongest.symm, fun _ => (nearest_eq he hlo hreach hlongest).trans hhead⟩⟩
  obtain hmax | ⟨hlt, -⟩ := hstop
  · simp [Cand.isFinished, isFinal, hlongest, he, hmax]
  · simp [Cand.isFinished, isFinal, hlongest, he, hlt]

/-- A slot that follows its position computes `final`, `L` and `Dst` (R175). -/
theorem slotComputes_of_follows {s : List Byte} {e q : Nat} {c : Cand} (hok : candOkAt e q c)
    (h : slotFollows s e q c) : slotComputes s e q c := by
  cases c with
  | empty =>
    have hlt : ¬q + Config.minMatch ≤ e := Nat.not_le_of_lt hok
    exact ⟨by simp [Cand.isFinished, isFinal, hlt], fun he => absurd he hlt⟩
  | extending live len =>
    obtain rfl : live = agreeing s q len := h
    exact slotComputes_extending hok
  | finished len d =>
    obtain ⟨h3, hlen⟩ := hok
    obtain ⟨rfl, hnil⟩ | ⟨hlo, hhead, hstop⟩ := h
    · exact slotComputes_noCandidate h3 hnil
    · obtain rfl | ⟨-, hhi, hq, -⟩ := hlen
      · exact absurd hlo (by decide)
      · exact slotComputes_finished hq hlo hhi hhead hstop

end Sys2Proof.Proofs
end

