-- ==== Sys2Proof/Proofs/HashChain.lean ====
section
/-! PROOFS. The hash chain: what LZ.HEAD and LZ.NEXT hold, and that a walk of it gives exactly the candidates
(41_lz77.md R172 to R176). -/

namespace Sys2Proof.Proofs

open Sys2Proof.Machine Sys2Proof.Laws

/-! ## The hash chain -/

/-- The bucket of position `a` (41_lz77.md R172, R174). -/
def bucketAt (s : List Byte) (a : Nat) : Nat := hash3 (seqAt s a) (seqAt s (a + 1)) (seqAt s (a + 2))

/-- The last position below `n` in bucket `h`. -/
def lastInBucket (s : List Byte) (h : Nat) : Nat → Option Nat
  | 0 => none
  | n + 1 => if bucketAt s n = h then some n else lastInBucket s h n

/-- A position as the index stores it (10_state.md R42). -/
def storedPos : Option Nat → Nat
  | none => Config.nilPos
  | some a => a % Config.cWinSize

/-- What LZ.HEAD and LZ.NEXT hold: each bucket's last position, and for each inserted position still in the window the
one before it in its bucket (R172). -/
structure ChainOk (z : Lz) : Prop where
  head : ∀ h, chainRead z.head h = storedPos (lastInBucket z.s h z.h)
  next : ∀ a, a < z.h → z.h ≤ a + Config.cWinSize →
    chainRead z.next (a % Config.cWinSize) = storedPos (lastInBucket z.s (bucketAt z.s a) a)

/-- The history with every position indexed that has its three bytes (R161). -/
structure LzIndexed (z : Lz) : Prop where
  store : LzStore z
  indexed : z.h = z.r - 2
  chain : ChainOk z

/-- The window reaches back as far as the match functions at `q` read (R176). -/
def Near (z : Lz) (q : Nat) : Prop := z.r + Config.maxDist ≤ q + Config.cWinSize

theorem bucketAt_append {s t : List Byte} {a : Nat} (h : a + 2 < s.length) : bucketAt (s ++ t) a = bucketAt s a := by
  rw [bucketAt, seqAt_append (by omega), seqAt_append (by omega), seqAt_append h, bucketAt]

theorem lastInBucket_append {s t : List Byte} {h n : Nat} (hn : n ≤ s.length - 2) :
    lastInBucket (s ++ t) h n = lastInBucket s h n := by
  induction n with
  | zero => rfl
  | succ n ih => rw [lastInBucket, lastInBucket, bucketAt_append (by omega), ih (Nat.le_of_succ_le hn)]

/-- A bucket's last position is at or after each of its positions. -/
theorem lastInBucket_of_mem {s : List Byte} {b n : Nat} (hb : b < n) :
    ∃ a, lastInBucket s (bucketAt s b) n = some a ∧ b ≤ a ∧ a < n ∧ bucketAt s a = bucketAt s b := by
  induction n with
  | zero => exact absurd hb (Nat.not_lt_zero b)
  | succ n ih =>
    rw [lastInBucket]
    split
    · next heq => exact ⟨n, rfl, Nat.le_of_lt_succ hb, Nat.lt_succ_self n, heq⟩
    · next hne =>
      have hbn : b ≠ n := fun heq => hne (heq ▸ rfl)
      obtain ⟨a, ha, hba, han, heq⟩ := ih (by omega)
      exact ⟨a, ha, hba, Nat.lt_succ_of_lt han, heq⟩

theorem chainOk_fresh : ChainOk Lz.fresh where
  head := fun _ => rfl
  next := nofun

theorem lzReceive_chain {z : Lz} (b : Byte) (hlen : z.s.length = z.r) (hh : z.h = z.r - 2) (h : ChainOk z) :
    ChainOk (lzReceive b z) where
  head := fun k => by
    rw [lzReceive_head, lzReceive_s, lzReceive_h, lastInBucket_append (by omega)]
    exact h.head k
  next := fun a ha hwin => by
    rw [lzReceive_h] at ha hwin
    rw [lzReceive_next, lzReceive_s, lastInBucket_append (by omega), bucketAt_append (by omega)]
    exact h.next a ha hwin

theorem lzInsert_chain {z : Lz} (hs : LzStore z) (hr : z.h + 3 = z.r) (h : ChainOk z) : ChainOk (lzInsert z.h z) := by
  have hbucket : hash3 (lzByteAt z z.h) (lzByteAt z (z.h + 1)) (lzByteAt z (z.h + 2)) = bucketAt z.s z.h := by
    have hread : ∀ i < 3, lzByteAt z (z.h + i) = seqAt z.s (z.h + i) := fun i hi =>
      hs.window _ (by omega) (by simp only [Config.cWinSize]; omega)
    have hfirst : lzByteAt z z.h = seqAt z.s z.h := hread 0 (by decide)
    rw [bucketAt, hfirst, hread 1 (by decide), hread 2 (by decide)]
  constructor
  · intro k
    show chainRead (chainWrite z.head _ _) k = storedPos (lastInBucket z.s k (z.h + 1))
    rw [hbucket, chainRead_chainWrite _ _ _ hs.head, lastInBucket]
    split
    · rfl
    · exact h.head k
  · intro a ha hwin
    show chainRead (chainWrite z.next _ (chainRead z.head _)) (a % Config.cWinSize) = _
    have ha : a < z.h + 1 := ha
    have hwin : z.h + 1 ≤ a + Config.cWinSize := hwin
    rw [hbucket, chainRead_chainWrite _ _ _ hs.next]
    obtain rfl | hlt := Nat.eq_or_lt_of_le (Nat.le_of_lt_succ ha)
    · rw [if_pos rfl]
      exact h.head _
    · have hne : z.h % Config.cWinSize ≠ a % Config.cWinSize := by
        simp only [Config.cWinSize] at hwin ⊢
        omega
      rw [if_neg hne]
      exact h.next a hlt (Nat.le_of_succ_le hwin)

/-- A byte's arrival keeps the index whole (R161). -/
theorem lzIndex_indexed {z : Lz} (b : Byte) (hz : LzIndexed z) : LzIndexed (lzIndex (lzReceive b z)) := by
  obtain ⟨hs, hh, hc⟩ := hz
  obtain ⟨-, hr, -⟩ := lzIndex_frame (lzReceive b z)
  have hs' := lzReceive_store b hs
  refine ⟨lzIndex_store hs', by rw [lzIndex_h (z := lzReceive b z) hh, hr], ?_⟩
  have hc' := lzReceive_chain b hs.received hh hc
  rw [lzIndex]
  split
  · next h3 =>
    have hr' : (lzReceive b z).h + 3 = (lzReceive b z).r := by
      simp only [lzReceive_h, lzReceive_r, Config.minMatch] at h3 ⊢
      omega
    rw [← hr']
    exact lzInsert_chain hs' hr' hc'
  · exact hc'

/-! ## The walk gives the candidates -/

theorem lzByteAt_near {z : Lz} {q a : Nat} (hs : LzStore z) (hnear : Near z q) (ha : a < z.r)
    (hback : q ≤ a + Config.maxDist) : lzByteAt z a = seqAt z.s a :=
  hs.window a ha (by simp only [Near] at hnear; omega)

/-- A comparison in the window is one in `S` (R164). -/
theorem lzByteAt_beq {z : Lz} {q d i : Nat} (hs : LzStore z) (hnear : Near z q) (hi : q + i < z.r)
    (hd : d ≤ Config.maxDist) :
    (lzByteAt z (q - d + i) == lzByteAt z (q + i)) = (seqAt z.s (q - d + i) == seqAt z.s (q + i)) := by
  rw [lzByteAt_near hs hnear (by omega) (by omega), lzByteAt_near hs hnear hi (by omega)]

theorem lzSame3_eq {z : Lz} {q d : Nat} (hs : LzStore z) (hnear : Near z q) (h3 : q + Config.minMatch ≤ z.r)
    (hd : d ≤ Config.maxDist) : lzSame3 z q d = agrees z.s q d Config.minMatch := by
  rw [Bool.eq_iff_iff, lzSame3, agrees, List.all_eq_true, List.all_eq_true]
  refine forall₂_congr fun i hi => ?_
  have hi := List.mem_range.1 hi
  rw [lzByteAt_beq hs hnear (by omega) hd]

theorem bucketAt_of_agrees {s : List Byte} {q d : Nat} (h : agrees s q d Config.minMatch = true) :
    bucketAt s (q - d) = bucketAt s q := by
  have heq := agrees_iff.1 h
  rw [bucketAt, bucketAt, heq 1 (by decide), heq 2 (by decide)]
  congr 1
  exact heq 0 (by decide)

theorem walkFrom_sorted (z : Lz) (q k x dprev : Nat) : (walkFrom z q k x dprev).Pairwise (· < ·) := by
  induction k generalizing x dprev with
  | zero => exact .nil
  | succ k ih =>
    rw [walkFrom]
    split
    · exact .nil
    · dsimp only
      split
      · exact .nil
      · split
        · exact .cons (fun d hd => (walkFrom_mem hd).1) (ih _ _)
        · exact ih _ _

/-- A stored position names the distance to it, as far back as a match reaches. -/
theorem distance_of_storedPos {q a : Nat} (ha : a < q) (hd : q - a ≤ Config.maxDist) :
    (q + Config.cWinSize - storedPos (some a)) % Config.cWinSize = q - a := by
  simp only [storedPos, Config.cWinSize, Config.maxDist] at hd ⊢
  omega

/-- The walk of `q`'s bucket from the position at distance `dprev` on meets every candidate beyond it (R173). -/
theorem mem_walkFrom {z : Lz} {q k dprev d : Nat} (hz : LzIndexed z) (hnear : Near z q)
    (h3 : q + Config.minMatch ≤ z.r) (hk : min q Config.maxDist ≤ k + dprev)
    (hd : d ∈ agreeing z.s q Config.minMatch) (hlt : dprev < d) :
    d ∈ walkFrom z q k (storedPos (lastInBucket z.s (bucketAt z.s q) (q - dprev))) dprev := by
  obtain ⟨hs, hh, hc⟩ := hz
  obtain ⟨⟨-, hmax, hq⟩, hagrees⟩ := mem_agreeing.1 hd
  induction k generalizing dprev with
  | zero => omega
  | succ k ih =>
    obtain ⟨a, hlast, hle, ha, hbucket⟩ := lastInBucket_of_mem (s := z.s) (b := q - d) (n := q - dprev) (by omega)
    rw [bucketAt_of_agrees hagrees] at hlast hbucket
    have hdist := distance_of_storedPos (q := q) (a := a) (by omega) (by omega)
    have hnil : storedPos (some a) ≠ Config.nilPos :=
      Nat.ne_of_lt (Nat.lt_trans (Nat.mod_lt a (by decide)) (by decide))
    have hnext : chainRead z.next ((q - (q - a)) % Config.cWinSize) =
        storedPos (lastInBucket z.s (bucketAt z.s q) (q - (q - a))) := by
      rw [Nat.sub_sub_self (by omega), ← hbucket]
      simp only [Near, Config.minMatch] at hnear h3
      exact hc.next a (by omega) (by omega)
    rw [hlast, walkFrom, if_neg hnil]
    dsimp only
    rw [hdist, if_neg (by omega), hnext]
    obtain hda | hda : d = q - a ∨ q - a < d := by omega
    · rw [if_pos (by rw [lzSame3_eq hs hnear h3 (by omega), ← hda, hagrees]), hda]
      exact List.mem_cons_self
    · have hrest := ih (dprev := q - a) (by omega) hda
      split
      · exact List.mem_cons_of_mem _ hrest
      · exact hrest

/-- The walk gives exactly the candidates, nearest first (R173, R175). -/
theorem lzWalk_eq {z : Lz} {q : Nat} (hz : LzIndexed z) (hnear : Near z q)
    (h3 : q + Config.minMatch ≤ z.r) : lzWalk z q = agreeing z.s q Config.minMatch := by
  refine List.Pairwise.eq_of_mem_iff (walkFrom_sorted _ _ _ _ _) (agreeing_sorted _ _ _) fun d =>
    ⟨fun h => ?_, fun h => ?_⟩
  · obtain ⟨h1, hmax, hq, hsame⟩ := lzWalk_mem h
    exact mem_agreeing.2 ⟨⟨h1, hmax, hq⟩, lzSame3_eq hz.store hnear h3 hmax ▸ hsame⟩
  · have hstart : chainRead z.next (q % Config.cWinSize) = storedPos (lastInBucket z.s (bucketAt z.s q) q) := by
      simp only [Near, Config.minMatch] at hnear h3
      have hh := hz.indexed
      exact hz.chain.next q (by omega) (by omega)
    rw [lzWalk, hstart]
    exact mem_walkFrom hz hnear h3 (Nat.le_refl _) h (mem_agreeing.1 h).1.1

end Sys2Proof.Proofs
end

