-- ==== Sys2Proof/Proofs/PendingMatches.lean ====
section
/-! PROOFS. The pending-match set follows the match functions with every byte and every commit, and the tokens stand for
the input, one after another (41_lz77.md R160, R161, R169 to R171, R175, R177, R178). -/

namespace Sys2Proof.Proofs

open Sys2Proof.Machine Sys2Proof.Laws

/-! ## One slot, one byte -/

section
variable {z : Lz} {e q : Nat} {c : Cand} (hz : LzIndexed z)
include hz

theorem candStart_follows (hnear : Near z q) (h3 : q + Config.minMatch ≤ z.r) :
    slotFollows z.s (q + Config.minMatch) q (candStart z q) := by
  rw [candStart, lzWalk_eq hz hnear h3]
  split
  · next hnil => exact .inl ⟨rfl, hnil⟩
  · exact rfl

theorem candExtend_follows (hnear : Near z q) (he : e < z.r) (hok : candOkAt e q c) (h : slotFollows z.s e q c) :
    slotFollows z.s (e + 1) q (candExtend z q c) := by
  cases c with
  | empty => trivial
  | finished len d =>
    refine h.imp_right ?_
    rintro ⟨hlo, hhead, hstop⟩
    exact ⟨hlo, hhead, hstop.imp_right fun ⟨hlt, hnil⟩ => ⟨Nat.lt_succ_of_lt hlt, hnil⟩⟩
  | extending live len =>
    obtain rfl : live = agreeing z.s q len := h
    obtain ⟨hne, -, hlo, -, hq⟩ := hok
    have hkeep : (agreeing z.s q len).filter (fun d => lzByteAt z (q - d + len) == lzByteAt z (q + len)) =
        agreeing z.s q (len + 1) := by
      rw [agreeing_succ]
      refine List.filter_congr fun d hd => ?_
      obtain ⟨⟨-, hmax, -⟩, -⟩ := mem_agreeing.1 hd
      exact lzByteAt_beq hz.store hnear (by omega) hmax
    rw [candExtend, hkeep]
    split
    · next hnil => exact .inr ⟨hlo, head?_agreeing hne, .inr ⟨by omega, hnil⟩⟩
    · next hmore =>
      split
      · next hmax => exact .inr ⟨Nat.le_succ_of_le hlo, head?_agreeing hmore, .inl hmax⟩
      · exact rfl

theorem candExtendBy_follows {k : Nat} (hnear : Near z q) (he : e + k ≤ z.r) (hok : candOkAt e q c) (hne : c ≠ .empty)
    (h : slotFollows z.s e q c) : slotFollows z.s (e + k) q (candExtendBy z q k c) := by
  induction k generalizing e c with
  | zero => exact h
  | succ k ih =>
    obtain ⟨hok', hne'⟩ := candExtend_ok (z := z) hok hne
    rw [show e + (k + 1) = e + 1 + k by omega] at he ⊢
    exact ih he hok' hne' (candExtend_follows hz hnear (by omega) hok h)

theorem candEstablish_follows (hnear : Near z q) : slotFollows z.s z.r q (candEstablish z q) := by
  unfold candEstablish
  split
  · trivial
  · have h := candExtendBy_follows hz (k := z.r - (q + Config.minMatch)) hnear (by omega) (candStart_ok z q)
      (candStart_ne_empty z q) (candStart_follows hz hnear (by omega))
    rwa [Nat.add_sub_cancel' (by omega)] at h

theorem candArrive_follows (hnear : Near z q) (he : z.r = e + 1) (hok : candOkAt e q c) (h : slotFollows z.s e q c) :
    slotFollows z.s z.r q (candArrive z q c) := by
  cases c with
  | empty =>
    have hlt : e < q + Config.minMatch := hok
    unfold candArrive
    dsimp only
    split
    · next h3 =>
      rw [show z.r = q + Config.minMatch by omega]
      exact candStart_follows hz hnear h3
    · trivial
  | extending live len => exact he ▸ candExtend_follows hz hnear (by omega) hok h
  | finished len d => exact he ▸ candExtend_follows hz hnear (by omega) hok h

end

/-! ## The pending-match set -/

/-- The whole engine: the indexed history, and slots that follow their positions. -/
structure LzTracks (z : Lz) : Prop where
  index : LzIndexed z
  pending : LzPending z
  follows : ∀ o c, z.cand[o]? = some c → slotFollows z.s z.r (z.p + o) c

theorem near_add {z : Lz} {q : Nat} (h : Near z q) (o : Nat) : Near z (q + o) := by
  simp only [Near] at h ⊢
  omega

theorem lzIndexed_of_same {z z' : Lz} (h : SameStore z z') (hz : LzIndexed z) : LzIndexed z' := by
  rw [h]
  exact ⟨{ hz.store with }, hz.indexed, { hz.chain with }⟩

theorem candsEstablish_tracks {z : Lz} (hz : LzIndexed z) (hnear : Near z z.p) (hle : z.p ≤ z.r) :
    LzTracks (candsEstablish z) where
  index := lzIndexed_of_same rfl hz
  pending := candsEstablish_pending hle
  follows := by
    intro o c ho
    have hlt : o < Config.lazy := by
      have := (List.getElem?_eq_some_iff.1 ho).1
      rwa [candsEstablish_length] at this
    rw [candsEstablish_getElem? z hlt] at ho
    obtain rfl := Option.some.inj ho
    exact candEstablish_follows hz (near_add hnear o)

theorem candsArrive_tracks {z z' : Lz} {b : Byte} (h : LzTracks z) (hz' : LzIndexed z') (hnear : Near z' z'.p)
    (hs : z'.s = z.s ++ [b]) (hr : z'.r = z.r + 1) (hp : z'.p = z.p) (hc : z'.cand = z.cand) :
    LzTracks (candsArrive z') where
  index := lzIndexed_of_same rfl hz'
  pending := candsArrive_pending h.pending hr hp hc
  follows := by
    intro o c ho
    rw [candsArrive_cand, List.getElem?_map, List.getElem?_zipIdx, hc] at ho
    cases hco : z.cand[o]? with
    | none => simp [hco] at ho
    | some c' =>
      simp only [hco, Option.map_some, Nat.zero_add, Option.some.injEq] at ho
      subst ho
      have hok := candOk_iff.1 (h.pending.cand o c' hco)
      have hfollows := slotFollows_append (t := [b]) hok (Nat.le_of_eq h.index.store.received.symm) (h.follows o c' hco)
      rw [← hs, ← hp] at hfollows
      exact candArrive_follows hz' (near_add hnear o) hr (hp ▸ hok) hfollows

end Sys2Proof.Proofs
end

