-- ==== Sys2Proof/Proofs/TokenStream.lean ====
section
/-! PROOFS. The tokens stand for the input, one after another, and the engine between commands computes the match
functions (41_lz77.md R160, R161, R169, R175, R177, R178). -/

namespace Sys2Proof.Proofs

open Sys2Proof.Machine Sys2Proof.Laws

/-! ## Tokens that spell a part of a byte sequence -/

/-- The token stands for the bytes of `s` from `p` on (41_lz77.md R160, R177). -/
def tokenAt (s : List Byte) (p : Nat) : Token → Prop
  | .lit b => p < s.length ∧ b = seqAt s p
  | .copy d l =>
    Config.minMatch ≤ l ∧ l ≤ Config.maxMatch ∧ p + l ≤ s.length ∧ d ∈ agreeing s p l

/-- The tokens stand for the bytes of `s` from `p` to `p'`. -/
def spells (s : List Byte) : Nat → List Token → Nat → Prop
  | p, [], p' => p = p'
  | p, t :: ts, p' => tokenAt s p t ∧ spells s (p + t.width) ts p'

theorem spells_append {s : List Byte} {p p' : Nat} {ts us : List Token} :
    spells s p (ts ++ us) p' ↔ ∃ m, spells s p ts m ∧ spells s m us p' := by
  induction ts generalizing p with
  | nil => simp [spells]
  | cons t ts ih => simp [spells, ih, and_assoc]

theorem tokenAt_extend {s x : List Byte} {p : Nat} {t : Token} (h : tokenAt s p t) : tokenAt (s ++ x) p t := by
  cases t with
  | lit b => exact ⟨List.length_append ▸ Nat.lt_add_right _ h.1, h.2.trans (seqAt_append h.1).symm⟩
  | copy d l =>
    obtain ⟨hlo, hhi, hle, hd⟩ := h
    exact ⟨hlo, hhi, List.length_append ▸ Nat.le_add_right_of_le hle, (agreeing_append hle).symm ▸ hd⟩

theorem spells_extend {s x : List Byte} {p p' : Nat} {ts : List Token} (h : spells s p ts p') :
    spells (s ++ x) p ts p' := by
  induction ts generalizing p with
  | nil => exact h
  | cons t ts ih => exact ⟨tokenAt_extend h.1, ih h.2⟩

/-! ## Expanding them -/

theorem take_append_seqAt {s : List Byte} {p : Nat} (h : p < s.length) : s.take p ++ [seqAt s p] = s.take (p + 1) := by
  rw [seqAt, List.getD_eq_getElem _ _ h, List.take_append_getElem]

/-- A copy within what has been expanded gives the bytes it agrees with (R160). -/
theorem expandCopy_take {s : List Byte} {p d l : Nat} (h1 : 1 ≤ d) (hd : d ≤ p) (hl : p + l ≤ s.length)
    (hagrees : agrees s p d l = true) : expandCopy d l (s.take p) = s.take (p + l) := by
  induction l generalizing p with
  | zero => rfl
  | succ l ih =>
    have heq := agrees_iff.1 hagrees
    have hsource : seqAt (s.take p) ((s.take p).length - d) = seqAt s p := by
      have hfirst : seqAt s (p - d) = seqAt s p := heq 0 (Nat.zero_lt_succ l)
      have hread : seqAt (s.take p ++ s.drop p) (p - d) = seqAt (s.take p) (p - d) :=
        seqAt_append (by rw [List.length_take]; omega)
      rw [List.take_append_drop, hfirst] at hread
      rw [List.length_take, Nat.min_eq_left (by omega), hread]
    have hrest : agrees s (p + 1) d l = true := agrees_iff.2 fun i hi => by
      have := heq (i + 1) (Nat.succ_lt_succ hi)
      rwa [show p - d + (i + 1) = p + 1 - d + i by omega, show p + (i + 1) = p + 1 + i by omega] at this
    rw [expandCopy, hsource, take_append_seqAt (by omega), ih (by omega) (by omega) hrest]
    congr 1
    omega

theorem expandOnto_spells {s : List Byte} {p p' : Nat} {ts : List Token} (h : spells s p ts p') :
    expandOnto (s.take p) ts = s.take p' := by
  induction ts generalizing p with
  | nil => exact congrArg s.take h
  | cons t ts ih =>
    obtain ⟨ht, hts⟩ := h
    rw [← ih hts]
    cases t with
    | lit b =>
      obtain ⟨hp, rfl⟩ := ht
      rw [expandOnto, take_append_seqAt hp]
      rfl
    | copy d l =>
      obtain ⟨-, -, hle, hd⟩ := ht
      obtain ⟨⟨h1, -, hdp⟩, hagrees⟩ := mem_agreeing.1 hd
      rw [expandOnto, expandCopy_take h1 hdp hle hagrees]
      rfl

/-! ## The decided tokens -/

/-- A slot's best distance agrees over its best length. -/
theorem bestDist_mem_agreeing {s : List Byte} {e q : Nat} {c : Cand} (hok : candOkAt e q c) (h : slotFollows s e q c)
    (hm : Config.minMatch ≤ c.bestLen) : c.bestDist ∈ agreeing s q c.bestLen := by
  cases c with
  | empty => exact absurd hm (by decide)
  | extending live len =>
    obtain rfl : live = agreeing s q len := h
    exact minLive_mem hok.1
  | finished len d =>
    obtain ⟨rfl, -⟩ | ⟨-, hhead, -⟩ := h
    · cases hm
    · exact List.mem_of_mem_head? hhead

theorem lzChoose_tokenAt {z : Lz} (h : LzTracks z) (hnear : Near z z.p) (hlt : z.p < z.r) :
    tokenAt z.s z.p (lzChoose z) := by
  have hlit : tokenAt z.s z.p (.lit (lzByteAt z z.p)) :=
    ⟨h.index.store.received.symm ▸ hlt, lzByteAt_near h.index.store hnear hlt (Nat.le_add_right _ _)⟩
  unfold lzChoose
  split
  · exact hlit
  · next c later hc =>
    split
    · next hl =>
      have hm := lazyMatch_min hl
      have hslot : z.cand[0]? = some c := by rw [hc]; rfl
      have hok := candOk_iff.1 (h.pending.cand 0 c hslot)
      obtain ⟨⟨-, -, hlo, hhi⟩, hle⟩ := copy_of_candOk hok hm
      exact ⟨hlo, hhi, h.index.store.received.symm ▸ hle, bestDist_mem_agreeing hok (h.follows 0 c hslot) hm⟩
    · exact hlit

theorem sameStore_s {z z' : Lz} (h : SameStore z z') : z'.s = z.s := by
  rw [h]

/-- A run commits the bytes that its tokens stand for (R169). -/
theorem lzRunFor_spells {flushing : Bool} {k : Nat} {z : Lz} (h : LzTracks z) (hnear : Near z z.p) :
    LzTracks (lzRunFor flushing k z).2 ∧
      spells z.s z.p (lzRunFor flushing k z).1 (lzRunFor flushing k z).2.p := by
  induction k generalizing z with
  | zero => exact ⟨h, rfl⟩
  | succ k ih =>
    rw [lzRunFor]
    split
    · exact ⟨h, rfl⟩
    · next hlt =>
      split
      · have hlt := Nat.lt_of_not_le hlt
        obtain ⟨-, -, hle⟩ := lzChoose_ok h.pending hlt
        have hnear' : Near z (z.p + (lzChoose z).width) := near_add hnear _
        have hcommit : LzTracks (lzCommit (lzChoose z) z) :=
          candsEstablish_tracks (z := { z with p := z.p + (lzChoose z).width }) (lzIndexed_of_same rfl h.index) hnear' hle
        obtain ⟨htracks, hspells⟩ := ih hcommit hnear'
        exact ⟨htracks, lzChoose_tokenAt h hnear hlt, hspells⟩
      · exact ⟨h, rfl⟩

theorem lzRun_spells {z : Lz} (flushing : Bool) (h : LzTracks z) (hnear : Near z z.p) :
    LzTracks (lzRun flushing z).2 ∧ spells z.s z.p (lzRun flushing z).1 (lzRun flushing z).2.p :=
  lzRunFor_spells h hnear

/-! ## A byte and a flush -/

/-- The engine between commands, its tokens held back within the window. -/
structure LzFed (z : Lz) : Prop where
  inv : LzInv z
  tracks : LzTracks z

theorem lzFed_fresh : LzFed Lz.fresh where
  inv := lzInv_fresh
  tracks :=
    { index := ⟨lzStore_of_inv lzInv_fresh, rfl, chainOk_fresh⟩
      pending := lzPending_of_inv lzInv_fresh
      follows := fun o c ho => by
        obtain rfl : c = .empty := (List.mem_replicate.1 (List.mem_of_getElem? ho)).2
        trivial }

/-- With a byte beyond what the engine holds back, the window still reaches the farthest match (R170, R176). -/
theorem near_of_heldBack {z : Lz} (h : z.r ≤ z.p + 260) : Near z z.p := by
  simp only [Near, Config.maxDist, Config.cWinSize]
  omega

theorem lzByte_fed {z : Lz} (b : Byte) (h : LzFed z) :
    LzFed (lzByte b z).2 ∧ (lzByte b z).2.s = z.s ++ [b] ∧
      spells (z.s ++ [b]) z.p (lzByte b z).1 (lzByte b z).2.p := by
  obtain ⟨hs, hr, hp, hc, -⟩ := lzIndex_frame (lzReceive b z)
  have hheld := h.inv.heldBack
  have hnear : Near (lzIndex (lzReceive b z)) (lzIndex (lzReceive b z)).p :=
    near_of_heldBack (by rw [hr, hp, lzReceive_r, lzReceive_p]; omega)
  have harrive := candsArrive_tracks h.tracks (lzIndex_indexed b h.tracks.index) hnear hs hr hp hc
  have hstore : SameStore _ (lzByte b z).2 := (lzRun_ok false harrive.pending).store
  obtain ⟨htracks, hspells⟩ := lzRun_spells false harrive hnear
  rw [candsArrive_s, candsArrive_p, hs, hp] at hspells
  exact ⟨⟨(lzByte_ok b h.inv).2, htracks⟩, (sameStore_s hstore).trans hs, hspells⟩

/-- A flush's tokens stand for everything held back (R178). -/
theorem lzFlush_spells {z : Lz} (h : LzFed z) : spells z.s z.p (lzFlush z).1 z.s.length := by
  obtain ⟨-, hinv, hp⟩ := lzFlush_ok h.inv
  obtain ⟨-, hspells⟩ := lzRun_spells true h.tracks (near_of_heldBack (Nat.le_succ_of_le h.inv.heldBack))
  have hr : (lzFlush z).2.r = z.r := (sameStore_frame (lzRun_ok true h.tracks.pending).store).2
  rw [h.inv.received, ← hr, ← hp]
  exact hspells

/-- One byte fed, its tokens added to those before it. -/
def feedStep (r : List Token × Lz) (b : Byte) : List Token × Lz := (r.1 ++ (lzByte b r.2).1, (lzByte b r.2).2)

/-- Byte after byte, the tokens so far stand for the bytes committed so far. -/
theorem feed_spells (data : List Byte) {r : List Token × Lz} (hr : LzFed r.2) (h : spells r.2.s 0 r.1 r.2.p) :
    LzFed (data.foldl feedStep r).2 ∧ (data.foldl feedStep r).2.s = r.2.s ++ data ∧
      spells (r.2.s ++ data) 0 (data.foldl feedStep r).1 (data.foldl feedStep r).2.p := by
  induction data generalizing r with
  | nil => exact ⟨hr, (List.append_nil _).symm, (List.append_nil _).symm ▸ h⟩
  | cons b data ih =>
    obtain ⟨hfed, hs, hspells⟩ := lzByte_fed b hr
    have hrest := ih (r := feedStep r b) hfed (by
      rw [feedStep, hs]
      exact spells_append.2 ⟨_, spells_extend h, hspells⟩)
    rwa [feedStep, hs, List.append_assoc, List.singleton_append] at hrest

/-- The tokens of `data` stand for all of it. -/
theorem lzTokens_spells (data : List Byte) : spells data 0 (lzTokens data) data.length := by
  obtain ⟨hfed, hs, hspells⟩ := feed_spells data (r := ([], Lz.fresh)) lzFed_fresh rfl
  have hs : (data.foldl feedStep ([], Lz.fresh)).2.s = data := hs
  have hflush := lzFlush_spells hfed
  rw [hs] at hflush
  exact spells_append.2 ⟨_, hspells, hflush⟩

/-! ## The obligations -/

/-- Settles O56: the tokens stand for the input one after another, so that a match's source lies within the bytes
already expanded and agrees with the input over the match's length. -/
theorem tokensExpandToTheInput : Obligations.TokensExpandToTheInput := by
  unfold Obligations.TokensExpandToTheInput
  intro data
  have hspells := lzTokens_spells data
  refine ⟨?_, fun before dist len after heq => ?_⟩
  · have hexpand := expandOnto_spells hspells
    rwa [List.take_length] at hexpand
  · rw [heq] at hspells
    obtain ⟨p, hbefore, ⟨hlo, hhi, hle, hd⟩, -⟩ := spells_append.1 hspells
    obtain ⟨⟨h1, hmax, hp⟩, -⟩ := mem_agreeing.1 hd
    have hexpand : expandOnto [] before = data.take p := expandOnto_spells hbefore
    rw [hexpand, List.length_take, Nat.min_eq_left (Nat.le_trans (Nat.le_add_right _ _) hle)]
    exact ⟨h1, hmax, hp, hlo, hhi⟩

/-- Settles O57: each slot follows its position byte by byte, from a walk that gives exactly the candidates, and a slot
that follows its position computes the match functions. -/
theorem matchEngineComputesTheMatchFunctions : Obligations.MatchEngineComputesTheMatchFunctions := by
  unfold Obligations.MatchEngineComputesTheMatchFunctions
  rintro data z rfl
  have hfed : LzFed (data.foldl (fun z b => (lzByte b z).2) Lz.fresh) :=
    List.foldlRecOn data _ lzFed_fresh fun z hz b _ => (lzByte_fed b hz).1
  obtain ⟨-, ⟨-, hpending, hfollows⟩⟩ := hfed
  exact ⟨hpending.depth, fun k c hk => slotComputes_of_follows (candOk_iff.1 (hpending.cand k c hk)) (hfollows k c hk)⟩

end Sys2Proof.Proofs
end

