-- ==== Sys2Proof/Proofs/CanonicalTables.lean ====
section
/-! PROOFS. Every code of a table that `mktable` builds fits its length, so that the table can be read and every
encoding reads back (42_huffman.md R196, R200, R201). -/

namespace Sys2Proof.Proofs

open Sys2Proof.Laws

/-! ## The Kraft sum -/

/-- What a code of `l` bits takes of the Kraft sum. -/
def kraftShare (l : Nat) : Nat := if l = 0 then 0 else 2 ^ (15 - l)

theorem kraftShare_of_ne_zero {l : Nat} (h : l ≠ 0) : kraftShare l = 2 ^ (15 - l) := if_neg h

theorem kraftSum_eq (lens : List Nat) : kraftSum lens = (lens.map kraftShare).sum := rfl

theorem kraftSum_cons (l : Nat) (ls : List Nat) : kraftSum (l :: ls) = kraftShare l + kraftSum ls := rfl

theorem kraftSum_filter_le (p : Nat → Bool) (lens : List Nat) : kraftSum (lens.filter p) ≤ kraftSum lens :=
  (List.filter_sublist.map kraftShare).sum_le_sum fun _ _ => Nat.zero_le _

theorem kraftSum_filter_zero (lens : List Nat) : kraftSum (lens.filter (· ≤ 0)) = 0 :=
  List.sum_eq_zero (by simp +contextual)

/-- The Kraft sum of the lengths up to `m + 1` adds the share of each code of `m + 1` bits. -/
theorem kraftSum_filter_succ (lens : List Nat) (m : Nat) : kraftSum (lens.filter (· ≤ m + 1)) =
    kraftSum (lens.filter (· ≤ m)) + lens.count (m + 1) * kraftShare (m + 1) := by
  induction lens with
  | nil => simp [kraftSum]
  | cons l ls ih =>
    rw [List.filter_cons, List.filter_cons, List.count_cons]
    rcases Nat.lt_trichotomy l (m + 1) with h | rfl | h
    · rw [if_pos (by simpa using h.le), if_pos (by simpa using Nat.le_of_lt_succ h), if_neg (by simpa using h.ne),
        Nat.add_zero (ls.count _), kraftSum_cons, kraftSum_cons, ih, Nat.add_assoc]
    · rw [if_pos (by simp), if_neg (by simp), if_pos (by simp), kraftSum_cons, ih, Nat.succ_mul, Nat.add_comm,
        Nat.add_assoc]
    · rw [if_neg (by simpa using h), if_neg (by simpa using Nat.lt_of_succ_lt h), if_neg (by simpa using h.ne'),
        Nat.add_zero (ls.count _), ih]

/-- A code takes as much as two codes one bit longer. -/
theorem two_mul_kraftShare_succ {l : Nat} (h1 : 1 ≤ l) (h : l < 15) : 2 * kraftShare (l + 1) = kraftShare l := by
  rw [kraftShare_of_ne_zero (Nat.succ_ne_zero l), kraftShare_of_ne_zero (Nat.ne_of_gt h1), ← Nat.pow_succ']
  congr 1
  omega

/-! ## Codes within their lengths -/

theorem firstCodes_one (lens : List Nat) : (firstCodes lens).getD 1 0 = 0 := rfl

/-- The codes of `m + 1` bits end where the Kraft sum of the lengths so far ends. -/
theorem firstCodes_add_count_mul (lens : List Nat) {m : Nat} (h : m < 15) :
    ((firstCodes lens).getD (m + 1) 0 + lens.count (m + 1)) * kraftShare (m + 1) =
      kraftSum (lens.filter (· ≤ m + 1)) := by
  rw [kraftSum_filter_succ, Nat.add_mul]
  congr 1
  induction m with
  | zero => rw [kraftSum_filter_zero, firstCodes_one, Nat.zero_mul]
  | succ m ih =>
    rw [firstCodes_succ lens (Nat.succ_pos m) h, Nat.mul_assoc, two_mul_kraftShare_succ (Nat.succ_pos m) h, Nat.add_mul,
      ih (by omega), kraftSum_filter_succ]

/-- Where the lengths are not over-subscribed every code fits its length (R200, R201). -/
theorem code_lt_of_mem_codes {lens : List Nat} (hl : ∀ l ∈ lens, l ≤ 15) (hk : kraftSum lens ≤ 2 ^ 15) {c : Code}
    (hc : c ∈ codes lens) : c.code < 2 ^ c.len := by
  obtain ⟨hpos, hsym⟩ := mem_codes hc
  have h15 := hl _ (List.mem_of_getElem? hsym)
  obtain ⟨m, hm⟩ := Nat.exists_eq_succ_of_ne_zero hpos
  have hcount : (lens.take c.sym).count c.len < lens.count c.len := by
    simpa using count_take_lt hsym (List.getElem?_eq_some_iff.1 hsym).1
  have hspent : ((firstCodes lens).getD c.len 0 + lens.count c.len) * kraftShare c.len ≤ 2 ^ 15 := by
    rw [hm, firstCodes_add_count_mul lens (by omega)]
    exact Nat.le_trans (kraftSum_filter_le _ lens) hk
  rw [kraftShare_of_ne_zero hpos, ← pow_mul_pow_sub 2 h15] at hspent
  calc c.code < (firstCodes lens).getD c.len 0 + lens.count c.len := by
        rw [code_of_mem_codes hl hc]; exact Nat.add_lt_add_left hcount _
    _ ≤ 2 ^ c.len := Nat.le_of_mul_le_mul_right hspent (Nat.two_pow_pos _)

/-- Every table that `mktable` builds can be read (R201). -/
theorem readable_of_mkTable {lens : List Nat} {t : Table} (hl : ∀ l ∈ lens, l ≤ 15) (h : mkTable lens = some t) :
    Readable t := by
  obtain ⟨hk, rfl⟩ := mkTable_eq_some.1 h
  exact readable_codes hl fun _ hc => code_lt_of_mem_codes hl hk hc

/-- Settles O7: the codes of a length end within the Kraft sum, and longer codes begin behind them. -/
theorem canonicalCodesArePrefixFree : Obligations.CanonicalCodesArePrefixFree := by
  unfold Obligations.CanonicalCodesArePrefixFree
  intro lens t hl h
  have ht := readable_of_mkTable hl h
  obtain ⟨-, rfl⟩ := mkTable_eq_some.1 h
  exact ⟨fun c hc => ⟨ht.len_pos c hc, ht.code_lt c hc, (mem_codes hc).2⟩, ht.prefixFree⟩

/-! ## Every encoding reads back -/

/-- Every element that has words in readable tables reads back. -/
theorem decodeWords_encodeWire {w : WireTables} {i : Instr} {e : Wire} {words : Words} (hll : Readable w.litLen)
    (hd : Readable w.dist) (hcl : Readable w.codeLen) (h : Spells i e) (henc : encodeWire w e = some words) :
    decodeWords w words = .ok i := by
  cases e with
  | blockHeader f t =>
    obtain ⟨-, rfl⟩ := h
    cases henc
    exact decodeWords_blockHeader w f
  | litLen s x =>
    obtain ⟨hx, hi⟩ := h
    obtain ⟨p, hp, rfl⟩ := Option.map_eq_some_iff.1 henc
    exact decodeWords_encodeSymbol (by decide) hll hx hi hp
  | dist s x =>
    obtain ⟨hx, hi⟩ := h
    obtain ⟨p, hp, rfl⟩ := Option.map_eq_some_iff.1 henc
    exact decodeWords_encodeSymbol (by decide) hd hx hi hp
  | codeLen s x =>
    obtain ⟨hx, hi⟩ := h
    obtain ⟨p, hp, rfl⟩ := Option.map_eq_some_iff.1 henc
    exact decodeWords_encodeSymbol (by decide) hcl hx hi hp

/-- Settles O5: a command by its word, an element by its symbol's code in a readable table and its extra field. -/
theorem canonicalEncodeDecode : Obligations.CanonicalEncodeDecode := by
  unfold Obligations.CanonicalEncodeDecode
  intro ll dl cl w hll hdl hcl _ _ _ htll htdl htcl i words hwf henc
  cases hc : commandOf i with
  | some c =>
    obtain ⟨p, word, data⟩ := c
    obtain rfl : Words.command p word data = words := by simpa [encode_of_commandOf w hc] using henc
    exact congrArg Except.ok (decodeCommand_of_commandOf hc)
  | none =>
    obtain ⟨e, he, heq⟩ := encode_of_wire w hc
    exact decodeWords_encodeWire (readable_of_mkTable hll htll) (readable_of_mkTable hdl htdl)
      (readable_of_mkTable hcl htcl) (spells_of_wireOf hwf he) (heq ▸ henc)

end Sys2Proof.Proofs
end

