-- ==== Sys2Proof/Proofs/LookupStability.lean ====
section
/-! PROOFS. A lookup that has answered keeps its answer when more bits arrive (42_huffman.md R203,
60_exceptions.md R459). -/

namespace Sys2Proof.Proofs

open Sys2Proof.Laws

/-! ## Further bits -/

/-- The first `n` bits do not see the bits behind them. -/
theorem revBits_append {l n : Nat} (h : l ≤ n) (bits hi : Nat) : revBits l (bits + 2 ^ n * hi) = revBits l bits := by
  obtain ⟨k, rfl⟩ := Nat.exists_eq_add_of_le h
  rw [← revBits_mod, Nat.pow_add, Nat.mul_assoc, Nat.add_mul_mod_self_left, revBits_mod]

/-- A search over lengths within the first `n` bits does not see the bits behind them. -/
theorem lookupFrom_append (t : Table) (bits hi : Nat) {k l n : Nat} (h : l + k ≤ n + 1) :
    lookupFrom t (bits + 2 ^ n * hi) k l = lookupFrom t bits k l := by
  induction k generalizing l with
  | zero => rfl
  | succ k ih => rw [lookupFrom, lookupFrom, revBits_append (by omega), ih (by omega)]

/-- A search over more lengths first makes the shorter search. -/
theorem lookupFrom_add (t : Table) (bits k j l : Nat) :
    lookupFrom t bits (k + j) l = (lookupFrom t bits k l).or (lookupFrom t bits j (l + k)) := by
  induction k generalizing l with
  | zero => rw [Nat.zero_add]; rfl
  | succ k ih =>
    rw [Nat.add_right_comm, lookupFrom, lookupFrom, ih, Nat.add_right_comm l 1 k, Nat.add_assoc l k 1]
    split <;> rfl

/-- The lookup answers a symbol exactly where the search over the lengths available finds it. -/
theorem lookup_eq_sym {t : Table} {bits n s l : Nat} :
    lookup t bits n = .sym s l ↔ lookupFrom t bits (min n 15) 1 = some (s, l) := by
  unfold lookup
  split
  · next h => simp [h]
  · next h =>
    rw [h]
    split <;> simp

theorem lookup_eq_bad {t : Table} {bits n : Nat} : lookup t bits n = .bad ↔
    lookupFrom t bits (min n 15) 1 = none ∧ (n < 15 → someCodeContinues t bits n = false) := by
  unfold lookup
  split
  · next h => simp [h]
  · next h => simp [h]

theorem someCodeContinues_eq_false {t : Table} {bits n : Nat} : someCodeContinues t bits n = false ↔
    ∀ c ∈ t, n < c.len → c.code / 2 ^ (c.len - n) ≠ revBits n bits := by
  simp [someCodeContinues]

/-- A code that begins with more bits begins with the first of them. -/
theorem begins_of_begins_append {n k m code bits : Nat} (h : code / 2 ^ m = revBits (n + k) bits) :
    code / 2 ^ (k + m) = revBits n bits := by
  rw [Nat.add_comm, Nat.pow_add, ← Nat.div_div_eq_div_mul, h, revBits_add_div]

section
variable {t : Table} {bits n : Nat} (hi k : Nat)

theorem lookup_append_sym {s l : Nat} (h : lookup t bits n = .sym s l) :
    lookup t (bits + 2 ^ n * hi) (n + k) = .sym s l := by
  rw [lookup_eq_sym] at h ⊢
  obtain ⟨j, hj⟩ : ∃ j, min (n + k) 15 = min n 15 + j := Nat.exists_eq_add_of_le (by omega)
  rw [hj, lookupFrom_add, lookupFrom_append t bits hi (by omega), h, Option.some_or]

/-- Where no code begins with the bits available, none begins with more of them. -/
theorem someCodeContinues_append (h : someCodeContinues t bits n = false) :
    someCodeContinues t (bits + 2 ^ n * hi) (n + k) = false := by
  rw [someCodeContinues_eq_false] at h ⊢
  intro c hc hlen hbegins
  refine h c hc (by omega) ?_
  rw [show c.len - n = k + (c.len - (n + k)) by omega, begins_of_begins_append hbegins,
    revBits_append (Nat.le_refl n)]

/-- Where no code begins with the bits available, no longer code is found in more of them. -/
theorem lookupFrom_append_none {j : Nat} (h : someCodeContinues t bits n = false) :
    lookupFrom t (bits + 2 ^ n * hi) j (n + 1) = none := by
  rw [Option.eq_none_iff_forall_ne_some]
  rintro ⟨s, l⟩ hfound
  obtain ⟨hlo, -, c, hc, rfl, hcode, -⟩ := lookupFrom_some hfound
  refine someCodeContinues_eq_false.1 h c hc hlo ?_
  have hbegins : c.code / 2 ^ 0 = revBits (n + (c.len - n)) (bits + 2 ^ n * hi) := by
    rw [Nat.pow_zero, Nat.div_one, hcode, Nat.add_sub_cancel' (Nat.le_of_succ_le hlo)]
  have := begins_of_begins_append hbegins
  rwa [Nat.add_zero, revBits_append (Nat.le_refl n)] at this

theorem lookup_append_bad (h : lookup t bits n = .bad) : lookup t (bits + 2 ^ n * hi) (n + k) = .bad := by
  obtain ⟨hnone, hcont⟩ := lookup_eq_bad.1 h
  have hfirst : lookupFrom t (bits + 2 ^ n * hi) (min n 15) 1 = none := by
    rw [lookupFrom_append t bits hi (by omega), hnone]
  rcases Nat.lt_or_ge n 15 with hn | hn
  · obtain ⟨j, hj⟩ : ∃ j, min (n + k) 15 = n + j := Nat.exists_eq_add_of_le (by omega)
    rw [Nat.min_eq_left hn.le] at hfirst
    refine lookup_eq_bad.2 ⟨?_, fun _ => someCodeContinues_append hi k (hcont hn)⟩
    rw [hj, lookupFrom_add, hfirst, Nat.add_comm 1 n, lookupFrom_append_none hi (hcont hn), Option.none_or]
  · have hmin : min (n + k) 15 = min n 15 := by omega
    exact lookup_eq_bad.2 ⟨hmin ▸ hfirst, fun hlt => absurd hlt (by omega)⟩

end

/-- Settles O8: a search within the bits available does not see those behind them, and a code that begins with more
bits begins with the ones that already excluded it. -/
theorem lookupIsStable : Obligations.LookupIsStable := by
  unfold Obligations.LookupIsStable
  exact fun t bits n hi k => ⟨fun s l => lookup_append_sym hi k, lookup_append_bad hi k⟩

end Sys2Proof.Proofs
end

