-- ==== Sys2Proof/Proofs/HuffmanCompleteness.lean ====
section
/-! PROOFS. The lengths of a Huffman tree: zero exactly for the inactive symbols, within the limit, and complete
(42_huffman.md R190, R192 to R195, R197, R201). -/

namespace Sys2Proof.Proofs

open Sys2Proof.Machine Sys2Proof.Laws

/-! ## A pool that is merged to the end -/

/-- The pool after its two least nodes have been merged. -/
def mergedPool (a b : HuffNode) (next : Nat) (rest : List HuffNode) : List HuffNode :=
  huffInsert (merged a b next) rest

/-- Up to `k` steps of the loop of `huffraw` merge the pool to a single root (R193). -/
inductive Merges : Nat → Nat → List HuffNode → Prop
  | root (k next : Nat) (x : HuffNode) : Merges k next [x]
  | merge {k next : Nat} {a b : HuffNode} {rest : List HuffNode} (hp : Pool next (a :: b :: rest))
      (h : Merges k (next + 1) (mergedPool a b next rest)) : Merges (k + 1) next (a :: b :: rest)

section
variable {k next fuel : Nat} {a b x : HuffNode} {rest : List HuffNode}

theorem mergedPool_perm : (mergedPool a b next rest).Perm (merged a b next :: rest) := huffInsert_perm _ rest

theorem mergedPool_length : (mergedPool a b next rest).length = rest.length + 1 := mergedPool_perm.length_eq

theorem mem_mergedPool : x ∈ mergedPool a b next rest ↔ x = merged a b next ∨ x ∈ rest := by
  rw [mergedPool_perm.mem_iff, List.mem_cons]

theorem mem_pool_cons_cons : x ∈ a :: b :: rest ↔ (x = a ∨ x = b) ∨ x ∈ rest := by
  rw [List.mem_cons, List.mem_cons, or_assoc]

theorem merges_of_pool {h : List HuffNode} (hp : Pool next h) (hne : h ≠ []) (hk : h.length ≤ k + 1) :
    Merges k next h := by
  induction k generalizing next h with
  | zero =>
    obtain ⟨x, rfl⟩ := List.length_eq_one_iff.1 (Nat.le_antisymm hk (List.length_pos_iff.2 hne))
    exact .root 0 next x
  | succ k ih =>
    match h with
    | [x] => exact .root (k + 1) next x
    | a :: b :: rest =>
      refine .merge hp (ih (pool_merge hp) (List.ne_nil_of_mem (mem_mergedPool.2 (.inl rfl))) ?_)
      rw [mergedPool_length]
      exact Nat.le_of_succ_le_succ hk

/-! ## The depth of a node -/

/-- The depth that up to `fuel` links show for a node of the pool `h`. -/
def nodeDepth (k next fuel : Nat) (h : List HuffNode) (x : HuffNode) : Nat := huffDepth (huffMerge k h next) fuel x.id

theorem nodeDepth_root (k next fuel : Nat) (x : HuffNode) : nodeDepth k next fuel [x] x = 0 := by
  rw [nodeDepth, huffMerge, huffDepth_nil]
  exact nofun

/-- A merged node stands one below the node that takes its place. -/
theorem nodeDepth_of_merged (hp : Pool next (a :: b :: rest)) (hx : x = a ∨ x = b) :
    nodeDepth (k + 1) next (fuel + 1) (a :: b :: rest) x =
      nodeDepth k (next + 1) fuel (mergedPool a b next rest) (merged a b next) + 1 := by
  have ha : next ≠ a.id := Nat.ne_of_gt (hp.below a (by simp))
  have hb : next ≠ b.id := Nat.ne_of_gt (hp.below b (by simp))
  rw [nodeDepth, huffDepth_merge_of_eq hx, huffDepth_merge_of_ne hp ha hb]
  rfl

/-- The other nodes keep their depth. -/
theorem nodeDepth_of_rest (hp : Pool next (a :: b :: rest)) (hx : x ∈ rest) :
    nodeDepth (k + 1) next fuel (a :: b :: rest) x = nodeDepth k (next + 1) fuel (mergedPool a b next rest) x := by
  obtain ⟨ha, hids⟩ := List.nodup_cons.1 hp.ids
  obtain ⟨hb, -⟩ := List.nodup_cons.1 hids
  have hid : x.id ∈ rest.map HuffNode.id := List.mem_map_of_mem hx
  exact huffDepth_merge_of_ne hp (fun h => ha (h ▸ List.mem_cons_of_mem _ hid)) (fun h => hb (h ▸ hid)) fuel

end

/-- Two children take what their parent would. -/
theorem two_pow_sub_succ_add_self {D d : Nat} (h : d + 1 ≤ D) :
    2 ^ (D - (d + 1)) + 2 ^ (D - (d + 1)) = 2 ^ (D - d) := by
  rw [← Nat.two_mul, show D - d = D - (d + 1) + 1 by omega, Nat.pow_succ']

section
variable {k next fuel : Nat} {h : List HuffNode} (hm : Merges k next h)
include hm

/-- As many links as the pool has nodes, less one, show every depth; one more changes nothing. -/
theorem nodeDepth_fuel_succ {x : HuffNode} (hx : x ∈ h) (hf : h.length ≤ fuel + 1) :
    nodeDepth k next (fuel + 1) h x = nodeDepth k next fuel h x := by
  induction hm generalizing fuel x with
  | root k next y =>
    obtain rfl := List.mem_singleton.1 hx
    rw [nodeDepth_root, nodeDepth_root]
  | merge hp hm ih =>
    cases fuel with
    | zero => simp at hf
    | succ fuel =>
      have hf' := Nat.le_of_succ_le_succ hf
      rcases mem_pool_cons_cons.1 hx with hx | hx
      · rw [nodeDepth_of_merged hp hx, nodeDepth_of_merged hp hx, ih (mem_mergedPool.2 (.inl rfl))]
        rwa [mergedPool_length]
      · rw [nodeDepth_of_rest hp hx, nodeDepth_of_rest hp hx, ih (mem_mergedPool.2 (.inr hx))]
        rw [mergedPool_length]
        exact Nat.le_succ_of_le hf'

/-- With two or more nodes, each stands below the root. -/
theorem nodeDepth_pos {x : HuffNode} (hx : x ∈ h) (h2 : 2 ≤ h.length) (hfuel : 0 < fuel) :
    0 < nodeDepth k next fuel h x := by
  obtain ⟨n, rfl⟩ : ∃ n, fuel = n + 1 := ⟨fuel - 1, by omega⟩
  induction hm with
  | root k next y => simp at h2
  | merge hp hm ih =>
    rcases mem_pool_cons_cons.1 hx with hx | hx
    · rw [nodeDepth_of_merged hp hx]
      exact Nat.succ_pos _
    · rw [nodeDepth_of_rest hp hx]
      refine ih (mem_mergedPool.2 (.inr hx)) ?_
      rw [mergedPool_length]
      exact Nat.succ_le_succ (List.length_pos_of_mem hx)

/-- The tree is full: where each node takes `2 ^ (D - depth)` of `2 ^ D`, nothing is left over (R197). -/
theorem sum_two_pow_nodeDepth {D : Nat} (hf : h.length ≤ fuel + 1) (hD : ∀ x ∈ h, nodeDepth k next fuel h x ≤ D) :
    (h.map fun x => 2 ^ (D - nodeDepth k next fuel h x)).sum = 2 ^ D := by
  induction hm with
  | root k next x => simp [nodeDepth_root]
  | @merge k next a b rest hp hm ih =>
    cases fuel with
    | zero => simp at hf
    | succ fuel =>
      have hf' := Nat.le_of_succ_le_succ hf
      have hnew : nodeDepth k (next + 1) (fuel + 1) (mergedPool a b next rest) (merged a b next) =
          nodeDepth k (next + 1) fuel (mergedPool a b next rest) (merged a b next) :=
        nodeDepth_fuel_succ hm (mem_mergedPool.2 (.inl rfl)) (by rwa [mergedPool_length])
      have hpair : ∀ x, x = a ∨ x = b → nodeDepth (k + 1) next (fuel + 1) (a :: b :: rest) x =
          nodeDepth k (next + 1) (fuel + 1) (mergedPool a b next rest) (merged a b next) + 1 := fun x hx => by
        rw [nodeDepth_of_merged hp hx, hnew]
      have hrest : ∀ x ∈ rest, nodeDepth (k + 1) next (fuel + 1) (a :: b :: rest) x =
          nodeDepth k (next + 1) (fuel + 1) (mergedPool a b next rest) x := fun x hx => nodeDepth_of_rest hp hx
      have hDa := hpair a (.inl rfl) ▸ hD a (by simp)
      have hsum := ih (by rw [mergedPool_length]; exact Nat.le_succ_of_le hf') fun x hx => by
        rcases mem_mergedPool.1 hx with rfl | hx
        · exact Nat.le_of_succ_le hDa
        · exact hrest x hx ▸ hD x (by simp [hx])
      rw [(mergedPool_perm.map _).sum_eq, List.map_cons, List.sum_cons] at hsum
      rw [List.map_cons, List.map_cons, List.sum_cons, List.sum_cons, hpair a (.inl rfl), hpair b (.inr rfl),
        ← Nat.add_assoc, two_pow_sub_succ_add_self hDa, List.map_congr_left fun x hx => by rw [hrest x hx]]
      exact hsum

end

/-! ## The lengths of `huffraw` -/

theorem huffLeaves_length (f : List Nat) : (huffLeaves f).length = activeCount f := by
  rw [(huffLeaves_perm f).length_eq, leafNodes, List.length_map, activeCount]
  conv_rhs => rw [← List.zipIdx_map_fst 0 f, List.filter_map, List.length_map]
  rfl

/-- The depth of a leaf in the tree of `f`. -/
def leafDepth (f : List Nat) (x : HuffNode) : Nat :=
  nodeDepth (activeCount f) f.length (activeCount f) (huffLeaves f) x

theorem huffLeaves_merges {f : List Nat} (h : activeCount f ≠ 0) :
    Merges (activeCount f) f.length (huffLeaves f) := by
  refine merges_of_pool (huffLeaves_pool f) (List.length_pos_iff.1 ?_) ?_
  · rw [huffLeaves_length]; exact Nat.pos_of_ne_zero h
  · rw [huffLeaves_length]; exact Nat.le_succ _

theorem huffRaw_single {f : List Nat} (h : activeCount f = 1) : huffRaw f = f.map fun w => if w = 0 then 0 else 1 := by
  rw [huffRaw, if_pos h]

section
variable {f : List Nat} (h : activeCount f ≠ 1)
include h

theorem huffRaw_tree : huffRaw f = f.zipIdx.map fun p => if p.1 = 0 then 0 else leafDepth f ⟨p.1, p.2⟩ := by
  rw [huffRaw, if_neg h]
  rfl

theorem leafDepth_pos {x : HuffNode} (hx : x ∈ huffLeaves f) : 0 < leafDepth f x := by
  have hpos := List.length_pos_of_mem hx
  rw [huffLeaves_length] at hpos
  exact nodeDepth_pos (huffLeaves_merges hpos.ne') hx (by rw [huffLeaves_length]; omega) hpos

theorem leafDepth_mem_huffRaw {x : HuffNode} (hx : x ∈ huffLeaves f) : leafDepth f x ∈ huffRaw f := by
  obtain ⟨h0, hp⟩ := mem_huffLeaves.1 hx
  rw [huffRaw_tree h]
  exact List.mem_map.2 ⟨_, hp, if_neg h0⟩

/-- The Kraft sum is that of the leaves' depths. -/
theorem kraftSum_huffRaw_tree :
    kraftSum (huffRaw f) = ((huffLeaves f).map fun x => kraftShare (leafDepth f x)).sum := by
  have hshare : ∀ p ∈ f.zipIdx, kraftShare (if p.1 = 0 then 0 else leafDepth f ⟨p.1, p.2⟩) =
      if p.1 ≠ 0 then kraftShare (leafDepth f ⟨p.1, p.2⟩) else 0 := fun p _ => by
    rw [apply_ite kraftShare, ite_not]
    rfl
  rw [huffRaw_tree h, kraftSum_eq, List.map_map, ((huffLeaves_perm f).map _).sum_eq, leafNodes, List.map_map]
  refine (congrArg List.sum (List.map_congr_left hshare)).trans ?_
  rw [List.sum_map_ite, List.map_const', List.sum_replicate, smul_zero, Nat.add_zero]
  rfl

end

theorem huffRaw_length (f : List Nat) : (huffRaw f).length = f.length := by
  by_cases h : activeCount f = 1
  · rw [huffRaw_single h, List.length_map]
  · rw [huffRaw_tree h, List.length_map, List.length_zipIdx]

/-- A length is zero exactly for a symbol of frequency zero (R190). -/
theorem huffRaw_getD_eq_zero (f : List Nat) (s : Nat) : (huffRaw f).getD s 0 = 0 ↔ f.getD s 0 = 0 := by
  rcases Nat.lt_or_ge s f.length with hs | hs
  · by_cases h : activeCount f = 1
    · simp [huffRaw_single h, List.getD_eq_getElem?_getD, hs]
    · by_cases h0 : f[s] = 0
      · simp [huffRaw_tree h, List.getD_eq_getElem?_getD, hs, h0]
      · have hleaf := leafDepth_pos h (x := ⟨f[s], s⟩)
          (mem_huffLeaves.2 ⟨h0, List.mk_mem_zipIdx_iff_getElem?.2 (List.getElem?_eq_getElem hs)⟩)
        simp [huffRaw_tree h, List.getD_eq_getElem?_getD, hs, h0, hleaf.ne']
  · simp [List.getD_eq_getElem?_getD, hs, huffRaw_length]

theorem kraftSum_single (f : List Nat) :
    kraftSum (f.map fun w => if w = 0 then 0 else 1) = activeCount f * 2 ^ 14 := by
  induction f with
  | nil => rfl
  | cons w f ih =>
    rw [List.map_cons, kraftSum_cons, ih, activeCount_cons, Nat.add_mul, Nat.add_comm]
    by_cases hw : w = 0 <;> simp [hw, kraftShare]

/-- The lengths of two or more active symbols are complete (R197). -/
theorem kraftSum_huffRaw {f : List Nat} (h2 : 2 ≤ activeCount f) (h15 : ∀ l ∈ huffRaw f, l ≤ 15) :
    kraftSum (huffRaw f) = 2 ^ 15 := by
  have h1 : activeCount f ≠ 1 := by omega
  rw [kraftSum_huffRaw_tree h1,
    List.map_congr_left fun x hx => kraftShare_of_ne_zero (leafDepth_pos h1 hx).ne']
  exact sum_two_pow_nodeDepth (huffLeaves_merges (by omega)) (by rw [huffLeaves_length]; exact Nat.le_succ _)
    fun x hx => h15 _ (leafDepth_mem_huffRaw h1 hx)

/-- The lengths are never over-subscribed: a single symbol takes half of the codes, and no symbol takes none (R192,
R197). -/
theorem kraftSum_huffRaw_le {f : List Nat} (h15 : ∀ l ∈ huffRaw f, l ≤ 15) : kraftSum (huffRaw f) ≤ 2 ^ 15 := by
  rcases Nat.lt_or_ge (activeCount f) 2 with h | h
  · by_cases h1 : activeCount f = 1
    · rw [huffRaw_single h1, kraftSum_single, h1]
      decide
    · have hnil : huffLeaves f = [] := List.length_eq_zero_iff.1 (by rw [huffLeaves_length]; omega)
      rw [kraftSum_huffRaw_tree h1, hnil]
      exact Nat.zero_le _
  · exact (kraftSum_huffRaw h h15).le

/-! ## The lengths of `hufflimited` -/

theorem activeCount_raised (f : List Nat) (c : Nat) :
    activeCount (f.map fun w => if w = 0 then 0 else w + c) = activeCount f := by
  induction f with
  | nil => rfl
  | cons w f ih =>
    rw [List.map_cons, activeCount_cons, activeCount_cons, ih]
    by_cases hw : w = 0 <;> simp [hw]

/-- `hufflimited` is `huffraw` of frequencies with the same active symbols (R194). -/
theorem huffLimited_eq_huffRaw (f : List Nat) (limit : Nat) : ∃ g, huffLimited f limit = huffRaw g ∧
    g.length = f.length ∧ activeCount g = activeCount f ∧ ∀ s, g.getD s 0 = 0 ↔ f.getD s 0 = 0 := by
  unfold huffLimited
  dsimp only
  split
  · exact ⟨f, rfl, rfl, rfl, fun s => Iff.rfl⟩
  · refine ⟨_, rfl, List.length_map _, activeCount_raised f _, fun s => ?_⟩
    rcases Nat.lt_or_ge s f.length with hs | hs
    · by_cases h0 : f[s] = 0 <;> simp [List.getD_eq_getElem?_getD, hs, h0]
    · simp [List.getD_eq_getElem?_getD, hs]

/-- Both limits hold for the alphabets they are used with. -/
theorem huffLimited_within {f : List Nat} {limit : Nat} (h : limit = 15 ∧ f.length ≤ 286 ∨ limit = 7 ∧ f.length ≤ 19) :
    ∀ l ∈ huffLimited f limit, l ≤ limit := by
  obtain ⟨rfl, hf⟩ | ⟨rfl, hf⟩ := h
  · exact huffLimited_main_le hf
  · exact huffLimited_aux_le hf

/-- Settles O51: the Fibonacci bound on a leaf's depth gives the limit, and two or more leaves stand below the root. -/
theorem huffmanLengthsWithinTheLimit : Obligations.HuffmanLengthsWithinTheLimit := by
  unfold Obligations.HuffmanLengthsWithinTheLimit
  intro f limit h
  refine ⟨huffLimited_within h, ?_⟩
  obtain ⟨g, hg, hlen, -, hzero⟩ := huffLimited_eq_huffRaw f limit
  rw [hg]
  exact ⟨(huffRaw_length g).trans hlen, fun s _ => (huffRaw_getD_eq_zero g s).trans (hzero s)⟩

/-- Settles O52: the tree of two or more symbols is full, and a code of fewer is not over-subscribed. -/
theorem huffmanCodesAreComplete : Obligations.HuffmanCodesAreComplete := by
  unfold Obligations.HuffmanCodesAreComplete
  intro f limit h
  have h15 : ∀ l ∈ huffLimited f limit, l ≤ 15 := fun l hl => Nat.le_trans (huffLimited_within h l hl) (by omega)
  rw [mkTable_eq_some]
  obtain ⟨g, hg, -, hcount, -⟩ := huffLimited_eq_huffRaw f limit
  rw [hg] at h15 ⊢
  exact ⟨fun h2 => kraftSum_huffRaw (hcount ▸ h2) h15, kraftSum_huffRaw_le h15, rfl⟩

end Sys2Proof.Proofs
end

