-- ==== Sys2Proof/Proofs/FeedSplitting.lean ====
section
/-! PROOFS. Splitting the input of a context with NONE feeds changes nothing (43_block_chooser.md R230): neither the
bytes in BW.OUT nor C.ADLER are read before the trailer, and the engine takes its input byte by byte. -/

namespace Sys2Proof.Proofs

open Sys2Proof.Machine Sys2Proof.Laws

/-! ## The bit writer only appends to its output -/

/-- The writer with the bytes `o` before BW.OUT. -/
def prependOut (o : List Byte) (w : BitWriter) : BitWriter := { w with out := o ++ w.out }

theorem spillBytes_prependOut (k : Nat) (o : List Byte) (w : BitWriter) :
    spillBytes k (prependOut o w) = prependOut o (spillBytes k w) := by
  induction k generalizing w with
  | zero => rfl
  | succ k ih =>
    rw [spillBytes, spillBytes, ← ih]
    simp only [prependOut, List.append_assoc]

@[simp] theorem put_prependOut (v n : Nat) (o : List Byte) (w : BitWriter) :
    put v n (prependOut o w) = prependOut o (put v n w) :=
  spillBytes_prependOut ((w.n + n) / 8) o
    { w with acc := w.acc ||| (BitVec.ofNat Config.accW v <<< w.n), n := w.n + n }

@[simp] theorem putCode_prependOut (c n : Nat) (o : List Byte) (w : BitWriter) :
    putCode c n (prependOut o w) = prependOut o (putCode c n w) := put_prependOut _ n o w

@[simp] theorem alignWriter_prependOut (o : List Byte) (w : BitWriter) :
    alignWriter (prependOut o w) = prependOut o (alignWriter w) := by
  unfold alignWriter
  rw [put_prependOut]
  exact (apply_ite (prependOut o) _ _ _).symm

@[simp] theorem putSlot_prependOut (ll d cl : Table) (o : List Byte) (w : BitWriter) (x : Slot) :
    putSlot ll d cl (prependOut o w) x = prependOut o (putSlot ll d cl w x) := by
  cases x with
  | extra n v => exact put_prependOut v n o w
  | _ => exact putCode_prependOut _ _ o w

@[simp] theorem putSlots_prependOut (ll d cl : Table) (o : List Byte) (w : BitWriter) (b : List Slot) :
    b.foldl (putSlot ll d cl) (prependOut o w) = prependOut o (b.foldl (putSlot ll d cl) w) :=
  List.foldl_hom (prependOut o) fun w x => putSlot_prependOut ll d cl o w x

@[simp] theorem putHeader_prependOut (t : DynTables) (bfinal : Bool) (o : List Byte) (w : BitWriter) :
    putHeader t bfinal (prependOut o w) = prependOut o (putHeader t bfinal w) := by
  have lengths : ∀ (order : List Nat) w, order.foldl (fun w s => put (t.clLens.getD s 0) 3 w) (prependOut o w) =
      prependOut o (order.foldl (fun w s => put (t.clLens.getD s 0) 3 w) w) := fun order w =>
    List.foldl_hom (prependOut o) fun w s => put_prependOut _ 3 o w
  simp only [putHeader, put_prependOut, lengths, putSlots_prependOut]

@[simp] theorem emitDynamic_prependOut (b : List Slot) (bfinal : Bool) (o : List Byte) (w : BitWriter) :
    emitDynamic b bfinal (prependOut o w) = prependOut o (emitDynamic b bfinal w) := by
  simp only [emitDynamic, putHeader_prependOut, putSlots_prependOut, putSlot_prependOut]

/-! ## What the engine and the emission do not read -/

/-- The context with the bytes `o` before BW.OUT, and C.ADLER changed by `f`. -/
def rebase (o : List Byte) (f : Word32 → Word32) (c : CuCtx) : CuCtx :=
  { c with adler := f c.adler, bw := prependOut o c.bw }

theorem rebase_rebase (o o' : List Byte) (f f' : Word32 → Word32) (c : CuCtx) :
    rebase o f (rebase o' f' c) = rebase (o ++ o') (f ∘ f') c := by
  simp only [rebase, prependOut, List.append_assoc, Function.comp]

theorem drainFor_rebase (last : Bool) (k : Nat) (o : List Byte) (f : Word32 → Word32) (c : CuCtx) :
    drainFor last k (rebase o f c) = rebase o f (drainFor last k c) := by
  induction k generalizing c with
  | zero => rfl
  | succ k ih =>
    by_cases h0 : c.sym.n = 0
    · have h0' : (rebase o f c).sym.n = 0 := h0
      rw [drainFor, drainFor, if_pos h0, if_pos h0']
    · have h0' : (rebase o f c).sym.n ≠ 0 := h0
      rw [drainFor, drainFor, if_neg h0, if_neg h0', ← ih]
      simp only [rebase, emitDynamic_prependOut]

@[simp] theorem drain_rebase (last : Bool) (o : List Byte) (f : Word32 → Word32) (c : CuCtx) :
    drain last (rebase o f c) = rebase o f (drain last c) := drainFor_rebase last _ o f c

theorem append_rebase (o : List Byte) (f : Word32 → Word32) (c : CuCtx) (t : Token) :
    append (rebase o f c) t = rebase o f (append c t) := by
  unfold append
  rw [apply_ite (rebase o f), ← drain_rebase]
  rfl

theorem appendAll_rebase (r : List Token × Lz) (o : List Byte) (f : Word32 → Word32) (c : CuCtx) :
    appendAll r (rebase o f c) = rebase o f (appendAll r c) :=
  List.foldl_hom (rebase o f) (init := { c with lz := r.2 }) fun c t => append_rebase o f c t

@[simp] theorem cuFlush_rebase (o : List Byte) (f : Word32 → Word32) (c : CuCtx) :
    cuFlush (rebase o f c) = rebase o f (cuFlush c) := appendAll_rebase _ o f c

@[simp] theorem cuBytes_rebase (data : List Byte) (o : List Byte) (f : Word32 → Word32) (c : CuCtx) :
    data.foldl cuByte (rebase o f c) = rebase o f (data.foldl cuByte c) :=
  List.foldl_hom (rebase o f) fun c b => appendAll_rebase (lzByte b c.lz) o f c

/-! ## Feeds do not read what stands in BW.OUT -/

theorem cuHeader_of_started {c : CuCtx} (h : c.first = false) : cuHeader c = c := by
  simp only [cuHeader, h, Bool.false_eq_true, if_false]

/-- The common part of a feed, with its checksum taken after the engine has run. -/
theorem feedCommon_eq (data : List Byte) (c : CuCtx) : feedCommon data c =
    rebase [] (fun a => adlerInMode c.mode a data) (data.foldl cuByte (cuHeader c)) := by
  rw [← cuBytes_rebase]
  have hmode : (cuHeader c).mode = c.mode := by rw [cuHeader_frame]
  rw [← hmode]
  rfl

theorem feedCommon_flags (data : List Byte) (c : CuCtx) :
    (feedCommon data c).mode = c.mode ∧ (feedCommon data c).first = false ∧
      (feedCommon data c).finished = c.finished := by
  have hcontrol := cuBytes_control data (cuHeader c)
  rw [cuHeader_frame] at hcontrol
  simp only [control, Prod.mk.injEq] at hcontrol
  obtain ⟨hmode, hfirst, hfin, -, -⟩ := hcontrol
  rw [feedCommon_eq, cuHeader_frame]
  exact ⟨hmode, hfirst, hfin⟩

/-- Two feeds are one feed of the data joined, before the output is taken. -/
theorem feedCommon_feedCommon (a b : List Byte) (c : CuCtx) :
    feedCommon b (feedCommon a c) = feedCommon (a ++ b) c := by
  obtain ⟨hmode, hfirst, -⟩ := feedCommon_flags a c
  rw [feedCommon_eq b, hmode, cuHeader_of_started hfirst, feedCommon_eq a, cuBytes_rebase, rebase_rebase, feedCommon_eq,
    List.foldl_append]
  simp only [Function.comp_def, adlerInMode_append, List.append_nil]

/-- A function of a context that neither reads nor changes the bytes already in BW.OUT. -/
def KeepsOutBefore (g : CuCtx → CuCtx) : Prop := ∀ o c, g (rebase o id c) = rebase o id (g c)

theorem feedCommon_rebase (data : List Byte) (o : List Byte) {c : CuCtx} (h : c.first = false) :
    feedCommon data (rebase o id c) = rebase o id (feedCommon data c) := by
  rw [feedCommon_eq, feedCommon_eq, cuHeader_of_started h, cuHeader_of_started (c := rebase o id c) h, cuBytes_rebase,
    rebase_rebase, rebase_rebase, List.append_nil]
  rfl

theorem cuSync_keepsOutBefore : KeepsOutBefore cuSync := by
  intro o c
  simp only [cuSync, cuFlush_rebase, drain_rebase]
  simp only [emitStoredEmpty, rebase, put_prependOut, alignWriter_prependOut]

theorem cuLastBlock_keepsOutBefore : KeepsOutBefore cuLastBlock := by
  intro o c
  unfold cuLastBlock
  rw [apply_ite (rebase o id), ← drain_rebase]
  simp only [emitStaticEmpty, rebase, put_prependOut, putCode_prependOut]

theorem cuTrailer_keepsOutBefore : KeepsOutBefore cuTrailer := by
  intro o c
  unfold cuTrailer
  cases hm : c.mode with
  | bare => simp only [rebase, hm]
  | zlib => simp only [rebase, hm, id, put_prependOut]

theorem setCLastBlock_rebase (o : List Byte) (f : Word32 → Word32) (c : CuCtx) :
    setCLastBlock (rebase o f c) = rebase o f (setCLastBlock c) := rfl

theorem setFinished_rebase (o : List Byte) (f : Word32 → Word32) (c : CuCtx) :
    setFinished (rebase o f c) = rebase o f (setFinished c) := rfl

theorem cuFinish_keepsOutBefore : KeepsOutBefore cuFinish := by
  intro o c
  have align : ∀ c, ({ rebase o id c with bw := alignWriter (rebase o id c).bw } : CuCtx) =
      rebase o id { c with bw := alignWriter c.bw } := fun c => by simp only [rebase, alignWriter_prependOut]
  unfold cuFinish
  dsimp only
  rw [cuFlush_rebase, setCLastBlock_rebase, cuLastBlock_keepsOutBefore, align, cuTrailer_keepsOutBefore,
    setFinished_rebase]

/-! ## Two feeds against one -/

theorem cuFeed_accepted {f : CuCtx → CuCtx} {s : State} {c : CuCtx} (hc : s.cu = some c) (hfin : c.finished = false) :
    cuFeed f s = .next (takeOutput (f c) s) := by
  simp [cuFeed, hc, hfin]

/-- The context that `take()` leaves (40_bitio.md R143). -/
def taken (c : CuCtx) : CuCtx := { c with bw := { c.bw with out := [] } }

theorem rebase_taken (c : CuCtx) : rebase c.bw.out id (taken c) = c := by
  simp only [rebase, prependOut, taken, List.append_nil, id]

/-- After a NONE feed of `a`, a feed of `b` that ends with `g` does what one feed of `a ++ b` ending with `g` does. -/
theorem cuFeed_split {g : CuCtx → CuCtx} (hg : KeepsOutBefore g) {s : State} {c : CuCtx} (a b : List Byte)
    (hc : s.cu = some c) (hfin : c.finished = false) : ∃ s₁ s₂ t o₁ o₂, cuFeed (feedCommon a) s = .next s₁ ∧
      cuFeed (fun c => g (feedCommon b c)) s₁ = .next s₂ ∧ cuFeed (fun c => g (feedCommon (a ++ b) c)) s = .next t ∧
      s₁.replies = s.replies ++ [.cu o₁] ∧ s₂.replies = s₁.replies ++ [.cu o₂] ∧
      t.replies = s.replies ++ [.cu (o₁ ++ o₂)] ∧ t.cu = s₂.cu := by
  obtain ⟨-, hfirst, hfin₁⟩ := feedCommon_flags a c
  have hjoin : g (feedCommon (a ++ b) c) =
      rebase (feedCommon a c).bw.out id (g (feedCommon b (taken (feedCommon a c)))) := by
    rw [← hg, ← feedCommon_rebase b _ (c := taken _) hfirst, rebase_taken, feedCommon_feedCommon]
  refine ⟨_, _, _, _, _, cuFeed_accepted hc hfin, cuFeed_accepted rfl (hfin₁.trans hfin), cuFeed_accepted hc hfin,
    rfl, rfl, ?_⟩
  rw [hjoin]
  exact ⟨rfl, rfl⟩

/-- Settles O19: the output before a feed is not read by it, so the answer of one feed is the answers of two joined. -/
theorem streamingInvariance : Obligations.StreamingInvariance := by
  unfold Obligations.StreamingInvariance
  intro s c a b i j hc hfin hij
  obtain ⟨rfl, rfl⟩ | ⟨rfl, rfl⟩ | ⟨rfl, rfl⟩ := hij
  · exact cuFeed_split (g := id) (fun _ _ => rfl) a b hc hfin
  · exact cuFeed_split cuSync_keepsOutBefore a b hc hfin
  · exact cuFeed_split cuFinish_keepsOutBefore a b hc hfin

end Sys2Proof.Proofs
end

