-- ==== Sys2Proof/Proofs/TokenCodes.lean ====
section
/-! PROOFS. The symbols of a length and a distance are those whose range holds them (43_block_chooser.md R223). -/

namespace Sys2Proof.Proofs

open Sys2Proof.Machine Sys2Proof.Laws

/-- Where the bases rise, the entries at most `v` are those up to `lastAtMost`. -/
theorem getD_le_iff_le_lastAtMost {bases : List Nat} {v k : Nat} (hrise : bases.Pairwise (· < ·))
    (h0 : bases.getD 0 0 ≤ v) (hk : k < bases.length) : bases.getD k 0 ≤ v ↔ k ≤ lastAtMost bases v := by
  obtain ⟨hlt, hle, hgt⟩ := lastAtMost_spec h0 (Nat.zero_lt_of_lt hk)
  constructor
  · intro hv
    by_contra hlast
    have := hgt k (Nat.lt_of_not_le hlast) hk
    omega
  · intro hlast
    obtain rfl | hlast := Nat.eq_or_lt_of_le hlast
    · exact hle
    · have hbelow := List.pairwise_iff_getElem.1 hrise k _ hk hlt hlast
      rw [← List.getD_eq_getElem _ 0 hk, ← List.getD_eq_getElem _ 0 hlt] at hbelow
      omega

/-- A length below 258 has the largest symbol up to 27 whose base it reaches (R223). -/
theorem lcode_largest {l : Nat} (h3 : Config.minMatch ≤ l) (hmax : l ≠ Config.maxMatch) :
    lcode l ≤ 27 ∧ ∀ k ≤ 27, lenBase.getD k 0 ≤ l ↔ k ≤ lcode l := by
  rw [lcode, if_neg hmax]
  have hlen : (lenBase.take 28).length = 28 := by decide
  have htake : ∀ k ≤ 27, (lenBase.take 28).getD k 0 = lenBase.getD k 0 := by decide
  obtain ⟨hlt, -, -⟩ := lastAtMost_spec (bases := lenBase.take 28) h3 (by decide)
  refine ⟨Nat.le_of_lt_succ (hlen ▸ hlt), fun k hk => ?_⟩
  rw [← htake k hk]
  exact getD_le_iff_le_lastAtMost (by decide) h3 (hlen.symm ▸ Nat.lt_succ_of_le hk)

/-- A distance has the largest symbol up to 29 whose base it reaches (R223). -/
theorem dcode_largest {d : Nat} (h1 : 1 ≤ d) : ∀ j ≤ 29, distBase.getD j 0 ≤ d ↔ j ≤ dcode d := fun j hj =>
  have hlen : distBase.length = 30 := by decide
  getD_le_iff_le_lastAtMost (by decide) h1 (hlen.symm ▸ Nat.lt_succ_of_le hj)

/-- The length of R113 from the code and the extra field of R223. -/
theorem matchLength_lcode {l : Nat} (hle : lenBase.getD (lcode l) 0 ≤ l) :
    matchLength (257 + lcode l) (l - lenBase.getD (lcode l) 0) = l := by
  rw [matchLength, lengthBase, Nat.add_sub_cancel_left, Nat.add_sub_cancel' hle]

/-- The distance of R113 from the code and the extra field of R223. -/
theorem matchDistance_dcode {d : Nat} (hle : distBase.getD (dcode d) 0 ≤ d) :
    matchDistance (dcode d) (d - distBase.getD (dcode d) 0) = d := Nat.add_sub_cancel' hle

/-- Settles O54: the bases rise, so the last one reached marks the symbol's range. -/
theorem lengthAndDistanceCodes : Obligations.LengthAndDistanceCodes := by
  unfold Obligations.LengthAndDistanceCodes
  constructor
  · intro l h3 hmax
    obtain ⟨-, hle, hrest⟩ := lcode_spec h3 hmax
    exact ⟨fun h => if_pos h, lcode_largest h3, hrest, matchLength_lcode hle⟩
  · intro d h1 hmax
    obtain ⟨h29, hle, hrest⟩ := dcode_spec h1 hmax
    exact ⟨h29, dcode_largest h1, hrest, matchDistance_dcode hle⟩

end Sys2Proof.Proofs
end

