-- ==== Sys2Proof/Proofs/BlockChooser.lean ====
section
/-! PROOFS. The incremental scan of the chooser computes the estimate of every prefix, and its comparisons find the
candidate boundary of least ratio (43_block_chooser.md R227, R228). -/

namespace Sys2Proof.Proofs

open Sys2Proof.Machine Sys2Proof.Laws

/-! ## The scan's tallies -/

/-- Sums over a range whose terms differ at `k` only. -/
theorem sum_range_of_eq_except {n k : Nat} {f g : Nat → Nat} (hk : k < n) (h : ∀ i, i ≠ k → g i = f i) :
    ((List.range n).map g).sum + f k = ((List.range n).map f).sum + g k := by
  have hrest : ((List.range n).erase k).map g = ((List.range n).erase k).map f :=
    List.map_congr_left fun i hi => h i (List.nodup_range.mem_erase_iff.1 hi).1
  rw [← List.sum_map_erase g (List.mem_range.2 hk), ← List.sum_map_erase f (List.mem_range.2 hk), hrest]
  omega

/-- What the scan keeps of one kind of symbol (R228): a memory of the counts, their total, and the sum of their xlog. -/
structure Tally (n : Nat) (count : Nat → Nat) (m : Mem Nat) (total sum : Nat) : Prop where
  wf : Memory.wf 0 m = true
  reads : ∀ s, memRead 0 m s = count s
  total : total = ((List.range n).map count).sum
  sum : sum = ((List.range n).map fun s => xlog (count s)).sum

theorem tally_none (n : Nat) : Tally n (fun _ => 0) [] 0 0 where
  wf := wf_nil
  reads := fun _ => rfl
  total := by simp
  sum := by simp [xlog]

theorem Tally.congr {n : Nat} {f g : Nat → Nat} {m : Mem Nat} {total sum : Nat} (h : Tally n f m total sum)
    (hg : ∀ s, g s = f s) : Tally n g m total sum := by
  obtain rfl : g = f := funext hg
  exact h

/-- One more symbol `k`: the sum of xlog changes by the difference at `k`. -/
theorem Tally.succ {n k : Nat} {f g : Nat → Nat} {m : Mem Nat} {total sum : Nat} (h : Tally n f m total sum)
    (hk : k < n) (hg : ∀ s, g s = f s + if k = s then 1 else 0) :
    Tally n g (memWrite 0 m k (memRead 0 m k + 1)) (total + 1)
      (sum + xlog (memRead 0 m k + 1) - xlog (memRead 0 m k)) := by
  obtain ⟨hwf, hreads, rfl, rfl⟩ := h
  have hsame : g k = f k + 1 := by rw [hg, if_pos rfl]
  have hother : ∀ s, s ≠ k → g s = f s := fun s hs => by rw [hg, if_neg hs.symm, Nat.add_zero]
  have htotal := sum_range_of_eq_except hk hother
  have hsum := sum_range_of_eq_except (f := fun s => xlog (f s)) (g := fun s => xlog (g s)) hk
    fun s hs => congrArg xlog (hother s hs)
  rw [hsame] at htotal hsum
  rw [hreads]
  refine ⟨wf_memWrite _ _ hwf, fun s => ?_, by omega, by omega⟩
  rw [memRead_memWrite _ _ _ hwf, hreads]
  split
  · next he => rw [← he, hsame]
  · next he => rw [hother s (Ne.symm he)]

/-- The scan after the slots `b` (R228). -/
structure ScanOf (b : List Slot) (c : Scan) : Prop where
  litLen : Tally 288 (countLitLen b) c.fll c.nll c.sll
  dist : Tally 32 (countDist b) c.fd c.nd c.sd
  extra : c.x = (b.map Slot.extraBits).sum

theorem scanOf_fresh : ScanOf [] Scan.fresh where
  litLen := tally_none 288
  dist := tally_none 32
  extra := rfl

/-- One more legal slot: its own tally moves, the other stands (R228). -/
theorem scanOf_scanSlot {b : List Slot} {c : Scan} {x : Slot} (h : ScanOf b c) (hx : x.legal = true) :
    ScanOf (b ++ [x]) (scanSlot c x) := by
  obtain ⟨hlitLen, hdist, hextra⟩ := h
  have hcount : ∀ y, (b ++ [x]).count y = b.count y + if x = y then 1 else 0 := fun y => by
    simp only [List.count_append, List.count_singleton, beq_iff_eq]
  have hbits : ((b ++ [x]).map Slot.extraBits).sum = c.x + x.extraBits := by simp [hextra]
  cases x with
  | litLen s =>
    simp only [Slot.legal, Bool.and_eq_true, decide_eq_true_eq] at hx
    have hmoved : ∀ t, countLitLen (b ++ [.litLen s]) t = countLitLen b t + if s = t then 1 else 0 := fun t => by
      simp only [countLitLen, hcount, Slot.litLen.injEq]
    exact ⟨hlitLen.succ (by omega) hmoved, hdist.congr fun t => hcount _, hbits.symm⟩
  | dist s =>
    simp only [Slot.legal, decide_eq_true_eq] at hx
    have hmoved : ∀ t, countDist (b ++ [.dist s]) t = countDist b t + if s = t then 1 else 0 := fun t => by
      simp only [countDist, hcount, Slot.dist.injEq]
    exact ⟨hlitLen.congr fun t => hcount _, hdist.succ (by omega) hmoved, hbits.symm⟩
  | extra n v => exact ⟨hlitLen.congr fun t => hcount _, hdist.congr fun t => hcount _, hbits.symm⟩
  | codeLen s => exact ⟨hlitLen.congr fun t => hcount _, hdist.congr fun t => hcount _, hbits.symm⟩

/-- The scan computes the estimate of the prefix it has read (R227). -/
theorem scanEstimate_eq {b : List Slot} {c : Scan} (h : ScanOf b c) : scanEstimate c = estimate b := by
  obtain ⟨hlitLen, hdist, hextra⟩ := h
  rw [scanEstimate, hlitLen.total, hlitLen.sum, hdist.total, hdist.sum, hextra, estimate]
  simp only [List.map_map, Function.comp_def]

/-! ## The best boundary so far -/

/-- Is there a candidate boundary before slot `j`, with at least one slot before it (R228)? -/
def Candidate (slots : List Slot) (j : Nat) : Prop := 1 ≤ j ∧ boundaryAt (slots.drop j) = true

/-- The ratio of the boundary `i` is at most that of `j`, and smaller if `j` is later. -/
def Beats (slots : List Slot) (i j : Nat) : Prop :=
  estimate (slots.take i) * j ≤ estimate (slots.take j) * i ∧
    (i < j → estimate (slots.take i) * j < estimate (slots.take j) * i)

/-- The best of the candidates up to `n`, with its estimate; none if there is no candidate. -/
def BestUpTo (slots : List Slot) (n : Nat) : Option (Nat × Nat) → Prop
  | none => ∀ j ≤ n, ¬Candidate slots j
  | some (i, e) => Candidate slots i ∧ i ≤ n ∧ e = estimate (slots.take i) ∧
      ∀ j ≤ n, Candidate slots j → Beats slots i j

theorem bestUpTo_zero (slots : List Slot) : BestUpTo slots 0 none := fun _ hj hc =>
  absurd hc.1 (Nat.not_lt_of_le hj)

theorem bestUpTo_skip {slots : List Slot} {n : Nat} {best : Option (Nat × Nat)} (h : BestUpTo slots n best)
    (hn : ¬Candidate slots (n + 1)) : BestUpTo slots (n + 1) best := by
  have old : ∀ j ≤ n + 1, Candidate slots j → j ≤ n := fun j hj hc =>
    (Nat.le_or_eq_of_le_succ hj).resolve_right fun (he : j = n + 1) => hn (he ▸ hc)
  match best, h with
  | none, h => exact fun j hj hc => h j (old j hj hc) hc
  | some (i, e), ⟨hi, hin, he, hbeats⟩ =>
    exact ⟨hi, Nat.le_succ_of_le hin, he, fun j hj hc => hbeats j (old j hj hc) hc⟩

/-- Cross-multiplied ratios are transitive over a positive middle denominator. -/
theorem ratio_trans {a b c i j k : Nat} (hj : 0 < j) (hab : a * j ≤ b * i) (hbc : b * k ≤ c * j) :
    a * k ≤ c * i := by
  refine Nat.le_of_mul_le_mul_right ?_ hj
  calc a * k * j = a * j * k := Nat.mul_right_comm a k j
    _ ≤ b * i * k := Nat.mul_le_mul_right k hab
    _ = b * k * i := Nat.mul_right_comm b i k
    _ ≤ c * j * i := Nat.mul_le_mul_right i hbc
    _ = c * i * j := Nat.mul_right_comm c j i

theorem beats_self (slots : List Slot) (i : Nat) : Beats slots i i :=
  ⟨Nat.le_refl _, fun h => absurd h (Nat.lt_irrefl i)⟩

/-- The comparison of R228 keeps the best: a new candidate is later than every old one, so it wins on equal ratios. -/
theorem bestUpTo_betterBoundary {slots : List Slot} {n : Nat} {best : Option (Nat × Nat)} (h : BestUpTo slots n best)
    (hn : Candidate slots (n + 1)) :
    BestUpTo slots (n + 1) (betterBoundary best (n + 1) (estimate (slots.take (n + 1)))) := by
  match best, h with
  | none, h =>
    refine ⟨hn, Nat.le_refl _, rfl, fun j hj hc => ?_⟩
    obtain hj | rfl := Nat.le_or_eq_of_le_succ hj
    · exact absurd hc (h j hj)
    · exact beats_self _ _
  | some (i, e), ⟨hi, hin, he, hbeats⟩ =>
    subst he
    rw [betterBoundary]
    split
    · next hnew =>
      refine ⟨hn, Nat.le_refl _, rfl, fun j hj hc => ?_⟩
      obtain hj | rfl := Nat.le_or_eq_of_le_succ hj
      · obtain ⟨hratio, -⟩ := hbeats j hj hc
        exact ⟨ratio_trans hi.1 hnew hratio, fun hlt => absurd hj (Nat.not_le_of_lt (Nat.lt_of_succ_lt hlt))⟩
      · exact beats_self _ _
    · next hold =>
      refine ⟨hi, Nat.le_succ_of_le hin, rfl, fun j hj hc => ?_⟩
      obtain hj | rfl := Nat.le_or_eq_of_le_succ hj
      · exact hbeats j hj hc
      · have hlt := Nat.lt_of_not_le hold
        exact ⟨Nat.le_of_lt hlt, fun _ => hlt⟩

/-- The scan from the slots `pre` on keeps the best candidate of what it has read. -/
theorem chooseFrom_best {pre rest : List Slot} {c : Scan} {best : Option (Nat × Nat)}
    (hlegal : ∀ x ∈ rest, x.legal = true) (hc : ScanOf pre c) (hb : BestUpTo (pre ++ rest) pre.length best) :
    BestUpTo (pre ++ rest) (pre ++ rest).length (chooseFrom rest pre.length c best) := by
  induction rest generalizing pre c best with
  | nil => rwa [List.append_nil] at hb ⊢
  | cons x rest ih =>
    obtain ⟨hx, hrest⟩ := List.forall_mem_cons.1 hlegal
    have hscan := scanOf_scanSlot hc hx
    have hlen : (pre ++ [x]).length = pre.length + 1 := List.length_append
    have htake : (pre ++ x :: rest).take (pre.length + 1) = pre ++ [x] := by
      rw [List.append_cons, ← hlen, List.take_left]
    have hdrop : (pre ++ x :: rest).drop (pre.length + 1) = rest := by
      rw [List.append_cons, ← hlen, List.drop_left]
    rw [chooseFrom, ← hlen, List.append_cons]
    refine ih hrest hscan ?_
    rw [← List.append_cons, hlen, scanEstimate_eq hscan, ← htake]
    split
    · next hbound => exact bestUpTo_betterBoundary hb ⟨Nat.succ_pos _, hdrop.symm ▸ hbound⟩
    · next hbound => exact bestUpTo_skip hb fun hcand => hbound (hdrop ▸ hcand.2)

/-- Settles O53: the scan's estimate is the prefix's, and its comparisons keep the least ratio, the latest among
equals. -/
theorem chooseIsTheBestBoundary : Obligations.ChooseIsTheBestBoundary := by
  unfold Obligations.ChooseIsTheBestBoundary
  rintro slots i hne hlegal rfl
  have hbest : BestUpTo slots slots.length (chooseFrom slots 0 Scan.fresh none) :=
    chooseFrom_best (pre := []) hlegal scanOf_fresh (bestUpTo_zero slots)
  have hend : Candidate slots slots.length := ⟨List.length_pos_of_ne_nil hne, by rw [List.drop_length]; rfl⟩
  unfold choose
  match chooseFrom slots 0 Scan.fresh none, hbest with
  | none, hnone => exact absurd hend (hnone _ (Nat.le_refl _))
  | some (i, e), ⟨hi, hin, _, hbeats⟩ =>
    exact ⟨hi.1, hin, hi.2, fun j h1 hj hc => hbeats j hj ⟨h1, hc⟩⟩

end Sys2Proof.Proofs
end

