-- ==== Sys2Proof/Proofs/AdlerSums.lean ====
section
/-! PROOFS. The Adler-32 register as its two running sums (45_compress_driver.md R273). -/

namespace Sys2Proof.Proofs

open Sys2Proof.Machine Sys2Proof.Laws

theorem adlerByte_halves (a : Word32) (x : Byte) :
    (adlerByte a x).toNat % 65536 = (a.toNat % 65536 + x.toNat) % 65521 ∧
      (adlerByte a x).toNat / 65536 = (a.toNat / 65536 + (a.toNat % 65536 + x.toNat) % 65521) % 65521 := by
  have halves : ∀ {hi lo : Nat}, hi < 65521 → lo < 65521 →
      (BitVec.ofNat 32 (hi * 2 ^ 16 + lo)).toNat % 65536 = lo ∧
        (BitVec.ofNat 32 (hi * 2 ^ 16 + lo)).toNat / 65536 = hi :=
    fun hhi hlo => by
      rw [BitVec.toNat_ofNat]
      omega
  exact halves (Nat.mod_lt _ (by decide)) (Nat.mod_lt _ (by decide))

theorem adler32_concat (a : Word32) (data : List Byte) (x : Byte) :
    adler32 a (data ++ [x]) = adlerByte (adler32 a data) x := by
  rw [adler32, List.foldl_append]
  rfl

/-- The low half after `data`, from a register whose low half is `lo`. -/
def lowSum (lo : Nat) (data : List Byte) : Nat := (lo + (data.map BitVec.toNat).sum) % 65521

/-- The sum of the low halves after each byte of `data`. -/
def lowSums (lo : Nat) (data : List Byte) : Nat :=
  ((List.range data.length).map fun k => lowSum lo (data.take (k + 1))).sum

theorem lowSum_concat (lo : Nat) (data : List Byte) (x : Byte) :
    lowSum lo (data ++ [x]) = (lowSum lo data + x.toNat) % 65521 := by
  simp only [lowSum, List.map_append, List.sum_append, List.map_cons, List.map_nil, List.sum_cons, List.sum_nil]
  omega

theorem lowSums_concat (lo : Nat) (data : List Byte) (x : Byte) :
    lowSums lo (data ++ [x]) = lowSums lo data + lowSum lo (data ++ [x]) := by
  have hbefore : (List.range data.length).map (fun k => lowSum lo ((data ++ [x]).take (k + 1))) =
      (List.range data.length).map fun k => lowSum lo (data.take (k + 1)) :=
    List.map_congr_left fun k hk => by
      rw [List.take_append_of_le_length (Nat.succ_le_of_lt (List.mem_range.1 hk))]
  have hall : (data ++ [x]).take (data.length + 1) = data ++ [x] :=
    List.take_of_length_le (Nat.le_of_eq List.length_append)
  rw [lowSums, List.length_append, List.length_singleton, List.range_succ, List.map_append, List.sum_append, hbefore,
    List.map_singleton, List.sum_singleton, hall, lowSums]

theorem adler32_halves {a : Word32} (h : adlerOk a) (data : List Byte) :
    (adler32 a data).toNat % 65536 = lowSum (a.toNat % 65536) data ∧
      (adler32 a data).toNat / 65536 = (a.toNat / 65536 + lowSums (a.toNat % 65536) data) % 65521 := by
  induction data using List.reverseRecOn with
  | nil =>
    obtain ⟨hlo, hhi⟩ := h
    exact ⟨(Nat.mod_eq_of_lt hlo).symm, (Nat.mod_eq_of_lt hhi).symm⟩
  | append_singleton data x ih =>
    obtain ⟨ihlo, ihhi⟩ := ih
    obtain ⟨hlo, hhi⟩ := adlerByte_halves (adler32 a data) x
    rw [adler32_concat, hlo, hhi, ihlo, ihhi, ← lowSum_concat, lowSums_concat]
    exact ⟨rfl, by omega⟩

/-- Settles O50: one byte more adds one term to each of the two sums. -/
theorem adlerSums : Obligations.AdlerSums := by
  unfold Obligations.AdlerSums
  refine ⟨fun a data h => ?_, fun a u v => (List.foldl_append).symm⟩
  obtain ⟨hlo, hhi⟩ := adler32_halves h data
  exact ⟨adler32_ok h data, hlo, hhi⟩

end Sys2Proof.Proofs
end

