-- ==== Sys2Proof/Proofs/FeedEffects.lean ====
section
/-! PROOFS. What the host commands of the CU do (45_compress_driver.md R270 to R277): constructing and freeing a
context, refused feeds, and the effects of an accepted C_FEED with each flush value. -/

namespace Sys2Proof.Proofs

open Sys2Proof.Machine Sys2Proof.Laws

/-- Settles O9: the context constructed is the fresh one of the mode. -/
theorem newCompressionContext : Obligations.NewCompressionContext := by
  unfold Obligations.NewCompressionContext
  intro i m s hi
  refine ⟨CuCtx.fresh m, ?_, rfl, rfl, rfl, rfl, rfl, rfl, rfl, rfl, rfl, rfl, rfl, rfl, fun _ => rfl, rfl, rfl, rfl⟩
  obtain ⟨rfl, rfl⟩ | ⟨rfl, rfl⟩ := hi <;> rfl

/-- Settles O11: both commands are the write of an absent context. -/
theorem freeDestroysTheContext : Obligations.FreeDestroysTheContext := fun _ => ⟨rfl, rfl⟩

/-- Settles O13: every C_FEED is one `cuFeed`, which refuses without a context and after FINISH; the reserved flush
value is refused in every state. -/
theorem compressionFeedIsRefused : Obligations.CompressionFeedIsRefused := by
  unfold Obligations.CompressionFeedIsRefused
  refine ⟨fun i data s hi hs => ?_, fun _ _ => rfl⟩
  obtain ⟨f, hf⟩ := exec_of_cFeed hi
  obtain ⟨c, hc, hfin, -⟩ | ⟨-, hrefused⟩ := cuFeed_spec f s
  · obtain hnone | ⟨c', hc', hfin'⟩ := hs
    · exact nomatch hc.symm.trans hnone
    · obtain rfl : c = c' := Option.some.inj (hc.symm.trans hc')
      exact absurd (hfin.symm.trans hfin') Bool.false_ne_true
  · exact (hf s).trans hrefused

/-! ## The control registers -/

theorem feedCommon_control (data : List Byte) (c : CuCtx) : control (feedCommon data c) =
    (c.mode, false, c.finished, c.lastBlock, adlerInMode c.mode c.adler data) := by
  have hcontrol := cuBytes_control data (cuHeader c)
  rw [cuHeader_frame] at hcontrol
  simp only [control, Prod.mk.injEq] at hcontrol
  obtain ⟨hmode, hfirst, hfin, hlast, hadler⟩ := hcontrol
  rw [feedCommon_eq, cuHeader_frame]
  simp only [control, rebase, Prod.mk.injEq]
  exact ⟨hmode, hfirst, hfin, hlast, by rw [hadler]⟩

theorem cuSync_control (c : CuCtx) : control (cuSync c) = control c :=
  (drain_control false _).trans (cuFlush_control c)

theorem cuFinish_control (c : CuCtx) : control (cuFinish c) = (c.mode, c.first, true, true, c.adler) := by
  have hflush := cuFlush_control c
  have hblock := (cuLastBlock_frame (setCLastBlock (cuFlush c))).2
  simp only [control, Prod.mk.injEq] at hflush hblock
  obtain ⟨hmode, hfirst, -, -, hadler⟩ := hflush
  obtain ⟨hmode', hfirst', -, hlast', hadler'⟩ := hblock
  rw [cuFinish_eq]
  simp only [control, Prod.mk.injEq]
  exact ⟨hmode'.trans hmode, hfirst'.trans hfirst, trivial, hlast', hadler'.trans hadler⟩

/-! ## The data received -/

/-- The engine `z'` has received `data` more than `z`. -/
def Received (data : List Byte) (z z' : Lz) : Prop := z'.s = z.s ++ data ∧ z'.r = z.r + data.length

theorem Received.trans {u v : List Byte} {z z' z'' : Lz} (h : Received u z z') (h' : Received v z' z'') :
    Received (u ++ v) z z'' := by
  obtain ⟨hs, hr⟩ := h
  obtain ⟨hs', hr'⟩ := h'
  exact ⟨by rw [hs', hs, List.append_assoc], by rw [hr', hr, List.length_append, Nat.add_assoc]⟩

theorem lzByte_received {z : Lz} (b : Byte) (h : LzInv z) : Received [b] z (lzByte b z).2 := by
  obtain ⟨hs, hr, hp, hc, -⟩ := lzIndex_frame (lzReceive b z)
  have hrun := lzRun_ok false (candsArrive_pending (lzPending_of_inv h) hr hp hc)
  exact ⟨(sameStore_s hrun.store).trans hs, (sameStore_frame hrun.store).2.trans hr⟩

theorem lzFlush_same {z : Lz} (h : LzInv z) : SameStore z (lzFlush z).2 := by
  have hrun : _ = _ := (lzRun_ok true (lzPending_of_inv h)).store
  exact congrArg (fun z' : Lz => { z' with cand := List.replicate Config.lazy .empty }) hrun

theorem lzFlush_received {z : Lz} (h : LzInv z) : Received [] z (lzFlush z).2 :=
  ⟨(sameStore_s (lzFlush_same h)).trans (List.append_nil _).symm, (sameStore_frame (lzFlush_same h)).2⟩

theorem appendAll_lz (r : List Token × Lz) (c : CuCtx) : (appendAll r c).lz = r.2 :=
  (appends_frame r.1 { c with lz := r.2 }).1

theorem cuByte_lz (c : CuCtx) (b : Byte) : (cuByte c b).lz = (lzByte b c.lz).2 := appendAll_lz _ c

theorem cuFlush_lz (c : CuCtx) : (cuFlush c).lz = (lzFlush c.lz).2 := appendAll_lz _ c

theorem cuBytes_received (data : List Byte) {c : CuCtx} (h : LzInv c.lz) :
    LzInv (data.foldl cuByte c).lz ∧ Received data c.lz (data.foldl cuByte c).lz := by
  induction data generalizing c with
  | nil => exact ⟨h, (List.append_nil _).symm, rfl⟩
  | cons b data ih =>
    have hbyte : LzInv (cuByte c b).lz := by
      rw [cuByte_lz]
      exact (lzByte_ok b h).2
    have hreceived : Received [b] c.lz (cuByte c b).lz := by
      rw [cuByte_lz]
      exact lzByte_received b h
    exact ⟨(ih hbyte).1, hreceived.trans (ih hbyte).2⟩

theorem feedCommon_received (data : List Byte) {c : CuCtx} (h : LzInv c.lz) :
    LzInv (feedCommon data c).lz ∧ Received data c.lz (feedCommon data c).lz := by
  have hlz : (cuHeader c).lz = c.lz := by rw [cuHeader_frame]
  have hfed := cuBytes_received data (c := cuHeader c) (by rwa [hlz])
  rw [hlz] at hfed
  rw [feedCommon_eq]
  exact hfed

theorem cuSync_lz (c : CuCtx) : (cuSync c).lz = (lzFlush c.lz).2 := (drain_lz false _).trans (cuFlush_lz c)

theorem cuFinish_lz (c : CuCtx) : (cuFinish c).lz = (lzFlush c.lz).2 := by
  rw [cuFinish_eq]
  exact (cuLastBlock_frame _).1.trans (cuFlush_lz c)

/-! ## The bytes before those of a feed -/

/-- An aligned writer is a fresh one with bytes before it (10_state.md R24). -/
theorem eq_prependOut_of_aligned {w : BitWriter} (hn : w.n = 0) (ha : w.acc = 0) :
    w = prependOut w.out BitWriter.fresh := by
  obtain ⟨acc, n, out⟩ := w
  obtain rfl : n = 0 := hn
  obtain rfl : acc = 0 := ha
  simp only [prependOut, BitWriter.fresh, List.append_nil]

/-- The zlib header as a fresh writer puts it (R272). -/
theorem cuHeader_fresh_zlib : cuHeader (CuCtx.fresh .zlib) =
    rebase [0x78, 0x9C] id { CuCtx.fresh .zlib with first := false } := by decide

/-- A first feed in zlib mode begins with the header, whatever follows the common part. -/
theorem firstFeed_out {g : CuCtx → CuCtx} (hg : KeepsOutBefore g) (data : List Byte) :
    ∃ rest, (g (feedCommon data (CuCtx.fresh .zlib))).bw.out = 0x78 :: 0x9C :: rest := by
  rw [feedCommon_eq, cuHeader_fresh_zlib, cuBytes_rebase, rebase_rebase, List.nil_append,
    ← List.append_nil [0x78, 0x9C], ← Function.id_comp (_ ∘ id), ← rebase_rebase, hg]
  exact ⟨_, rfl⟩

/-! ## The effects of an accepted feed -/

theorem adlerInMode_cases (m : Mode) (a : Word32) (data : List Byte) :
    (m = .bare → adlerInMode m a data = a) ∧ (m = .zlib → adlerInMode m a data = adler32 a data) := by
  cases m with
  | bare => exact ⟨fun _ => rfl, nofun⟩
  | zlib => exact ⟨nofun, fun _ => rfl⟩

/-- The context after an accepted feed that ends with `g`, and the answer. -/
theorem exec_feed {g : CuCtx → CuCtx} {s : State} {c : CuCtx} (data : List Byte) (hc : s.cu = some c)
    (hfin : c.finished = false) : cuFeed (fun c => g (feedCommon data c)) s =
      .next { s with
        cu := some (taken (g (feedCommon data c)))
        replies := s.replies ++ [.cu (g (feedCommon data c)).bw.out] } := cuFeed_accepted hc hfin

/-- The first feed of a context that meets the invariant is one of the fresh context. -/
theorem feed_out_of_first {g : CuCtx → CuCtx} (hg : KeepsOutBefore g) {c : CuCtx} (h : CuInv c) (data : List Byte)
    (hfirst : c.first = true) (hzlib : c.mode = .zlib) :
    ∃ rest, (g (feedCommon data c)).bw.out = 0x78 :: 0x9C :: rest := by
  rw [h.fresh hfirst, hzlib]
  exact firstFeed_out hg data

/-- Settles O14: the common part's effects on each register, `take`, and the header in the bytes before the data's. -/
theorem feedNoneTakesTheData : Obligations.FeedNoneTakesTheData := by
  unfold Obligations.FeedNoneTakesTheData
  intro s c data hc hinv hfin
  have hcontrol := feedCommon_control data c
  simp only [control, Prod.mk.injEq] at hcontrol
  obtain ⟨hmode, hfirst, hfin', hlast, hadler⟩ := hcontrol
  obtain ⟨-, hs, hr⟩ := feedCommon_received data hinv.lz
  obtain ⟨hbare, hzlib⟩ := adlerInMode_cases c.mode c.adler data
  refine ⟨_, _, exec_feed (g := id) data hc hfin, hmode, hfirst, hfin'.trans hfin, hlast,
    fun hm => hadler.trans (hbare hm), fun hm => hadler.trans (hzlib hm), hs, hr, rfl,
    feed_out_of_first (fun _ _ => rfl) hinv data, ?_⟩
  rintro hstarted rfl
  have hnil : feedCommon [] c = c := by
    rw [feedCommon_eq, cuHeader_of_started hstarted]
    simp only [adlerInMode_nil, List.foldl_nil]
    rfl
  have hout : c.bw = { c.bw with out := [] } := by rw [← hinv.bwOut]
  rw [id, hnil]
  exact ⟨by rw [taken, ← hout], hinv.bwOut⟩

/-- Settles O15: the common part, the flush, the drain and an empty stored block, each by what it leaves. -/
theorem feedSyncFlushesEverything : Obligations.FeedSyncFlushesEverything := by
  unfold Obligations.FeedSyncFlushesEverything
  intro s c data hc hinv hfin
  have hcontrol := (cuSync_control _).trans (feedCommon_control data c)
  simp only [control, Prod.mk.injEq] at hcontrol
  obtain ⟨hmode, hfirst, hfin', hlast, hadler⟩ := hcontrol
  obtain ⟨hlz, hreceived⟩ := feedCommon_received data hinv.lz
  obtain ⟨hs, hr⟩ := hreceived.trans (lzFlush_received hlz)
  rw [List.append_nil, ← cuSync_lz] at hs hr
  obtain ⟨-, -, hp⟩ := lzFlush_ok hlz
  rw [← cuSync_lz] at hp
  obtain ⟨hbare, hzlib⟩ := adlerInMode_cases c.mode c.adler data
  have hbw : (cuSync (feedCommon data c)).bw.n = 0 := by
    have hmid := feedCommon_fed n_le_keptByPut data (cuMid_of_inv hinv hinv.bwN) hinv.adler hinv.bare
    have hdrain := (drain_mid n_le_keptByPut false (cuFlush_mid n_le_keptByPut hmid.mid)).emit.bw
    have halign := alignWriter_n (put_n_le 0 2 (put 0 1 (drain false (cuFlush (feedCommon data c))).bw))
    simp only [cuSync, emitStoredEmpty, put_n, halign]
  exact ⟨_, _, exec_feed (g := cuSync) data hc hfin, hmode, hfirst, hfin'.trans hfin, hlast,
    fun hm => hadler.trans (hbare hm), fun hm => hadler.trans (hzlib hm), hs, hr, hp,
    congrArg Lz.cand (cuSync_lz _), drain_n false _, hbw, rfl, feed_out_of_first cuSync_keepsOutBefore hinv data⟩

/-- Settles O16: the last block, the alignment and the trailer leave nothing pending and both flags set. -/
theorem feedFinishEndsTheStream : Obligations.FeedFinishEndsTheStream := by
  unfold Obligations.FeedFinishEndsTheStream
  intro s c data hc hinv hfin
  have hcommon := feedCommon_control data c
  have hcontrol := cuFinish_control (feedCommon data c)
  simp only [control, Prod.mk.injEq] at hcommon hcontrol
  obtain ⟨hmode, hfirst, -, -, hadler⟩ := hcommon
  obtain ⟨hmode', hfirst', hfin', hlast, hadler'⟩ := hcontrol
  obtain ⟨hlz, hreceived⟩ := feedCommon_received data hinv.lz
  obtain ⟨hs, hr⟩ := hreceived.trans (lzFlush_received hlz)
  rw [List.append_nil, ← cuFinish_lz] at hs hr
  obtain ⟨hbare, hzlib⟩ := adlerInMode_cases c.mode c.adler data
  have hmid := feedCommon_fed n_le_keptByPut data (cuMid_of_inv hinv hinv.bwN) hinv.adler hinv.bare
  obtain ⟨hp, hn, hbw⟩ := cuFinish_allOut hmid.mid
  exact ⟨_, _, exec_feed (g := cuFinish) data hc hfin, hmode'.trans hmode, hfirst'.trans hfirst, hfin', hlast,
    fun hm => hadler'.trans (hadler.trans (hbare hm)), fun hm => hadler'.trans (hadler.trans (hzlib hm)), hs, hr, hp,
    hn, hbw, rfl, feed_out_of_first cuFinish_keepsOutBefore hinv data⟩

/-! ## The bytes that end a flushed output -/

/-- The empty stored block ends with its two length fields, behind the padding (44_block_emit.md R252). -/
theorem emitStoredEmpty_out {w : BitWriter} (h : w.ok) :
    ∃ pre, (emitStoredEmpty w).out = pre ++ [0x00, 0x00, 0xFF, 0xFF] := by
  have hheader : (put 0 2 (put 0 1 w)).ok := ok_keptByPut _ 2 _ (by decide) (ok_keptByPut _ 1 _ (by decide) h)
  have hn := alignWriter_n hheader.1
  have hacc := acc_eq_zero_of_n (alignWriter_keeps ok_keptByPut hheader) hn
  rw [emitStoredEmpty, eq_prependOut_of_aligned hn hacc, put_prependOut, put_prependOut]
  exact ⟨_, rfl⟩

theorem ofNat_byteOf (a : Word32) (i : Nat) : BitVec.ofNat 8 (byteOf a i) = a.extractLsb' (8 * i) 8 := by
  apply BitVec.eq_of_toNat_eq
  rw [BitVec.toNat_ofNat, BitVec.extractLsb'_toNat, Nat.shiftRight_eq_div_pow, byteOf, Nat.mod_mod, Nat.pow_mul]

theorem put_byte_fresh {v : Nat} (hv : v < 2 ^ 8) : put v 8 BitWriter.fresh = ⟨0, 0, [BitVec.ofNat 8 v]⟩ := by
  have hacc : (0 : AccWord) ||| (BitVec.ofNat 32 v <<< 0) = BitVec.ofNat 32 v :=
    BitVec.zero_or.trans (BitVec.shiftLeft_zero _)
  have htoNat : (BitVec.ofNat 32 v).toNat = v := Nat.mod_eq_of_lt (Nat.lt_trans hv (by decide))
  have hrest : BitVec.ofNat 32 v >>> 8 = 0 := BitVec.eq_of_toNat_eq <| by
    rw [BitVec.toNat_ushiftRight, htoNat, Nat.shiftRight_eq_div_pow, Nat.div_eq_of_lt hv]
    rfl
  have hbyte : (BitVec.ofNat 32 v).setWidth 8 = BitVec.ofNat 8 v := BitVec.eq_of_toNat_eq <| by
    rw [BitVec.toNat_setWidth, htoNat, BitVec.toNat_ofNat]
  show (⟨((0 : AccWord) ||| (BitVec.ofNat 32 v <<< 0)) >>> 8, 0,
    [((0 : AccWord) ||| (BitVec.ofNat 32 v <<< 0)).setWidth 8]⟩ : BitWriter) = _
  rw [hacc, hrest, hbyte]

theorem put_byte_aligned (out : List Byte) {v : Nat} (hv : v < 2 ^ 8) :
    put v 8 ⟨0, 0, out⟩ = ⟨0, 0, out ++ [BitVec.ofNat 8 v]⟩ := by
  rw [eq_prependOut_of_aligned (w := ⟨0, 0, out⟩) rfl rfl, put_prependOut, put_byte_fresh hv]
  rfl

/-- The four bytes of a 32-bit register, most significant first (30_encoding.md R114). -/
def bigEndian (a : Word32) : List Byte :=
  [a.extractLsb' 24 8, a.extractLsb' 16 8, a.extractLsb' 8 8, a.extractLsb' 0 8]

theorem cuTrailer_bw_of_aligned {c : CuCtx} (hm : c.mode = .zlib) (hn : c.bw.n = 0) (ha : c.bw.acc = 0) :
    (cuTrailer c).bw = ⟨0, 0, c.bw.out ++ bigEndian c.adler⟩ := by
  have hbw : c.bw = ⟨0, 0, c.bw.out⟩ := by rw [← hn, ← ha]
  simp only [cuTrailer, hm]
  rw [hbw]
  simp only [put_byte_aligned, byteOf_lt, ofNat_byteOf, List.append_assoc, List.cons_append, List.nil_append, bigEndian,
    Nat.reduceMul]

theorem cuFinish_out {c : CuCtx} (h : CuMid BitWriter.ok c) (hm : c.mode = .zlib) :
    ∃ pre, (cuFinish c).bw.out = pre ++ bigEndian c.adler := by
  have hblock := (cuLastBlock_setCLastBlock_mid ok_keptByPut h).emit.bw
  have hcontrol := (cuLastBlock_frame (setCLastBlock (cuFlush c))).2
  have hflush := cuFlush_control c
  simp only [control, Prod.mk.injEq] at hcontrol hflush
  obtain ⟨hmode, -, -, -, hadler⟩ := hcontrol
  obtain ⟨hmode', -, -, -, hadler'⟩ := hflush
  have hn := alignWriter_n hblock.1
  have hacc := acc_eq_zero_of_n (alignWriter_keeps ok_keptByPut hblock) hn
  have hout := congrArg BitWriter.out
    (cuTrailer_bw_of_aligned (c := { cuLastBlock (setCLastBlock (cuFlush c)) with bw := alignWriter _ })
      (hmode.trans (hmode'.trans hm)) hn hacc)
  exact ⟨_, hout.trans (congrArg (_ ++ bigEndian ·) (hadler.trans hadler'))⟩

/-- Settles O17: the block of SYNC and the trailer of FINISH are put into an aligned writer. -/
theorem flushedOutputEndsAsTheFormatSays : Obligations.FlushedOutputEndsAsTheFormatSays := by
  unfold Obligations.FlushedOutputEndsAsTheFormatSays
  intro s c data hc hinv hok hfin
  have hfed := feedCommon_fed ok_keptByPut data (cuMid_of_inv hinv hok) hinv.adler hinv.bare
  constructor
  · obtain ⟨pre, hout⟩ := emitStoredEmpty_out (drain_mid ok_keptByPut false (cuFlush_mid ok_keptByPut hfed.mid)).emit.bw
    have hsync : (cuSync (feedCommon data c)).bw.out = pre ++ _ := hout
    exact ⟨_, pre, hsync ▸ exec_feed (g := cuSync) data hc hfin⟩
  · intro hm
    have hmode := (feedCommon_flags data c).1.trans hm
    obtain ⟨pre, hout⟩ := cuFinish_out hfed.mid hmode
    have hadler : (cuFinish (feedCommon data c)).adler = (feedCommon data c).adler :=
      congrArg (·.2.2.2.2) (cuFinish_control (feedCommon data c))
    rw [← hadler] at hout
    exact ⟨taken (cuFinish (feedCommon data c)), pre, hout ▸ exec_feed (g := cuFinish) data hc hfin⟩

/-- Settles O18: the feed of no data and the drain of an empty ring change nothing, the flush of an engine with nothing
held back clears its slots, and an empty stored block is five bytes. -/
theorem syncWithNothingPending : Obligations.SyncWithNothingPending := by
  unfold Obligations.SyncWithNothingPending
  intro s c hc hfin hfirst hp hn hbw
  have hcommon : feedCommon [] c = c := by
    rw [feedCommon_eq, cuHeader_of_started hfirst]
    simp only [adlerInMode_nil, List.foldl_nil]
    rfl
  have hflush : cuFlush c = { c with lz := { c.lz with cand := [.empty, .empty, .empty] } } := by
    rw [cuFlush, lzFlush, lzRun, hp, Nat.sub_self]
    rfl
  have hdrain : drain false (cuFlush c) = cuFlush c := by
    have hn' : (cuFlush c).sym.n = 0 := by rw [hflush]; exact hn
    rw [drain, hn']
    rfl
  have hsync : cuSync (feedCommon [] c) = { cuFlush c with bw := ⟨0, 0, [0x00, 0x00, 0x00, 0xFF, 0xFF]⟩ } := by
    have hblock : emitStoredEmpty ⟨0, 0, []⟩ = ⟨0, 0, [0x00, 0x00, 0x00, 0xFF, 0xFF]⟩ := by decide
    have hbw' : (cuFlush c).bw = ⟨0, 0, []⟩ := by rw [hflush]; exact hbw
    rw [hcommon, cuSync, hdrain, hbw', hblock]
  refine (exec_feed (g := cuSync) [] hc hfin).trans ?_
  rw [hsync, hflush]
  simp only [taken, ← hbw]

end Sys2Proof.Proofs
end

