-- ==== Sys2Proof/Proofs/FeedLoop.lean ====
section
/-! PROOFS. The loop of D_FEED ends within its bound (46_decompress.md R323): a completed step consumes bits, or is one
of the few that consume none and are followed by one that does. -/

namespace Sys2Proof.Proofs

open Sys2Proof.Machine Sys2Proof.Laws

/-- How many steps that consume no bit may follow one another from a state. -/
def idleSteps : DState → Nat
  | .treesLenRep => 2
  | .treesLen => 1
  | .gotLenSym => 1
  | .gotDistSym => 1
  | .finish => 1
  | _ => 0

/-- What every completed step lowers. -/
def stepsLeft (d : DuCtx) : Nat := 3 * d.nbits + idleSteps d.state

theorem idleSteps_le (st : DState) : idleSteps st ≤ 2 := by
  cases st <;> decide

/-- A step that waits for bits lowers `stepsLeft` if its rest does. -/
theorem need_lowers {n : Nat} {d d' : DuCtx} {k : DuCtx → Stepped} (h : need n d k = .completed d')
    (hk : n ≤ d.nbits → k d = .completed d' → stepsLeft d' < stepsLeft d) : stepsLeft d' < stepsLeft d := by
  obtain hlt | hle := Nat.lt_or_ge d.nbits n
  · rw [need_of_lt hlt] at h
    cases h
  · rw [need_of_le hle] at h
    exact hk hle h

/-- A context with fewer bits has fewer steps left, whatever its state. -/
theorem stepsLeft_lt_of_nbits {d d' : DuCtx} (h : d'.nbits < d.nbits) : stepsLeft d' < stepsLeft d := by
  have := idleSteps_le d'.state
  simp only [stepsLeft]
  omega

theorem startBlock_nbits {f : Bool} {t : Nat} {d d' : DuCtx} (h : startBlock f t d = .completed d') :
    d'.nbits ≤ d.nbits := by
  simp only [startBlock] at h
  split at h
  · cases h
    exact Nat.sub_le ..
  · split at h
    · cases h
      exact Nat.le_refl _
    · split at h
      · cases h
        exact Nat.le_refl _
      · cases h

theorem copyBytes_nbits (dist len : Nat) (d : DuCtx) : (copyBytes dist len d).nbits = d.nbits := by
  obtain ⟨out, win, winPos, produced, adler, heq, -⟩ := copyBytes_frame dist len d
  rw [heq]

theorem finishDistance_lowers {x : Nat} {d d' : DuCtx} (hs : d.state = .gotDistSym)
    (h : finishDistance x d = .completed d') : stepsLeft d' < stepsLeft d := by
  simp only [finishDistance] at h
  split at h
  · cases h
  · cases h
    simp only [stepsLeft, setState_nbits, setState_state, copyBytes_nbits, eat_nbits, hs, idleSteps]
    omega

theorem writeRepeats_nbits (k : Nat) (d : DuCtx) : (writeRepeats k d).nbits = d.nbits := by
  induction k generalizing d with
  | zero => rfl
  | succ k ih => exact ih _

theorem finishRepeat_lowers {x : Nat} {d d' : DuCtx} (hs : d.state = .treesLenRep)
    (h : finishRepeat x d = .completed d') : stepsLeft d' < stepsLeft d := by
  simp only [finishRepeat] at h
  split at h
  · cases h
  · cases h
    simp only [stepsLeft, setState_nbits, setState_state, writeRepeats_nbits, eat_nbits, hs, idleSteps]
    omega

theorem buildMainTables_lowers {d d' : DuCtx} (hs : d.state = .treesLen) (h : buildMainTables d = .completed d') :
    stepsLeft d' < stepsLeft d := by
  simp only [buildMainTables] at h
  split at h
  · cases h
  · split at h
    · cases h
    · cases h
      simp only [stepsLeft, hs, idleSteps]
      omega

theorem stepTreesLenLen_nbits {d d' : DuCtx} (h : stepTreesLenLen d = .completed d') : d'.nbits < d.nbits := by
  obtain hlt | hle := Nat.lt_or_ge d.nbits 3
  · rw [stepTreesLenLen, need_of_lt hlt] at h
    cases h
  · have heaten : d.nbits - 3 < d.nbits := by omega
    rw [stepTreesLenLen, need_of_le hle] at h
    dsimp only at h
    split at h
    · split at h
      · cases h
      · cases h
        exact heaten
    · cases h
      exact heaten

/-- A step that consumes a code leaves fewer bits. -/
theorem eat_code_nbits {t : Table} {d : DuCtx} {s l : Nat} (h : lookup t d.bits.toNat d.nbits = .sym s l) :
    (eat l d).nbits < d.nbits := by
  obtain ⟨h1, -, hle, -⟩ := lookup_sym h
  rw [eat_nbits]
  omega

theorem stepInBlk_nbits {d d' : DuCtx} (h : stepInBlk d = .completed d') : d'.nbits < d.nbits := by
  simp only [stepInBlk] at h
  split at h
  · cases h
  · cases h
  · next s l hl =>
    have hcode := eat_code_nbits hl
    repeat' split at h
    all_goals cases h
    all_goals exact hcode

theorem stepGotLen_nbits {d d' : DuCtx} (h : stepGotLen d = .completed d') : d'.nbits < d.nbits := by
  simp only [stepGotLen] at h
  split at h
  · cases h
  · cases h
  · next s l hl =>
    have hcode := eat_code_nbits hl
    split at h
    · cases h
    · cases h
      exact hcode

theorem stepTreesLen_lowers {d d' : DuCtx} (hs : d.state = .treesLen) (h : stepTreesLen d = .completed d') :
    stepsLeft d' < stepsLeft d := by
  simp only [stepTreesLen] at h
  split at h
  · exact buildMainTables_lowers hs h
  · split at h
    · cases h
    · cases h
    · next c l hl =>
      have hcode := eat_code_nbits hl
      refine stepsLeft_lt_of_nbits ?_
      split at h
      · cases h
        exact hcode
      · simp only [selectRepeat] at h
        split at h
        · cases h
        · cases h
          exact hcode

theorem automatonStep_lowers {d d' : DuCtx} (h : automatonStep d = .completed d') : stepsLeft d' < stepsLeft d := by
  have field : ∀ {n}, 0 < n → n ≤ d.nbits → d.nbits - n < d.nbits := fun _ _ => by omega
  have idle : idleSteps d'.state < idleSteps d.state → d'.nbits ≤ d.nbits → stepsLeft d' < stepsLeft d :=
    fun _ _ => by simp only [stepsLeft]; omega
  unfold automatonStep at h
  cases hs : d.state with
  | start =>
    rw [hs] at h
    refine need_lowers h fun hn hk => ?_
    split at hk <;> cases hk
    exact stepsLeft_lt_of_nbits (field (by decide) hn)
  | outsideBlk =>
    rw [hs] at h
    exact need_lowers h fun hn hk =>
      stepsLeft_lt_of_nbits (Nat.lt_of_le_of_lt (startBlock_nbits hk) (field (by decide) hn))
  | uncompLen =>
    rw [hs] at h
    refine need_lowers h fun hn hk => ?_
    cases hk
    exact stepsLeft_lt_of_nbits (field (by decide) hn)
  | uncompNlen =>
    rw [hs] at h
    refine need_lowers h fun hn hk => stepsLeft_lt_of_nbits ?_
    repeat' split at hk
    all_goals cases hk
    all_goals exact field (by decide) hn
  | uncompData =>
    rw [hs] at h
    refine need_lowers h fun hn hk => stepsLeft_lt_of_nbits ?_
    cases hk
    split <;> exact field (by decide) hn
  | inBlk =>
    rw [hs] at h
    exact stepsLeft_lt_of_nbits (stepInBlk_nbits h)
  | treesHdr =>
    rw [hs] at h
    refine need_lowers h fun hn hk => stepsLeft_lt_of_nbits ?_
    dsimp only at hk
    split at hk <;> cases hk
    exact field (by decide) hn
  | treesLenLen =>
    rw [hs] at h
    exact stepsLeft_lt_of_nbits (stepTreesLenLen_nbits h)
  | treesLen =>
    rw [hs] at h
    exact stepTreesLen_lowers hs h
  | treesLenRep =>
    rw [hs] at h
    exact need_lowers h fun _ => finishRepeat_lowers hs
  | gotLenSym =>
    rw [hs] at h
    refine need_lowers h fun _ hk => ?_
    cases hk
    exact idle (by rw [hs]; exact Nat.one_pos) (Nat.sub_le ..)
  | gotLen =>
    rw [hs] at h
    exact stepsLeft_lt_of_nbits (stepGotLen_nbits h)
  | gotDistSym =>
    rw [hs] at h
    exact need_lowers h fun _ => finishDistance_lowers hs
  | finish =>
    rw [hs] at h
    simp only [stepFinish] at h
    split at h <;> cases h
    · exact idle (by rw [hs]; exact Nat.one_pos) (Nat.sub_le ..)
    · exact idle (by rw [hs]; exact Nat.one_pos) (Nat.le_refl _)
  | adler1 =>
    rw [hs] at h
    refine need_lowers h fun hn hk => ?_
    cases hk
    exact stepsLeft_lt_of_nbits (field (by decide) hn)
  | adler2 =>
    rw [hs] at h
    refine need_lowers h fun hn hk => stepsLeft_lt_of_nbits ?_
    dsimp only at hk
    split at hk <;> cases hk
    exact field (by decide) hn
  | finalSpin =>
    rw [hs] at h
    cases h

/-! ## Suspension -/

theorem need_suspended {n : Nat} {d d' : DuCtx} {k : DuCtx → Stepped} (h : need n d k = .suspended d')
    (hk : k d ≠ .suspended d') : d' = d ∧ d.nbits < n := by
  obtain hlt | hle := Nat.lt_or_ge d.nbits n
  · rw [need_of_lt hlt] at h
    cases h
    exact ⟨rfl, hlt⟩
  · rw [need_of_le hle] at h
    exact absurd h hk

theorem lengthExtra_le (s : Nat) : lengthExtra s ≤ 5 := getD_le_of_forall (by decide) _

theorem distanceExtra_le (s : Nat) : distanceExtra s ≤ 13 := getD_le_of_forall (by decide) _

theorem finishRepeat_ne_suspended (x : Nat) (d d' : DuCtx) : finishRepeat x d ≠ .suspended d' := by
  simp only [finishRepeat]
  split <;> nofun

theorem finishDistance_ne_suspended (x : Nat) (d d' : DuCtx) : finishDistance x d ≠ .suspended d' := by
  simp only [finishDistance]
  split <;> nofun

theorem startBlock_ne_suspended (f : Bool) (t : Nat) (d d' : DuCtx) : startBlock f t d ≠ .suspended d' := by
  simp only [startBlock]
  repeat' split
  all_goals nofun

theorem stepTreesLen_suspended {d d' : DuCtx} (h : stepTreesLen d = .suspended d') : d' = d ∧ d.nbits < 15 := by
  simp only [stepTreesLen] at h
  split at h
  · simp only [buildMainTables] at h
    repeat' split at h
    all_goals cases h
  · split at h
    · next hl =>
      cases h
      exact ⟨rfl, lookup_more hl⟩
    · cases h
    · simp only [selectRepeat] at h
      repeat' split at h
      all_goals cases h

theorem stepInBlk_suspended {d d' : DuCtx} (h : stepInBlk d = .suspended d') : d' = d ∧ d.nbits < 15 := by
  simp only [stepInBlk] at h
  split at h
  · next hl =>
    cases h
    exact ⟨rfl, lookup_more hl⟩
  · cases h
  · repeat' split at h
    all_goals cases h

theorem stepGotLen_suspended {d d' : DuCtx} (h : stepGotLen d = .suspended d') : d' = d ∧ d.nbits < 15 := by
  simp only [stepGotLen] at h
  split at h
  · next hl =>
    cases h
    exact ⟨rfl, lookup_more hl⟩
  · cases h
  · split at h <;> cases h

/-- A step suspends for want of bits, fewer than a refill provides, or in FINALSPIN (46_decompress.md R324, R318). -/
theorem automatonStep_suspended {d d' : DuCtx} (hx : d.lenExtraBits ≤ 7) (h : automatonStep d = .suspended d') :
    d' = d ∧ d.nbits < 24 ∨ d' = discardAll d := by
  have few : ∀ {n}, n ≤ 24 → d' = d ∧ d.nbits < n → d' = d ∧ d.nbits < 24 ∨ d' = discardAll d :=
    fun hn ⟨heq, hlt⟩ => .inl ⟨heq, Nat.lt_of_lt_of_le hlt hn⟩
  unfold automatonStep at h
  split at h
  · exact few (by decide) (need_suspended h (by split <;> nofun))
  · exact few (by decide) (need_suspended h (startBlock_ne_suspended _ _ _ _))
  · exact few (by decide) (need_suspended h nofun)
  · exact few (by decide) (need_suspended h (by repeat' split
                                                all_goals nofun))
  · exact few (by decide) (need_suspended h nofun)
  · exact few (by decide) (stepInBlk_suspended h)
  · exact few (by decide) (need_suspended h (by dsimp only; split <;> nofun))
  · exact few (by decide) (need_suspended h (by dsimp only; repeat' split
                                                all_goals nofun))
  · exact few (by decide) (stepTreesLen_suspended h)
  · exact few (Nat.le_trans hx (by decide)) (need_suspended h (finishRepeat_ne_suspended _ _ _))
  · exact few (Nat.le_trans (lengthExtra_le _) (by decide)) (need_suspended h nofun)
  · exact few (by decide) (stepGotLen_suspended h)
  · exact few (Nat.le_trans (distanceExtra_le _) (by decide)) (need_suspended h (finishDistance_ne_suspended _ _ _))
  · simp only [stepFinish] at h
    split at h <;> cases h
  · exact few (by decide) (need_suspended h nofun)
  · exact few (by decide) (need_suspended h (by dsimp only; split <;> nofun))
  · cases h
    exact .inr rfl

/-! ## The loop -/

theorem refill_stepsLeft (d : DuCtx) (inp : List Byte) :
    stepsLeft (refill d inp).1 + 24 * (refill d inp).2.length = stepsLeft d + 24 * inp.length := by
  obtain ⟨taken, b, hinp, heq, -, -⟩ := refill_spec d inp
  have hlen := congrArg List.length hinp
  rw [List.length_append] at hlen
  rw [heq]
  simp only [stepsLeft]
  omega

/-- The loop ends once its bound is above the steps left (R323 corner case 1). -/
theorem feedLoop_ends {fuel : Nat} {d : DuCtx} {inp : List Byte} (h : DuRuns d)
    (hf : stepsLeft d + 24 * inp.length < fuel) : ∃ r, feedLoop fuel d inp = some r := by
  induction fuel generalizing d inp with
  | zero => omega
  | succ fuel ih =>
    have hrefill := refill_runs inp h
    have hsafe := automatonStep_safe hrefill
    rw [← refill_stepsLeft] at hf
    rw [feedLoop]
    cases hstep : automatonStep (refill d inp).1 with
    | raised e d' => exact ⟨_, rfl⟩
    | completed d' =>
      rw [hstep] at hsafe
      have hlower := automatonStep_lowers hstep
      cases hsafe with | completed hd => exact ih hd (by omega)
    | suspended d' =>
      rw [hstep] at hsafe
      by_cases hrest : (refill d inp).2 = []
      · exact ⟨_, if_pos hrest⟩
      · have hbits : 24 ≤ (refill d inp).1.nbits := by
          obtain ⟨taken, b, -, heq, hstop, -⟩ := refill_spec d inp
          rw [heq]
          exact hstop.resolve_right hrest
        obtain ⟨-, hlt⟩ | rfl := automatonStep_suspended (d := (refill d inp).1) hrefill.regs.lenExtraBits hstep
        · omega
        · have hlower := stepsLeft_lt_of_nbits (d := (refill d inp).1) (d' := discardAll (refill d inp).1)
            (Nat.lt_of_lt_of_le (Nat.succ_pos 23) hbits)
          simp only [hrest, if_false]
          cases hsafe with | suspended hd => exact ih hd (by omega)

theorem runFeed_ends {d : DuCtx} (data : List Byte) (h : DuRuns d) : ∃ r, runFeed data d = some r := by
  have hidle := idleSteps_le d.state
  exact feedLoop_ends h (by simp only [stepsLeft, feedFuel]; omega)

end Sys2Proof.Proofs
end

