-- ==== Sys2Proof/Proofs/BitReading.lean ====
section
/-! PROOFS. The automaton over a stream of bits (46_decompress.md R323): a decompression context without its
accumulator, and all bits still to be decoded, in the accumulator or not. What a step reads does not depend on where the
stream is cut into the accumulator and the input. -/

namespace Sys2Proof.Proofs

open Sys2Proof.Machine Sys2Proof.Laws

/-- The bits `bs` are still to be decoded, and D.BITS holds no others. -/
structure Reads (d : DuCtx) (inp : List Byte) (bs : List Bool) : Prop where
  clean : d.bits.toNat < 2 ^ d.nbits
  upcoming : d.upcoming inp = bs

/-- What `refill` leaves: enough bits for any step, or no input. -/
def Refilled (d : DuCtx) (inp : List Byte) : Prop := 24 ≤ d.nbits ∨ inp = []

/-- A step from a context over a stream of bits to another, however the stream is cut. -/
def BitStep (p q : DuCtx × List Bool) : Prop :=
  ∀ d inp, Refilled d inp → discardAll d = p.1 → Reads d inp p.2 →
    ∃ d', automatonStep d = .completed d' ∧ discardAll d' = q.1 ∧ Reads d' inp q.2

/-- Any number of completed steps. -/
abbrev Decodes : DuCtx × List Bool → DuCtx × List Bool → Prop := Relation.ReflTransGen BitStep

/-! ## The front of the stream -/

theorem byteBits_length (l : List Byte) : (byteBits l).length = 8 * l.length := by
  induction l with
  | nil => rfl
  | cons b l ih =>
    rw [byteBits_cons, List.length_append, ih, bitsOf_length, List.length_cons]
    omega

theorem upcoming_length (d : DuCtx) (inp : List Byte) : (d.upcoming inp).length = d.nbits + 8 * inp.length := by
  rw [DuCtx.upcoming, List.length_append, bitsOf_length, byteBits_length]

theorem mod_eq_of_bitsOf_eq {n u v : Nat} (h : bitsOf n u = bitsOf n v) : u % 2 ^ n = v % 2 ^ n := by
  induction n generalizing u v with
  | zero => rw [pow_zero, Nat.mod_one, Nat.mod_one]
  | succ n ih =>
    obtain ⟨hbit, hrest⟩ := List.cons.inj h
    have hrest := ih hrest
    have hbit : u % 2 = v % 2 := by
      simp only [Bool.beq_eq_decide_eq, decide_eq_decide] at hbit
      omega
    rw [Nat.pow_succ, Nat.mul_comm, Nat.mod_mul, Nat.mod_mul, hbit, hrest]

section
variable {d : DuCtx} {inp : List Byte} {bs : List Bool}

theorem Reads.congr {d' : DuCtx} (h : Reads d inp bs) (hb : d'.bits = d.bits) (hn : d'.nbits = d.nbits) :
    Reads d' inp bs := by
  obtain ⟨hclean, hup⟩ := h
  exact ⟨by rwa [hb, hn], by rwa [DuCtx.upcoming, hb, hn]⟩

theorem Reads.eat {front : List Bool} {n : Nat} (h : Reads d inp (front ++ bs)) (hn : n ≤ d.nbits)
    (hfront : front.length = n) : bitsOf n (peek n d) = front ∧ Reads (eat n d) inp bs := by
  have hup := (upcoming_eq_peek_append_eat hn inp).symm.trans h.upcoming
  obtain ⟨hpeek, hrest⟩ := List.append_inj hup (by rw [bitsOf_length, hfront])
  exact ⟨hpeek, shiftRight_lt n h.clean, hrest⟩

theorem Reads.le_nbits {front : List Bool} (h : Reads d inp (front ++ bs)) (hfull : Refilled d inp)
    (hfront : front.length ≤ 24) : front.length ≤ d.nbits := by
  obtain h24 | rfl := hfull
  · exact Nat.le_trans hfront h24
  · have hlen := congrArg List.length h.upcoming
    rw [upcoming_length, List.length_append, List.length_nil] at hlen
    omega

/-- A field at the front of the stream is read as its value (40_bitio.md R145, R146). -/
theorem Reads.field {n v : Nat} (h : Reads d inp (bitsOf n v ++ bs)) (hfull : Refilled d inp) (hn : n ≤ 24)
    (hv : v < 2 ^ n) : n ≤ d.nbits ∧ peek n d = v ∧ Reads (Machine.eat n d) inp bs := by
  have hle : n ≤ d.nbits := by
    have := h.le_nbits hfull (by rwa [bitsOf_length])
    rwa [bitsOf_length] at this
  obtain ⟨hpeek, hrest⟩ := h.eat hle (bitsOf_length n v)
  have hmod := mod_eq_of_bitsOf_eq hpeek
  rw [Nat.mod_eq_of_lt (peek_lt n d), Nat.mod_eq_of_lt hv] at hmod
  exact ⟨hle, hmod, hrest⟩

theorem codeOf_mem {t : Table} {s : Nat} (hs : ∃ c ∈ t, c.sym = s) :
    ∃ c ∈ t, c.sym = s ∧ codeOf t s = (c.code, c.len) := by
  obtain ⟨c, hc, rfl⟩ := hs
  unfold codeOf
  cases hf : t.find? fun c' => c'.sym == c.sym with
  | none => exact absurd (beq_self_eq_true c.sym) (List.find?_eq_none.1 hf c hc)
  | some c' =>
    have hsym : (c'.sym == c.sym) = true := List.find?_some (p := fun c' : Code => c'.sym == c.sym) hf
    exact ⟨c', List.mem_of_find?_eq_some hf, beq_iff_eq.1 hsym, rfl⟩

/-- A step that reads one field. -/
theorem bitStep_field {n v : Nat} {c c' : DuCtx} (hn : n ≤ 24) (hv : v < 2 ^ n) (bs : List Bool)
    (heffect : ∀ e, discardAll e = c → n ≤ e.nbits → peek n e = v → ∃ e', automatonStep e = .completed e' ∧
      discardAll e' = c' ∧ e'.bits = (Machine.eat n e).bits ∧ e'.nbits = (Machine.eat n e).nbits) :
    BitStep (c, bitsOf n v ++ bs) (c', bs) := by
  intro e inp hfull he hreads
  obtain ⟨hle, hpeek, hrest⟩ := hreads.field hfull hn hv
  obtain ⟨e', hstep, hc', hbits, hnbits⟩ := heffect e he hle hpeek
  exact ⟨e', hstep, hc', hrest.congr hbits hnbits⟩

/-- A code at the front of the stream is looked up as its symbol (42_huffman.md R203). -/
theorem Reads.code {t : Table} {s : Nat} (h : Reads d inp (codeBits t s ++ bs)) (hfull : Refilled d inp)
    (ht : Readable t) (hs : ∃ c ∈ t, c.sym = s) :
    ∃ l, lookup t d.bits.toNat d.nbits = .sym s l ∧ Reads (Machine.eat l d) inp bs := by
  obtain ⟨c, hc, rfl, hcode⟩ := codeOf_mem hs
  have hbits : codeBits t c.sym = (bitsOf c.len c.code).reverse := by rw [codeBits, hcode]
  have hlen : (codeBits t c.sym).length = c.len := by rw [hbits, List.length_reverse, bitsOf_length]
  have h15 := ht.len_le c hc
  have hle : c.len ≤ d.nbits := by
    have := h.le_nbits hfull (by omega)
    rwa [hlen] at this
  obtain ⟨hpeek, hrest⟩ := h.eat hle hlen
  rw [hbits, ← bitsOf_revBits, peek, bitsOf_mod] at hpeek
  have hrev : revBits c.len d.bits.toNat = c.code := by
    rw [← revBits_mod, mod_eq_of_bitsOf_eq hpeek, revBits_mod, revBits_revBits (ht.code_lt c hc)]
  exact ⟨c.len, lookup_of_mem ht hc hrev hle, hrest⟩

/-- Padding up to the next byte of the stream is what `align` discards (40_bitio.md R147). -/
theorem Reads.align {pad : List Bool} (h : Reads d inp (pad ++ bs)) (hpad : pad.length < 8)
    (hbs : bs.length % 8 = 0) : Reads (alignReader d) inp bs := by
  have hlen := congrArg List.length h.upcoming
  rw [upcoming_length, List.length_append] at hlen
  exact (h.eat (Nat.mod_le ..) (by omega)).2

end

/-! ## From the stream to the loop -/

theorem refill_reads {d : DuCtx} {inp : List Byte} {bs : List Bool} (h : Reads d inp bs) :
    Refilled (refill d inp).1 (refill d inp).2 ∧ discardAll (refill d inp).1 = discardAll d ∧
      Reads (refill d inp).1 (refill d inp).2 bs := by
  obtain ⟨taken, b, -, heq, hstop, -⟩ := refill_spec d inp
  obtain ⟨hup, hclean⟩ := refill_upcoming inp h.clean
  refine ⟨?_, by rw [heq]; rfl, hclean, hup.trans h.upcoming⟩
  rw [heq]
  exact hstop

/-- The loop follows the steps over the stream. -/
theorem feedLoop_of_decodes {p q : DuCtx × List Bool} (h : Decodes p q) {d : DuCtx} {inp : List Byte}
    (hd : discardAll d = p.1) (hr : Reads d inp p.2) : ∃ n d' inp', discardAll d' = q.1 ∧ Reads d' inp' q.2 ∧
      ∀ fuel, feedLoop (fuel + n) d inp = feedLoop fuel d' inp' := by
  induction h using Relation.ReflTransGen.head_induction_on generalizing d inp with
  | refl => exact ⟨0, d, inp, hd, hr, fun _ => rfl⟩
  | head hstep _ ih =>
    obtain ⟨hfull, hsame, hreads⟩ := refill_reads hr
    obtain ⟨d₁, hrun, hd₁, hr₁⟩ := hstep _ _ hfull (hsame.trans hd) hreads
    obtain ⟨n, d', inp', hd', hr', hloop⟩ := ih hd₁ hr₁
    refine ⟨n + 1, d', inp', hd', hr', fun fuel => ?_⟩
    rw [← hloop, ← Nat.add_assoc, feedLoop, hrun]

end Sys2Proof.Proofs
end

