-- ==== Sys2Proof/Proofs/DecodedTokens.lean ====
section
/-! PROOFS. The automaton on the symbols of a block (46_decompress.md R307, R312 to R314, R320, R321): the slots of the
tokens that stand for bytes of `s` are decoded to these bytes. -/

namespace Sys2Proof.Proofs

open Sys2Proof.Machine Sys2Proof.Laws

/-! ## What the unit has output -/

/-- A context of mode `m` without an error that has output `x` since it was constructed, none of it returned yet. -/
structure Emitted (m : Mode) (x : List Byte) (d : DuCtx) : Prop where
  mode : d.mode = m
  err : d.err = .ok
  out : d.out = x
  winPos : d.winPos = x.length % Config.dWinSize
  produced : d.produced = min Config.dWinSize x.length
  window : ∀ a, a < x.length → x.length ≤ a + Config.dWinSize → winRead d.win (a % Config.dWinSize) = seqAt x a
  win : Memory.wf windowReset d.win = true
  adler : d.adler = adlerInMode m 1 x

theorem emitted_fresh (m : Mode) : Emitted m [] (DuCtx.fresh m) where
  mode := rfl
  err := rfl
  out := rfl
  winPos := rfl
  produced := rfl
  window := nofun
  win := rfl
  adler := (adlerInMode_nil m 1).symm

theorem outByte_emitted {m : Mode} {x : List Byte} {d : DuCtx} (b : Byte) (h : Emitted m x d) :
    Emitted m (x ++ [b]) (outByte b d) where
  mode := h.mode
  err := h.err
  out := congrArg (· ++ [b]) h.out
  winPos := by
    show (d.winPos + 1) % Config.dWinSize = _
    rw [h.winPos, List.length_append, List.length_singleton, Nat.mod_add_mod]
  produced := by
    show (if d.produced < Config.dWinSize then d.produced + 1 else d.produced) = _
    rw [h.produced, List.length_append, List.length_singleton]
    split <;> omega
  window := by
    intro a ha hback
    rw [List.length_append, List.length_singleton] at ha hback
    have hread : winRead (outByte b d).win (a % Config.dWinSize) =
        if d.winPos = a % Config.dWinSize then b else winRead d.win (a % Config.dWinSize) :=
      winRead_winWrite _ _ _ h.win
    rw [hread, h.winPos]
    obtain rfl | ha := Nat.eq_or_lt_of_le (Nat.le_of_lt_succ ha)
    · rw [if_pos rfl]
      simp [seqAt]
    · have hne : x.length % Config.dWinSize ≠ a % Config.dWinSize := by
        simp only [Config.dWinSize] at hback ⊢
        omega
      rw [if_neg hne, h.window a ha (by omega), seqAt_append ha]
  win := wf_winWrite _ _ h.win
  adler := by
    show adlerInMode d.mode d.adler [b] = _
    rw [h.mode, h.adler, adlerInMode_append]

theorem windowBack_emitted {m : Mode} {x : List Byte} {d : DuCtx} {dist : Nat} (h : Emitted m x d) (h1 : 1 ≤ dist)
    (hmax : dist ≤ Config.maxDist) (hx : dist ≤ x.length) : windowBack dist d = seqAt x (x.length - dist) := by
  rw [← h.window (x.length - dist) (by omega) (by simp only [Config.dWinSize, Config.maxDist] at hmax ⊢; omega),
    windowBack, h.winPos]
  congr 1
  simp only [Config.dWinSize, Config.maxDist] at hmax ⊢
  omega

theorem seqAt_take {s : List Byte} {n i : Nat} (h : i < n) : seqAt (s.take n) i = seqAt s i := by
  rw [seqAt, seqAt, List.getD_eq_getElem?_getD, List.getD_eq_getElem?_getD, List.getElem?_take_of_lt h]

/-- A copy outputs the bytes of `s` that agree with those at its distance (41_lz77.md R160). -/
theorem copyBytes_emitted {m : Mode} {s : List Byte} {p dist len : Nat} {d : DuCtx} (h : Emitted m (s.take p) d)
    (hd : dist ∈ agreeing s p len) (hle : p + len ≤ s.length) :
    Emitted m (s.take (p + len)) (copyBytes dist len d) := by
  obtain ⟨⟨h1, hmax, hp⟩, hagrees⟩ := mem_agreeing.1 hd
  clear hd
  induction len with
  | zero => exact h
  | succ len ih =>
    have ih := ih (by omega) (agrees_of_le hagrees (Nat.le_succ len))
    have hlen : (s.take (p + len)).length = p + len := List.length_take_of_le (by omega)
    have hbyte : windowBack dist (copyBytes dist len d) = seqAt s (p + len) := by
      rw [windowBack_emitted ih h1 hmax (by omega), hlen, seqAt_take (by omega),
        ← agrees_iff.1 hagrees len (Nat.lt_succ_self _)]
      congr 1
      omega
    rw [copyBytes_succ, hbyte, ← Nat.add_assoc, ← take_append_seqAt (by omega)]
    exact outByte_emitted _ ih

/-! ## The symbols -/

/-- The context stands in a block of final flag `f` coded by `ll` and `dt`. -/
structure InBlock (m : Mode) (f : Bool) (ll dt : Table) (x : List Byte) (d : DuCtx) : Prop where
  emitted : Emitted m x d
  state : d.state = .inBlk
  last : d.lastBlock = f
  litLen : litLenTable d = ll
  dist : distTable d = dt

/-- The slot's symbol has a code. -/
def Coded (ll dt : Table) : Slot → Prop
  | .litLen s => ∃ c ∈ ll, c.sym = s
  | .dist s => ∃ c ∈ dt, c.sym = s
  | _ => True

/-- The steps in INBLK on a symbol of the block's literal/length table (R307). -/
theorem bitStep_litLen {s : Nat} {d d' : DuCtx} (hs : d.state = .inBlk) (ht : Readable (litLenTable d))
    (hc : ∃ c ∈ litLenTable d, c.sym = s) (bs : List Bool)
    (heffect : ∀ l e, discardAll e = d → lookup (litLenTable e) e.bits.toNat e.nbits = .sym s l →
      ∃ e', stepInBlk e = .completed e' ∧ discardAll e' = d' ∧ e'.bits = (eat l e).bits ∧ e'.nbits = (eat l e).nbits) :
    BitStep (d, codeBits (litLenTable d) s ++ bs) (d', bs) := by
  rintro e inp hfull rfl hreads
  obtain ⟨l, hlookup, hrest⟩ := hreads.code hfull ht hc
  obtain ⟨e', hstep, hd', hbits, hnbits⟩ := heffect l e rfl hlookup
  have hs : automatonStep e = stepInBlk e := by rw [automatonStep, show e.state = .inBlk from hs]
  exact ⟨e', hs.trans hstep, hd', hrest.congr hbits hnbits⟩

section
variable {s : Nat} {d : DuCtx} (hs : d.state = .inBlk) (ht : Readable (litLenTable d))
  (hc : ∃ c ∈ litLenTable d, c.sym = s) (bs : List Bool)
include hs ht hc

theorem bitStep_literal (h : s < 256) :
    BitStep (d, codeBits (litLenTable d) s ++ bs) (outByte (BitVec.ofNat 8 s) d, bs) :=
  bitStep_litLen hs ht hc bs fun l e he hl =>
    ⟨outByte (BitVec.ofNat 8 s) (eat l e), by rw [stepInBlk, hl]; exact if_pos h, by rw [← he]; rfl, rfl, rfl⟩

theorem bitStep_endOfBlock (h : s = 256) : BitStep (d, codeBits (litLenTable d) s ++ bs) (blockEnd d, bs) :=
  bitStep_litLen hs ht hc bs fun l e he hl =>
    ⟨blockEnd (eat l e), by subst h; rw [stepInBlk, hl]; rfl, by rw [← he]; rfl, rfl, rfl⟩

theorem bitStep_length (hlo : 257 ≤ s) (hhi : s ≤ 285) :
    BitStep (d, codeBits (litLenTable d) s ++ bs) (selectLength s d, bs) :=
  bitStep_litLen hs ht hc bs fun l e he hl => by
    refine ⟨selectLength s (eat l e), ?_, by rw [← he]; rfl, rfl, rfl⟩
    rw [stepInBlk, hl]
    dsimp only
    rw [if_neg (by omega), if_neg (by omega), if_pos (show s < Config.nLL from Nat.lt_succ_of_le hhi)]

end

theorem finishLength_discardAll (x : Nat) (d : DuCtx) : discardAll (finishLength x d) =
    { discardAll d with len := matchLength (discardAll d).sym x, state := .gotLen } := by
  simp only [discardAll, finishLength, eat]

theorem bitStep_lengthExtra {v : Nat} {d : DuCtx} (hs : d.state = .gotLenSym) (hv : v < 2 ^ lengthExtra d.sym)
    (bs : List Bool) : BitStep (d, bitsOf (lengthExtra d.sym) v ++ bs)
      ({ d with len := matchLength d.sym v, state := .gotLen }, bs) := by
  refine bitStep_field (Nat.le_trans (lengthExtra_le _) (by decide)) hv bs ?_
  rintro e rfl hn rfl
  have hs : automatonStep e = stepGotLenSym e := by rw [automatonStep, show e.state = .gotLenSym from hs]
  have hn : lengthExtra e.sym ≤ e.nbits := hn
  rw [hs, stepGotLenSym, need_of_le hn]
  exact ⟨_, rfl, finishLength_discardAll _ e, rfl, rfl⟩

theorem bitStep_distance {s : Nat} {d : DuCtx} (hs : d.state = .gotLen) (ht : Readable (distTable d))
    (hc : ∃ c ∈ distTable d, c.sym = s) (h29 : s ≤ 29) (bs : List Bool) :
    BitStep (d, codeBits (distTable d) s ++ bs) (selectDistance s d, bs) := by
  rintro e inp hfull rfl hreads
  obtain ⟨l, hlookup, hrest⟩ := hreads.code hfull ht hc
  have hs : automatonStep e = stepGotLen e := by rw [automatonStep, show e.state = .gotLen from hs]
  have hlookup : lookup (distTable e) e.bits.toNat e.nbits = .sym s l := hlookup
  refine ⟨selectDistance s (eat l e), ?_, rfl, hrest.congr rfl rfl⟩
  rw [hs, stepGotLen, hlookup]
  exact if_neg (Nat.not_le_of_lt (Nat.lt_succ_of_le h29))

theorem copyBytes_discardAll (dist len : Nat) (d : DuCtx) :
    discardAll (copyBytes dist len d) = copyBytes dist len (discardAll d) := by
  induction len generalizing d with
  | zero => rfl
  | succ len ih => exact ih _

theorem copyBytes_bits (dist len : Nat) (d : DuCtx) :
    (copyBytes dist len d).bits = d.bits ∧ (copyBytes dist len d).nbits = d.nbits := by
  obtain ⟨out, win, winPos, produced, adler, heq, -⟩ := copyBytes_frame dist len d
  rw [heq]
  exact ⟨rfl, rfl⟩

theorem bitStep_distanceExtra {v : Nat} {d : DuCtx} (hs : d.state = .gotDistSym) (hv : v < 2 ^ distanceExtra d.sym)
    (hproduced : matchDistance d.sym v ≤ d.produced) (bs : List Bool) :
    BitStep (d, bitsOf (distanceExtra d.sym) v ++ bs)
      (setState .inBlk (copyBytes (matchDistance d.sym v) d.len d), bs) := by
  refine bitStep_field (Nat.le_trans (distanceExtra_le _) (by decide)) hv bs ?_
  rintro e rfl hn rfl
  have hs : automatonStep e = stepGotDistSym e := by rw [automatonStep, show e.state = .gotDistSym from hs]
  have hn : distanceExtra e.sym ≤ e.nbits := hn
  obtain ⟨hbits, hnbits⟩ := copyBytes_bits (matchDistance e.sym (peek (distanceExtra e.sym) e)) e.len
    (eat (distanceExtra e.sym) e)
  rw [hs, stepGotDistSym, need_of_le hn]
  exact ⟨_, if_neg (Nat.not_lt_of_le hproduced), congrArg (setState .inBlk) (copyBytes_discardAll ..), hbits, hnbits⟩

/-! ## The tokens -/

theorem extraSlot_bits (ll dt cl : Table) (n v : Nat) :
    (if n = 0 then [] else [Slot.extra n v]).flatMap (slotBits ll dt cl) = bitsOf n v := by
  split
  · next h => rw [h]; rfl
  · exact List.append_nil _

/-- The bits of a match: the length symbol and its extra field, the distance symbol and its extra field (R221, R247). -/
theorem tokenSlots_copy_bits (ll dt : Table) (d l : Nat) : (tokenSlots (.copy d l)).flatMap (slotBits ll dt []) =
    codeBits ll (257 + lcode l) ++ (bitsOf (lenExtra.getD (lcode l) 0) (l - lenBase.getD (lcode l) 0) ++
      (codeBits dt (dcode d) ++ bitsOf (distExtra.getD (dcode d) 0) (d - distBase.getD (dcode d) 0))) := by
  rw [tokenSlots]
  simp only [List.flatMap_append, extraSlot_bits, List.flatMap_singleton, slotBits, List.append_assoc]

/-- The context with a copy of length `len` at distance `dist` selected (R307, R312, R313). -/
def copySelected (dist len : Nat) (d : DuCtx) : DuCtx :=
  selectDistance (dcode dist) { selectLength (257 + lcode len) d with len := len, state := .gotLen }

/-- The four fields of a match (R307, R312 to R314). -/
theorem decodes_copy {dist len : Nat} {d : DuCtx} (hs : d.state = .inBlk) (hll : Readable (litLenTable d))
    (hdt : Readable (distTable d)) (hc : ∀ x ∈ tokenSlots (.copy dist len), Coded (litLenTable d) (distTable d) x)
    (hrange : inRange (.copy dist len)) (hproduced : dist ≤ d.produced) (bs : List Bool) :
    Decodes (d, (tokenSlots (.copy dist len)).flatMap (slotBits (litLenTable d) (distTable d) []) ++ bs)
      (setState .inBlk (copyBytes dist len (copySelected dist len d)), bs) := by
  obtain ⟨h1, hmax, hlo, hhi⟩ := hrange
  obtain ⟨hk, hbase, hextra⟩ := lcode_spec hlo hhi
  obtain ⟨hj, hdbase, hdextra⟩ := dcode_spec h1 hmax
  have hsub : lengthExtra (257 + lcode len) = lenExtra.getD (lcode len) 0 := by
    rw [lengthExtra, Nat.add_sub_cancel_left]
  have hmatch : matchLength (257 + lcode len) (len - lenBase.getD (lcode len) 0) = len := matchLength_lcode hbase
  have hdist := matchDistance_dcode hdbase
  have hlcode := hc (.litLen (257 + lcode len)) (by simp [tokenSlots])
  have hdcode := hc (.dist (dcode dist)) (by simp [tokenSlots])
  have hlengthExtra := bitStep_lengthExtra (d := selectLength (257 + lcode len) d) rfl (hsub.symm ▸ hextra)
  have hdistanceExtra := bitStep_distanceExtra (d := copySelected dist len d) rfl hdextra
    (Nat.le_trans (Nat.le_of_eq hdist) hproduced) bs
  have hsym : (copySelected dist len d).sym = dcode dist := rfl
  rw [selectLength_sym, hmatch] at hlengthExtra
  rw [hsym, hdist] at hdistanceExtra
  rw [tokenSlots_copy_bits, List.append_assoc, List.append_assoc, List.append_assoc, ← hsub]
  exact .head (bitStep_length hs hll hlcode _ (by omega) (by omega)) (.head (hlengthExtra _)
    (.head (bitStep_distance (d := { selectLength (257 + lcode len) d with len := len, state := .gotLen }) rfl hdt
      hdcode hj _) (.single hdistanceExtra)))

section
variable {m : Mode} {f : Bool} {ll dt : Table} {s : List Byte} {p : Nat} {d : DuCtx}
  (hll : Readable ll) (hdt : Readable dt) (bs : List Bool)
include hll hdt

theorem decodes_token {t : Token} (ht : tokenAt s p t) (hc : ∀ x ∈ tokenSlots t, Coded ll dt x)
    (h : InBlock m f ll dt (s.take p) d) : ∃ d',
      Decodes (d, (tokenSlots t).flatMap (slotBits ll dt []) ++ bs) (d', bs) ∧
        InBlock m f ll dt (s.take (p + t.width)) d' := by
  obtain ⟨hemitted, hstate, hlast, rfl, rfl⟩ := h
  cases t with
  | lit b =>
    obtain ⟨hp, rfl⟩ := ht
    have hcode := hc (.litLen (seqAt s p).toNat) List.mem_cons_self
    have hstep := bitStep_literal hstate hll hcode bs (seqAt s p).isLt
    have hout := outByte_emitted (seqAt s p) hemitted
    rw [BitVec.ofNat_toNat, BitVec.setWidth_eq] at hstep
    rw [take_append_seqAt hp] at hout
    rw [show (tokenSlots (.lit (seqAt s p))).flatMap (slotBits (litLenTable d) (distTable d) []) =
      codeBits (litLenTable d) (seqAt s p).toNat from List.append_nil _]
    exact ⟨_, .single hstep, hout, hstate, hlast, rfl, rfl⟩
  | copy dist len =>
    obtain ⟨hlo, hhi, hle, hd⟩ := ht
    obtain ⟨⟨h1, hmax, hp⟩, -⟩ := mem_agreeing.1 hd
    have hproduced : dist ≤ d.produced := by
      rw [hemitted.produced, List.length_take_of_le (by omega)]
      exact Nat.le_min.2 ⟨hmax, hp⟩
    refine ⟨_, decodes_copy hstate hll hdt hc ⟨h1, hmax, hlo, hhi⟩ hproduced bs, ?_⟩
    have hcopy := copyBytes_emitted (d := copySelected dist len d) { hemitted with } hd hle
    obtain ⟨out, win, winPos, produced, adler, heq, -⟩ := copyBytes_frame dist len (copySelected dist len d)
    refine ⟨{ hcopy with }, rfl, ?_, ?_, ?_⟩ <;> rw [heq]
    · exact hlast
    · rfl
    · rfl

/-- The slots of tokens that stand for bytes of `s` decode to these bytes (41_lz77.md R160, 45_compress_driver.md
R281). -/
theorem decodes_tokens {ts : List Token} {p' : Nat} (ht : spells s p ts p')
    (hc : ∀ x ∈ ts.flatMap tokenSlots, Coded ll dt x) (h : InBlock m f ll dt (s.take p) d) : ∃ d',
      Decodes (d, (ts.flatMap tokenSlots).flatMap (slotBits ll dt []) ++ bs) (d', bs) ∧
        InBlock m f ll dt (s.take p') d' := by
  induction ts generalizing p d with
  | nil =>
    obtain rfl : p = p' := ht
    exact ⟨d, .refl, h⟩
  | cons t ts ih =>
    obtain ⟨htoken, hrest⟩ := ht
    rw [List.flatMap_cons, List.forall_mem_append] at hc
    obtain ⟨d₁, hdecodes, h₁⟩ := decodes_token hll hdt ((ts.flatMap tokenSlots).flatMap (slotBits ll dt []) ++ bs)
      htoken hc.1 h
    obtain ⟨d', hdecodes', h'⟩ := ih hrest hc.2 h₁
    rw [List.flatMap_cons, List.flatMap_append, List.append_assoc]
    exact ⟨d', hdecodes.trans hdecodes', h'⟩

end

end Sys2Proof.Proofs
end

