-- ==== Sys2Proof/Proofs/SentTables.lean ====
section
/-! PROOFS. The tables of a dynamic block as the header sends them (44_block_emit.md R241 to R245): a table without its
trailing zero lengths is the same table, every symbol of the block has a code, and `rle` covers the lengths run by
run. -/

namespace Sys2Proof.Proofs

open Sys2Proof.Machine Sys2Proof.Laws

/-! ## Trailing zero lengths -/

theorem assignCodes_append_zeros (lens next : List Nat) (s k : Nat) :
    assignCodes (lens ++ List.replicate k 0) next s = assignCodes lens next s := by
  induction lens generalizing next s with
  | nil =>
    induction k generalizing s with
    | zero => rfl
    | succ k ih => exact ih (s + 1)
  | cons l lens ih =>
    rw [List.cons_append, assignCodes, assignCodes, ih, ih]

theorem lengthCounts_append_zeros (lens : List Nat) (k : Nat) :
    lengthCounts (lens ++ List.replicate k 0) = lengthCounts lens := by
  refine List.map_congr_left fun l _ => ?_
  split
  · rfl
  · next h => rw [List.count_append, List.count_replicate, if_neg (by simpa using Ne.symm h), Nat.add_zero]

theorem codes_append_zeros (lens : List Nat) (k : Nat) : codes (lens ++ List.replicate k 0) = codes lens := by
  rw [codes, firstCodes, lengthCounts_append_zeros, assignCodes_append_zeros]
  rfl

theorem kraftSum_append_zeros (lens : List Nat) (k : Nat) : kraftSum (lens ++ List.replicate k 0) = kraftSum lens := by
  have hzeros : (List.replicate k 0).map kraftShare = List.replicate k 0 := List.map_replicate
  rw [kraftSum_eq, kraftSum_eq, List.map_append, List.sum_append, hzeros, List.sum_replicate, smul_zero, Nat.add_zero]

theorem mkTable_append_zeros (lens : List Nat) (k : Nat) : mkTable (lens ++ List.replicate k 0) = mkTable lens := by
  rw [mkTable, kraftSum_append_zeros, codes_append_zeros, mkTable]

/-- What `trim` leaves out is 0 (R243, R245). -/
theorem eq_zero_of_trimCount_le {low : Nat} {at_ : Nat → Nat} {n i : Nat} (hi : trimCount low at_ n ≤ i) (hn : i < n) :
    at_ i = 0 := by
  induction n with
  | zero => omega
  | succ n ih =>
    rw [trimCount] at hi
    split at hi
    · next h =>
      obtain hlt | rfl := Nat.lt_or_eq_of_le (Nat.le_of_lt_succ hn)
      · exact ih hi hlt
      · exact h.2
    · omega

theorem take_append_zeros {lens : List Nat} {n : Nat} (h : ∀ i, n ≤ i → i < lens.length → lens.getD i 0 = 0) :
    lens.take n ++ List.replicate (lens.length - n) 0 = lens := by
  have hdrop : lens.drop n = List.replicate (lens.length - n) 0 := by
    refine List.eq_replicate_iff.2 ⟨List.length_drop, fun l hl => ?_⟩
    obtain ⟨i, hi, rfl⟩ := List.mem_iff_getElem.1 hl
    rw [List.length_drop] at hi
    have hzero := h (n + i) (Nat.le_add_right _ _) (by omega)
    rw [List.getD_eq_getElem _ _ (by omega)] at hzero
    rw [List.getElem_drop, hzero]
  rw [← hdrop, List.take_append_drop]

/-- The lengths sent give the table of all lengths. -/
theorem mkTable_take_trimCount {lens : List Nat} {n : Nat} (low : Nat) (hn : lens.length = n) :
    mkTable (lens.take (trimCount low (fun i => lens.getD i 0) n)) = mkTable lens := by
  have htake := take_append_zeros (lens := lens) (n := trimCount low (fun i => lens.getD i 0) n) fun i hi hlt =>
    eq_zero_of_trimCount_le (at_ := fun i => lens.getD i 0) hi (hn ▸ hlt)
  conv_rhs => rw [← htake, mkTable_append_zeros]

/-! ## The symbols that occur have codes -/

theorem bump_getD (f : List Nat) (i s : Nat) :
    (bump f i).getD s 0 = f.getD s 0 + if i = s ∧ s < f.length then 1 else 0 := by
  rw [bump, List.getD_eq_getElem?_getD, List.getElem?_set]
  by_cases his : i = s
  · subst his
    by_cases hlt : i < f.length <;> simp [hlt]
  · simp [his]

theorem le_bump (f : List Nat) (i s : Nat) : f.getD s 0 ≤ (bump f i).getD s 0 := by
  rw [bump_getD]
  exact Nat.le_add_right _ _

theorem bump_pos {f : List Nat} {s : Nat} (h : s < f.length) : 0 < (bump f s).getD s 0 := by
  rw [bump_getD, if_pos ⟨rfl, h⟩]
  exact Nat.succ_pos _

/-- A count that never falls, and rises at an element of the list, is not 0 at the end. -/
theorem foldl_count_pos {g : List Nat → Slot → List Nat} {l : List Slot} {x : Slot} {n s : Nat}
    (hlen : ∀ f x, (g f x).length = f.length) (hmono : ∀ f x, f.getD s 0 ≤ (g f x).getD s 0)
    (hx : x ∈ l) (hrise : ∀ f, f.length = n → 0 < (g f x).getD s 0) {f : List Nat} (hf : f.length = n) :
    0 < (l.foldl g f).getD s 0 := by
  have hkeeps : ∀ (l : List Slot) (f : List Nat), f.getD s 0 ≤ (l.foldl g f).getD s 0 := fun l => by
    induction l with
    | nil => exact fun _ => Nat.le_refl _
    | cons y l ih => exact fun f => Nat.le_trans (hmono f y) (ih _)
  induction l generalizing f with
  | nil => cases hx
  | cons y l ih =>
    obtain rfl | hx := List.mem_cons.1 hx
    · exact Nat.lt_of_lt_of_le (hrise f hf) (hkeeps l _)
    · exact ih hx ((hlen f y).trans hf)

theorem countLL_pos {b : List Slot} {s : Nat} (hs : .litLen s ∈ b) (h : s < Config.nLL) : 0 < (countLL b).getD s 0 := by
  refine Nat.lt_of_lt_of_le ?_ (le_bump _ 256 s)
  refine foldl_count_pos (fun f x => ?_) (fun f x => ?_) hs (fun f hf => bump_pos (hf.symm ▸ h)) List.length_replicate
  · cases x with
    | litLen s => exact bump_length f s
    | _ => rfl
  · cases x with
    | litLen i => exact le_bump f i s
    | _ => exact Nat.le_refl _

theorem countLL_endOfBlock_pos (b : List Slot) : 0 < (countLL b).getD 256 0 := by
  have hlen := countLL_length b
  rw [countLL, bump_length] at hlen
  exact bump_pos (hlen.symm ▸ (by decide : 256 < Config.nLL))

theorem countD_pos {b : List Slot} {s : Nat} (hs : .dist s ∈ b) (h : s < Config.nDist) : 0 < (countD b).getD s 0 := by
  refine foldl_count_pos (fun f x => ?_) (fun f x => ?_) hs (fun f hf => bump_pos (hf.symm ▸ h)) List.length_replicate
  · cases x with
    | dist s => exact bump_length f s
    | _ => rfl
  · cases x with
    | dist i => exact le_bump f i s
    | _ => exact Nat.le_refl _

theorem countCL_pos {b : List Slot} {s : Nat} (hs : .codeLen s ∈ b) (h : s < Config.nCL) :
    0 < (countCL b).getD s 0 := by
  refine foldl_count_pos (fun f x => ?_) (fun f x => ?_) hs (fun f hf => bump_pos (hf.symm ▸ h)) List.length_replicate
  · cases x with
    | codeLen s => exact bump_length f s
    | _ => rfl
  · cases x with
    | codeLen i => exact le_bump f i s
    | _ => exact Nat.le_refl _

/-- The sizes and limits of the three alphabets (00_scope.md R7). -/
def AlphabetSize (f : List Nat) (limit : Nat) : Prop := limit = 15 ∧ f.length ≤ 286 ∨ limit = 7 ∧ f.length ≤ 19

/-- A symbol that occurs has a code in the table built from the counts (42_huffman.md R190, R192). -/
theorem coded_of_count_pos {f : List Nat} {limit s : Nat} (h : AlphabetSize f limit) (hs : 0 < f.getD s 0) :
    ∃ c ∈ codes (huffLimited f limit), c.sym = s := by
  obtain ⟨-, hlen, hzero⟩ := huffmanLengthsWithinTheLimit f limit h
  have hlt : s < f.length := by
    by_contra hge
    rw [List.getD_eq_default _ _ (Nat.le_of_not_lt hge)] at hs
    exact Nat.lt_irrefl 0 hs
  have hlt' : s < (huffLimited f limit).length := hlen.symm ▸ hlt
  have hne := mt (hzero s hlt).1 (Nat.ne_of_gt hs)
  rw [List.getD_eq_getElem _ _ hlt'] at hne
  exact exists_mem_codes (List.getElem?_eq_getElem hlt') hne

/-- The table built from counts is one that decodes (42_huffman.md R195, R197, R201). -/
theorem huffLimited_table {f : List Nat} {limit : Nat} (h : AlphabetSize f limit) :
    mkTable (huffLimited f limit) = some (codes (huffLimited f limit)) ∧ Readable (codes (huffLimited f limit)) := by
  have htable := (huffmanCodesAreComplete f limit h).2
  obtain ⟨hle, -, -⟩ := huffmanLengthsWithinTheLimit f limit h
  refine ⟨htable, readable_of_mkTable (fun l hl => Nat.le_trans (hle l hl) ?_) htable⟩
  obtain ⟨rfl, -⟩ | ⟨rfl, -⟩ := h <;> decide

/-! ## The run-length coding -/

theorem runs_flatMap (q : List Nat) : (runs q).flatMap (fun r => List.replicate r.2 r.1) = q := by
  induction q with
  | nil => rfl
  | cons v q ih =>
    rw [runs]
    split
    · next w k more heq =>
      rw [heq] at ih
      split
      · next hv =>
        subst hv
        rw [List.flatMap_cons, List.replicate_succ, List.cons_append,
          ← List.flatMap_cons (f := fun r => List.replicate r.2 r.1) (x := (v, k)), ih]
      · rw [List.flatMap_cons, ih]
        rfl
    · next heq =>
      rw [heq] at ih
      rw [← ih]
      rfl

theorem mem_runs {q : List Nat} {r : Nat × Nat} (h : r ∈ runs q) : r.1 ∈ q ∧ 1 ≤ r.2 := by
  induction q generalizing r with
  | nil => cases h
  | cons v q ih =>
    rw [runs] at h
    split at h
    · next w k more heq =>
      have hhead := ih (heq ▸ List.mem_cons_self)
      have htail : ∀ r ∈ more, r.1 ∈ v :: q ∧ 1 ≤ r.2 := fun r hr =>
        ⟨List.mem_cons_of_mem v (ih (heq ▸ List.mem_cons_of_mem _ hr)).1, (ih (heq ▸ List.mem_cons_of_mem _ hr)).2⟩
      split at h
      · next hv =>
        obtain rfl | h := List.mem_cons.1 h
        · exact ⟨hv ▸ List.mem_cons_self, Nat.succ_pos k⟩
        · exact htail r h
      · obtain rfl | h := List.mem_cons.1 h
        · exact ⟨List.mem_cons_self, Nat.le_refl 1⟩
        · obtain rfl | h := List.mem_cons.1 h
          · exact ⟨List.mem_cons_of_mem v hhead.1, hhead.2⟩
          · exact htail r h
    · obtain rfl := List.mem_singleton.1 h
      exact ⟨List.mem_cons_self, Nat.le_refl 1⟩

end Sys2Proof.Proofs
end

