-- ==== Sys2Proof/Proofs/DecodedHeader.lean ====
section
/-! PROOFS. The automaton on a block's header (46_decompress.md R303, R308 to R311): the header of a dynamic block gives
the unit the tables it was written with. -/

namespace Sys2Proof.Proofs

open Sys2Proof.Machine Sys2Proof.Laws

/-! ## The three header bits -/

theorem blockHeader_bits (f : Bool) {t : Nat} (ht : t < 4) :
    bitsOf 3 (f.toNat + 2 * t) = f :: bitsOf 2 t ∧ f.toNat + 2 * t < 2 ^ 3 ∧
      ((f.toNat + 2 * t) % 2 == 1) = f ∧ (f.toNat + 2 * t) / 2 = t := by
  have hbits := bitsOf_concat (m := 1) (a := f.toNat) (Bool.toNat_lt f) 2 t
  rw [bitsOf_bool] at hbits
  cases f
  · exact ⟨hbits, by simp only [Bool.toNat_false]; omega, by simp [Nat.mul_mod_right], by simp⟩
  · exact ⟨hbits, by simp only [Bool.toNat_true]; omega, by simp [Nat.add_mod], by simp only [Bool.toNat_true]; omega⟩

/-- OUTSIDEBLK on a block header (R303). -/
theorem stepOutsideBlk_header {f : Bool} {t : Nat} (ht : t < 4) {d : DuCtx} {inp : List Byte} {bs : List Bool}
    (hs : d.state = .outsideBlk) (hfull : Refilled d inp) (hr : Reads d inp (f :: bitsOf 2 t ++ bs)) :
    automatonStep d = startBlock f t (eat 3 d) ∧ Reads (eat 3 d) inp bs := by
  obtain ⟨hbits, hlt, hf, hdiv⟩ := blockHeader_bits f ht
  rw [← hbits] at hr
  obtain ⟨hn, hpeek, hrest⟩ := hr.field hfull (by decide) hlt
  refine ⟨?_, hrest⟩
  rw [automatonStep, hs]
  show stepOutsideBlk d = _
  rw [stepOutsideBlk, need_of_le hn, hpeek, hf, hdiv]

section
variable {d : DuCtx} (hs : d.state = .outsideBlk) (f : Bool)
include hs

theorem bitStep_dynamicHeader (bs : List Bool) :
    BitStep (d, [f, false, true] ++ bs) (setState .treesHdr (setDLastBlock f d), bs) := by
  rintro e inp hfull rfl hreads
  obtain ⟨hstep, hrest⟩ := stepOutsideBlk_header (d := e) (t := 2) (by decide) hs hfull hreads
  exact ⟨_, hstep, rfl, hrest.congr rfl rfl⟩

theorem bitStep_staticHeader (bs : List Bool) :
    BitStep (d, [f, true, false] ++ bs) ({ setDLastBlock f d with cur := false, state := .inBlk }, bs) := by
  rintro e inp hfull rfl hreads
  obtain ⟨hstep, hrest⟩ := stepOutsideBlk_header (d := e) (t := 1) (by decide) hs hfull hreads
  exact ⟨_, hstep, rfl, hrest.congr rfl rfl⟩

/-- The header of a stored block, with the padding after it (R303, 40_bitio.md R147). -/
theorem bitStep_storedHeader {pad bs : List Bool} (hpad : pad.length < 8) (hbs : bs.length % 8 = 0) :
    BitStep (d, [f, false, false] ++ (pad ++ bs)) (setState .uncompLen (setDLastBlock f d), bs) := by
  rintro e inp hfull rfl hreads
  obtain ⟨hstep, hrest⟩ := stepOutsideBlk_header (d := e) (t := 0) (by decide) hs hfull hreads
  have halign := Reads.align (d := setDLastBlock f (eat 3 e)) (hrest.congr rfl rfl) hpad hbs
  exact ⟨_, hstep, rfl, halign.congr rfl rfl⟩

end

/-! ## The counts and the code lengths of the code-length alphabet -/

theorem bitStep_counts {a b c : Nat} {d : DuCtx} (hs : d.state = .treesHdr) (ha : a ≤ 29) (hb : b ≤ 29) (hc : c < 16)
    (bs : List Bool) : BitStep (d, bitsOf 5 a ++ (bitsOf 5 b ++ (bitsOf 4 c ++ bs)))
      ({ d with hlit := 257 + a, hdist := 1 + b, hclen := 4 + c, lenPtr := 0, lenLen := List.replicate Config.nCL 0,
                state := .treesLenLen }, bs) := by
  have hbits : bitsOf 14 (a + 2 ^ 5 * (b + 2 ^ 5 * c)) = bitsOf 5 a ++ (bitsOf 5 b ++ bitsOf 4 c) := by
    rw [← bitsOf_concat (m := 5) (a := b) (by omega) 4 c, ← bitsOf_concat (m := 5) (a := a) (by omega)]
  rw [← List.append_assoc (bitsOf 5 b), ← List.append_assoc, ← hbits]
  refine bitStep_field (by decide) (by omega) bs ?_
  rintro e rfl hn hpeek
  have hlit : (a + 2 ^ 5 * (b + 2 ^ 5 * c)) % 32 = a := by omega
  have hdist : (a + 2 ^ 5 * (b + 2 ^ 5 * c)) / 32 % 32 = b := by omega
  have hclen : (a + 2 ^ 5 * (b + 2 ^ 5 * c)) / 1024 = c := by omega
  have hstep : automatonStep e = stepTreesHdr e := by rw [automatonStep, show e.state = .treesHdr from hs]
  have hok : ¬(Config.nLL < 257 + a ∨ Config.nDist < 1 + b) := by
    simp only [Config.nLL, Config.nDist]
    omega
  rw [stepTreesHdr, need_of_le hn] at hstep
  simp only [hpeek, hlit, hdist, hclen, if_neg hok] at hstep
  exact ⟨_, hstep, rfl, rfl, rfl⟩

/-- D.LENLEN when the lengths of the first `i` symbols in transmission order have been read (R309). -/
def lenLenAfter (cl : List Nat) (i : Nat) : List Nat :=
  (clOrder.take i).foldl (fun l s => l.set s (cl.getD s 0)) (List.replicate Config.nCL 0)

theorem lenLenAfter_succ (cl : List Nat) {i : Nat} (h : i < clOrder.length) :
    lenLenAfter cl (i + 1) = (lenLenAfter cl i).set (clOrder.getD i 0) (cl.getD (clOrder.getD i 0) 0) := by
  rw [lenLenAfter, List.take_succ_eq_append_getElem h, List.foldl_append, List.getD_eq_getElem _ _ h]
  rfl

theorem foldl_set_getD {cl order l : List Nat} (h : ∀ s ∈ order, s < l.length) (j : Nat) :
    (order.foldl (fun l s => l.set s (cl.getD s 0)) l).getD j 0 = if j ∈ order then cl.getD j 0 else l.getD j 0 := by
  induction order generalizing l with
  | nil => rfl
  | cons s order ih =>
    obtain ⟨hs, horder⟩ := List.forall_mem_cons.1 h
    rw [List.foldl_cons, ih (by rwa [List.length_set])]
    by_cases hmem : j ∈ order
    · rw [if_pos hmem, if_pos (List.mem_cons_of_mem s hmem)]
    · rw [if_neg hmem, List.getD_eq_getElem?_getD, List.getElem?_set]
      by_cases hsj : s = j
      · subst hsj
        rw [if_pos rfl, if_pos hs, if_pos List.mem_cons_self]
        rfl
      · rw [if_neg hsj, if_neg (by simp [hmem, Ne.symm hsj]), ← List.getD_eq_getElem?_getD]

theorem lenLenAfter_length (cl : List Nat) (i : Nat) : (lenLenAfter cl i).length = Config.nCL :=
  (foldl_length (fun _ _ => List.length_set) _ _).trans List.length_replicate

/-- Where the lengths left out are 0, those sent are all of them (R309, 44_block_emit.md R245). -/
theorem lenLenAfter_all {cl : List Nat} {n : Nat} (hlen : cl.length = Config.nCL)
    (hzero : ∀ i, n ≤ i → i < Config.nCL → cl.getD (clOrder.getD i 0) 0 = 0) : lenLenAfter cl n = cl := by
  refine List.ext_getElem ((lenLenAfter_length cl n).trans hlen.symm) fun j hj hj' => ?_
  rw [← List.getD_eq_getElem _ 0 hj, ← List.getD_eq_getElem _ 0 hj', lenLenAfter, foldl_set_getD (fun s hs => ?_)]
  · split
    · rfl
    · next hnot =>
      have hall : ∀ j < 19, ∃ i < 19, clOrder.getD i 0 = j := by decide
      rw [hlen] at hj'
      obtain ⟨i, hi, rfl⟩ := hall j hj'
      have hni : n ≤ i := by
        by_contra hlt
        rw [List.getD_eq_getElem _ 0 (show i < clOrder.length from hi)] at hnot
        exact hnot (List.mem_take_iff_getElem.2 ⟨i, Nat.lt_min.2 ⟨Nat.lt_of_not_le hlt, hi⟩, rfl⟩)
      rw [hzero i hni hi, List.getD_eq_getElem?_getD, List.getElem?_replicate]
      split <;> rfl
  · have hsmall : ∀ s ∈ clOrder, s < 19 := by decide
    exact Nat.lt_of_lt_of_eq (hsmall s (List.mem_of_mem_take hs)) List.length_replicate.symm

section
variable {v : Nat} {d : DuCtx} (hs : d.state = .treesLenLen) (hv : v < 2 ^ 3) (bs : List Bool)
include hs hv

theorem bitStep_lenLen (hptr : d.lenPtr + 1 ≠ d.hclen) : BitStep (d, bitsOf 3 v ++ bs)
    ({ d with lenLen := d.lenLen.set (clOrder.getD d.lenPtr 0) v, lenPtr := d.lenPtr + 1 }, bs) := by
  refine bitStep_field (by decide) hv bs ?_
  rintro e rfl hn hpeek
  have hstep : automatonStep e = stepTreesLenLen e := by rw [automatonStep, show e.state = .treesLenLen from hs]
  rw [stepTreesLenLen, need_of_le hn, hpeek] at hstep
  exact ⟨_, hstep.trans (if_neg hptr), rfl, rfl, rfl⟩

theorem bitStep_lastLenLen {t : Table} (hptr : d.lenPtr + 1 = d.hclen)
    (ht : mkTable (d.lenLen.set (clOrder.getD d.lenPtr 0) v) = some t) : BitStep (d, bitsOf 3 v ++ bs)
      ({ d with lenLen := d.lenLen.set (clOrder.getD d.lenPtr 0) v, tabCL := some t, lenPtr := 0,
                lengths := List.replicate (Config.nLL + Config.nDist) 0, state := .treesLen }, bs) := by
  refine bitStep_field (by decide) hv bs ?_
  rintro e rfl hn hpeek
  have hstep : automatonStep e = stepTreesLenLen e := by rw [automatonStep, show e.state = .treesLenLen from hs]
  have ht : mkTable (e.lenLen.set (clOrder.getD e.lenPtr 0) v) = some t := ht
  rw [stepTreesLenLen, need_of_le hn, hpeek] at hstep
  have hbuild := hstep.trans (if_pos hptr)
  dsimp only [eat_lenLen, eat_lenPtr] at hbuild
  rw [ht] at hbuild
  exact ⟨_, hbuild, rfl, rfl, rfl⟩

end

end Sys2Proof.Proofs
end

