-- ==== Sys2Proof/Proofs/DecodedLengths.lean ====
section
/-! PROOFS. The automaton on the run-length coded code lengths of a dynamic block (46_decompress.md R310, R311), and the
whole header: the unit then holds the tables the block was written with. -/

namespace Sys2Proof.Proofs

open Sys2Proof.Machine Sys2Proof.Laws

/-! ## The steps of TREES_LEN and TREES_LENREP -/

/-- A code-length symbol in TREES_LEN (R310). -/
theorem bitStep_codeLen {s : Nat} {d d' : DuCtx} (hs : d.state = .treesLen) (hptr : d.lenPtr < d.hlit + d.hdist)
    (ht : Readable (codeLenTable d)) (hc : ∃ c ∈ codeLenTable d, c.sym = s) (bs : List Bool)
    (heffect : ∀ e, discardAll e = d → ∃ e', (if s < 16 then .completed (writeLength s e) else selectRepeat s e) =
      .completed e' ∧ discardAll e' = d' ∧ e'.bits = e.bits ∧ e'.nbits = e.nbits) :
    BitStep (d, codeBits (codeLenTable d) s ++ bs) (d', bs) := by
  rintro e inp hfull rfl hreads
  obtain ⟨l, hlookup, hrest⟩ := hreads.code hfull ht hc
  obtain ⟨e', hstep, hd', hbits, hnbits⟩ := heffect (eat l e) rfl
  have hlookup : lookup (codeLenTable e) e.bits.toNat e.nbits = .sym s l := hlookup
  have hs : automatonStep e = stepTreesLen e := by rw [automatonStep, show e.state = .treesLen from hs]
  have hmore : lengthsDone e = false := decide_eq_false (Nat.not_le_of_lt hptr)
  refine ⟨e', ?_, hd', hrest.congr hbits hnbits⟩
  rw [hs, stepTreesLen, hmore, hlookup]
  exact hstep

theorem bitStep_length_value {v : Nat} {d : DuCtx} (hs : d.state = .treesLen) (hptr : d.lenPtr < d.hlit + d.hdist)
    (ht : Readable (codeLenTable d)) (hc : ∃ c ∈ codeLenTable d, c.sym = v) (hv : v < 16) (bs : List Bool) :
    BitStep (d, codeBits (codeLenTable d) v ++ bs) (writeLength v d, bs) :=
  bitStep_codeLen hs hptr ht hc bs fun e he => ⟨writeLength v e, if_pos hv, by rw [← he]; rfl, rfl, rfl⟩

/-- The value a repeat symbol repeats (R310): the last length, or 0. -/
def repeated (s : Nat) (d : DuCtx) : Nat := if s = 16 then d.lengths.getD (d.lenPtr - 1) 0 else 0

/-- A repeat symbol is selected (R310). -/
def repeatSelected (s : Nat) (d : DuCtx) : DuCtx :=
  { d with lenRep := repeated s d, lenExtraBits := extraBitsOf .codeLength s, lenAddOn := repeatBase s,
           state := .treesLenRep }

theorem bitStep_repeat {s : Nat} {d : DuCtx} (hs : d.state = .treesLen) (hptr : d.lenPtr < d.hlit + d.hdist)
    (ht : Readable (codeLenTable d)) (hc : ∃ c ∈ codeLenTable d, c.sym = s) (h16 : 16 ≤ s)
    (hprev : s = 16 → d.lenPtr ≠ 0) (bs : List Bool) :
    BitStep (d, codeBits (codeLenTable d) s ++ bs) (repeatSelected s d, bs) :=
  bitStep_codeLen hs hptr ht hc bs fun e he => by
    subst he
    rw [if_neg (Nat.not_lt_of_le h16)]
    exact ⟨repeatSelected s e, if_neg fun h => hprev h.1 h.2, rfl, rfl, rfl⟩

theorem writeRepeats_discardAll (k : Nat) (d : DuCtx) :
    discardAll (writeRepeats k d) = writeRepeats k (discardAll d) := by
  induction k generalizing d with
  | zero => rfl
  | succ k ih => exact ih _

theorem writeRepeats_bits (k : Nat) (d : DuCtx) : (writeRepeats k d).bits = d.bits := by
  induction k generalizing d with
  | zero => rfl
  | succ k ih => exact ih _

/-- The extra field of a repeat symbol (R311). -/
theorem bitStep_repeatExtra {v : Nat} {d : DuCtx} (hs : d.state = .treesLenRep) (hx : d.lenExtraBits ≤ 7)
    (hv : v < 2 ^ d.lenExtraBits) (hfits : d.lenPtr + (d.lenAddOn + v) ≤ d.hlit + d.hdist) (bs : List Bool) :
    BitStep (d, bitsOf d.lenExtraBits v ++ bs) (setState .treesLen (writeRepeats (d.lenAddOn + v) d), bs) := by
  refine bitStep_field (Nat.le_trans hx (by decide)) hv bs ?_
  rintro e rfl hn rfl
  have hs : automatonStep e = stepTreesLenRep e := by rw [automatonStep, show e.state = .treesLenRep from hs]
  have hn : e.lenExtraBits ≤ e.nbits := hn
  rw [hs, stepTreesLenRep, need_of_le hn]
  exact ⟨_, if_neg (Nat.not_lt_of_le hfits), congrArg (setState .treesLen) (writeRepeats_discardAll ..),
    writeRepeats_bits .., writeRepeats_nbits ..⟩

/-! ## Runs of lengths -/

/-- The context without the registers that code lengths are read into. -/
def forgetLengths (d : DuCtx) : DuCtx :=
  { d with lengths := [], lenPtr := 0, lenRep := 0, lenExtraBits := 0, lenAddOn := 0 }

theorem registers_of_forgetLengths {c d : DuCtx} (h : forgetLengths d = forgetLengths c) :
    d.state = c.state ∧ codeLenTable d = codeLenTable c ∧ d.hlit + d.hdist = c.hlit + c.hdist := by
  have hstate := congrArg DuCtx.state h
  have htable := congrArg codeLenTable h
  have hcounts := congrArg (fun d : DuCtx => d.hlit + d.hdist) h
  exact ⟨hstate, htable, hcounts⟩

/-- `d` is the context `c` in TREES_LEN when the lengths `ls` have been read. -/
structure LengthsRead (c : DuCtx) (ls : List Nat) (d : DuCtx) : Prop where
  same : forgetLengths d = forgetLengths c
  ptr : d.lenPtr = ls.length
  size : d.lengths.length = 316
  read : d.lengths.take ls.length = ls

theorem writeRepeats_forgetLengths (k : Nat) (d : DuCtx) : forgetLengths (writeRepeats k d) = forgetLengths d := by
  induction k generalizing d with
  | zero => rfl
  | succ k ih => exact ih _

/-- The slots lead from the lengths `ls` to `ls'`. -/
def Writes (c : DuCtx) (slots : List Slot) (ls ls' : List Nat) : Prop :=
  ∀ d bs, LengthsRead c ls d → ∃ d',
    Decodes (d, slots.flatMap (slotBits [] [] (codeLenTable c)) ++ bs) (d', bs) ∧ LengthsRead c ls' d'

theorem Writes.nil (c : DuCtx) (ls : List Nat) : Writes c [] ls ls := fun d _ h => ⟨d, .refl, h⟩

theorem Writes.append {c : DuCtx} {a b : List Slot} {ls ls' ls'' : List Nat} (h : Writes c a ls ls')
    (h' : Writes c b ls' ls'') : Writes c (a ++ b) ls ls'' := by
  intro d bs hd
  rw [List.flatMap_append, List.append_assoc]
  obtain ⟨d₁, hrun, hd₁⟩ := h d _ hd
  obtain ⟨d₂, hrun', hd₂⟩ := h' d₁ bs hd₁
  exact ⟨d₂, hrun.trans hrun', hd₂⟩

/-- Every code-length symbol among the slots has a code. -/
def AllCoded (t : Table) (slots : List Slot) : Prop := ∀ s, .codeLen s ∈ slots → ∃ c ∈ t, c.sym = s

theorem AllCoded.of_subset {t : Table} {slots slots' : List Slot} (h : AllCoded t slots) (hsub : slots' ⊆ slots) :
    AllCoded t slots' := fun s hs => h s (hsub hs)

/-- The last of the lengths is `v`. -/
def EndsWith (v : Nat) (ls : List Nat) : Prop := ls ≠ [] ∧ ls.getLastD 0 = v

theorem EndsWith.append_replicate {v : Nat} {ls : List Nat} (h : EndsWith v ls) (k : Nat) :
    EndsWith v (ls ++ List.replicate k v) := by
  obtain ⟨hne, hlast⟩ := h
  refine ⟨fun hnil => hne (List.append_eq_nil_iff.1 hnil).1, ?_⟩
  cases k with
  | zero => rwa [List.replicate_zero, List.append_nil]
  | succ k => rw [List.replicate_succ', ← List.append_assoc, List.getLastD_concat]

section
variable {c : DuCtx} (hs : c.state = .treesLen) (ht : Readable (codeLenTable c)) (hmax : c.hlit + c.hdist ≤ 316)
include hs ht hmax

theorem writes_value {ls : List Nat} {v : Nat} (hv : v < 16) (hc : ∃ e ∈ codeLenTable c, e.sym = v)
    (hlen : ls.length < c.hlit + c.hdist) : Writes c [.codeLen v] ls (ls ++ [v]) := by
  intro d bs ⟨hsame, hptr, hsize, hread⟩
  obtain ⟨hstate, htable, hcounts⟩ := registers_of_forgetLengths hsame
  have hs := hstate.trans hs
  rw [show [Slot.codeLen v].flatMap (slotBits [] [] (codeLenTable c)) = codeBits (codeLenTable c) v from
    List.append_nil _]
  rw [← htable] at ht hc ⊢
  refine ⟨_, .single (bitStep_length_value hs (by omega) ht hc hv bs), hsame, ?_, List.length_set.trans hsize, ?_⟩
  · rw [writeLength_lenPtr, hptr, List.length_append, List.length_singleton]
  · rw [writeLength_lengths, hptr, List.length_append, List.length_singleton,
      List.take_succ_eq_append_getElem (by rw [List.length_set]; omega), List.take_set_of_le (Nat.le_refl _),
      List.getElem_set_self, hread]

theorem writes_repeat {ls : List Nat} {s v : Nat} (h16 : 16 ≤ s) (hc : ∃ e ∈ codeLenTable c, e.sym = s)
    (hprev : s = 16 → ls ≠ []) (hv : v < 2 ^ extraBitsOf .codeLength s)
    (hlen : ls.length + (repeatBase s + v) ≤ c.hlit + c.hdist) :
    Writes c [.codeLen s, .extra (extraBitsOf .codeLength s) v] ls
      (ls ++ List.replicate (repeatBase s + v) (if s = 16 then ls.getLastD 0 else 0)) := by
  intro d bs ⟨hsame, hptr, hsize, hread⟩
  obtain ⟨hstate, htable, hcounts⟩ := registers_of_forgetLengths hsame
  have hs := hstate.trans hs
  have hbase : 0 < repeatBase s := by
    unfold repeatBase
    split <;> decide
  have hpos : s = 16 → 0 < ls.length := fun h => List.length_pos_of_ne_nil (hprev h)
  have hrepeated : repeated s d = if s = 16 then ls.getLastD 0 else 0 := by
    unfold repeated
    split
    · next h =>
      have := hpos h
      conv_rhs => rw [← hread]
      rw [hptr, List.getLastD_eq_getLast?, List.getLast?_eq_getElem?, List.length_take_of_le (by omega),
        List.getElem?_take_of_lt (by omega), List.getD_eq_getElem?_getD]
    · rfl
  have hbits : [Slot.codeLen s, .extra (extraBitsOf .codeLength s) v].flatMap (slotBits [] [] (codeLenTable c)) ++ bs =
      codeBits (codeLenTable d) s ++ (bitsOf (extraBitsOf .codeLength s) v ++ bs) := by
    rw [htable, ← List.append_assoc]
    exact congrArg (codeBits (codeLenTable c) s ++ · ++ bs) (List.append_nil _)
  have hstep₁ := bitStep_repeat hs (show d.lenPtr < d.hlit + d.hdist by omega) (htable ▸ ht) (htable ▸ hc) h16
    (fun h => Nat.ne_of_gt (hptr ▸ hpos h)) (bitsOf (extraBitsOf .codeLength s) v ++ bs)
  have hstep₂ := bitStep_repeatExtra (d := repeatSelected s d) rfl (extraBitsOf_codeLength_le s) hv
    (show d.lenPtr + (repeatBase s + v) ≤ d.hlit + d.hdist by omega) bs
  have hwrite : writeRepeats ((repeatSelected s d).lenAddOn + v) (repeatSelected s d) = _ :=
    writeRepeats_spec (repeatBase s + v) (repeatSelected s d) (show d.lenPtr + _ ≤ d.lengths.length by omega)
  rw [hbits, ← hrepeated]
  refine ⟨_, .head hstep₁ (.single hstep₂), ?_, ?_, ?_, ?_⟩
  · have hforget := writeRepeats_forgetLengths (repeatBase s + v) (repeatSelected s d)
    refine (congrArg (setState .treesLen) hforget).trans (Eq.trans ?_ hsame)
    rw [← hs]
    rfl
  · show (writeRepeats _ _).lenPtr = _
    rw [hwrite, List.length_append, List.length_replicate, ← hptr]
    rfl
  · show (writeRepeats _ _).lengths.length = _
    rw [hwrite]
    dsimp only [repeatSelected]
    simp only [List.length_append, List.length_replicate, List.length_drop, List.length_take]
    omega
  · show (writeRepeats _ _).lengths.take _ = _
    rw [hwrite]
    dsimp only [repeatSelected]
    rw [hptr, hread]
    exact List.take_left

/-! ## The run-length coding -/

/-- A repeat code, its extra field, and what follows (44_block_emit.md R244). -/
theorem writes_repeat_then {ls : List Nat} {s v w n k : Nat} {rest : List Slot} (h16 : 16 ≤ s)
    (hc : AllCoded (codeLenTable c) (.codeLen s :: .extra (extraBitsOf .codeLength s) v :: rest))
    (hw : (if s = 16 then ls.getLastD 0 else 0) = w) (hprev : s = 16 → ls ≠ [])
    (hv : v < 2 ^ extraBitsOf .codeLength s) (hn : repeatBase s + v = n) (hnk : n ≤ k)
    (hlen : ls.length + k ≤ c.hlit + c.hdist)
    (hrest : Writes c rest (ls ++ List.replicate n w) (ls ++ List.replicate n w ++ List.replicate (k - n) w)) :
    Writes c (.codeLen s :: .extra (extraBitsOf .codeLength s) v :: rest) ls (ls ++ List.replicate k w) := by
  have hrepeat := writes_repeat hs ht hmax h16 (hc s List.mem_cons_self) hprev hv (by omega)
  rw [hw, hn] at hrepeat
  have := hrepeat.append hrest
  rwa [List.append_assoc ls, List.replicate_append_replicate, Nat.add_sub_cancel' hnk] at this

/-- A length of its own, and what follows. -/
theorem writes_value_then {ls : List Nat} {v k : Nat} {rest : List Slot} (hv : v < 16)
    (hc : AllCoded (codeLenTable c) (.codeLen v :: rest)) (hk : 1 ≤ k) (hlen : ls.length + k ≤ c.hlit + c.hdist)
    (hrest : Writes c rest (ls ++ [v]) (ls ++ [v] ++ List.replicate (k - 1) v)) :
    Writes c (.codeLen v :: rest) ls (ls ++ List.replicate k v) := by
  have hk' : List.replicate k v = [v] ++ List.replicate (k - 1) v := by
    conv_lhs => rw [← Nat.sub_add_cancel hk]
    rfl
  rw [hk', ← List.append_assoc]
  exact (writes_value hs ht hmax hv (hc v List.mem_cons_self) (by omega)).append hrest

theorem writes_rleZeros {fuel k : Nat} {ls : List Nat} (hk : k ≤ fuel)
    (hc : AllCoded (codeLenTable c) (rleZeros fuel k)) (hlen : ls.length + k ≤ c.hlit + c.hdist) :
    Writes c (rleZeros fuel k) ls (ls ++ List.replicate k 0) := by
  induction fuel generalizing k ls with
  | zero =>
    obtain rfl := Nat.le_zero.1 hk
    rw [List.replicate_zero, List.append_nil]
    exact .nil c ls
  | succ fuel ih =>
    rw [rleZeros] at hc ⊢
    split_ifs at hc ⊢ with h0 h11 h3
    · rw [h0, List.replicate_zero, List.append_nil]
      exact .nil c ls
    · refine writes_repeat_then hs ht hmax (s := 18) (n := min k 138) (by decide) hc rfl nofun
        (show min k 138 - 11 < 2 ^ 7 by omega) (show 11 + (min k 138 - 11) = _ by omega) (Nat.min_le_left ..) hlen ?_
      exact ih (by omega) (hc.of_subset fun x hx => List.mem_cons_of_mem _ (List.mem_cons_of_mem _ hx))
        (by rw [List.length_append, List.length_replicate]; omega)
    · refine writes_repeat_then hs ht hmax (s := 17) (n := k) (rest := []) (by decide) hc rfl nofun
        (show k - 3 < 2 ^ 3 by omega) (show 3 + (k - 3) = _ by omega) (Nat.le_refl k) hlen ?_
      rw [Nat.sub_self, List.replicate_zero, List.append_nil]
      exact .nil c _
    · refine writes_value_then hs ht hmax (by decide) hc (by omega) hlen ?_
      exact ih (by omega) (hc.of_subset (List.subset_cons_self _ _))
        (by rw [List.length_append, List.length_singleton]; omega)

theorem writes_rleSame {v fuel k : Nat} {ls : List Nat} (hv : v < 16) (hlast : EndsWith v ls) (hk : k ≤ fuel)
    (hc : AllCoded (codeLenTable c) (rleSame v fuel k)) (hlen : ls.length + k ≤ c.hlit + c.hdist) :
    Writes c (rleSame v fuel k) ls (ls ++ List.replicate k v) := by
  induction fuel generalizing k ls with
  | zero =>
    obtain rfl := Nat.le_zero.1 hk
    rw [List.replicate_zero, List.append_nil]
    exact .nil c ls
  | succ fuel ih =>
    rw [rleSame] at hc ⊢
    split_ifs at hc ⊢ with h0 h3
    · rw [h0, List.replicate_zero, List.append_nil]
      exact .nil c ls
    · refine writes_repeat_then hs ht hmax (s := 16) (n := min k 6) (by decide) hc hlast.2 (fun _ => hlast.1)
        (show min k 6 - 3 < 2 ^ 2 by omega) (show 3 + (min k 6 - 3) = _ by omega) (Nat.min_le_left ..) hlen ?_
      exact ih (hlast.append_replicate _) (by omega)
        (hc.of_subset fun x hx => List.mem_cons_of_mem _ (List.mem_cons_of_mem _ hx))
        (by rw [List.length_append, List.length_replicate]; omega)
    · refine writes_value_then hs ht hmax hv hc (by omega) hlen ?_
      exact ih (hlast.append_replicate 1) (by omega) (hc.of_subset (List.subset_cons_self _ _))
        (by rw [List.length_append, List.length_singleton]; omega)

theorem writes_rleRun {r : Nat × Nat} {ls : List Nat} (hv : r.1 < 16) (h1 : 1 ≤ r.2)
    (hc : AllCoded (codeLenTable c) (rleRun r)) (hlen : ls.length + r.2 ≤ c.hlit + c.hdist) :
    Writes c (rleRun r) ls (ls ++ List.replicate r.2 r.1) := by
  unfold rleRun at hc ⊢
  split_ifs at hc ⊢ with h0
  · rw [h0]
    exact writes_rleZeros hs ht hmax (Nat.le_refl _) hc hlen
  · refine writes_value_then hs ht hmax hv hc h1 hlen ?_
    have hends : EndsWith r.1 (ls ++ [r.1]) := ⟨by simp, List.getLastD_concat ..⟩
    exact writes_rleSame hs ht hmax hv hends (Nat.le_refl _) (hc.of_subset (List.subset_cons_self _ _))
      (by rw [List.length_append, List.length_singleton]; omega)

theorem writes_runs {rs : List (Nat × Nat)} {ls : List Nat} (hrs : ∀ r ∈ rs, r.1 < 16 ∧ 1 ≤ r.2)
    (hc : AllCoded (codeLenTable c) (rs.flatMap rleRun))
    (hlen : (ls ++ rs.flatMap fun r => List.replicate r.2 r.1).length ≤ c.hlit + c.hdist) :
    Writes c (rs.flatMap rleRun) ls (ls ++ rs.flatMap fun r => List.replicate r.2 r.1) := by
  induction rs generalizing ls with
  | nil =>
    rw [List.flatMap_nil, List.flatMap_nil, List.append_nil]
    exact .nil c ls
  | cons r rs ih =>
    obtain ⟨⟨hv, h1⟩, hrs⟩ := List.forall_mem_cons.1 hrs
    rw [List.flatMap_cons, ← List.append_assoc] at hlen
    rw [List.flatMap_cons] at hc
    rw [List.flatMap_cons, List.flatMap_cons, ← List.append_assoc]
    have hle : ls.length + r.2 ≤ c.hlit + c.hdist := by
      rw [List.length_append, List.length_append, List.length_replicate] at hlen
      omega
    exact (writes_rleRun hs ht hmax hv h1 (hc.of_subset (List.subset_append_left ..)) hle).append
      (ih hrs (hc.of_subset (List.subset_append_right ..)) hlen)

/-- The slots of `rle` read back to the lengths they code (R244, 46_decompress.md R311). -/
theorem writes_rle {q : List Nat} (hq : ∀ l ∈ q, l < 16) (hc : AllCoded (codeLenTable c) (rle q))
    (hlen : q.length ≤ c.hlit + c.hdist) : Writes c (rle q) [] q := by
  have hruns := writes_runs hs ht hmax (ls := []) (rs := runs q)
    (fun r hr => ⟨hq _ (mem_runs hr).1, (mem_runs hr).2⟩) hc
  rw [List.nil_append, runs_flatMap] at hruns
  exact hruns hlen

end

end Sys2Proof.Proofs
end

