-- ==== Sys2Proof/Proofs/DynamicHeader.lean ====
section
/-! PROOFS. The whole header of a dynamic block (46_decompress.md R308 to R311): after it the unit holds the tables the
block was written with. -/

namespace Sys2Proof.Proofs

open Sys2Proof.Machine Sys2Proof.Laws

/-! ## The lengths of the code-length alphabet -/

/-- The context in TREES_LEN before any length is read (R309). -/
def lengthsStarted (lenLen : List Nat) (t : Table) (d : DuCtx) : DuCtx :=
  { d with lenLen := lenLen, tabCL := some t, lenPtr := 0, lengths := List.replicate (Config.nLL + Config.nDist) 0,
           state := .treesLen }

theorem drop_clOrder {n i : Nat} (hn : n ≤ Config.nCL) (hi : i < n) :
    (clOrder.take n).drop i = clOrder.getD i 0 :: (clOrder.take n).drop (i + 1) := by
  have hlt : i < clOrder.length := Nat.lt_of_lt_of_le hi hn
  rw [List.drop_eq_getElem_cons (by rw [List.length_take]; omega), List.getElem_take, List.getD_eq_getElem _ _ hlt]

theorem decodes_lenLens {cl : List Nat} {t : Table} {n : Nat} (hcl : ∀ l ∈ cl, l ≤ 7) (hn : n ≤ Config.nCL)
    (ht : mkTable (lenLenAfter cl n) = some t) (bs : List Bool) {k i : Nat} (hk : i + (k + 1) = n) {d : DuCtx}
    (hs : d.state = .treesLenLen) (hclen : d.hclen = n) (hptr : d.lenPtr = i) (hlen : d.lenLen = lenLenAfter cl i) :
    Decodes (d, ((clOrder.take n).drop i).flatMap (fun s => bitsOf 3 (cl.getD s 0)) ++ bs)
      (lengthsStarted (lenLenAfter cl n) t d, bs) := by
  have hi : i < n := by omega
  have hsucc := lenLenAfter_succ cl (Nat.lt_of_lt_of_le hi hn)
  have hv : cl.getD (clOrder.getD i 0) 0 < 2 ^ 3 := Nat.lt_succ_of_le (getD_le_of_forall hcl _)
  rw [drop_clOrder hn hi, List.flatMap_cons, List.append_assoc]
  induction k generalizing i d with
  | zero =>
    have hempty : (clOrder.take n).drop (i + 1) = [] :=
      List.drop_eq_nil_of_le (Nat.le_trans (List.length_take_le ..) (Nat.le_of_eq hk.symm))
    have hstep := bitStep_lastLenLen (t := t) hs hv bs (by omega) (by rw [hlen, hptr, ← hsucc, hk, ht])
    rw [hlen, hptr, ← hsucc, hk] at hstep
    rw [hempty]
    exact .single hstep
  | succ k ih =>
    have hi' : i + 1 < n := by omega
    have hstep := bitStep_lenLen hs hv (((clOrder.take n).drop (i + 1)).flatMap (fun s => bitsOf 3 (cl.getD s 0)) ++ bs)
      (by omega)
    rw [hlen, hptr, ← hsucc] at hstep
    have hrest := ih (d := { d with lenLen := lenLenAfter cl (i + 1), lenPtr := i + 1 })
      (Nat.add_right_comm i 1 (k + 1) ▸ hk) hs hclen rfl rfl hi' (lenLenAfter_succ cl (Nat.lt_of_lt_of_le hi' hn))
      (Nat.lt_succ_of_le (getD_le_of_forall hcl _))
    rw [drop_clOrder hn hi', List.flatMap_cons, List.append_assoc] at hstep ⊢
    exact .head hstep hrest

/-! ## The tables -/

/-- All lengths are read, and the two main tables are built (R310). -/
theorem bitStep_buildTables {d : DuCtx} {ll dt : Table} (hs : d.state = .treesLen) (hdone : d.hlit + d.hdist ≤ d.lenPtr)
    (hll : mkTable (d.lengths.take d.hlit) = some ll) (hdt : mkTable ((d.lengths.drop d.hlit).take d.hdist) = some dt)
    (bs : List Bool) :
    BitStep (d, bs)
      ({ d with tabLL := some ll, tabD := some dt, tabCL := none, cur := true, state := .inBlk }, bs) := by
  rintro e inp - rfl hreads
  have hs : automatonStep e = stepTreesLen e := by rw [automatonStep, show e.state = .treesLen from hs]
  have hdone : lengthsDone e = true := decide_eq_true hdone
  have hll : mkTable (e.lengths.take e.hlit) = some ll := hll
  have hdt : mkTable ((e.lengths.drop e.hlit).take e.hdist) = some dt := hdt
  have hstep : automatonStep e =
      .completed { e with tabLL := some ll, tabD := some dt, tabCL := none, cur := true, state := .inBlk } := by
    rw [hs, stepTreesLen, if_pos hdone, buildMainTables, hll]
    dsimp only
    rw [hdt]
  exact ⟨_, hstep, rfl, hreads.congr rfl rfl⟩

/-! ## The symbols of the code lengths -/

/-- The symbol is of the code-length alphabet (00_scope.md R7). -/
def smallCodeLen : Slot → Prop
  | .codeLen s => s < Config.nCL
  | _ => True

theorem rleZeros_small (fuel k : Nat) : ∀ x ∈ rleZeros fuel k, smallCodeLen x := by
  induction fuel generalizing k with
  | zero => exact nofun
  | succ fuel ih =>
    rw [rleZeros]
    split_ifs with h0 h11 h3
    · exact nofun
    · exact List.forall_mem_cons.2 ⟨show 18 < 19 by decide, List.forall_mem_cons.2 ⟨trivial, ih _⟩⟩
    · exact List.forall_mem_cons.2 ⟨show 17 < 19 by decide, List.forall_mem_singleton.2 trivial⟩
    · exact List.forall_mem_cons.2 ⟨show 0 < 19 by decide, ih _⟩

theorem rleSame_small {v : Nat} (hv : v < 16) (fuel k : Nat) : ∀ x ∈ rleSame v fuel k, smallCodeLen x := by
  induction fuel generalizing k with
  | zero => exact nofun
  | succ fuel ih =>
    rw [rleSame]
    split_ifs with h0 h3
    · exact nofun
    · exact List.forall_mem_cons.2 ⟨show 16 < 19 by decide, List.forall_mem_cons.2 ⟨trivial, ih _⟩⟩
    · exact List.forall_mem_cons.2 ⟨Nat.lt_trans hv (by decide), ih _⟩

theorem rle_small {q : List Nat} (hq : ∀ l ∈ q, l < 16) : ∀ x ∈ rle q, smallCodeLen x := by
  intro x hx
  obtain ⟨r, hr, hx⟩ := List.mem_flatMap.1 hx
  have hv := hq _ (mem_runs hr).1
  unfold rleRun at hx
  split at hx
  · exact rleZeros_small _ _ x hx
  · obtain rfl | hx := List.mem_cons.1 hx
    · exact Nat.lt_trans hv (by decide)
    · exact rleSame_small hv _ _ x hx

theorem alphabetSize_ll (b : List Slot) : AlphabetSize (countLL b) Config.limitMain :=
  .inl ⟨rfl, Nat.le_of_eq (countLL_length b)⟩

theorem alphabetSize_d (b : List Slot) : AlphabetSize (countD b) Config.limitMain :=
  .inl ⟨rfl, Nat.le_trans (Nat.le_of_eq (countD_length b)) (by decide)⟩

theorem alphabetSize_cl (b : List Slot) : AlphabetSize (countCL b) Config.limitAux :=
  .inr ⟨rfl, Nat.le_of_eq (countCL_length b)⟩

/-- The code lengths a dynamic block's header sends, in order (44_block_emit.md R245). -/
def sentLengths (b : List Slot) : List Nat :=
  (buildTables b).llLens.take (buildTables b).nlit ++ (buildTables b).dLens.take (buildTables b).ndist

theorem buildTables_treeSrc (b : List Slot) : (buildTables b).treeSrc = rle (sentLengths b) := rfl

theorem buildTables_clLens (b : List Slot) :
    (buildTables b).clLens = huffLimited (countCL (rle (sentLengths b))) Config.limitAux := by
  rw [← buildTables_treeSrc]
  simp only [buildTables]

theorem buildTables_counts (b : List Slot) :
    (buildTables b).nlit = trimCount 257 (fun i => (buildTables b).llLens.getD i 0) Config.nLL ∧
    (buildTables b).ndist = trimCount 1 (fun i => (buildTables b).dLens.getD i 0) Config.nDist ∧
    (buildTables b).nclen = trimCount 4 (fun i => (buildTables b).clLens.getD (clOrder.getD i 0) 0) Config.nCL := by
  simp only [buildTables, and_self]

theorem buildTables_mainLens (b : List Slot) : (buildTables b).llLens = huffLimited (countLL b) Config.limitMain ∧
    (buildTables b).dLens = huffLimited (countD b) Config.limitMain := by
  simp only [buildTables, and_self]

theorem sentLengths_lt (b : List Slot) : ∀ l ∈ sentLengths b, l < 16 := by
  intro l hl
  obtain hl | hl := List.mem_append.1 hl
  · exact Nat.lt_succ_of_le (huffLimited_main_le (Nat.le_of_eq (countLL_length b)) l (List.mem_of_mem_take hl))
  · exact Nat.lt_succ_of_le (huffLimited_main_le (Nat.le_trans (Nat.le_of_eq (countD_length b)) (by decide)) l
      (List.mem_of_mem_take hl))

theorem llLens_length (b : List Slot) : (buildTables b).llLens.length = Config.nLL :=
  (huffmanLengthsWithinTheLimit _ _ (alphabetSize_ll b)).2.1.trans (countLL_length b)

theorem dLens_length (b : List Slot) : (buildTables b).dLens.length = Config.nDist :=
  (huffmanLengthsWithinTheLimit _ _ (alphabetSize_d b)).2.1.trans (countD_length b)

theorem clLens_length (b : List Slot) : (buildTables b).clLens.length = Config.nCL := by
  rw [buildTables_clLens]
  exact (huffmanLengthsWithinTheLimit _ _ (alphabetSize_cl _)).2.1.trans (countCL_length _)

theorem sentLengths_parts (b : List Slot) :
    (sentLengths b).length = (buildTables b).nlit + (buildTables b).ndist ∧
    (sentLengths b).take (buildTables b).nlit = (buildTables b).llLens.take (buildTables b).nlit ∧
    ((sentLengths b).drop (buildTables b).nlit) = (buildTables b).dLens.take (buildTables b).ndist := by
  obtain ⟨hlit, hdist, -, -, -⟩ := buildTables_fits b
  have hll : ((buildTables b).llLens.take (buildTables b).nlit).length = (buildTables b).nlit :=
    List.length_take_of_le (hlit.trans_eq (llLens_length b).symm)
  have hd : ((buildTables b).dLens.take (buildTables b).ndist).length = (buildTables b).ndist :=
    List.length_take_of_le (hdist.trans_eq (dLens_length b).symm)
  exact ⟨by rw [sentLengths, List.length_append, hll, hd], List.take_left' hll, List.drop_left' hll⟩

theorem treeSrc_coded (b : List Slot) : AllCoded (codes (buildTables b).clLens) (rle (sentLengths b)) := by
  intro s hs
  rw [buildTables_clLens]
  exact coded_of_count_pos (alphabetSize_cl _) (countCL_pos hs (rle_small (sentLengths_lt b) _ hs))

/-- The header of a block with the tables `t` sends the lengths `q`, and these give the tables back (R242 to R245). -/
structure Sendable (t : DynTables) (q : List Nat) : Prop where
  fits : HeaderFits t
  least : CountsLeast t
  lenLen : lenLenAfter t.clLens t.nclen = t.clLens
  cl : mkTable t.clLens = some (codes t.clLens)
  readable : Readable (codes t.clLens)
  treeSrc : t.treeSrc = rle q
  coded : AllCoded (codes t.clLens) (rle q)
  lt : ∀ l ∈ q, l < 16
  length : q.length = t.nlit + t.ndist
  ll : mkTable (q.take t.nlit) = some (codes t.llLens)
  d : mkTable (q.drop t.nlit) = some (codes t.dLens)

theorem sendable_buildTables (b : List Slot) : Sendable (buildTables b) (sentLengths b) := by
  obtain ⟨hlength, htakeLL, hdropD⟩ := sentLengths_parts b
  obtain ⟨hnlit, hndist, hnclen⟩ := buildTables_counts b
  obtain ⟨hll, hd⟩ := buildTables_mainLens b
  have hcl := huffLimited_table (alphabetSize_cl (rle (sentLengths b)))
  rw [← buildTables_clLens] at hcl
  refine ⟨buildTables_fits b, buildTables_least b, ?_, hcl.1, hcl.2, buildTables_treeSrc b, treeSrc_coded b,
    sentLengths_lt b, hlength, ?_, ?_⟩
  · rw [hnclen]
    exact lenLenAfter_all (clLens_length b) fun i hi hlt =>
      eq_zero_of_trimCount_le (at_ := fun i => (buildTables b).clLens.getD (clOrder.getD i 0) 0) hi hlt
  · rw [htakeLL, hnlit, mkTable_take_trimCount 257 (llLens_length b), hll]
    exact (huffLimited_table (alphabetSize_ll b)).1
  · rw [hdropD, hndist, mkTable_take_trimCount 1 (dLens_length b), hd]
    exact (huffLimited_table (alphabetSize_d b)).1

/-! ## The whole header -/

theorem emitted_of_forgetLengths {m : Mode} {x : List Byte} {c d : DuCtx} (h : forgetLengths d = forgetLengths c)
    (hc : Emitted m x c) : Emitted m x d := by
  have hforgot : Emitted m x (forgetLengths c) := { hc with }
  rw [← h] at hforgot
  exact { hforgot with }

/-- The context in TREES_LENLEN with the counts of `t` (R308). -/
def countsRead (t : DynTables) (d : DuCtx) : DuCtx :=
  { d with hlit := t.nlit, hdist := t.ndist, hclen := t.nclen, lenPtr := 0, lenLen := List.replicate Config.nCL 0,
           state := .treesLenLen }

/-- From the counts to the code lengths (R308, R309). -/
theorem decodes_counts {t : DynTables} {q : List Nat} (h : Sendable t q) {d : DuCtx} (hs : d.state = .treesHdr)
    (bs : List Bool) : Decodes (d, bitsOf 5 (t.nlit - 257) ++ (bitsOf 5 (t.ndist - 1) ++ (bitsOf 4 (t.nclen - 4) ++
        ((clOrder.take t.nclen).flatMap (fun s => bitsOf 3 (t.clLens.getD s 0)) ++ bs))))
      (lengthsStarted t.clLens (codes t.clLens) (countsRead t d), bs) := by
  obtain ⟨hlit, hdist, hclen, hcl7, -⟩ := h.fits
  obtain ⟨hlit', hdist', hclen'⟩ := h.least
  have hlens := decodes_lenLens (k := t.nclen - 1) (i := 0) (d := countsRead t d) hcl7 hclen (h.lenLen.symm ▸ h.cl) bs
    (by omega) rfl rfl rfl rfl
  rw [h.lenLen, List.drop_zero] at hlens
  simp only [Config.nLL, Config.nDist, Config.nCL] at hlit hdist hclen
  have hcounts := bitStep_counts (a := t.nlit - 257) (b := t.ndist - 1) (c := t.nclen - 4) hs (by omega) (by omega)
    (by omega) ((clOrder.take t.nclen).flatMap (fun s => bitsOf 3 (t.clLens.getD s 0)) ++ bs)
  rw [Nat.add_sub_cancel' hlit', Nat.add_sub_cancel' hdist', Nat.add_sub_cancel' hclen'] at hcounts
  exact .head hcounts hlens

/-- From the code lengths to the tables (R310, R311). -/
theorem decodes_treeSrc {t : DynTables} {q : List Nat} (h : Sendable t q) {m : Mode} {x : List Byte} {d : DuCtx}
    (hem : Emitted m x d) (bs : List Bool) : ∃ d',
      Decodes (lengthsStarted t.clLens (codes t.clLens) (countsRead t d),
        t.treeSrc.flatMap (slotBits [] [] (codes t.clLens)) ++ bs) (d', bs) ∧
        InBlock m d.lastBlock (codes t.llLens) (codes t.dLens) x d' := by
  have hmax : t.nlit + t.ndist ≤ 316 := Nat.add_le_add h.fits.nlit h.fits.ndist
  obtain ⟨e, hrle, hsame, hptr, -, htake⟩ := writes_rle (c := lengthsStarted t.clLens (codes t.clLens) (countsRead t d))
    rfl h.readable hmax h.lt h.coded (Nat.le_of_eq h.length) _ bs ⟨rfl, rfl, List.length_replicate, rfl⟩
  have hstate : e.state = .treesLen := congrArg DuCtx.state hsame
  have hlit : e.hlit = t.nlit := congrArg DuCtx.hlit hsame
  have hdist : e.hdist = t.ndist := congrArg DuCtx.hdist hsame
  have hlast : e.lastBlock = d.lastBlock := (congrArg DuCtx.lastBlock hsame :)
  rw [h.length] at hptr htake
  have hll : mkTable (e.lengths.take e.hlit) = some (codes t.llLens) := by
    rw [hlit, ← h.ll, ← htake, List.take_take, Nat.min_eq_left (Nat.le_add_right ..)]
  have hdt : mkTable ((e.lengths.drop e.hlit).take e.hdist) = some (codes t.dLens) := by
    rw [hlit, hdist, ← h.d, ← htake, List.drop_take, Nat.add_sub_cancel_left]
  have hbuild := bitStep_buildTables hstate (by omega) hll hdt bs
  rw [h.treeSrc]
  exact ⟨_, hrle.tail hbuild, { emitted_of_forgetLengths hsame { hem with } with }, rfl, hlast, rfl, rfl⟩

/-- The header of a dynamic block (44_block_emit.md R246). -/
theorem decodes_dynamicHeader {m : Mode} {x : List Byte} {d : DuCtx} (hem : Emitted m x d) (hs : d.state = .outsideBlk)
    (b : List Slot) (f : Bool) (bs : List Bool) : ∃ d',
      Decodes (d, headerBits (buildTables b) f ++ bs) (d', bs) ∧
        InBlock m f (codes (buildTables b).llLens) (codes (buildTables b).dLens) x d' := by
  have hsend := sendable_buildTables b
  obtain ⟨d', htree, hblock⟩ := decodes_treeSrc hsend (d := setState .treesHdr (setDLastBlock f d)) { hem with } bs
  refine ⟨d', ?_, hblock⟩
  have hcounts := decodes_counts hsend (d := setState .treesHdr (setDLastBlock f d)) rfl
    ((buildTables b).treeSrc.flatMap (slotBits [] [] (codes (buildTables b).clLens)) ++ bs)
  rw [headerBits]
  simp only [List.append_assoc]
  exact .head (bitStep_dynamicHeader hs f _) (hcounts.trans htree)

end Sys2Proof.Proofs
end

