-- ==== Sys2Proof/Proofs/DecodedBlocks.lean ====
section
/-! PROOFS. The automaton on whole blocks, the zlib header and the trailer (46_decompress.md R302 to R305, R307, R315 to
R318): what the bit writer has put decodes to the bytes that it stands for. -/

namespace Sys2Proof.Proofs

open Sys2Proof.Machine Sys2Proof.Laws

/-- The context stands in `st` when `x` has been output. -/
structure Between (m : Mode) (st : DState) (x : List Byte) (d : DuCtx) : Prop where
  emitted : Emitted m x d
  state : d.state = st

/-- The state after a block of final flag `f` (R307). -/
def afterBlock (f : Bool) : DState := if f then .finish else .outsideBlk

theorem blockEnd_between {m : Mode} {x : List Byte} {d : DuCtx} (h : Emitted m x d) :
    Between m (afterBlock d.lastBlock) x (blockEnd d) := ⟨{ h with }, rfl⟩

/-! ## The three kinds of block -/

theorem coded_of_legal {b : List Slot} (hb : ∀ x ∈ b, x.legal = true) :
    ∀ x ∈ b, Coded (codes (buildTables b).llLens) (codes (buildTables b).dLens) x := by
  intro x hx
  obtain ⟨hll, hd⟩ := buildTables_mainLens b
  rw [hll, hd]
  have hlegal := hb x hx
  cases x with
  | litLen s =>
    simp only [Slot.legal, Bool.and_eq_true, decide_eq_true_eq] at hlegal
    exact coded_of_count_pos (alphabetSize_ll b) (countLL_pos hx (Nat.lt_succ_of_le hlegal.1))
  | dist s => exact coded_of_count_pos (alphabetSize_d b) (countD_pos hx (Nat.lt_succ_of_le (of_decide_eq_true hlegal)))
  | extra n v => trivial
  | codeLen s => trivial

/-- The bits of a dynamic block (44_block_emit.md R240). -/
def dynamicBits (b : List Slot) (f : Bool) : List Bool :=
  headerBits (buildTables b) f ++
    b.flatMap (slotBits (codes (buildTables b).llLens) (codes (buildTables b).dLens) []) ++
    codeBits (codes (buildTables b).llLens) 256

theorem decodes_dynamicBlock {m : Mode} {s : List Byte} {p p' : Nat} {ts : List Token} {d : DuCtx} (f : Bool)
    (ht : spells s p ts p') (hb : ∀ x ∈ ts.flatMap tokenSlots, x.legal = true)
    (h : Between m .outsideBlk (s.take p) d) (bs : List Bool) :
    ∃ d', Decodes (d, dynamicBits (ts.flatMap tokenSlots) f ++ bs) (d', bs) ∧
      Between m (afterBlock f) (s.take p') d' := by
  obtain ⟨hll, hd⟩ := buildTables_mainLens (ts.flatMap tokenSlots)
  have hreadLL := (huffLimited_table (alphabetSize_ll (ts.flatMap tokenSlots))).2
  have hreadD := (huffLimited_table (alphabetSize_d (ts.flatMap tokenSlots))).2
  rw [← hll] at hreadLL
  rw [← hd] at hreadD
  obtain ⟨d₁, hheader, hblock⟩ := decodes_dynamicHeader h.emitted h.state (ts.flatMap tokenSlots) f
    ((ts.flatMap tokenSlots).flatMap (slotBits (codes (buildTables (ts.flatMap tokenSlots)).llLens)
      (codes (buildTables (ts.flatMap tokenSlots)).dLens) []) ++
      (codeBits (codes (buildTables (ts.flatMap tokenSlots)).llLens) 256 ++ bs))
  obtain ⟨d₂, hslots, hemitted, hstate, hlast, htable, -⟩ := decodes_tokens hreadLL hreadD
    (codeBits (codes (buildTables (ts.flatMap tokenSlots)).llLens) 256 ++ bs) ht (coded_of_legal hb) hblock
  have hcode := coded_of_count_pos (alphabetSize_ll (ts.flatMap tokenSlots)) (countLL_endOfBlock_pos _)
  rw [← hll] at hcode
  rw [← htable] at hcode hreadLL hslots hheader
  have hend := bitStep_endOfBlock hstate hreadLL hcode bs rfl
  rw [dynamicBits, List.append_assoc, List.append_assoc, ← htable]
  exact ⟨_, (hheader.trans hslots).tail hend, hlast ▸ blockEnd_between hemitted⟩

theorem bitStep_uncompLen {v : Nat} {d : DuCtx} (hs : d.state = .uncompLen) (hv : v < 2 ^ 16) (bs : List Bool) :
    BitStep (d, bitsOf 16 v ++ bs) ({ d with uncompLen := v, state := .uncompNlen }, bs) := by
  refine bitStep_field (by decide) hv bs ?_
  rintro e rfl hn rfl
  have hs : automatonStep e = stepUncompLen e := by rw [automatonStep, show e.state = .uncompLen from hs]
  rw [hs, stepUncompLen, need_of_le hn]
  exact ⟨_, rfl, rfl, rfl, rfl⟩

theorem bitStep_emptyUncompNlen {d : DuCtx} (hs : d.state = .uncompNlen) (h0 : d.uncompLen = 0) (bs : List Bool) :
    BitStep (d, bitsOf 16 0xFFFF ++ bs) (blockEnd d, bs) := by
  refine bitStep_field (by decide) (by decide) bs ?_
  rintro e rfl hn hpeek
  have h0 : e.uncompLen = 0 := h0
  have hs : automatonStep e = stepUncompNlen e := by rw [automatonStep, show e.state = .uncompNlen from hs]
  rw [hs, stepUncompNlen, need_of_le hn, hpeek, h0, if_neg (by decide), if_pos rfl]
  exact ⟨_, rfl, rfl, rfl, rfl⟩

/-- The empty stored block (44_block_emit.md R252). -/
theorem decodes_storedEmpty {m : Mode} {x : List Byte} {d : DuCtx} (h : Between m .outsideBlk x d) {pad bs : List Bool}
    (hpad : pad.length < 8) (hbs : bs.length % 8 = 0) : ∃ d',
      Decodes (d, [false, false, false] ++ (pad ++ (bitsOf 16 0 ++ (bitsOf 16 0xFFFF ++ bs)))) (d', bs) ∧
        Between m .outsideBlk x d' := by
  have hheader := bitStep_storedHeader h.state false (pad := pad) (bs := bitsOf 16 0 ++ (bitsOf 16 0xFFFF ++ bs)) hpad
    (by simp only [List.length_append, bitsOf_length]; omega)
  have hlen := bitStep_uncompLen (v := 0) (d := setState .uncompLen (setDLastBlock false d)) rfl (by decide)
    (bitsOf 16 0xFFFF ++ bs)
  have hnlen := bitStep_emptyUncompNlen
    (d := { setState .uncompLen (setDLastBlock false d) with uncompLen := 0, state := .uncompNlen }) rfl rfl bs
  exact ⟨_, .head hheader (.head hlen (.single hnlen)), { h.emitted with }, rfl⟩

/-- The empty static block (R251). -/
theorem decodes_staticEmpty {m : Mode} {x : List Byte} {d : DuCtx} (h : Between m .outsideBlk x d) (f : Bool)
    (bs : List Bool) : ∃ d', Decodes (d, [f, true, false] ++ ((bitsOf 7 0).reverse ++ bs)) (d', bs) ∧
      Between m (afterBlock f) x d' := by
  have hcode : (bitsOf 7 0).reverse = codeBits staticLitLen 256 := by decide +kernel
  have hheader := bitStep_staticHeader h.state f ((bitsOf 7 0).reverse ++ bs)
  have hend := bitStep_endOfBlock (d := { setDLastBlock f d with cur := false, state := .inBlk }) rfl
    readable_staticLitLen (exists_mem_staticLitLen (by decide)) bs rfl
  rw [hcode] at hheader ⊢
  exact ⟨_, .head hheader (.single hend), { h.emitted with }, rfl⟩

/-! ## The header and the trailer -/

theorem bitStep_zlibHeader {d : DuCtx} (hs : d.state = .start) (bs : List Bool) :
    BitStep (d, byteBits [0x78, 0x9C] ++ bs) (setState .outsideBlk d, bs) := by
  have hbits : byteBits [0x78, 0x9C] = bitsOf 16 0x9C78 := by decide
  rw [hbits]
  refine bitStep_field (by decide) (by decide) bs ?_
  rintro e rfl hn hpeek
  have hvalid : zlibHeaderValid (0x9C78 % 256) (0x9C78 / 256) = true := by decide
  have hs : automatonStep e = stepStart e := by rw [automatonStep, show e.state = .start from hs]
  rw [hs, stepStart, need_of_le hn, hpeek, if_pos hvalid]
  exact ⟨_, rfl, rfl, rfl, rfl⟩

theorem bitStep_finish_bare {d : DuCtx} (hs : d.state = .finish) (hm : d.mode = .bare) (bs : List Bool) :
    BitStep (d, bs) (setState .finalSpin d, bs) := by
  rintro e inp - rfl hreads
  have hm : e.mode = .bare := hm
  have hs : automatonStep e = stepFinish e := by rw [automatonStep, show e.state = .finish from hs]
  rw [hs, stepFinish, hm]
  exact ⟨_, rfl, rfl, hreads.congr rfl rfl⟩

theorem bitStep_finish_zlib {d : DuCtx} (hs : d.state = .finish) (hm : d.mode = .zlib) {pad bs : List Bool}
    (hpad : pad.length < 8) (hbs : bs.length % 8 = 0) : BitStep (d, pad ++ bs) (setState .adler1 d, bs) := by
  rintro e inp - rfl hreads
  have hm : e.mode = .zlib := hm
  have hs : automatonStep e = stepFinish e := by rw [automatonStep, show e.state = .finish from hs]
  rw [hs, stepFinish, hm]
  exact ⟨_, rfl, rfl, (hreads.align hpad hbs).congr rfl rfl⟩

/-- The upper half of the Adler-32 register as the trailer's first two bytes give it (R316). -/
def adlerUpper (a : Word32) : Word32 :=
  BitVec.ofNat 32 ((a.extractLsb' 24 8).toNat * 2 ^ 24 + (a.extractLsb' 16 8).toNat * 2 ^ 16)

theorem adlerUpper_or (a : Word32) : adlerUpper a |||
    BitVec.ofNat 32 ((a.extractLsb' 8 8).toNat * 2 ^ 8 + (a.extractLsb' 0 8).toNat) = a := by
  apply BitVec.eq_of_toNat_eq
  have ha := a.isLt
  simp only [adlerUpper, BitVec.toNat_or, BitVec.toNat_ofNat, BitVec.extractLsb'_toNat, Nat.shiftRight_eq_div_pow]
  have hor := Nat.two_pow_add_eq_or_of_lt (i := 16) (b := a.toNat % 2 ^ 16) (Nat.mod_lt _ (by decide))
    (a.toNat / 2 ^ 16)
  convert hor.symm using 1
  · congr 1 <;> omega
  · omega

/-- Two bytes as one field: the first byte is its low half (R316, R317). -/
def bytePair (b b' : Byte) : Nat := b.toNat + 2 ^ 8 * b'.toNat

theorem bytePair_spec (b b' : Byte) : byteBits [b, b'] = bitsOf 16 (bytePair b b') ∧ bytePair b b' < 2 ^ 16 ∧
    bytePair b b' % 256 = b.toNat ∧ bytePair b b' / 256 = b'.toNat := by
  have hb := b.isLt
  have hb' := b'.isLt
  refine ⟨?_, by unfold bytePair; omega, by unfold bytePair; omega, by unfold bytePair; omega⟩
  rw [bytePair, bitsOf_concat (n := 8) hb, byteBits_cons, byteBits_cons]
  simp [byteBits]

theorem bitStep_adler1 {d : DuCtx} (hs : d.state = .adler1) (b₃ b₂ : Byte) (bs : List Bool) :
    BitStep (d, byteBits [b₃, b₂] ++ bs)
      ({ d with adlerGot := BitVec.ofNat 32 (b₃.toNat * 2 ^ 24 + b₂.toNat * 2 ^ 16), state := .adler2 }, bs) := by
  obtain ⟨hbits, hlt, hlow, hhigh⟩ := bytePair_spec b₃ b₂
  rw [hbits]
  refine bitStep_field (by decide) hlt bs ?_
  rintro e rfl hn hpeek
  have hs : automatonStep e = stepAdler1 e := by rw [automatonStep, show e.state = .adler1 from hs]
  rw [hs, stepAdler1, need_of_le hn]
  dsimp only
  rw [hpeek, hlow, hhigh]
  exact ⟨_, rfl, rfl, rfl, rfl⟩

theorem bitStep_adler2 {d : DuCtx} (hs : d.state = .adler2) (b₁ b₀ : Byte)
    (hsum : d.adlerGot ||| BitVec.ofNat 32 (b₁.toNat * 2 ^ 8 + b₀.toNat) = d.adler) (bs : List Bool) :
    BitStep (d, byteBits [b₁, b₀] ++ bs) ({ d with adlerGot := d.adler, state := .finalSpin }, bs) := by
  obtain ⟨hbits, hlt, hlow, hhigh⟩ := bytePair_spec b₁ b₀
  rw [hbits]
  refine bitStep_field (by decide) hlt bs ?_
  rintro e rfl hn hpeek
  have hsum : e.adlerGot ||| BitVec.ofNat 32 (b₁.toNat * 2 ^ 8 + b₀.toNat) = e.adler := hsum
  have hs : automatonStep e = stepAdler2 e := by rw [automatonStep, show e.state = .adler2 from hs]
  rw [hs, stepAdler2, need_of_le hn]
  dsimp only [eat_adlerGot, eat_adler]
  rw [hpeek, hlow, hhigh, hsum, if_pos rfl]
  exact ⟨_, rfl, rfl, rfl, rfl⟩

/-- The padding and the checksum (45_compress_driver.md R276, 46_decompress.md R315 to R317). -/
theorem decodes_trailer {x : List Byte} {d : DuCtx} (h : Between .zlib .finish x d) {pad bs : List Bool}
    (hpad : pad.length < 8) (hbs : bs.length % 8 = 0) : ∃ d',
      Decodes (d, pad ++ (byteBits (bigEndian (adlerInMode .zlib 1 x)) ++ bs)) (d', bs) ∧
        Between .zlib .finalSpin x d' := by
  obtain ⟨hemitted, hstate⟩ := h
  rw [← hemitted.adler]
  have hbytes : byteBits (bigEndian d.adler) ++ bs = byteBits [d.adler.extractLsb' 24 8, d.adler.extractLsb' 16 8] ++
      (byteBits [d.adler.extractLsb' 8 8, d.adler.extractLsb' 0 8] ++ bs) := by
    rw [← List.append_assoc, ← byteBits_append]
    rfl
  rw [hbytes]
  have hfinish := bitStep_finish_zlib hstate hemitted.mode hpad
    (bs := byteBits [d.adler.extractLsb' 24 8, d.adler.extractLsb' 16 8] ++
      (byteBits [d.adler.extractLsb' 8 8, d.adler.extractLsb' 0 8] ++ bs))
    (by simp only [List.length_append, byteBits_length, List.length_cons, List.length_nil]; omega)
  have hupper := bitStep_adler1 (d := setState .adler1 d) rfl (d.adler.extractLsb' 24 8) (d.adler.extractLsb' 16 8)
    (byteBits [d.adler.extractLsb' 8 8, d.adler.extractLsb' 0 8] ++ bs)
  have hlower := bitStep_adler2 (d := { setState .adler1 d with adlerGot := adlerUpper d.adler, state := .adler2 }) rfl
    (d.adler.extractLsb' 8 8) (d.adler.extractLsb' 0 8) (adlerUpper_or d.adler) bs
  exact ⟨_, .head hfinish (.head hupper (.single hlower)), { hemitted with }, rfl⟩

/-! ## What a bit writer has put -/

/-- From a fresh context the bits `B` decode to `x`, whatever follows up to a whole number of bytes. -/
def DecodesTo (m : Mode) (st : DState) (B : List Bool) (x : List Byte) : Prop :=
  ∀ rest, (B.length + rest.length) % 8 = 0 → ∃ c, Decodes (DuCtx.fresh m, B ++ rest) (c, rest) ∧ Between m st x c

theorem DecodesTo.append {m : Mode} {st st' : DState} {B bs : List Bool} {x x' : List Byte} (h : DecodesTo m st B x)
    (hbs : ∀ c rest, Between m st x c → (B.length + bs.length + rest.length) % 8 = 0 →
      ∃ c', Decodes (c, bs ++ rest) (c', rest) ∧ Between m st' x' c') : DecodesTo m st' (B ++ bs) x' := by
  intro rest hlen
  rw [List.length_append] at hlen
  obtain ⟨c, hrun, hc⟩ := h (bs ++ rest) (by rw [List.length_append]; omega)
  obtain ⟨c', hrun', hc'⟩ := hbs c rest hc hlen
  rw [List.append_assoc]
  exact ⟨c', hrun.trans hrun', hc'⟩

theorem decodesTo_bare : DecodesTo .bare .outsideBlk [] [] := fun _ _ => ⟨_, .refl, emitted_fresh .bare, rfl⟩

theorem decodesTo_zlibHeader : DecodesTo .zlib .outsideBlk (byteBits [0x78, 0x9C]) [] := fun rest _ =>
  ⟨_, .single (bitStep_zlibHeader rfl rest), { emitted_fresh .zlib with }, rfl⟩

theorem BitWriter.bits_length (w : BitWriter) : w.bits.length = 8 * w.out.length + w.n := by
  rw [BitWriter.bits, List.length_append, byteBits_length, bitsOf_length]

section
variable {m : Mode} {w : BitWriter} (hw : w.ok)
include hw

theorem emitDynamic_decodes {s : List Byte} {p p' : Nat} {ts : List Token} (f : Bool) (ht : spells s p ts p')
    (hb : ∀ x ∈ ts.flatMap tokenSlots, x.legal = true) (h : DecodesTo m .outsideBlk w.bits (s.take p)) :
    DecodesTo m (afterBlock f) (emitDynamic (ts.flatMap tokenSlots) f w).bits (s.take p') := by
  rw [(emitDynamic_appends hb f hw).bits]
  exact h.append fun c rest hc _ => decodes_dynamicBlock f ht hb hc rest

theorem emitStaticEmpty_appends (f : Bool) :
    Appends ([f, true, false] ++ (bitsOf 7 0).reverse) w (emitStaticEmpty f w) := by
  have hfinal := put_appends (n := 1) hw (by decide) (Bool.toNat_lt f)
  have htype := hfinal.trans (put_appends (v := 1) (n := 2) hfinal.ok (by decide) (by decide))
  have hcode := htype.trans (putCode_appends (n := 7) 0 htype.ok (by decide))
  rwa [bitsOf_bool] at hcode

theorem emitStaticEmpty_decodes {x : List Byte} (f : Bool) (h : DecodesTo m .outsideBlk w.bits x) :
    DecodesTo m (afterBlock f) (emitStaticEmpty f w).bits x := by
  rw [(emitStaticEmpty_appends hw f).bits]
  refine h.append fun c rest hc _ => ?_
  rw [List.append_assoc]
  exact decodes_staticEmpty hc f rest

theorem emitStoredEmpty_decodes {x : List Byte} (h : DecodesTo m .outsideBlk w.bits x) :
    (emitStoredEmpty w).ok ∧ (emitStoredEmpty w).n = 0 ∧ DecodesTo m .outsideBlk (emitStoredEmpty w).bits x := by
  have hfinal := put_appends (v := 0) (n := 1) hw (by decide) (by decide)
  have hheader := hfinal.trans (put_appends (v := 0) (n := 2) hfinal.ok (by decide) (by decide))
  have hpadded := alignWriter_appends hheader.ok
  have hlen := hpadded.trans (put_appends (v := 0) (n := 16) hpadded.ok (by decide) (by decide))
  have hnlen := hlen.trans (put_appends (v := 0xFFFF) (n := 16) hlen.ok (by decide) (by decide))
  have hall := hheader.trans hnlen
  have hn : (emitStoredEmpty w).n = 0 := by
    rw [emitStoredEmpty, put_n, put_n, alignWriter_n hheader.ok.1]
  refine ⟨hall.ok, hn, ?_⟩
  have hbits : (emitStoredEmpty w).bits = _ := hall.bits
  have hfront := congrArg List.length hheader.bits
  rw [hbits]
  refine h.append fun c rest hc haligned => ?_
  have hpad := Nat.mod_lt (8 - (put 0 2 (put 0 1 w)).n) (show 0 < 8 by decide)
  have hn7 := hheader.ok.1
  simp only [List.length_append, BitWriter.bits_length, bitsOf_length, List.length_replicate] at haligned hfront
  have hdecodes := decodes_storedEmpty hc (pad := List.replicate ((8 - (put 0 2 (put 0 1 w)).n) % 8) false) (bs := rest)
    (by rwa [List.length_replicate]) (by omega)
  simp only [List.append_assoc]
  exact hdecodes

end

/-! ## Complete streams -/

/-- From a fresh context the bits `B` decode to `x`; after the end some of the last byte may be left over. -/
def DecodesAll (m : Mode) (st : DState) (B : List Bool) (x : List Byte) : Prop :=
  ∃ c left, Decodes (DuCtx.fresh m, B) (c, left) ∧ Between m st x c ∧ (st = .finalSpin ∨ st = .outsideBlk ∧ left = [])

theorem DecodesTo.all_of_sync {m : Mode} {w : BitWriter} {x : List Byte} (h : DecodesTo m .outsideBlk w.bits x)
    (hn : w.n = 0) : DecodesAll m .outsideBlk (byteBits w.out) x := by
  have hbits : w.bits = byteBits w.out := by
    rw [BitWriter.bits, hn]
    exact List.append_nil _
  rw [← hbits]
  obtain ⟨c, hrun, hc⟩ := h [] (by rw [BitWriter.bits_length, hn, List.length_nil]; omega)
  rw [List.append_nil] at hrun
  exact ⟨c, [], hrun, hc, .inr ⟨rfl, rfl⟩⟩

/-- The padding and the trailer of FINISH (R276). -/
theorem DecodesTo.all_of_finish {c : CuCtx} {w : BitWriter} {x : List Byte} (hw : w.ok)
    (h : DecodesTo c.mode .finish w.bits x) (hbw : c.bw = alignWriter w) (hadler : c.adler = adlerInMode c.mode 1 x) :
    DecodesAll c.mode .finalSpin (byteBits (cuTrailer c).bw.out) x := by
  have halign := alignWriter_appends hw
  have hn := alignWriter_n hw.1
  have hacc := acc_eq_zero_of_n halign.ok hn
  have hbits : byteBits c.bw.out = w.bits ++ List.replicate ((8 - w.n) % 8) false := by
    rw [← halign.bits, hbw, BitWriter.bits, hn]
    exact (List.append_nil _).symm
  have hpad := Nat.mod_lt (8 - w.n) (show 0 < 8 by decide)
  have hn7 := hw.1
  cases hm : c.mode with
  | bare =>
    have hout : (cuTrailer c).bw = c.bw := by rw [cuTrailer, hm]
    rw [hm] at h
    obtain ⟨d, hrun, hemitted, hstate⟩ := h (List.replicate ((8 - w.n) % 8) false)
      (by rw [BitWriter.bits_length, List.length_replicate]; omega)
    rw [hout, hbits]
    exact ⟨_, _, hrun.tail (bitStep_finish_bare hstate hemitted.mode _), ⟨{ hemitted with }, rfl⟩, .inl rfl⟩
  | zlib =>
    have hout := cuTrailer_bw_of_aligned hm (hbw ▸ hn) (hbw ▸ hacc)
    rw [hm] at h hadler
    obtain ⟨d, hrun, hd⟩ := h (List.replicate ((8 - w.n) % 8) false ++ (byteBits (bigEndian c.adler) ++ []))
      (by
        simp only [BitWriter.bits_length, List.length_append, List.length_replicate, byteBits_length, bigEndian,
          List.length_cons, List.length_nil]
        omega)
    obtain ⟨d', hrun', hd'⟩ := decodes_trailer hd (pad := List.replicate ((8 - w.n) % 8) false) (bs := [])
      (by rwa [List.length_replicate]) rfl
    rw [hadler] at hrun
    rw [hout, byteBits_append, hbits, hadler, List.append_assoc, ← List.append_nil (byteBits (bigEndian _))]
    exact ⟨d', [], hrun.trans hrun', hd', .inl rfl⟩

/-- FINALSPIN discards whatever input is left (R318). -/
theorem feedLoop_finalSpin {fuel : Nat} {d : DuCtx} {inp : List Byte} {r : Stepped} (hs : d.state = .finalSpin)
    (hr : feedLoop fuel d inp = some r) : ∃ d', r = .suspended d' ∧ discardAll d' = discardAll d ∧ d'.nbits = 0 := by
  induction fuel generalizing d inp with
  | zero => cases hr
  | succ fuel ih =>
    obtain ⟨taken, b, -, heq, -, -⟩ := refill_spec d inp
    have hsame : discardAll (refill d inp).1 = discardAll d := by rw [heq]; rfl
    have hstate : (refill d inp).1.state = .finalSpin := (congrArg DuCtx.state hsame).trans hs
    have hstep : automatonStep (refill d inp).1 = .suspended (discardAll d) := by
      rw [automatonStep, hstate, ← hsame]
      rfl
    rw [feedLoop, hstep] at hr
    dsimp only at hr
    split at hr
    · exact ⟨_, (Option.some.inj hr).symm, rfl, rfl⟩
    · exact ih (d := discardAll d) hs hr

/-- OUTSIDEBLK waits for more (R303). -/
theorem feedLoop_outsideBlk {fuel : Nat} {d : DuCtx} {r : Stepped} (hs : d.state = .outsideBlk) (hn : d.nbits = 0)
    (hr : feedLoop fuel d [] = some r) : r = .suspended d := by
  cases fuel with
  | zero => cases hr
  | succ fuel =>
    have hstep : automatonStep d = .suspended d := by
      rw [automatonStep, hs]
      exact need_of_lt (by omega)
    have hrefill : refill d [] = (d, []) := rfl
    rw [feedLoop, hrefill, hstep] at hr
    exact (Option.some.inj hr).symm

/-- A complete stream is answered with all its data (R323). -/
theorem runFeed_of_decodesAll {m : Mode} {st : DState} {data x : List Byte} (h : DecodesAll m st (byteBits data) x) :
    ∃ d, runFeed data (DuCtx.fresh m) = some (.suspended d) ∧ Between m st x d ∧ d.nbits = 0 := by
  obtain ⟨c, left, hrun, ⟨hemitted, hstate⟩, hend⟩ := h
  obtain ⟨n, d, inp, rfl, hreads, hloop⟩ := feedLoop_of_decodes hrun (d := DuCtx.fresh m) (inp := data) rfl
    ⟨Nat.one_pos, rfl⟩
  obtain ⟨r, hr⟩ := runFeed_ends data (duRuns_of_inv (duInv_fresh m) rfl)
  have hrest := (hloop _).symm.trans (feedLoop_mono (k := n) hr)
  obtain rfl | ⟨rfl, rfl⟩ := hend
  · obtain ⟨d', rfl, hsame, hn⟩ := feedLoop_finalSpin (d := d) hstate hrest
    rw [← hsame] at hemitted hstate
    exact ⟨d', hr, ⟨{ hemitted with }, hstate⟩, hn⟩
  · have hlen := congrArg List.length hreads.upcoming
    rw [upcoming_length, List.length_nil] at hlen
    have hn : d.nbits = 0 := by omega
    obtain rfl : inp = [] := List.eq_nil_of_length_eq_zero (by omega)
    obtain rfl := feedLoop_outsideBlk (d := d) hstate hn hrest
    exact ⟨d, hr, ⟨{ hemitted with }, hstate⟩, hn⟩

end Sys2Proof.Proofs
end

