-- ==== Sys2Proof/Proofs/CompressedStream.lean ====
section
/-! PROOFS. The compressor's side of the round trip: what its bit writer has put decodes to the bytes before a token
boundary, and the tokens in the symbol ring stand for the bytes after it (43_block_chooser.md R221, R224, R229,
45_compress_driver.md R281). -/

namespace Sys2Proof.Proofs

open Sys2Proof.Machine Sys2Proof.Laws

/-! ## The ring as a list -/

theorem ringSlots_length (r : SymRing) : (ringSlots r).length = r.n := by
  rw [ringSlots, List.length_map, List.length_range]

theorem ringSlots_push {r : SymRing} {x : Slot} (h : RingOk r) (hn : r.n < Config.symLimit) :
    ringSlots (ringPush x r) = ringSlots r ++ [x] := by
  have hold : (List.range r.n).map (fun j => ringRead (ringPush x r).ring ((r.start + j) % Config.symLimit)) =
      ringSlots r :=
    List.map_congr_left fun j hj => by
      have hj := List.mem_range.1 hj
      have hother : (r.start + r.n) % Config.symLimit ≠ (r.start + j) % Config.symLimit := by
        simp only [Config.symLimit] at hn ⊢
        omega
      rw [ringPush, ringRead_ringWrite _ _ _ h.ring, if_neg hother]
  have hnew : ringRead (ringPush x r).ring ((r.start + r.n) % Config.symLimit) = x := by
    rw [ringPush, ringRead_ringWrite _ _ _ h.ring, if_pos rfl]
  calc ringSlots (ringPush x r)
      = (List.range (r.n + 1)).map fun j => ringRead (ringPush x r).ring ((r.start + j) % Config.symLimit) := rfl
    _ = ringSlots r ++ [x] := by rw [List.range_succ, List.map_append, hold, List.map_singleton, hnew]

theorem ringSlots_pushAll {xs : List Slot} {r : SymRing} (h : RingOk r) (hx : ∀ x ∈ xs, x.legal = true)
    (hn : r.n + xs.length ≤ Config.symLimit) :
    ringSlots (xs.foldl (fun r x => ringPush x r) r) = ringSlots r ++ xs := by
  induction xs generalizing r with
  | nil => exact (List.append_nil _).symm
  | cons x xs ih =>
    obtain ⟨hx0, hxs⟩ := List.forall_mem_cons.1 hx
    rw [List.length_cons] at hn
    have hpush : (ringPush x r).n = r.n + 1 := rfl
    rw [List.foldl_cons, ih (ringPush_ok h hx0) hxs (by omega), ringSlots_push h (by omega), List.append_assoc,
      List.singleton_append]

theorem ringSlots_drop (i : Nat) (r : SymRing) : ringSlots (ringDrop i r) = (ringSlots r).drop i := by
  refine List.ext_getElem (by rw [List.length_drop, ringSlots_length, ringSlots_length, ringDrop]) fun j hj hj' => ?_
  simp only [ringSlots, ringDrop, List.getElem_drop, List.getElem_map, List.getElem_range, Nat.mod_add_mod,
    Nat.add_assoc]

theorem ringSlots_eq_nil {r : SymRing} (h : r.n = 0) : ringSlots r = [] :=
  List.eq_nil_of_length_eq_zero ((ringSlots_length r).trans h)

/-! ## Tokens and boundaries -/

theorem extraSlot_tail (n v : Nat) : (if n = 0 then [] else [Slot.extra n v]).length ≤ 1 ∧
    ∀ x ∈ (if n = 0 then [] else [Slot.extra n v]), x.startsToken = false := by
  split
  · exact ⟨Nat.zero_le 1, nofun⟩
  · exact ⟨Nat.le_refl 1, List.forall_mem_singleton.2 rfl⟩

/-- A token begins with its only slot that begins a token (R221). -/
theorem tokenSlots_shape (t : Token) : ∃ s rest, tokenSlots t = .litLen s :: rest ∧ rest.length ≤ 3 ∧
    ∀ x ∈ rest, x.startsToken = false := by
  cases t with
  | lit b => exact ⟨b.toNat, [], rfl, Nat.zero_le 3, nofun⟩
  | copy d l =>
    obtain ⟨hlen₁, htail₁⟩ := extraSlot_tail (lenExtra.getD (lcode l) 0) (l - lenBase.getD (lcode l) 0)
    obtain ⟨hlen₂, htail₂⟩ := extraSlot_tail (distExtra.getD (dcode d) 0) (d - distBase.getD (dcode d) 0)
    refine ⟨257 + lcode l, _, by rw [tokenSlots, List.append_assoc, List.append_assoc]; rfl, ?_,
      List.forall_mem_append.2 ⟨htail₁, List.forall_mem_append.2 ⟨List.forall_mem_singleton.2 rfl, htail₂⟩⟩⟩
    rw [List.length_append, List.length_append, List.length_singleton]
    omega

/-- A boundary in front of a slot that begins a token splits the slots into those of whole tokens (R228). -/
theorem split_at_boundary {ts : List Token} {i : Nat} (h : boundaryAt ((ts.flatMap tokenSlots).drop i) = true) :
    ∃ us vs, ts = us ++ vs ∧ (ts.flatMap tokenSlots).take i = us.flatMap tokenSlots ∧
      (ts.flatMap tokenSlots).drop i = vs.flatMap tokenSlots := by
  induction ts generalizing i with
  | nil => exact ⟨[], [], rfl, List.take_nil, List.drop_nil⟩
  | cons t ts ih =>
    obtain ⟨s, rest, hslots, -, hrest⟩ := tokenSlots_shape t
    rw [List.flatMap_cons] at h ⊢
    by_cases hle : (tokenSlots t).length ≤ i
    · obtain ⟨j, rfl⟩ := Nat.exists_eq_add_of_le hle
      rw [List.drop_length_add_append] at h
      obtain ⟨us, vs, rfl, htake, hdrop⟩ := ih h
      exact ⟨t :: us, vs, rfl, by rw [List.take_length_add_append, htake, List.flatMap_cons],
        by rw [List.drop_length_add_append, hdrop]⟩
    · cases i with
      | zero => exact ⟨[], t :: ts, rfl, rfl, List.flatMap_cons.symm⟩
      | succ j =>
        rw [hslots, List.length_cons] at hle
        have hj : j < rest.length := by omega
        have hx := hrest _ (List.getElem_mem hj)
        rw [hslots, List.cons_append, List.drop_succ_cons, List.drop_append_of_le_length (Nat.le_of_lt hj),
          List.drop_eq_getElem_cons hj, List.cons_append] at h
        exact absurd (hx.symm.trans h) Bool.false_ne_true

theorem spells_le {s : List Byte} {p p' : Nat} {ts : List Token} (h : spells s p ts p') : p ≤ p' := by
  induction ts generalizing p with
  | nil => exact Nat.le_of_eq h
  | cons t ts ih => exact Nat.le_trans (Nat.le_add_right ..) (ih h.2)

theorem inRange_of_tokenAt {s : List Byte} {p : Nat} {t : Token} (h : tokenAt s p t) : inRange t := by
  cases t with
  | lit b => trivial
  | copy d l =>
    obtain ⟨hlo, hhi, -, hd⟩ := h
    obtain ⟨⟨h1, hmax, -⟩, -⟩ := mem_agreeing.1 hd
    exact ⟨h1, hmax, hlo, hhi⟩

/-! ## What the emission side carries -/

/-- The bits put decode to the bytes of `s` before some position, and the buffered tokens stand for those from there up
to `p`. -/
structure Carries (m : Mode) (s : List Byte) (p : Nat) (c : CuCtx) : Prop where
  emit : EmitOk BitWriter.ok c
  stream : ∃ k ts, DecodesTo m .outsideBlk c.bw.bits (s.take k) ∧ spells s k ts p ∧
    ringSlots c.sym = ts.flatMap tokenSlots

/-- Where nothing is buffered, all of it is in the bits. -/
theorem Carries.all {m : Mode} {s : List Byte} {p : Nat} {c : CuCtx} (h : Carries m s p c) (hn : c.sym.n = 0) :
    DecodesTo m .outsideBlk c.bw.bits (s.take p) := by
  obtain ⟨k, ts, hbits, ht, hring⟩ := h.stream
  rw [ringSlots_eq_nil hn] at hring
  cases ts with
  | nil =>
    obtain rfl : k = p := ht
    exact hbits
  | cons t ts =>
    obtain ⟨sym, rest, hslots, -⟩ := tokenSlots_shape t
    rw [List.flatMap_cons, hslots] at hring
    cases hring

theorem Carries.extend {m : Mode} {s : List Byte} {p : Nat} {c : CuCtx} (h : Carries m s p c) (hp : p ≤ s.length)
    (x : List Byte) : Carries m (s ++ x) p c := by
  obtain ⟨hemit, k, ts, hbits, ht, hring⟩ := h
  refine ⟨hemit, k, ts, ?_, spells_extend ht, hring⟩
  rwa [List.take_append_of_le_length (Nat.le_trans (spells_le ht) hp)]

/-- One block of a drain (R229): either more is buffered, or the block ends the stream if it is the last. -/
theorem drainBlock_carries {m : Mode} {s : List Byte} {p : Nat} {c : CuCtx} (h : Carries m s p c) (hn : c.sym.n ≠ 0)
    (f : Bool) {i : Nat} (hi : i = choose (ringSlots c.sym)) :
    (f = false → Carries m s p
      { c with bw := emitDynamic ((ringSlots c.sym).take i) f c.bw, sym := ringDrop i c.sym }) ∧
    (i = c.sym.n → DecodesTo m (afterBlock f) (emitDynamic ((ringSlots c.sym).take i) f c.bw).bits (s.take p)) ∧
    i ≤ c.sym.n ∧ (emitDynamic ((ringSlots c.sym).take i) f c.bw).ok := by
  obtain ⟨⟨hbw, hsym⟩, k, ts, hbits, ht, hring⟩ := h
  have hne : ringSlots c.sym ≠ [] := fun hnil => hn ((ringSlots_length _).symm.trans (congrArg List.length hnil))
  obtain ⟨-, hle, hboundary, -⟩ := chooseIsTheBestBoundary _ _ hne hsym.slots hi
  rw [ringSlots_length] at hle
  have hlegal := hsym.slots
  rw [hring] at hboundary hlegal
  obtain ⟨us, vs, rfl, htake, hdrop⟩ := split_at_boundary hboundary
  obtain ⟨k', hus, hvs⟩ := spells_append.1 ht
  have hlegal' : ∀ x ∈ us.flatMap tokenSlots, x.legal = true := fun x hx =>
    hlegal x (by rw [List.flatMap_append]; exact List.mem_append_left _ hx)
  have hblock := emitDynamic_decodes (m := m) hbw f hus hlegal' hbits
  have hok := (emitDynamic_appends hlegal' f hbw).ok
  rw [← htake, ← hring] at hblock hok
  rw [← hring, ← ringSlots_drop] at hdrop
  refine ⟨?_, fun hall => ?_, hle, hok⟩
  · rintro rfl
    exact ⟨⟨hok, ringDrop_ok hsym i⟩, k', vs, hblock, hvs, hdrop⟩
  · have hnil : vs.flatMap tokenSlots = [] := by
      rw [← hdrop]
      exact ringSlots_eq_nil (by rw [ringDrop, hall, Nat.sub_self])
    cases vs with
    | nil =>
      obtain rfl : k' = p := hvs
      exact hblock
    | cons t vs =>
      obtain ⟨sym, rest, hslots, -⟩ := tokenSlots_shape t
      rw [List.flatMap_cons, hslots] at hnil
      cases hnil

theorem drain_carries {m : Mode} {s : List Byte} {p : Nat} {c : CuCtx} (h : Carries m s p c) :
    Carries m s p (drain false c) := by
  suffices ∀ k c, Carries m s p c → Carries m s p (drainFor false k c) from this _ c h
  intro k
  induction k with
  | zero => exact fun _ h => h
  | succ k ih =>
    intro c h
    rw [drainFor]
    split
    · exact h
    · next hn => exact ih _ ((drainBlock_carries h hn false rfl).1 rfl)

/-- The drain that ends the stream (R229, R276). -/
theorem drain_ends {m : Mode} {s : List Byte} {p : Nat} {c : CuCtx} (h : Carries m s p c) (hn : 0 < c.sym.n) :
    DecodesTo m .finish (drain true c).bw.bits (s.take p) := by
  suffices ∀ k c, Carries m s p c → 0 < c.sym.n → c.sym.n ≤ k →
      DecodesTo m .finish (drainFor true k c).bw.bits (s.take p) from this _ c h hn (Nat.le_refl _)
  intro k
  induction k with
  | zero => exact fun c _ hn hk => absurd hk (Nat.not_le_of_lt hn)
  | succ k ih =>
    intro c h hn hk
    rw [drainFor, if_neg (Nat.ne_of_gt hn)]
    dsimp only
    by_cases hall : choose (ringSlots c.sym) = c.sym.n
    · obtain ⟨-, hends, -, -⟩ := drainBlock_carries h (Nat.ne_of_gt hn) true rfl
      have hdone : (ringDrop (choose (ringSlots c.sym)) c.sym).n = 0 := by rw [ringDrop, hall, Nat.sub_self]
      have hstop : ∀ k (c : CuCtx), c.sym.n = 0 → drainFor true k c = c := fun k c h0 => by
        cases k with
        | zero => rfl
        | succ k => rw [drainFor, if_pos h0]
      rw [hstop _ _ hdone, beq_iff_eq.2 hall]
      exact hends hall
    · obtain ⟨hmore, -, hle, -⟩ := drainBlock_carries h (Nat.ne_of_gt hn) false rfl
      have hpos := choose_pos (slots := ringSlots c.sym) fun hnil =>
        Nat.ne_of_gt hn ((ringSlots_length _).symm.trans (congrArg List.length hnil))
      rw [beq_eq_false_iff_ne.2 hall]
      refine ih _ (hmore rfl) ?_ ?_ <;> simp only [ringDrop] <;> omega

theorem append_carries {m : Mode} {s : List Byte} {p : Nat} {c : CuCtx} {t : Token} (h : Carries m s p c)
    (hroom : HasRoom c.sym) (ht : tokenAt s p t) : Carries m s (p + t.width) (append c t) := by
  obtain ⟨hemit, k, ts, hbits, hts, hring⟩ := h
  have hlegal := tokenSlots_legal (inRange_of_tokenAt ht)
  have hlen : c.sym.n + (tokenSlots t).length ≤ Config.symLimit := by
    obtain ⟨sym, rest, hslots, hrest, -⟩ := tokenSlots_shape t
    rw [hslots, List.length_cons]
    simp only [HasRoom, Config.symLimit] at hroom ⊢
    omega
  have hpush : Carries m s (p + t.width)
      { c with sym := (tokenSlots t).foldl (fun r x => ringPush x r) c.sym } := by
    refine ⟨⟨hemit.bw, ringPushAll_ok hemit.sym hlegal⟩, k, ts ++ [t], hbits, spells_append.2 ⟨p, hts, ht, rfl⟩, ?_⟩
    rw [ringSlots_pushAll hemit.sym hlegal hlen, hring, List.flatMap_append, List.flatMap_singleton]
  unfold append
  dsimp only
  split
  · exact drain_carries hpush
  · exact hpush

theorem appends_carries {m : Mode} {s : List Byte} {p p' : Nat} {ts : List Token} {c : CuCtx} (h : Carries m s p c)
    (hroom : HasRoom c.sym) (ht : spells s p ts p') : Carries m s p' (ts.foldl append c) := by
  induction ts generalizing p c with
  | nil =>
    obtain rfl : p = p' := ht
    exact h
  | cons t ts ih => exact ih (append_carries h hroom ht.1) (append_room c t) ht.2

/-! ## The engine and the emission together -/

/-- A context that has received `x`: what is put, buffered and held back stands for all of it. -/
structure Streams (m : Mode) (x : List Byte) (c : CuCtx) : Prop where
  fed : LzFed c.lz
  bytes : c.lz.s = x
  room : HasRoom c.sym
  carries : Carries m x c.lz.p c

/-- The emission side of a context does not depend on its other registers. -/
theorem Carries.congr {m : Mode} {s : List Byte} {p : Nat} {c c' : CuCtx} (h : Carries m s p c) (hbw : c'.bw = c.bw)
    (hsym : c'.sym = c.sym) : Carries m s p c' := by
  obtain ⟨⟨hok, hring⟩, hstream⟩ := h
  rw [← hbw, ← hsym] at hstream
  exact ⟨⟨hbw ▸ hok, hsym ▸ hring⟩, hstream⟩

theorem appendAll_streams {m : Mode} {x : List Byte} {r : List Token × Lz} {c : CuCtx} (hfed : LzFed r.2)
    (hbytes : r.2.s = x) (hroom : HasRoom c.sym) (h : Carries m x c.lz.p c) (ht : spells x c.lz.p r.1 r.2.p) :
    Streams m x (appendAll r c) := by
  have hlz := appendAll_lz r c
  refine ⟨by rwa [hlz], by rwa [hlz], appends_room (c := { c with lz := r.2 }) hroom, ?_⟩
  rw [hlz]
  exact appends_carries (c := { c with lz := r.2 }) (h.congr rfl rfl) hroom ht

theorem cuByte_streams {m : Mode} {x : List Byte} {c : CuCtx} (h : Streams m x c) (b : Byte) :
    Streams m (x ++ [b]) (cuByte c b) := by
  obtain ⟨hfed, rfl, hroom, hcarries⟩ := h
  obtain ⟨hfed', hbytes, hspells⟩ := lzByte_fed b hfed
  have hp : c.lz.p ≤ c.lz.s.length := hfed.inv.received.symm ▸ hfed.inv.committed
  exact appendAll_streams hfed' hbytes hroom (hcarries.extend hp [b]) hspells

theorem cuBytes_streams {m : Mode} (data : List Byte) {x : List Byte} {c : CuCtx} (h : Streams m x c) :
    Streams m (x ++ data) (data.foldl cuByte c) := by
  induction data generalizing x c with
  | nil => rwa [List.append_nil]
  | cons b data ih =>
    have := ih (cuByte_streams h b)
    rwa [List.append_assoc, List.singleton_append] at this

theorem lzFlush_fed {z : Lz} (h : LzFed z) : LzFed (lzFlush z).2 := by
  obtain ⟨-, hinv, -⟩ := lzFlush_ok h.inv
  refine ⟨hinv, lzIndexed_of_same (lzFlush_same h.inv) h.tracks.index, lzPending_of_inv hinv, fun o c ho => ?_⟩
  obtain rfl : c = .empty := (List.mem_replicate.1 (List.mem_of_getElem? ho)).2
  trivial

/-- After a flush everything received is committed (41_lz77.md R178). -/
theorem cuFlush_streams {m : Mode} {x : List Byte} {c : CuCtx} (h : Streams m x c) :
    Streams m x (cuFlush c) ∧ (cuFlush c).lz.p = x.length := by
  obtain ⟨hfed, rfl, hroom, hcarries⟩ := h
  have hs : (lzFlush c.lz).2.s = c.lz.s := sameStore_s (lzFlush_same hfed.inv)
  obtain ⟨-, hinv, hp⟩ := lzFlush_ok hfed.inv
  have hall : (lzFlush c.lz).2.p = c.lz.s.length := by rw [hp, ← hinv.received, hs]
  refine ⟨appendAll_streams (lzFlush_fed hfed) hs hroom hcarries ?_, by rw [cuFlush_lz, hall]⟩
  rw [hall]
  exact lzFlush_spells hfed

/-! ## The ends of the feeds -/

theorem cuSync_streams {m : Mode} {x : List Byte} {c : CuCtx} (h : Streams m x c) :
    Streams m x (cuSync c) ∧ (cuSync c).bw.n = 0 ∧ DecodesTo m .outsideBlk (cuSync c).bw.bits x := by
  obtain ⟨⟨hfed, hbytes, -, hcarries⟩, hp⟩ := cuFlush_streams h
  have hdrained := drain_carries hcarries
  have hempty := drain_n false (cuFlush c)
  have hall := hdrained.all hempty
  rw [hp, List.take_length] at hall
  obtain ⟨hok, hn, hbits⟩ := emitStoredEmpty_decodes hdrained.emit.bw hall
  have hlz : (cuSync c).lz = (cuFlush c).lz := drain_lz false _
  have hsym : (cuSync c).sym = (drain false (cuFlush c)).sym := rfl
  refine ⟨⟨hlz ▸ hfed, hlz ▸ hbytes, ?_, ⟨⟨hok, hdrained.emit.sym⟩, x.length, [], ?_, ?_, ?_⟩⟩, hn, hbits⟩
  · rw [HasRoom, hsym, hempty]
    exact Nat.zero_le _
  · rw [List.take_length]
    exact hbits
  · rw [hlz, hp]
    rfl
  · rw [hsym]
    exact ringSlots_eq_nil hempty

theorem cuLastBlock_decodes {m : Mode} {s : List Byte} {p : Nat} {c : CuCtx} (h : Carries m s p c) :
    (cuLastBlock c).bw.ok ∧ DecodesTo m .finish (cuLastBlock c).bw.bits (s.take p) := by
  unfold cuLastBlock
  split
  · next hn => exact ⟨(drain_emitOk ok_keptByPut true h.emit).bw, drain_ends h hn⟩
  · next hn =>
    have hall := h.all (Nat.eq_zero_of_not_pos hn)
    exact ⟨(emitStaticEmpty_appends h.emit.bw true).ok, emitStaticEmpty_decodes h.emit.bw true hall⟩

theorem cuFinish_streams {x : List Byte} {c : CuCtx} (h : Streams c.mode x c)
    (hadler : c.adler = adlerInMode c.mode 1 x) :
    DecodesAll c.mode .finalSpin (byteBits (cuFinish c).bw.out) x := by
  obtain ⟨⟨-, -, -, hcarries⟩, hp⟩ := cuFlush_streams h
  obtain ⟨hok, hbits⟩ := cuLastBlock_decodes (c := setCLastBlock (cuFlush c)) (hcarries.congr rfl rfl)
  rw [hp, List.take_length] at hbits
  have hcontrol := (cuLastBlock_frame (setCLastBlock (cuFlush c))).2
  have hflush := cuFlush_control c
  simp only [control, Prod.mk.injEq] at hcontrol hflush
  obtain ⟨hmode, -, -, -, hadler'⟩ := hcontrol
  obtain ⟨hmode', -, -, -, hadler''⟩ := hflush
  have hm : (cuLastBlock (setCLastBlock (cuFlush c))).mode = c.mode := hmode.trans hmode'
  have ha : (cuLastBlock (setCLastBlock (cuFlush c))).adler = c.adler := hadler'.trans hadler''
  rw [← hm] at hbits hadler ⊢
  exact DecodesTo.all_of_finish (c := { cuLastBlock (setCLastBlock (cuFlush c)) with bw := alignWriter _ }) hok hbits
    rfl (ha.trans hadler)

end Sys2Proof.Proofs
end

