-- ==== Sys2Proof/Proofs/RoundTrip.lean ====
section
/-! PROOFS. The round trip (45_compress_driver.md R281): over any feeds of a fresh context the outputs joined are one
stream, and this stream decodes to the data joined. -/

namespace Sys2Proof.Proofs

open Sys2Proof.Machine Sys2Proof.Laws

/-! ## A context with its output so far -/

/-- The context `c` of mode `m` has taken the data `x` and returned the output `o`. -/
structure Sent (m : Mode) (x o : List Byte) (c : CuCtx) : Prop where
  streams : Streams m x (cuHeader (rebase o id c))
  mode : c.mode = m
  adler : c.adler = adlerInMode m 1 x
  unfinished : c.finished = false
  first : c.first = true → o = []

theorem streams_of_header {m : Mode} {c : CuCtx} (hlz : c.lz = Lz.fresh) (hsym : c.sym = SymRing.fresh) (hbw : c.bw.ok)
    (hbits : DecodesTo m .outsideBlk c.bw.bits []) : Streams m [] c where
  fed := hlz ▸ lzFed_fresh
  bytes := by rw [hlz]; rfl
  room := by rw [hsym]; exact Nat.zero_le _
  carries := by
    refine ⟨⟨hbw, hsym ▸ ⟨Nat.two_pow_pos 16, nofun, rfl, rfl⟩⟩, 0, [], hbits, ?_, by rw [hsym]; rfl⟩
    rw [hlz]
    rfl

theorem sent_fresh (m : Mode) : Sent m [] [] (CuCtx.fresh m) := by
  refine ⟨?_, rfl, (adlerInMode_nil m 1).symm, rfl, fun _ => rfl⟩
  cases m with
  | bare => exact streams_of_header rfl rfl bitWriter_fresh_ok decodesTo_bare
  | zlib =>
    have hheader : cuHeader (rebase [] id (CuCtx.fresh .zlib)) = _ := cuHeader_fresh_zlib
    rw [hheader]
    exact streams_of_header rfl rfl bitWriter_fresh_ok decodesTo_zlibHeader

section
variable {m : Mode} {x o : List Byte} {c : CuCtx} (h : Sent m x o c) (data : List Byte)
include h

/-- The common part of a feed (R272), as one of the context with all the output so far. -/
theorem feedCommon_streams : Streams m (x ++ data) (rebase o id (feedCommon data c)) ∧
    (feedCommon data c).adler = adlerInMode m 1 (x ++ data) := by
  have hjoin : rebase o id (feedCommon data c) = feedCommon data (rebase o id c) := by
    cases hfirst : c.first with
    | false => exact (feedCommon_rebase data o hfirst).symm
    | true =>
      rw [h.first hfirst]
      rfl
  have hcontrol := feedCommon_control data c
  simp only [control, Prod.mk.injEq] at hcontrol
  obtain ⟨-, -, -, -, hadler⟩ := hcontrol
  obtain ⟨hfed, hbytes, hroom, hcarries⟩ := cuBytes_streams data h.streams
  rw [hjoin, feedCommon_eq]
  exact ⟨⟨hfed, hbytes, hroom, hcarries.congr rfl rfl⟩, by rw [hadler, h.mode, h.adler, adlerInMode_append]⟩

/-- A feed that ends with `g`, which keeps the control registers and the stream. -/
theorem sent_feed {g : CuCtx → CuCtx} (hg : KeepsOutBefore g) (hcontrol : ∀ c, control (g c) = control c)
    (hstreams : ∀ {x : List Byte} {c : CuCtx}, Streams m x c → Streams m x (g c)) :
    Sent m (x ++ data) (o ++ (g (feedCommon data c)).bw.out) (taken (g (feedCommon data c))) := by
  obtain ⟨hcommon, hadler⟩ := feedCommon_streams h data
  have hcontrol := (hcontrol _).trans (feedCommon_control data c)
  simp only [control, Prod.mk.injEq] at hcontrol
  obtain ⟨hmode, hfirst, hfin, -, hadler'⟩ := hcontrol
  have hrebase : rebase (o ++ (g (feedCommon data c)).bw.out) id (taken (g (feedCommon data c))) =
      rebase o id (g (feedCommon data c)) := by
    conv_rhs => rw [← rebase_taken (g (feedCommon data c)), rebase_rebase, Function.id_comp]
  refine ⟨?_, hmode.trans h.mode, ?_, hfin.trans h.unfinished, fun ht => nomatch hfirst.symm.trans ht⟩
  · rw [cuHeader_of_started (by exact hfirst), hrebase, ← hg]
    exact hstreams hcommon
  · show (g (feedCommon data c)).adler = _
    rw [hadler', h.mode, h.adler, adlerInMode_append]

theorem decodesAll_sync :
    DecodesAll m .outsideBlk (byteBits (o ++ (cuSync (feedCommon data c)).bw.out)) (x ++ data) := by
  obtain ⟨-, hn, hbits⟩ := cuSync_streams (feedCommon_streams h data).1
  have hall := hbits.all_of_sync hn
  rw [cuSync_keepsOutBefore] at hall
  exact hall

theorem decodesAll_finish :
    DecodesAll m .finalSpin (byteBits (o ++ (cuFinish (feedCommon data c)).bw.out)) (x ++ data) := by
  obtain ⟨hcommon, hadler⟩ := feedCommon_streams h data
  have hmode : (rebase o id (feedCommon data c)).mode = m := (feedCommon_flags data c).1.trans h.mode
  have hall := cuFinish_streams (c := rebase o id (feedCommon data c)) (x := x ++ data) (hmode.symm ▸ hcommon)
    (hmode.symm ▸ hadler)
  rw [cuFinish_keepsOutBefore, hmode] at hall
  exact hall

end

/-! ## The commands -/

/-- The state after a C_FEED: the other unit and the inputs are as before. -/
def fedState (c : CuCtx) (outs : List (List Byte)) (s : State) : State :=
  { s with cu := some c, replies := s.replies ++ outs.map .cu }

theorem exec_middle {m : Mode} {x o : List Byte} {c : CuCtx} {s : State} {i : Instr} (hc : s.cu = some c)
    (h : Sent m x o c) (hi : ∃ data, i = .cFeedNone data ∨ i = .cFeedSync data) :
    ∃ c' out, exec i s = .next (fedState c' [out] s) ∧ Sent m (x ++ feedData i) (o ++ out) c' := by
  obtain ⟨data, rfl | rfl⟩ := hi
  · exact ⟨_, _, exec_feed (g := id) data hc h.unfinished, sent_feed h data (fun _ _ => rfl) (fun _ => rfl) id⟩
  · exact ⟨_, _, exec_feed (g := cuSync) data hc h.unfinished,
      sent_feed h data cuSync_keepsOutBefore cuSync_control fun hs => (cuSync_streams hs).1⟩

theorem execAll_middle {m : Mode} {x o : List Byte} {feeds : List Instr} {c : CuCtx} {s : State} (hc : s.cu = some c)
    (h : Sent m x o c) (hfeeds : ∀ i ∈ feeds, ∃ data, i = .cFeedNone data ∨ i = .cFeedSync data) :
    ∃ c' outs, execAll feeds s = some (fedState c' outs s) ∧
      Sent m (x ++ feeds.flatMap feedData) (o ++ outs.flatten) c' := by
  induction feeds generalizing x o c s with
  | nil =>
    refine ⟨c, [], ?_, by rwa [List.flatMap_nil, List.flatten_nil, List.append_nil, List.append_nil]⟩
    rw [fedState, ← hc, List.map_nil, List.append_nil]
    rfl
  | cons i feeds ih =>
    obtain ⟨hi, hfeeds⟩ := List.forall_mem_cons.1 hfeeds
    obtain ⟨c₁, out, hexec, h₁⟩ := exec_middle hc h hi
    obtain ⟨c', outs, hall, h'⟩ := ih (s := fedState c₁ [out] s) rfl h₁ hfeeds
    refine ⟨c', out :: outs, ?_, ?_⟩
    · rw [execAll, hexec]
      exact hall.trans (by simp only [fedState, List.map_cons, List.map_nil, List.append_assoc, List.singleton_append])
    · rwa [List.flatMap_cons, List.flatten_cons, ← List.append_assoc, ← List.append_assoc]

theorem exec_last {m : Mode} {x o : List Byte} {c : CuCtx} {s : State} {i : Instr} {st : DState} (hc : s.cu = some c)
    (h : Sent m x o c)
    (hi : ∃ data, i = .cFeedSync data ∧ st = .outsideBlk ∨ i = .cFeedFinish data ∧ st = .finalSpin) :
    ∃ c' out, exec i s = .next (fedState c' [out] s) ∧ DecodesAll m st (byteBits (o ++ out)) (x ++ feedData i) := by
  obtain ⟨data, ⟨rfl, rfl⟩ | ⟨rfl, rfl⟩⟩ := hi
  · exact ⟨_, _, exec_feed (g := cuSync) data hc h.unfinished, decodesAll_sync h data⟩
  · exact ⟨_, _, exec_feed (g := cuFinish) data hc h.unfinished, decodesAll_finish h data⟩

theorem exec_dFeed_of_decodesAll {m : Mode} {st : DState} {data x : List Byte} {t : State}
    (hd : t.du = some (DuCtx.fresh m)) (h : DecodesAll m st (byteBits data) x) :
    ∃ d, exec (.dFeed data) t = .next { t with du := some d, replies := t.replies ++ [.du x .ok] } ∧
      d.err = .ok ∧ d.state = st ∧ d.nbits = 0 := by
  obtain ⟨d, hrun, ⟨hemitted, hstate⟩, hn⟩ := runFeed_of_decodesAll h
  refine ⟨{ d with out := [] }, ?_, hemitted.err, hstate, hn⟩
  have hexec : exec (.dFeed data) t = _ := execDFeed_accepted data hd rfl
  rw [hexec, hrun, ← hemitted.out, ← hemitted.err]
  rfl

/-! ## The empty input -/

theorem exec_finish_fresh (m : Mode) : exec (.cFeedFinish []) { State.reset with cu := some (CuCtx.fresh m) } =
    .next { State.reset with
      cu := some (taken (cuFinish (feedCommon [] (CuCtx.fresh m))))
      replies := [.cu (cuFinish (feedCommon [] (CuCtx.fresh m))).bw.out] } :=
  exec_feed (g := cuFinish) (s := { State.reset with cu := some (CuCtx.fresh m) }) [] rfl rfl

theorem emptyInput_bare : (cuFinish (feedCommon [] (CuCtx.fresh .bare))).bw.out = [0x03, 0x00] := by decide

theorem emptyInput_zlib : (cuFinish (feedCommon [] (CuCtx.fresh .zlib))).bw.out =
    [0x78, 0x9C, 0x03, 0x00, 0x00, 0x00, 0x00, 0x01] := by decide

/-- Settles O20: the outputs joined are the bits that an unbroken writer would have put, these decode block by block to
the data, and the empty stream is evaluated. -/
theorem roundTrip : Obligations.RoundTrip := by
  unfold Obligations.RoundTrip
  refine ⟨?_, ?_, ?_⟩
  · rintro s m feeds last data st hcu hdu hfeeds hlast rfl
    obtain ⟨c, outs, hall, hsent⟩ := execAll_middle hcu (sent_fresh m) hfeeds
    obtain ⟨c', out, hexec, hdecodes⟩ := exec_last (s := fedState c outs s) rfl hsent hlast
    have hdata : [] ++ feeds.flatMap feedData ++ feedData last = (feeds ++ [last]).flatMap feedData := by
      rw [List.nil_append, List.flatMap_append, List.flatMap_singleton]
    have houts : [] ++ outs.flatten ++ out = (outs ++ [out]).flatten := by
      rw [List.nil_append, List.flatten_append, List.flatten_singleton]
    rw [hdata, houts] at hdecodes
    obtain ⟨d, hfeed, hd⟩ := exec_dFeed_of_decodesAll (t := fedState c' [out] (fedState c outs s)) hdu hdecodes
    refine ⟨fedState c' [out] (fedState c outs s), d, outs ++ [out], ?_, ?_, rfl, hfeed, hd⟩
    · rw [execAll_append, hall, Option.bind_some, execAll, hexec]
      rfl
    · simp only [fedState, List.map_append, List.append_assoc]
  · exact ⟨_, exec_finish_fresh .bare, congrArg (fun o => [Reply.cu o]) emptyInput_bare⟩
  · exact ⟨_, exec_finish_fresh .zlib, congrArg (fun o => [Reply.cu o]) emptyInput_zlib⟩

end Sys2Proof.Proofs
end

