-- ==== Sys2Proof/Proofs/StepOutcomes.lean ====
section
/-! PROOFS. What a step of the automaton can do, said once for all states (46_decompress.md R301 to R318, R324): it
suspends with nothing changed, completes along an edge of the state graph, or raises at a site of its state. -/

namespace Sys2Proof.Proofs

open Sys2Proof.Machine Sys2Proof.Laws

/-- How a step from `d` can end. -/
inductive StepsFrom (d : DuCtx) : Stepped → Prop
  | waits (hspin : d.state ≠ .finalSpin) (hfinish : d.state ≠ .finish) : StepsFrom d (.suspended d)
  | spins (hspin : d.state = .finalSpin) : StepsFrom d (.suspended (discardAll d))
  | completes {d' : DuCtx} (hedge : edge d'.lastBlock d.mode d.state d'.state = true) (hmode : d'.mode = d.mode)
      (herr : d'.err = d.err) : StepsFrom d (.completed d')
  | raises {e : Err} {d' : DuCtx} (hsite : raiseSite d.state e = true) (hmode : d'.mode = d.mode)
      (hout : d'.out = d.out) : StepsFrom d (.raised e d')

section
variable {d : DuCtx}

theorem need_stepsFrom {n : Nat} {k : DuCtx → Stepped} (hspin : d.state ≠ .finalSpin) (hfinish : d.state ≠ .finish)
    (hk : StepsFrom d (k d)) : StepsFrom d (need n d k) := by
  rw [need]
  split
  · exact .waits hspin hfinish
  · exact hk

/-- A block ends in END exactly when it was the last one (R319). -/
theorem blockEnd_stepsFrom {c : DuCtx} (hs : d.state = .uncompNlen ∨ d.state = .uncompData ∨ d.state = .inBlk)
    (hmode : c.mode = d.mode) (herr : c.err = d.err) : StepsFrom d (.completed (blockEnd c)) := by
  refine .completes ?_ hmode herr
  rw [blockEnd_state, blockEnd_lastBlock]
  obtain hs | hs | hs := hs <;> rw [hs] <;> cases c.lastBlock <;> rfl

/-- A step that completes in the state `st` with the mode and the error unchanged. -/
theorem completes_to {st st' : DState} {d' : DuCtx} (hs : d.state = st) (hs' : d'.state = st')
    (hedge : ∀ f m, edge f m st st' = true) (hmode : d'.mode = d.mode) (herr : d'.err = d.err) :
    StepsFrom d (.completed d') := .completes (by rw [hs, hs']; exact hedge _ _) hmode herr

/-- A raise at a site of the state `st`. -/
theorem raises_at {st : DState} {e : Err} {d' : DuCtx} (hs : d.state = st) (hsite : raiseSite st e = true)
    (hmode : d'.mode = d.mode) (hout : d'.out = d.out) : StepsFrom d (.raised e d') :=
  .raises (hs ▸ hsite) hmode hout

theorem waits_in {st : DState} (hs : d.state = st) (hspin : st ≠ .finalSpin) (hfinish : st ≠ .finish) :
    StepsFrom d (.suspended d) := .waits (hs ▸ hspin) (hs ▸ hfinish)

theorem need_stepsFrom_in {st : DState} {n : Nat} {k : DuCtx → Stepped} (hs : d.state = st) (hspin : st ≠ .finalSpin)
    (hfinish : st ≠ .finish) (hk : StepsFrom d (k d)) : StepsFrom d (need n d k) :=
  need_stepsFrom (hs ▸ hspin) (hs ▸ hfinish) hk

theorem startBlock_stepsFrom {f : Bool} {t : Nat} {c : DuCtx} (hs : d.state = .outsideBlk) (hmode : c.mode = d.mode)
    (herr : c.err = d.err) (hout : c.out = d.out) : StepsFrom d (startBlock f t c) := by
  unfold startBlock
  dsimp only
  split_ifs
  · exact completes_to hs rfl (fun _ _ => rfl) hmode herr
  · exact completes_to hs rfl (fun _ _ => rfl) hmode herr
  · exact completes_to hs rfl (fun _ _ => rfl) hmode herr
  · exact raises_at hs rfl hmode hout

theorem stepUncompNlen_stepsFrom (hs : d.state = .uncompNlen) : StepsFrom d (stepUncompNlen d) := by
  refine need_stepsFrom_in hs nofun nofun ?_
  split_ifs
  · exact raises_at hs rfl rfl rfl
  · exact blockEnd_stepsFrom (.inl hs) rfl rfl
  · exact completes_to hs rfl (fun _ _ => rfl) rfl rfl

theorem stepUncompData_stepsFrom (hs : d.state = .uncompData) : StepsFrom d (stepUncompData d) := by
  refine need_stepsFrom_in hs nofun nofun ?_
  dsimp only
  split
  · exact blockEnd_stepsFrom (.inr (.inl hs)) rfl rfl
  · exact completes_to hs (st' := .uncompData) hs (fun _ _ => rfl) rfl rfl

theorem stepInBlk_stepsFrom (hs : d.state = .inBlk) : StepsFrom d (stepInBlk d) := by
  unfold stepInBlk
  split
  · exact waits_in hs nofun nofun
  · exact raises_at hs rfl rfl rfl
  · dsimp only
    split_ifs
    · exact completes_to hs (st' := .inBlk) hs (fun _ _ => rfl) rfl rfl
    · exact blockEnd_stepsFrom (.inr (.inr hs)) rfl rfl
    · exact completes_to hs rfl (fun _ _ => rfl) rfl rfl
    · exact raises_at hs rfl rfl rfl

theorem stepTreesHdr_stepsFrom (hs : d.state = .treesHdr) : StepsFrom d (stepTreesHdr d) := by
  refine need_stepsFrom_in hs nofun nofun ?_
  dsimp only
  split
  · exact raises_at hs rfl rfl rfl
  · exact completes_to hs rfl (fun _ _ => rfl) rfl rfl

theorem stepTreesLenLen_stepsFrom (hs : d.state = .treesLenLen) : StepsFrom d (stepTreesLenLen d) := by
  refine need_stepsFrom_in hs nofun nofun ?_
  dsimp only
  split
  · split
    · exact raises_at hs rfl rfl rfl
    · exact completes_to hs rfl (fun _ _ => rfl) rfl rfl
  · exact completes_to hs (st' := .treesLenLen) hs (fun _ _ => rfl) rfl rfl

theorem buildMainTables_stepsFrom (hs : d.state = .treesLen) : StepsFrom d (buildMainTables d) := by
  unfold buildMainTables
  split
  · exact raises_at hs rfl rfl rfl
  · split
    · exact raises_at hs rfl rfl rfl
    · exact completes_to hs rfl (fun _ _ => rfl) rfl rfl

theorem stepTreesLen_stepsFrom (hs : d.state = .treesLen) : StepsFrom d (stepTreesLen d) := by
  unfold stepTreesLen
  split
  · exact buildMainTables_stepsFrom hs
  · split
    · exact waits_in hs nofun nofun
    · exact raises_at hs rfl rfl rfl
    · split
      · exact completes_to hs (st' := .treesLen) hs (fun _ _ => rfl) rfl rfl
      · unfold selectRepeat
        split
        · exact raises_at hs rfl rfl rfl
        · exact completes_to hs rfl (fun _ _ => rfl) rfl rfl

theorem writeRepeats_mode_err (k : Nat) (d : DuCtx) :
    (writeRepeats k d).mode = d.mode ∧ (writeRepeats k d).err = d.err := by
  induction k generalizing d with
  | zero => exact ⟨rfl, rfl⟩
  | succ k ih => exact ih _

theorem stepTreesLenRep_stepsFrom (hs : d.state = .treesLenRep) : StepsFrom d (stepTreesLenRep d) := by
  refine need_stepsFrom_in hs nofun nofun ?_
  unfold finishRepeat
  dsimp only
  split
  · exact raises_at hs rfl rfl rfl
  · obtain ⟨hmode, herr⟩ := writeRepeats_mode_err (d.lenAddOn + peek d.lenExtraBits d) (eat d.lenExtraBits d)
    exact completes_to hs rfl (fun _ _ => rfl) hmode herr

theorem stepGotLen_stepsFrom (hs : d.state = .gotLen) : StepsFrom d (stepGotLen d) := by
  unfold stepGotLen
  split
  · exact waits_in hs nofun nofun
  · exact raises_at hs rfl rfl rfl
  · split
    · exact raises_at hs rfl rfl rfl
    · exact completes_to hs rfl (fun _ _ => rfl) rfl rfl

theorem stepGotDistSym_stepsFrom (hs : d.state = .gotDistSym) : StepsFrom d (stepGotDistSym d) := by
  refine need_stepsFrom_in hs nofun nofun ?_
  unfold finishDistance
  dsimp only
  split
  · exact raises_at hs rfl rfl rfl
  · obtain ⟨out, win, winPos, produced, adler, heq, -⟩ :=
      copyBytes_frame (matchDistance d.sym (peek (distanceExtra d.sym) d)) (eat (distanceExtra d.sym) d).len
        (eat (distanceExtra d.sym) d)
    rw [heq]
    exact completes_to hs rfl (fun _ _ => rfl) rfl rfl

theorem stepFinish_stepsFrom (hs : d.state = .finish) : StepsFrom d (stepFinish d) := by
  unfold stepFinish
  cases hm : d.mode with
  | zlib => exact .completes (by rw [hs, hm]; rfl) rfl rfl
  | bare => exact .completes (by rw [hs, hm]; rfl) rfl rfl

/-- Every step of the automaton. -/
theorem automatonStep_stepsFrom (d : DuCtx) : StepsFrom d (automatonStep d) := by
  unfold automatonStep
  cases hs : d.state with
  | start =>
    refine need_stepsFrom_in hs nofun nofun ?_
    split
    · exact completes_to hs rfl (fun _ _ => rfl) rfl rfl
    · exact raises_at hs rfl rfl rfl
  | outsideBlk => exact need_stepsFrom_in hs nofun nofun (startBlock_stepsFrom hs rfl rfl rfl)
  | uncompLen => exact need_stepsFrom_in hs nofun nofun (completes_to hs rfl (fun _ _ => rfl) rfl rfl)
  | uncompNlen => exact stepUncompNlen_stepsFrom hs
  | uncompData => exact stepUncompData_stepsFrom hs
  | inBlk => exact stepInBlk_stepsFrom hs
  | treesHdr => exact stepTreesHdr_stepsFrom hs
  | treesLenLen => exact stepTreesLenLen_stepsFrom hs
  | treesLen => exact stepTreesLen_stepsFrom hs
  | treesLenRep => exact stepTreesLenRep_stepsFrom hs
  | gotLenSym =>
    exact need_stepsFrom_in hs nofun nofun
      (completes_to hs (finishLength_state ..) (fun _ _ => rfl) (finishLength_mode ..) (finishLength_err ..))
  | gotLen => exact stepGotLen_stepsFrom hs
  | gotDistSym => exact stepGotDistSym_stepsFrom hs
  | finish => exact stepFinish_stepsFrom hs
  | adler1 =>
    refine need_stepsFrom_in hs nofun nofun ?_
    generalize BitVec.ofNat 32 _ = got
    exact completes_to hs rfl (fun _ _ => rfl) rfl rfl
  | adler2 =>
    refine need_stepsFrom_in hs nofun nofun ?_
    dsimp only
    split
    · exact completes_to hs rfl (fun _ _ => rfl) rfl rfl
    · exact raises_at hs rfl rfl rfl
  | finalSpin => exact .spins hs

end

/-- Settles O40: the only step that suspends with a change is that of FINALSPIN. -/
theorem suspensionChangesNothing : Obligations.SuspensionChangesNothing := by
  unfold Obligations.SuspensionChangesNothing
  refine ⟨fun d d' h hspin => ?_, fun d hs => ?_⟩
  · have hsteps := automatonStep_stepsFrom d
    rw [h] at hsteps
    cases hsteps with
    | waits => rfl
    | spins hs => exact absurd hs hspin
  · have hstep : automatonStep d = stepFinalSpin d := by rw [automatonStep, hs]
    exact hstep

/-- Settles O41, by the case of a completed step. -/
theorem stateGraph : Obligations.StateGraph := by
  unfold Obligations.StateGraph
  intro d d' h
  have hsteps := automatonStep_stepsFrom d
  rw [h] at hsteps
  cases hsteps with | completes hedge hmode herr => exact ⟨hedge, hmode, herr⟩

end Sys2Proof.Proofs
end

