-- ==== Sys2Proof/Proofs/StreamCuts.lean ====
section
/-! PROOFS. A step reads the stream of bits and not where it is cut (46_decompress.md R323, R324, 40_bitio.md R152): from
two contexts alike but for the accumulator and for bytes already output, the second with more bytes behind its stream,
the same step is made, unless the first waits for bits. -/

namespace Sys2Proof.Proofs

open Sys2Proof.Machine Sys2Proof.Laws

/-- The context with `o` before its output. -/
def addOut (o : List Byte) (d : DuCtx) : DuCtx := { d with out := o ++ d.out }

/-- `e` is `d` but for the accumulator, with `o` before its output, and its stream is that of `d` and then `rest`. -/
structure Follows (o inp inp' rest : List Byte) (d e : DuCtx) : Prop where
  same : discardAll e = discardAll (addOut o d)
  clean : d.bits.toNat < 2 ^ d.nbits
  clean' : e.bits.toNat < 2 ^ e.nbits
  upcoming : e.upcoming inp' = d.upcoming inp ++ byteBits rest

/-- An update that neither reads nor writes the accumulator, and reads no output. -/
structure Blind (f : DuCtx → DuCtx) : Prop where
  discards : ∀ d, discardAll (f d) = f (discardAll d) := by intros; rfl
  adds : ∀ o d, addOut o (f d) = f (addOut o d) := by intros; rfl
  bits : ∀ d, (f d).bits = d.bits := by intros; rfl
  nbits : ∀ d, (f d).nbits = d.nbits := by intros; rfl

/-- How the step from `e` ends when that from `d` ends in a given way. -/
inductive Agrees (o inp inp' rest : List Byte) (d e : DuCtx) : Stepped → Stepped → Prop
  | suspended {r : Stepped} (h : e.bits = d.bits → e.nbits = d.nbits → r = .suspended e) :
      Agrees o inp inp' rest d e (.suspended d) r
  | completed {d' e' : DuCtx} (h : Follows o inp inp' rest d' e') :
      Agrees o inp inp' rest d e (.completed d') (.completed e')
  | raised {er : Err} {d' e' : DuCtx} (h : e'.out = o ++ d'.out) :
      Agrees o inp inp' rest d e (.raised er d') (.raised er e')

/-- The low bits of a longer accumulator over the same stream. -/
theorem eq_add_of_bitsOf_append {m n a b : Nat} {xs ys : List Bool} (ha : a < 2 ^ m) (hmn : m ≤ n)
    (h : bitsOf m a ++ xs = bitsOf n b ++ ys) : b = a + 2 ^ m * (b / 2 ^ m) := by
  obtain ⟨k, rfl⟩ := Nat.exists_eq_add_of_le hmn
  rw [bitsOf_add, List.append_assoc] at h
  have hmod := mod_eq_of_bitsOf_eq (List.append_inj_left h (by rw [bitsOf_length, bitsOf_length]))
  rw [Nat.mod_eq_of_lt ha] at hmod
  rw [hmod, Nat.mod_add_div]

section
variable {o inp inp' rest : List Byte} {d e : DuCtx}

theorem Follows.lengths (h : Follows o inp inp' rest d e) :
    e.nbits + 8 * inp'.length = d.nbits + 8 * inp.length + 8 * rest.length := by
  have hlen := congrArg List.length h.upcoming
  rwa [List.length_append, upcoming_length, upcoming_length, byteBits_length] at hlen

/-- A register other than the accumulator and the output. -/
theorem Follows.reg {α : Type} (h : Follows o inp inp' rest d e) (r : DuCtx → α)
    (hdiscard : ∀ c, r (discardAll c) = r c := by intros; rfl) (hadd : ∀ o c, r (addOut o c) = r c := by intros; rfl) :
    r e = r d := by
  rw [← hdiscard e, h.same, hdiscard, hadd]

theorem Follows.out (h : Follows o inp inp' rest d e) : e.out = o ++ d.out := congrArg DuCtx.out h.same

theorem Follows.map {f : DuCtx → DuCtx} (h : Follows o inp inp' rest d e) (hf : Blind f) :
    Follows o inp inp' rest (f d) (f e) where
  same := by rw [hf.discards, h.same, ← hf.discards, ← hf.adds]
  clean := by rw [hf.bits, hf.nbits]; exact h.clean
  clean' := by rw [hf.bits, hf.nbits]; exact h.clean'
  upcoming := by
    rw [DuCtx.upcoming, DuCtx.upcoming, hf.bits, hf.nbits, hf.bits, hf.nbits]
    exact h.upcoming

theorem Follows.le_nbits {n : Nat} (h : Follows o inp inp' rest d e) (hfull : Refilled e inp') (hn : n ≤ 24)
    (hd : n ≤ d.nbits) : n ≤ e.nbits := by
  obtain h24 | rfl := hfull
  · exact Nat.le_trans hn h24
  · have hlen := h.lengths
    rw [List.length_nil] at hlen
    omega

theorem Follows.eat {n : Nat} (h : Follows o inp inp' rest d e) (hd : n ≤ d.nbits) (he : n ≤ e.nbits) :
    peek n e = peek n d ∧ Follows o inp inp' rest (eat n d) (eat n e) := by
  have hup := h.upcoming
  rw [upcoming_eq_peek_append_eat he, upcoming_eq_peek_append_eat hd, List.append_assoc] at hup
  obtain ⟨hpeek, hrest⟩ := List.append_inj hup (by rw [bitsOf_length, bitsOf_length])
  have hmod := mod_eq_of_bitsOf_eq hpeek
  rw [Nat.mod_eq_of_lt (peek_lt n e), Nat.mod_eq_of_lt (peek_lt n d)] at hmod
  exact ⟨hmod, h.same, shiftRight_lt n h.clean, shiftRight_lt n h.clean', hrest⟩

theorem Follows.align (h : Follows o inp inp' rest d e) :
    Follows o inp inp' rest (alignReader d) (alignReader e) := by
  have hmod : e.nbits % 8 = d.nbits % 8 := by
    have := h.lengths
    omega
  rw [alignReader, alignReader, hmod]
  exact (h.eat (Nat.mod_le ..) (hmod ▸ Nat.mod_le ..)).2

/-- A lookup that has answered answers the same however the stream is cut (42_huffman.md R203). -/
theorem Follows.lookup (h : Follows o inp inp' rest d e) (hfull : Refilled e inp') (t : Table)
    (hmore : lookup t d.bits.toNat d.nbits ≠ .more) :
    lookup t e.bits.toNat e.nbits = lookup t d.bits.toNat d.nbits := by
  have hup := h.upcoming
  rw [DuCtx.upcoming, DuCtx.upcoming, List.append_assoc] at hup
  obtain hlt | hle := Nat.lt_or_ge e.nbits d.nbits
  · have h24 : 24 ≤ e.nbits := by
      by_contra hfew
      have := h.le_nbits (n := e.nbits + 1) hfull (by omega) hlt
      omega
    rw [eq_add_of_bitsOf_append h.clean' hlt.le hup]
    obtain ⟨k, hk⟩ := Nat.exists_eq_add_of_le hlt.le
    cases hl : Sys2Proof.lookup t e.bits.toNat e.nbits with
    | more => exact absurd (lookup_more hl) (by omega)
    | sym s l => rw [hk, lookup_append_sym _ k hl]
    | bad => rw [hk, lookup_append_bad _ k hl]
  · rw [eq_add_of_bitsOf_append h.clean hle hup.symm]
    obtain ⟨k, hk⟩ := Nat.exists_eq_add_of_le hle
    cases hl : Sys2Proof.lookup t d.bits.toNat d.nbits with
    | more => exact absurd hl hmore
    | sym s l => rw [hk, lookup_append_sym _ k hl]
    | bad => rw [hk, lookup_append_bad _ k hl]

/-! ## The operations -/

theorem blind_setState (st : DState) : Blind (setState st) := {}

theorem blind_blockEnd : Blind blockEnd := {}

theorem blind_outByte (b : Byte) : Blind (outByte b) where
  discards _ := rfl
  adds o d := congrArg (fun out => { outByte b d with out := out }) (List.append_assoc o d.out [b]).symm
  bits _ := rfl
  nbits _ := rfl

/-- A stored byte is counted, and the last one ends the block (R306). -/
def countUncomp (d : DuCtx) : DuCtx :=
  if d.uncompLen - 1 = 0 then blockEnd { d with uncompLen := d.uncompLen - 1 }
  else { d with uncompLen := d.uncompLen - 1 }

theorem blind_countUncomp : Blind countUncomp where
  discards d := by unfold countUncomp; exact apply_ite discardAll ..
  adds o d := by unfold countUncomp; exact apply_ite (addOut o) ..
  bits d := by unfold countUncomp; split <;> rfl
  nbits d := by unfold countUncomp; split <;> rfl

theorem blind_writeLength (v : Nat) : Blind (writeLength v) := {}

/-- The table build of TREES_LENLEN (R309). -/
def buildCodeLenTable (d : DuCtx) : Stepped :=
  match mkTable d.lenLen with
  | none => .raised .table d
  | some t => .completed { d with
      tabCL := some t, lenPtr := 0, lengths := List.replicate (Config.nLL + Config.nDist) 0, state := .treesLen }

/-- The lower half of the trailer's checksum, two bytes read as `v` (R317). -/
def lowerRead (v : Nat) (d : DuCtx) : DuCtx :=
  { d with adlerGot := d.adlerGot ||| BitVec.ofNat 32 (v % 256 * 2 ^ 8 + v / 256) }

/-- The checksum as the trailer gives it is compared (R317). -/
def compareAdler (d : DuCtx) : Stepped :=
  if d.adlerGot = d.adler then .completed (setState .finalSpin d) else .raised .checksum d

theorem stepAdler2_eq (d : DuCtx) :
    stepAdler2 d = need 16 d fun d => compareAdler (lowerRead (peek 16 d) (eat 16 d)) := rfl

theorem blind_lowerRead (v : Nat) : Blind (lowerRead v) := {}

theorem copyBytes_addOut (dist len : Nat) (o : List Byte) (d : DuCtx) :
    addOut o (copyBytes dist len d) = copyBytes dist len (addOut o d) := by
  induction len generalizing d with
  | zero => rfl
  | succ len ih => rw [copyBytes, ih, (blind_outByte _).adds]; rfl

/-- A copy of D.LEN bytes (R321). -/
theorem blind_copyLen (dist : Nat) : Blind fun d => copyBytes dist d.len d where
  discards d := copyBytes_discardAll dist d.len d
  adds o d := copyBytes_addOut dist d.len o d
  bits d := (copyBytes_bits dist d.len d).1
  nbits d := (copyBytes_bits dist d.len d).2

theorem blind_writeRepeats (k : Nat) : Blind (writeRepeats k) where
  discards d := writeRepeats_discardAll k d
  adds o d := by
    induction k generalizing d with
    | zero => rfl
    | succ k ih => exact ih _
  bits d := writeRepeats_bits k d
  nbits d := writeRepeats_nbits k d

end

/-! ## The steps -/

/-- Both steps take the same branch. -/
theorem ite_agrees {o inp inp' rest : List Byte} {d e : DuCtx} {p p' : Prop} [Decidable p] [Decidable p']
    {r₁ r₂ r₁' r₂' : Stepped} (hp : p' ↔ p) (h₁ : p → Agrees o inp inp' rest d e r₁ r₁')
    (h₂ : ¬p → Agrees o inp inp' rest d e r₂ r₂') :
    Agrees o inp inp' rest d e (if p then r₁ else r₂) (if p' then r₁' else r₂') := by
  by_cases hc : p
  · rw [if_pos hc, if_pos (hp.2 hc)]
    exact h₁ hc
  · rw [if_neg hc, if_neg (mt hp.1 hc)]
    exact h₂ hc

section
variable {o inp inp' rest : List Byte} {d e : DuCtx} (h : Follows o inp inp' rest d e) (hfull : Refilled e inp')
include h hfull

/-- A step that waits for `n` bits, and then reads them. -/
theorem need_agrees {n : Nat} {k : DuCtx → Stepped} (hn : n ≤ 24)
    (hk : n ≤ d.nbits → n ≤ e.nbits → peek n e = peek n d → Follows o inp inp' rest (eat n d) (eat n e) →
      Agrees o inp inp' rest d e (k d) (k e)) : Agrees o inp inp' rest d e (need n d k) (need n e k) := by
  obtain hlt | hle := Nat.lt_or_ge d.nbits n
  · rw [need_of_lt hlt]
    exact .suspended fun _ hnbits => need_of_lt (by rwa [hnbits])
  · have hle' := h.le_nbits hfull hn hle
    obtain ⟨hpeek, heat⟩ := h.eat hle hle'
    rw [need_of_le hle, need_of_le hle']
    exact hk hle hle' hpeek heat

/-- A step that looks a symbol up, and then consumes its code. -/
theorem lookup_agrees (t : Table) {k : Nat → DuCtx → Stepped}
    (hk : ∀ s l, Follows o inp inp' rest (eat l d) (eat l e) →
      Agrees o inp inp' rest d e (k s (eat l d)) (k s (eat l e))) :
    Agrees o inp inp' rest d e
      (match lookup t d.bits.toNat d.nbits with
        | .more => .suspended d
        | .bad => .raised .table d
        | .sym s l => k s (eat l d))
      (match lookup t e.bits.toNat e.nbits with
        | .more => .suspended e
        | .bad => .raised .table e
        | .sym s l => k s (eat l e)) := by
  by_cases hmore : lookup t d.bits.toNat d.nbits = .more
  · rw [hmore]
    exact .suspended fun hbits hnbits => by rw [hbits, hnbits, hmore]
  · have hsame := h.lookup hfull t hmore
    rw [hsame]
    cases hl : lookup t d.bits.toNat d.nbits with
    | more => exact absurd hl hmore
    | bad => exact .raised h.out
    | sym s l =>
      obtain ⟨-, -, hle, -⟩ := lookup_sym hl
      obtain ⟨-, -, hle', -⟩ := lookup_sym (hsame.trans hl)
      exact hk s l (h.eat hle hle').2

end

section
variable {o inp inp' rest : List Byte} {d e c c' : DuCtx} (h : Follows o inp inp' rest c c')
include h

theorem startBlock_agrees (f : Bool) (t : Nat) :
    Agrees o inp inp' rest d e (startBlock f t c) (startBlock f t c') := by
  have hlast : Follows o inp inp' rest (setDLastBlock f c) (setDLastBlock f c') :=
    h.map {}
  unfold startBlock
  dsimp only
  split_ifs
  · exact .completed (hlast.align.map (blind_setState _))
  · exact .completed (hlast.map (f := fun d => { d with cur := false, state := .inBlk }) {})
  · exact .completed (hlast.map (blind_setState _))
  · exact .raised hlast.out

theorem selectRepeat_agrees (s : Nat) : Agrees o inp inp' rest d e (selectRepeat s c) (selectRepeat s c') :=
  ite_agrees (h.reg fun c => s = 16 ∧ c.lenPtr = 0).to_iff (fun _ => .raised h.out) fun _ =>
    .completed (h.map (f := repeatSelected s) {})

theorem buildMainTables_agrees : Agrees o inp inp' rest d e (buildMainTables c) (buildMainTables c') := by
  have hll : mkTable (c'.lengths.take c'.hlit) = mkTable (c.lengths.take c.hlit) :=
    h.reg fun c => mkTable (c.lengths.take c.hlit)
  have hdt : mkTable ((c'.lengths.drop c'.hlit).take c'.hdist) = mkTable ((c.lengths.drop c.hlit).take c.hdist) :=
    h.reg fun c => mkTable ((c.lengths.drop c.hlit).take c.hdist)
  unfold buildMainTables
  rw [hll, hdt]
  split
  · exact .raised h.out
  · next ll _ =>
    split
    · exact .raised h.out
    · next dt _ =>
      exact .completed (h.map
        (f := fun d => { d with tabLL := some ll, tabD := some dt, tabCL := none, cur := true, state := .inBlk }) {})

theorem buildCodeLenTable_agrees :
    Agrees o inp inp' rest d e (buildCodeLenTable c) (buildCodeLenTable c') := by
  have htable : mkTable c'.lenLen = mkTable c.lenLen := h.reg fun c => mkTable c.lenLen
  unfold buildCodeLenTable
  rw [htable]
  split
  · exact .raised h.out
  · next t _ =>
    exact .completed (h.map (f := fun c => { c with
      tabCL := some t, lenPtr := 0, lengths := List.replicate (Config.nLL + Config.nDist) 0, state := .treesLen }) {})

theorem compareAdler_agrees : Agrees o inp inp' rest d e (compareAdler c) (compareAdler c') :=
  ite_agrees (h.reg fun c => c.adlerGot = c.adler).to_iff (fun _ => .completed (h.map (blind_setState _)))
    fun _ => .raised h.out

theorem finishRepeat_agrees (x : Nat) (hle : c.lenExtraBits ≤ c.nbits) (hle' : c.lenExtraBits ≤ c'.nbits) :
    Agrees o inp inp' rest d e (finishRepeat x c) (finishRepeat x c') := by
  have heat := (h.eat hle hle').2
  unfold finishRepeat
  rw [h.reg DuCtx.lenExtraBits, h.reg DuCtx.lenAddOn]
  exact ite_agrees (heat.reg fun d => d.hlit + d.hdist < d.lenPtr + (c.lenAddOn + x)).to_iff
    (fun _ => .raised heat.out) fun _ => .completed ((heat.map (blind_writeRepeats _)).map (blind_setState _))

theorem finishLength_follows (x : Nat) (hle : lengthExtra c.sym ≤ c.nbits) (hle' : lengthExtra c.sym ≤ c'.nbits) :
    Follows o inp inp' rest (finishLength x c) (finishLength x c') := by
  have heat := (h.eat hle hle').2
  unfold finishLength
  rw [h.reg DuCtx.sym]
  generalize matchLength c.sym x = len, lengthExtra c.sym = n at heat ⊢
  exact heat.map (f := fun c => { c with len := len, state := .gotLen })
    {}

theorem finishDistance_agrees (x : Nat) (hle : distanceExtra c.sym ≤ c.nbits) (hle' : distanceExtra c.sym ≤ c'.nbits) :
    Agrees o inp inp' rest d e (finishDistance x c) (finishDistance x c') := by
  have heat := (h.eat hle hle').2
  unfold finishDistance
  rw [h.reg DuCtx.sym]
  exact ite_agrees (heat.reg fun d => d.produced < matchDistance c.sym x).to_iff
    (fun _ => .raised heat.out) fun _ => .completed ((heat.map (blind_copyLen _)).map (blind_setState _))

end

section
variable {o inp inp' rest : List Byte} {d e : DuCtx} (h : Follows o inp inp' rest d e) (hfull : Refilled e inp')
include h hfull

theorem stepStart_agrees : Agrees o inp inp' rest d e (stepStart d) (stepStart e) := by
  refine need_agrees h hfull (by decide) fun _ _ hpeek heat => ?_
  rw [hpeek]
  split
  · exact .completed (heat.map (blind_setState _))
  · exact .raised heat.out

theorem stepOutsideBlk_agrees : Agrees o inp inp' rest d e (stepOutsideBlk d) (stepOutsideBlk e) := by
  refine need_agrees h hfull (by decide) fun _ _ hpeek heat => ?_
  rw [hpeek]
  exact startBlock_agrees heat _ _

theorem stepUncompLen_agrees : Agrees o inp inp' rest d e (stepUncompLen d) (stepUncompLen e) := by
  refine need_agrees h hfull (by decide) fun _ _ hpeek heat => ?_
  rw [hpeek]
  exact .completed (heat.map (f := fun c => { c with uncompLen := peek 16 d, state := .uncompNlen }) {})

theorem stepUncompNlen_agrees : Agrees o inp inp' rest d e (stepUncompNlen d) (stepUncompNlen e) := by
  refine need_agrees h hfull (by decide) fun _ _ hpeek heat => ?_
  rw [hpeek]
  exact ite_agrees (h.reg fun c => peek 16 d ≠ c.uncompLen ^^^ 0xFFFF).to_iff (fun _ => .raised heat.out) fun _ =>
    ite_agrees (h.reg fun c => c.uncompLen = 0).to_iff (fun _ => .completed (heat.map blind_blockEnd)) fun _ =>
      .completed (heat.map (blind_setState _))

theorem stepUncompData_agrees : Agrees o inp inp' rest d e (stepUncompData d) (stepUncompData e) := by
  refine need_agrees h hfull (by decide) fun _ _ hpeek heat => ?_
  rw [hpeek]
  exact .completed ((heat.map (blind_outByte _)).map (f := countUncomp) blind_countUncomp)

theorem stepInBlk_agrees : Agrees o inp inp' rest d e (stepInBlk d) (stepInBlk e) := by
  unfold stepInBlk
  rw [h.reg litLenTable]
  refine lookup_agrees h hfull (litLenTable d) (k := fun s c => if s < 256 then .completed (outByte (BitVec.ofNat 8 s) c)
    else if s = 256 then .completed (blockEnd c) else if s < Config.nLL then .completed (selectLength s c)
    else .raised .table c) fun s l heat => ?_
  split_ifs
  · exact .completed (heat.map (blind_outByte _))
  · exact .completed (heat.map blind_blockEnd)
  · exact .completed (heat.map (f := selectLength s) {})
  · exact .raised heat.out

theorem stepTreesHdr_agrees : Agrees o inp inp' rest d e (stepTreesHdr d) (stepTreesHdr e) := by
  refine need_agrees h hfull (by decide) fun _ _ hpeek heat => ?_
  rw [hpeek]
  dsimp only
  split
  · exact .raised heat.out
  · exact .completed (heat.map (f := fun c => { c with
      hlit := 257 + peek 14 d % 32, hdist := 1 + peek 14 d / 32 % 32, hclen := 4 + peek 14 d / 1024, lenPtr := 0
      lenLen := List.replicate Config.nCL 0, state := .treesLenLen }) {})

/-- A code length of the code-length alphabet is read (R309). -/
def lenLenRead (v : Nat) (d : DuCtx) : DuCtx :=
  { d with lenLen := d.lenLen.set (clOrder.getD d.lenPtr 0) v, lenPtr := d.lenPtr + 1 }

theorem stepTreesLenLen_agrees : Agrees o inp inp' rest d e (stepTreesLenLen d) (stepTreesLenLen e) := by
  refine need_agrees h hfull (by decide) fun _ _ hpeek heat => ?_
  rw [hpeek]
  generalize peek 3 d = v
  have hread := heat.map (f := lenLenRead v) {}
  exact ite_agrees (hread.reg fun c => c.lenPtr = c.hclen).to_iff (fun _ => buildCodeLenTable_agrees hread) fun _ =>
    .completed hread

theorem stepTreesLen_agrees : Agrees o inp inp' rest d e (stepTreesLen d) (stepTreesLen e) := by
  unfold stepTreesLen
  rw [h.reg lengthsDone, h.reg codeLenTable]
  split
  · exact buildMainTables_agrees h
  · exact lookup_agrees h hfull (codeLenTable d)
      (k := fun s c => if s < 16 then .completed (writeLength s c) else selectRepeat s c) fun s l heat =>
        ite_agrees Iff.rfl (fun _ => .completed (heat.map (blind_writeLength _))) fun _ => selectRepeat_agrees heat s

theorem stepTreesLenRep_agrees (hx : d.lenExtraBits ≤ 7) :
    Agrees o inp inp' rest d e (stepTreesLenRep d) (stepTreesLenRep e) := by
  unfold stepTreesLenRep
  rw [h.reg DuCtx.lenExtraBits]
  refine need_agrees h hfull (Nat.le_trans hx (by decide)) fun hle hle' hpeek _ => ?_
  rw [h.reg DuCtx.lenExtraBits, hpeek]
  exact finishRepeat_agrees h _ hle hle'

theorem stepGotLenSym_agrees : Agrees o inp inp' rest d e (stepGotLenSym d) (stepGotLenSym e) := by
  unfold stepGotLenSym
  rw [h.reg DuCtx.sym]
  refine need_agrees h hfull (Nat.le_trans (lengthExtra_le _) (by decide)) fun hle hle' hpeek _ => ?_
  rw [h.reg DuCtx.sym, hpeek]
  exact .completed (finishLength_follows h _ hle hle')

theorem stepGotLen_agrees : Agrees o inp inp' rest d e (stepGotLen d) (stepGotLen e) := by
  unfold stepGotLen
  rw [h.reg distTable]
  exact lookup_agrees h hfull (distTable d)
    (k := fun s c => if Config.nDist ≤ s then .raised .table c else .completed (selectDistance s c)) fun s l heat =>
      ite_agrees Iff.rfl (fun _ => .raised heat.out) fun _ =>
        .completed (heat.map (f := selectDistance s) {})

theorem stepGotDistSym_agrees : Agrees o inp inp' rest d e (stepGotDistSym d) (stepGotDistSym e) := by
  unfold stepGotDistSym
  rw [h.reg DuCtx.sym]
  refine need_agrees h hfull (Nat.le_trans (distanceExtra_le _) (by decide)) fun hle hle' hpeek _ => ?_
  rw [h.reg DuCtx.sym, hpeek]
  exact finishDistance_agrees h _ hle hle'

omit hfull in
theorem stepFinish_agrees : Agrees o inp inp' rest d e (stepFinish d) (stepFinish e) := by
  unfold stepFinish
  rw [h.reg DuCtx.mode]
  split
  · exact .completed (h.align.map (blind_setState _))
  · exact .completed (h.map (blind_setState _))

theorem stepAdler1_agrees : Agrees o inp inp' rest d e (stepAdler1 d) (stepAdler1 e) := by
  refine need_agrees h hfull (by decide) fun _ _ hpeek heat => ?_
  rw [hpeek]
  dsimp only
  generalize BitVec.ofNat 32 _ = got
  exact .completed (heat.map (f := fun c => { c with adlerGot := got, state := .adler2 }) {})

theorem stepAdler2_agrees : Agrees o inp inp' rest d e (stepAdler2 d) (stepAdler2 e) := by
  rw [stepAdler2_eq, stepAdler2_eq]
  refine need_agrees h hfull (by decide) fun _ _ hpeek heat => ?_
  rw [hpeek]
  exact compareAdler_agrees (heat.map (blind_lowerRead _))

/-- Every step but that of FINALSPIN, which reads no stream. -/
theorem automatonStep_agrees (hx : d.lenExtraBits ≤ 7) (hspin : d.state ≠ .finalSpin) :
    Agrees o inp inp' rest d e (automatonStep d) (automatonStep e) := by
  unfold automatonStep
  rw [h.reg DuCtx.state]
  cases hs : d.state with
  | start => exact stepStart_agrees h hfull
  | outsideBlk => exact stepOutsideBlk_agrees h hfull
  | uncompLen => exact stepUncompLen_agrees h hfull
  | uncompNlen => exact stepUncompNlen_agrees h hfull
  | uncompData => exact stepUncompData_agrees h hfull
  | inBlk => exact stepInBlk_agrees h hfull
  | treesHdr => exact stepTreesHdr_agrees h hfull
  | treesLenLen => exact stepTreesLenLen_agrees h hfull
  | treesLen => exact stepTreesLen_agrees h hfull
  | treesLenRep => exact stepTreesLenRep_agrees h hfull hx
  | gotLenSym => exact stepGotLenSym_agrees h hfull
  | gotLen => exact stepGotLen_agrees h hfull
  | gotDistSym => exact stepGotDistSym_agrees h hfull
  | finish => exact stepFinish_agrees h
  | adler1 => exact stepAdler1_agrees h hfull
  | adler2 => exact stepAdler2_agrees h hfull
  | finalSpin => exact absurd hs hspin

end

end Sys2Proof.Proofs
end

