-- ==== Sys2Proof/Proofs/SplitFeeds.lean ====
section
/-! PROOFS. D_FEED always answers, and its answers do not depend on how the stream is split into feeds (46_decompress.md
R323, R324, 40_bitio.md R152). -/

namespace Sys2Proof.Proofs

open Sys2Proof.Machine Sys2Proof.Laws

/-! ## Two runs of the loop -/

/-- How the loop from a context that follows another ends (result `r'`), when the loop from the other has ended: with the
same error after the same output; waiting for bits, which may still come in `rest`; or in FINALSPIN. -/
inductive RunsAgree (o rest : List Byte) : Stepped → Stepped → Prop
  | raised {er : Err} {d' e' : DuCtx} (hout : e'.out = o ++ d'.out) :
      RunsAgree o rest (.raised er d') (.raised er e')
  | waits {d' e : DuCtx} {inp' : List Byte} {fuel : Nat} {r' : Stepped} (hnext : Follows o [] inp' rest d' e)
      (hruns : DuRuns e) (hloop : feedLoop fuel e inp' = some r') (hend : rest = [] → r' = .suspended (addOut o d')) :
      RunsAgree o rest (.suspended d') r'
  | spins {d' : DuCtx} (hspin : d'.state = .finalSpin) (hempty : discardAll d' = d') :
      RunsAgree o rest (.suspended d') (.suspended (addOut o d'))

theorem eq_of_discardAll {d e : DuCtx} (h : discardAll d = discardAll e) (hb : d.bits = e.bits)
    (hn : d.nbits = e.nbits) : d = e := by
  have hd : d = { discardAll d with bits := d.bits, nbits := d.nbits } := rfl
  rw [hd, h, hb, hn]
  rfl

/-- Without buffered bits the accumulator is empty. -/
theorem discardAll_of_nbits {d : DuCtx} (hclean : d.bits.toNat < 2 ^ d.nbits) (hn : d.nbits = 0) : discardAll d = d := by
  rw [hn] at hclean
  exact eq_of_discardAll rfl (BitVec.eq_of_toNat_eq (Nat.lt_one_iff.1 hclean)).symm hn.symm

/-- FINALSPIN discards all input (46_decompress.md R318). -/
theorem feedLoop_discards {fuel : Nat} {d : DuCtx} {inp : List Byte} {r : Stepped} (h : DuRuns d)
    (hs : d.state = .finalSpin) (hl : feedLoop fuel d inp = some r) : r = .suspended (discardAll d) := by
  obtain ⟨d', rfl, hsame, hn⟩ := feedLoop_finalSpin hs hl
  cases feedLoop_safe h hl with
  | suspended hruns => rw [← hsame, discardAll_of_nbits (d := d') hruns.regs.bits hn]

section
variable {o inp inp' rest : List Byte} {d e : DuCtx}

theorem follows_refill (h : Follows o inp inp' rest d e) :
    Follows o (refill d inp).2 (refill e inp').2 rest (refill d inp).1 (refill e inp').1 := by
  obtain ⟨-, hsame, hclean, hup⟩ := refill_reads (Reads.mk h.clean rfl)
  obtain ⟨-, hsame', hclean', hup'⟩ := refill_reads (Reads.mk h.clean' rfl)
  refine ⟨?_, hclean, hclean', by rw [hup, hup', h.upcoming]⟩
  rw [hsame', h.same]
  exact (congrArg (addOut o) hsame).symm

/-- With the whole stream in both accumulators the contexts differ in the output only. -/
theorem Follows.eq_addOut (h : Follows o [] [] [] d e) : e = addOut o d := by
  have hn : e.nbits = d.nbits := h.lengths
  have hup := h.upcoming
  rw [DuCtx.upcoming, DuCtx.upcoming, List.append_assoc] at hup
  have hbits := eq_add_of_bitsOf_append h.clean hn.ge hup.symm
  have hlt := h.clean'
  rw [hn] at hlt
  rw [Nat.div_eq_of_lt hlt, Nat.mul_zero, Nat.add_zero] at hbits
  exact eq_of_discardAll h.same (BitVec.eq_of_toNat_eq hbits) hn

/-- A step that suspends elsewhere than in FINALSPIN waits for more bits than are buffered. -/
theorem waits_of_suspended {d' : DuCtx} (hx : d.lenExtraBits ≤ 7) (hspin : d.state ≠ .finalSpin)
    (h : automatonStep d = .suspended d') : d' = d ∧ d.nbits < 24 := by
  have hsteps := automatonStep_stepsFrom d
  have hfew := automatonStep_suspended hx h
  rw [h] at hsteps
  cases hsteps with
  | spins hs => exact absurd hs hspin
  | waits =>
    refine ⟨rfl, ?_⟩
    obtain ⟨-, hlt⟩ | hempty := hfew
    · exact hlt
    · rw [hempty]
      exact Nat.succ_pos 23

theorem Follows.reads (h : Follows o inp inp' rest d e) : Reads d inp (d.upcoming inp) := ⟨h.clean, rfl⟩

theorem Follows.reads' (h : Follows o inp inp' rest d e) : Reads e inp' (e.upcoming inp') := ⟨h.clean', rfl⟩

/-- The first run waits for bits: its input is used up, and without more bytes the other run waits too. -/
theorem feedLoop_follows_waits {fuel : Nat} {d' : DuCtx} {r : Stepped} (h : Follows o inp inp' rest d e)
    (hd : DuRuns d) (he : DuRuns e) (hspin : d.state ≠ .finalSpin)
    (hstep : automatonStep (refill d inp).1 = .suspended d') (hl : feedLoop (fuel + 1) e inp' = some r) :
    (refill d inp).2 = [] ∧ RunsAgree o rest (.suspended d') r := by
  obtain ⟨hfull, hsame, hclean, hup⟩ := refill_reads h.reads
  have hx : (refill d inp).1.lenExtraBits ≤ 7 := (refill_runs inp hd).regs.lenExtraBits
  have hspin₁ : (refill d inp).1.state ≠ .finalSpin := fun hs => hspin ((congrArg DuCtx.state hsame).symm.trans hs)
  obtain ⟨rfl, hfew⟩ := waits_of_suspended hx hspin₁ hstep
  have hempty : (refill d inp).2 = [] := hfull.resolve_left (Nat.not_le_of_lt hfew)
  rw [hempty] at hup
  refine ⟨hempty, .waits ⟨h.same.trans (congrArg (addOut o) hsame.symm), hclean, h.clean', ?_⟩ he hl ?_⟩
  · rw [h.upcoming, hup]
  · rintro rfl
    have hf := follows_refill h
    have hfull' := (refill_reads h.reads').1
    have hagree := automatonStep_agrees hf hfull' hx hspin₁
    rw [hempty] at hf
    have hlen := hf.lengths
    rw [List.length_nil] at hlen
    have hempty' : (refill e inp').2 = [] := hfull'.resolve_left (by omega)
    rw [hempty'] at hf
    have heq := hf.eq_addOut
    rw [hstep] at hagree
    cases hagree with
    | suspended hsuspend =>
      rw [feedLoop, hsuspend (by rw [heq]; rfl) (by rw [heq]; rfl), hempty', heq] at hl
      exact (Option.some.inj hl).symm

/-- The two runs of the loop. -/
theorem feedLoop_follows {fuel fuel' : Nat} {r r' : Stepped} (h : Follows o inp inp' rest d e) (hd : DuRuns d)
    (he : DuRuns e) (hl : feedLoop fuel d inp = some r) (hl' : feedLoop fuel' e inp' = some r') :
    RunsAgree o rest r r' := by
  induction fuel generalizing d inp e inp' fuel' with
  | zero => cases hl
  | succ fuel ih =>
    by_cases hspin : d.state = .finalSpin
    · have hspin' : e.state = .finalSpin := (h.reg DuCtx.state).trans hspin
      rw [feedLoop_discards hd hspin hl, feedLoop_discards he hspin' hl', h.same]
      exact .spins hspin rfl
    · cases fuel' with
      | zero => cases hl'
      | succ fuel' =>
        have hd₁ := refill_runs inp hd
        have hsafe := automatonStep_safe hd₁
        have hsafe' := automatonStep_safe (refill_runs inp' he)
        have hsame := (refill_reads h.reads).2.1
        have hagree := automatonStep_agrees (follows_refill h) (refill_reads h.reads').1 hd₁.regs.lenExtraBits
          fun hs => hspin ((congrArg DuCtx.state hsame).symm.trans hs)
        generalize hstep' : automatonStep (refill e inp').1 = q' at hagree hsafe'
        cases hstep : automatonStep (refill d inp).1 with
        | suspended d' =>
          obtain ⟨hempty, hruns⟩ := feedLoop_follows_waits h hd he hspin hstep hl'
          rw [feedLoop, hstep, hempty] at hl
          cases hl
          exact hruns
        | raised er d' =>
          rw [hstep] at hagree
          cases hagree with
          | raised hout =>
            rw [feedLoop, hstep] at hl
            rw [feedLoop, hstep'] at hl'
            cases hl
            cases hl'
            exact .raised hout
        | completed d' =>
          rw [hstep] at hagree hsafe
          cases hagree with
          | completed hnext =>
            rw [feedLoop, hstep] at hl
            rw [feedLoop, hstep'] at hl'
            cases hsafe with
            | completed hd₂ => cases hsafe' with
              | completed he₂ => exact ih hnext hd₂ he₂ hl hl'

end

/-! ## The commands -/

/-- How the loop ends: suspended, or with an error; in the mode it began in. -/
theorem feedLoop_end {fuel : Nat} {d : DuCtx} {inp : List Byte} {r : Stepped} (hl : feedLoop fuel d inp = some r) :
    (∃ d', r = .suspended d' ∧ d'.mode = d.mode ∧ d'.state ≠ .finish) ∨
      ∃ e d', r = .raised e d' ∧ d'.mode = d.mode := by
  induction fuel generalizing d inp with
  | zero => cases hl
  | succ fuel ih =>
    have hmode : (refill d inp).1.mode = d.mode := by
      obtain ⟨taken, b, -, heq, -⟩ := refill_spec d inp
      rw [heq]
    have hsteps := automatonStep_stepsFrom (refill d inp).1
    rw [feedLoop] at hl
    rw [← hmode]
    generalize automatonStep (refill d inp).1 = q at hl hsteps
    cases hsteps with
    | waits _ hfinish =>
      dsimp only at hl
      split at hl
      · exact .inl ⟨_, (Option.some.inj hl).symm, rfl, hfinish⟩
      · exact ih hl
    | spins hspin =>
      dsimp only at hl
      split at hl
      · exact .inl ⟨_, (Option.some.inj hl).symm, rfl, fun hs => nomatch hspin.symm.trans hs⟩
      · exact ih (d := discardAll _) hl
    | completes _ hkept _ =>
      rw [← hkept]
      exact ih hl
    | raises _ hkept _ => exact .inr ⟨_, _, (Option.some.inj hl).symm, hkept⟩

/-- The context as the end of the loop leaves it, with the error latched that the loop has raised. -/
def ending : Stepped → DuCtx
  | .suspended d => d
  | .completed d => d
  | .raised e d => latchError e d

/-- The context when its output has been returned. -/
def returned (d : DuCtx) : DuCtx := { d with out := [] }

theorem exec_dFeed_answers {s : State} {d : DuCtx} {data : List Byte} {r : Stepped} (hd : s.du = some d)
    (hok : d.err = .ok) (hr : runFeed data d = some r) : exec (.dFeed data) s = .next (returnDu (ending r) s) := by
  have hexec : exec (.dFeed data) s = _ := execDFeed_accepted data hd hok
  rw [hexec, hr]
  cases r <;> rfl

theorem exec_dFeed_refused {s : State} {d : DuCtx} (data : List Byte) (hd : s.du = some d) (herr : d.err ≠ .ok) :
    exec (.dFeed data) s = .next (answer (.du [] d.err) s) := by
  have hexec : exec (.dFeed data) s = execDFeed data s := rfl
  rw [hexec, execDFeed, hd]
  dsimp only
  rw [if_pos (inError_eq_true.2 herr), refuseDu, hd]

theorem returned_runs {d : DuCtx} (h : DuRuns d) : DuRuns (returned d) :=
  ⟨h.ok, { h.regs with live := nofun }, h.live⟩

theorem addOut_returned (d : DuCtx) : addOut d.out (returned d) = d := by
  simp only [addOut, returned, List.append_nil]

/-- A context follows itself with its output taken away. -/
theorem follows_returned {d : DuCtx} (h : DuRuns d) (data : List Byte) :
    Follows d.out data data [] (returned d) d where
  same := by rw [addOut_returned]
  clean := h.regs.bits
  clean' := h.regs.bits
  upcoming := (List.append_nil _).symm

theorem RunsAgree.answers {o : List Byte} {r r' : Stepped} (h : RunsAgree o [] r r') (hsafe : Safe r) :
    (ending r').out = o ++ (ending r).out ∧ (ending r').err = (ending r).err ∧
      ((ending r).err = .ok → returned (ending r') = returned (ending r)) := by
  cases h with
  | raised hout => cases hsafe with | raised hne => exact ⟨hout, rfl, fun hok => absurd hok hne⟩
  | waits _ _ _ hend =>
    rw [hend rfl]
    exact ⟨rfl, rfl, fun _ => rfl⟩
  | spins => exact ⟨rfl, rfl, fun _ => rfl⟩

/-- Settles O21: the loop ends, and does the same from the context without its output. -/
theorem dFeedAlwaysAnswers : Obligations.DFeedAlwaysAnswers := by
  unfold Obligations.DFeedAlwaysAnswers
  intro s d data hd hinv hok
  have hruns := duRuns_of_inv hinv hok
  obtain ⟨r, hr⟩ := runFeed_ends data hruns
  obtain ⟨r₀, hr₀⟩ := runFeed_ends data (returned_runs hruns)
  have hagree := feedLoop_follows (follows_returned hruns data) (returned_runs hruns) hruns hr₀ hr
  obtain ⟨hout, -, -⟩ := hagree.answers (runFeed_safe (returned_runs hruns) hr₀)
  refine ⟨returned (ending r), (ending r₀).out, ?_, rfl, ?_⟩
  · rw [exec_dFeed_answers hd hok hr, ← hout]
    rfl
  · obtain ⟨d', rfl, hmode, hfinish⟩ | ⟨e, d', rfl, hmode⟩ := feedLoop_end hr
    · exact ⟨hmode, fun _ => hfinish⟩
    · cases runFeed_safe hruns hr with | raised hne => exact ⟨hmode, fun herr => absurd herr hne⟩

/-- The feed after one that has not raised goes on as one feed of both would. -/
theorem runsAgree_next {d : DuCtx} {b : List Byte} {r r' : Stepped} (h : RunsAgree [] b (.suspended d) r')
    (hd : DuRuns d) (hr : runFeed b (returned d) = some r) : RunsAgree d.out [] r r' := by
  cases h with
  | waits hnext hruns hloop hend =>
    refine feedLoop_follows (d := returned d) ⟨?_, hnext.clean, hnext.clean', ?_⟩ (returned_runs hd) hruns hr hloop
    · rw [addOut_returned]
      exact hnext.same
    · have hleft : d.upcoming [] = bitsOf d.nbits d.bits.toNat := List.append_nil _
      rw [hnext.upcoming, hleft]
      exact (List.append_nil _).symm
  | spins hspin hempty =>
    have hreturned : discardAll (returned d) = returned d := congrArg returned hempty
    have hsame : addOut [] d = addOut d.out (returned d) := (addOut_returned d).symm
    rw [feedLoop_discards (returned_runs hd) hspin hr, hreturned, hsame]
    exact .spins hspin hreturned

/-- Settles O22: the feed of both inputs follows the first feed to its end, and from there the second one. -/
theorem feedingIsIndependentOfTheSplit : Obligations.FeedingIsIndependentOfTheSplit := by
  unfold Obligations.FeedingIsIndependentOfTheSplit
  intro s d a b hd hinv hok
  have hruns := duRuns_of_inv hinv hok
  obtain ⟨r, hr⟩ := runFeed_ends a hruns
  obtain ⟨r', hr'⟩ := runFeed_ends (a ++ b) hruns
  have hfollows : Follows [] a (a ++ b) b d d := ⟨rfl, hinv.bits, hinv.bits, by
    rw [DuCtx.upcoming, DuCtx.upcoming, byteBits_append, List.append_assoc]⟩
  have hagree := feedLoop_follows hfollows hruns hruns hr hr'
  have hsafe := runFeed_safe hruns hr
  have hfirst := exec_dFeed_answers hd hok hr
  have hboth := exec_dFeed_answers hd hok hr'
  obtain ⟨d', rfl, -, -⟩ | ⟨e, d', rfl, -⟩ := feedLoop_end hr
  · cases hsafe with | suspended hd' =>
    obtain ⟨r₂, hr₂⟩ := runFeed_ends b (returned_runs hd')
    obtain ⟨hout, herr, hsame⟩ := (runsAgree_next hagree hd' hr₂).answers (runFeed_safe (returned_runs hd') hr₂)
    refine ⟨_, _, _, _, _, _, _, hfirst, exec_dFeed_answers rfl hd'.ok hr₂, hboth, rfl, rfl, ?_, fun hok => ?_⟩
    · rw [returnDu, hout, herr]
      rfl
    · exact congrArg some (hsame hok)
  · cases hsafe with | raised hne => cases hagree with | raised hout =>
    refine ⟨_, _, _, _, _, _, _, hfirst, exec_dFeed_refused b rfl hne, hboth, rfl, rfl, ?_, fun hok => absurd hok hne⟩
    rw [List.append_nil]
    exact congrArg (fun o => s.replies ++ [Reply.du o e]) hout

end Sys2Proof.Proofs
end

