-- ==== Sys2Proof/Proofs/ElementMeaning.lean ====
section
/-! PROOFS. The meaning of a wire element is what the automaton does on its bits (46_decompress.md R303, R307, R310 to
R314, 47_symbols.md R350). -/

namespace Sys2Proof.Proofs

open Sys2Proof.Machine Sys2Proof.Laws

/-! ## Running the automaton on an element -/

theorem settle_with_du (r : Stepped) (s : State) (d : Option DuCtx) : settle r { s with du := d } = settle r s := by
  cases r <;> rfl

/-- An element runs its effect on the context with its code consumed. -/
theorem onElement_eaten {a : Alphabet} {f : DuCtx → Stepped} {s : State} {d : DuCtx} (n : Nat) (hok : d.err = .ok)
    (ha : expected d = some a) : onElement a f { s with du := some (eat n d) } = .next (settle (f (eat n d)) s) :=
  onElement_next.2 ⟨eat n d, rfl, hok, ha, (settle_with_du ..).symm⟩

/-- One step of the automaton, or two, give `r`. -/
def StepsTo (d : DuCtx) (r : Stepped) : Prop := ∃ k, (k = 1 ∨ k = 2) ∧ automatonSteps k d = r

theorem automatonSteps_one (d : DuCtx) : automatonSteps 1 d = automatonStep d := by
  rw [automatonSteps]
  cases automatonStep d <;> rfl

theorem StepsTo.one {d : DuCtx} {r : Stepped} (h : automatonStep d = r) : StepsTo d r :=
  ⟨1, .inl rfl, (automatonSteps_one d).trans h⟩

theorem StepsTo.two {d d' : DuCtx} {r : Stepped} (h : automatonStep d = .completed d') (h' : automatonStep d' = r) :
    StepsTo d r := by
  refine ⟨2, .inr rfl, ?_⟩
  rw [automatonSteps, h]
  exact (automatonSteps_one d').trans h'

/-- The field behind a code of `l` bits (30_encoding.md R113). -/
theorem peek_eat (n l : Nat) (d : DuCtx) : peek n (eat l d) = d.bits.toNat / 2 ^ l % 2 ^ n := by
  rw [peek, eat_bits, BitVec.toNat_ushiftRight, Nat.shiftRight_eq_div_pow]

theorem decodeSymbol_ok {a : Alphabet} {s l bits nbits : Nat} {e : Decoded}
    (h : decodeSymbol a s l bits nbits = .ok e) : e.codeBits = l ∧ l + extraBitsOf a s ≤ nbits ∧
      symbolInstr a s (bits / 2 ^ l % 2 ^ extraBitsOf a s) = some e.instr := by
  unfold decodeSymbol at h
  split at h
  · cases h
  · next hn =>
    split at h
    · next hi =>
      cases h
      exact ⟨rfl, Nat.le_of_not_lt hn, hi⟩
    · cases h

/-- A symbol that stands whole in D.BITS has been looked up, with its extra field behind it (R106, R107). -/
theorem elementAt_symbol {a : Alphabet} {d : DuCtx} {e : Decoded} (ha : a ≠ .blockHeader)
    (h : elementAt a d = .ok e) : ∃ s, lookup (elementTable d a) d.bits.toNat d.nbits = .sym s e.codeBits ∧
      extraBitsOf a s ≤ (eat e.codeBits d).nbits ∧
      symbolInstr a s (peek (extraBitsOf a s) (eat e.codeBits d)) = some e.instr := by
  unfold elementAt decodeElement at h
  split at h
  · exact absurd rfl ha
  · split at h
    · next s l hl =>
      obtain ⟨rfl, hn, hi⟩ := decodeSymbol_ok h
      exact ⟨s, hl, Nat.le_sub_of_add_le' hn, by rwa [peek_eat]⟩
    · cases h
    · cases h

theorem elementAt_blockHeader {d : DuCtx} {e : Decoded} (h : elementAt .blockHeader d = .ok e) :
    3 ≤ d.nbits ∧ e = ⟨blockInstr (d.bits.toNat % 2 == 1) (d.bits.toNat / 2), 3, 0⟩ := by
  have h : (if d.nbits < 3 then .error .needBits
    else .ok ⟨blockInstr (d.bits.toNat % 2 == 1) (d.bits.toNat / 2), 3, 0⟩ : Except DecodeError Decoded) = .ok e := h
  split at h
  · cases h
  · next hn => exact ⟨Nat.le_of_not_lt hn, (Except.ok.inj h).symm⟩

/-! ## The alphabets -/

section
variable {d : DuCtx}

/-- The effect of a block header is the step of OUTSIDEBLK (R303). -/
theorem blockHeader_step (hs : d.state = .outsideBlk) (hn : 3 ≤ d.nbits) :
    automatonStep d = startBlock (d.bits.toNat % 2 == 1) (d.bits.toNat / 2 % 4) (eat 3 d) := by
  have hflag : d.bits.toNat % 2 ^ 3 % 2 = d.bits.toNat % 2 := by omega
  have htype : d.bits.toNat % 2 ^ 3 / 2 = d.bits.toNat / 2 % 4 := by omega
  have hstep : automatonStep d = stepOutsideBlk d := by rw [automatonStep, hs]
  rw [hstep, stepOutsideBlk, need_of_le hn, peek, hflag, htype]

/-! The steps on an extra field, its width given by the symbol (R311, R312, R314) -/

theorem gotLenSym_step {n : Nat} (hs : d.state = .gotLenSym) (hwidth : lengthExtra d.sym = n) (hn : n ≤ d.nbits) :
    automatonStep d = .completed (finishLength (peek n d) d) := by
  have hstep : automatonStep d = stepGotLenSym d := by rw [automatonStep, hs]
  rw [hstep, stepGotLenSym, need_of_le (hwidth ▸ hn), hwidth]

theorem gotDistSym_step {n : Nat} (hs : d.state = .gotDistSym) (hwidth : distanceExtra d.sym = n) (hn : n ≤ d.nbits) :
    automatonStep d = finishDistance (peek n d) d := by
  have hstep : automatonStep d = stepGotDistSym d := by rw [automatonStep, hs]
  rw [hstep, stepGotDistSym, need_of_le (hwidth ▸ hn), hwidth]

theorem treesLenRep_step {n : Nat} (hs : d.state = .treesLenRep) (hwidth : d.lenExtraBits = n) (hn : n ≤ d.nbits) :
    automatonStep d = finishRepeat (peek n d) d := by
  have hstep : automatonStep d = stepTreesLenRep d := by rw [automatonStep, hs]
  rw [hstep, stepTreesLenRep, need_of_le (hwidth ▸ hn), hwidth]

theorem peek_selectLength (n s : Nat) (d : DuCtx) : peek n (selectLength s d) = peek n d := rfl

theorem litLen_steps {s l : Nat} (hs : d.state = .inBlk) (hl : lookup (litLenTable d) d.bits.toNat d.nbits = .sym s l)
    (hx : extraBitsOf .litLen s ≤ (eat l d).nbits) :
    StepsTo d (litLenEffect s (peek (extraBitsOf .litLen s) (eat l d)) (eat l d)) := by
  have hstep : automatonStep d = stepInBlk d := by rw [automatonStep, hs]
  rw [stepInBlk, hl] at hstep
  dsimp only at hstep
  unfold litLenEffect
  split_ifs at hstep ⊢ with hlit hend hlen
  · exact .one hstep
  · exact .one hstep
  · refine .two hstep ?_
    have hextra : extraBitsOf .litLen s = lengthExtra s := if_pos ⟨by omega, Nat.le_of_lt_succ hlen⟩
    rw [hextra, ← peek_selectLength _ s]
    exact gotLenSym_step (d := selectLength s (eat l d)) rfl rfl (hextra ▸ hx)
  · exact .one hstep

theorem distance_steps {s l : Nat} (hs : d.state = .gotLen)
    (hl : lookup (distTable d) d.bits.toNat d.nbits = .sym s l)
    (hx : extraBitsOf .distance s ≤ (eat l d).nbits) :
    StepsTo d (distEffect s (peek (extraBitsOf .distance s) (eat l d)) (eat l d)) := by
  have hstep : automatonStep d = stepGotLen d := by rw [automatonStep, hs]
  rw [stepGotLen, hl] at hstep
  dsimp only at hstep
  unfold distEffect
  by_cases hlt : s < Config.nDist
  · rw [if_neg (Nat.not_le_of_lt hlt)] at hstep
    rw [if_pos hlt]
    exact .two hstep (gotDistSym_step (d := selectDistance s (eat l d)) rfl rfl hx)
  · rw [if_pos (Nat.le_of_not_lt hlt)] at hstep
    rw [if_neg hlt]
    exact .one hstep

theorem selectRepeat_eq (s : Nat) (d : DuCtx) : selectRepeat s d =
    if s = 16 ∧ d.lenPtr = 0 then .raised .table d else .completed (repeatSelected s d) := rfl

theorem codeLength_steps {s l : Nat} (hs : d.state = .treesLen) (hmore : lengthsDone d = false)
    (hl : lookup (codeLenTable d) d.bits.toNat d.nbits = .sym s l)
    (hx : extraBitsOf .codeLength s ≤ (eat l d).nbits) :
    StepsTo d (codeLenEffect s (peek (extraBitsOf .codeLength s) (eat l d)) (eat l d)) := by
  have hstep : automatonStep d = stepTreesLen d := by rw [automatonStep, hs]
  rw [stepTreesLen, if_neg (Bool.eq_false_iff.1 hmore), hl] at hstep
  dsimp only at hstep
  unfold codeLenEffect
  split_ifs at hstep ⊢ with hval
  · exact .one hstep
  · rw [selectRepeat_eq] at hstep ⊢
    split_ifs at hstep ⊢ with hnone
    · exact .one hstep
    · exact .two hstep (treesLenRep_step (d := repeatSelected s (eat l d)) rfl rfl hx)

end

/-- Settles O39: a symbol without an extra field is one step, and the extra field is another. -/
theorem elementsAgreeWithTheAutomaton : Obligations.ElementsAgreeWithTheAutomaton := by
  unfold Obligations.ElementsAgreeWithTheAutomaton
  rintro s d a e ⟨-, hok, ha⟩ he
  obtain ⟨hs, hmore⟩ := state_of_expected ha
  have runs : ∀ f, (∀ st, exec e.instr st = onElement a f st) →
      StepsTo d (f (eat e.codeBits d)) → ∃ k, (k = 1 ∨ k = 2) ∧
        exec e.instr { s with du := some (eat e.codeBits d) } = .next (settle (automatonSteps k d) s) := by
    rintro f hf ⟨k, hk, hsteps⟩
    exact ⟨k, hk, by rw [hf, hsteps]; exact onElement_eaten e.codeBits hok ha⟩
  cases a with
  | blockHeader =>
    obtain ⟨hn, rfl⟩ := elementAt_blockHeader he
    exact runs _ (exec_blockInstr _ _) (.one (blockHeader_step hs hn))
  | litLen =>
    obtain ⟨sym, hl, hx, hi⟩ := elementAt_symbol (a := .litLen) nofun he
    exact runs _ (exec_litLenInstr hi (peek_lt ..)) (litLen_steps hs hl hx)
  | distance =>
    obtain ⟨sym, hl, hx, hi⟩ := elementAt_symbol (a := .distance) nofun he
    exact runs _ (exec_distInstr hi (peek_lt ..)) (distance_steps hs hl hx)
  | codeLength =>
    obtain ⟨sym, hl, hx, hi⟩ := elementAt_symbol (a := .codeLength) nofun he
    exact runs _ (exec_codeLenInstr hi) (codeLength_steps hs (hmore rfl) hl hx)

end Sys2Proof.Proofs
end

