-- ==== Sys2Proof/Proofs/StoredBlocks.lean ====
section
/-! PROOFS. A D_FEED of one stored block, and of a zlib trailer (46_decompress.md R303 to R306, R315 to R319, R323). -/

namespace Sys2Proof.Proofs

open Sys2Proof.Machine Sys2Proof.Laws

/-! ## From the stream to the answer -/

/-- The states that wait when a stream has been decoded to its end. -/
def restState (st : DState) : Prop := st = .outsideBlk ∨ st = .adler1 ∨ st = .finalSpin

theorem automatonStep_at_rest {d : DuCtx} (hs : restState d.state) (hempty : discardAll d = d) :
    automatonStep d = .suspended d := by
  have hn : d.nbits = 0 := (congrArg DuCtx.nbits hempty).symm
  unfold automatonStep
  obtain hs | hs | hs := hs <;> rw [hs]
  · exact need_of_lt (by omega)
  · exact need_of_lt (by omega)
  · exact congrArg Stepped.suspended hempty

/-- The answer of a D_FEED, by the output and the error at its end. -/
theorem exec_dFeed_returns {s : State} {d d' : DuCtx} {data o : List Byte} {r : Stepped} {e : Err} (hd : s.du = some d)
    (hok : d.err = .ok) (hr : runFeed data d = some r) (hend : ending r = d') (ho : d'.out = o) (he : d'.err = e) :
    exec (.dFeed data) s = .next { s with du := some (returned d'), replies := s.replies ++ [.du o e] } := by
  subst hend ho he
  exact exec_dFeed_answers hd hok hr

section
variable {d c : DuCtx} {data : List Byte} (hd : DuRuns d) (hn : d.nbits = 0)
include hd hn

/-- A D_FEED without buffered bits follows the steps over the bits of its data. -/
theorem runFeed_follows {bs : List Bool} (h : Decodes (d, byteBits data) (c, bs)) :
    ∃ d' inp r fuel, discardAll d' = c ∧ Reads d' inp bs ∧ runFeed data d = some r ∧
      ∀ k, feedLoop (fuel + k) d' inp = some r := by
  have hreads : Reads d data (byteBits data) := ⟨hd.regs.bits, by rw [DuCtx.upcoming, hn]; rfl⟩
  obtain ⟨n, d', inp, hc, hr, hloop⟩ := feedLoop_of_decodes h (discardAll_of_nbits hd.regs.bits hn) hreads
  obtain ⟨r, hrun⟩ := runFeed_ends data hd
  exact ⟨d', inp, r, feedFuel d data, hc, hr, hrun, fun k => by
    rw [← hloop, Nat.add_assoc]
    exact feedLoop_mono hrun⟩

/-- Data decoded to its end leaves the automaton waiting. -/
theorem runFeed_of_decodes (h : Decodes (d, byteBits data) (c, [])) (hs : restState c.state) :
    runFeed data d = some (.suspended c) ∧ c.nbits = 0 := by
  obtain ⟨d', inp, r, fuel, rfl, hr, hrun, hloop⟩ := runFeed_follows hd hn h
  have hlen := congrArg List.length hr.upcoming
  rw [upcoming_length, List.length_nil] at hlen
  obtain rfl : inp = [] := List.eq_nil_of_length_eq_zero (by omega)
  have hempty := discardAll_of_nbits hr.clean (by omega)
  have hstep : feedLoop (fuel + 1) d' [] = some (.suspended d') := by
    rw [feedLoop, show refill d' [] = (d', []) from rfl, automatonStep_at_rest (d := d') hs hempty]
    rfl
  rw [hrun, hempty, ← hloop 1, hstep]
  exact ⟨rfl, by omega⟩

/-- Data decoded up to a step that raises. -/
theorem runFeed_raises {bs : List Bool} {er : Err} (h : Decodes (d, byteBits data) (c, bs))
    (hraise : ∀ e inp, Refilled e inp → discardAll e = c → Reads e inp bs →
      ∃ e', automatonStep e = .raised er e' ∧ e'.out = c.out) :
    ∃ d', runFeed data d = some (.raised er d') ∧ d'.out = c.out := by
  obtain ⟨d', inp, r, fuel, rfl, hr, hrun, hloop⟩ := runFeed_follows hd hn h
  obtain ⟨hfull, hsame, hreads⟩ := refill_reads hr
  obtain ⟨e', hstep, hout⟩ := hraise _ _ hfull hsame hreads
  have hend : feedLoop (fuel + 1) d' inp = some (.raised er e') := by rw [feedLoop, hstep]
  rw [hrun, ← hloop 1, hend]
  exact ⟨e', rfl, hout⟩

end

/-! ## Stored blocks -/

/-- `d'` is in the mode of `d`, after a further output of `x` in the same block. -/
structure HasOutput (x : List Byte) (d d' : DuCtx) : Prop where
  mode : d'.mode = d.mode
  err : d'.err = d.err
  last : d'.lastBlock = d.lastBlock
  out : d'.out = d.out ++ x
  produced : d'.produced = min Config.dWinSize (d.produced + x.length)

theorem HasOutput.trans {x y : List Byte} {d d' d'' : DuCtx} (h : HasOutput x d d') (h' : HasOutput y d' d'') :
    HasOutput (x ++ y) d d'' where
  mode := h'.mode.trans h.mode
  err := h'.err.trans h.err
  last := h'.last.trans h.last
  out := by rw [h'.out, h.out, List.append_assoc]
  produced := by
    rw [h'.produced, h.produced, List.length_append]
    omega

theorem outByte_hasOutput (b : Byte) {d : DuCtx} (hp : d.produced ≤ Config.dWinSize) :
    HasOutput [b] d (outByte b d) where
  mode := rfl
  err := rfl
  last := rfl
  out := rfl
  produced := by
    rw [outByte_produced, List.length_singleton]
    split <;> omega

theorem countUncomp_hasOutput (d : DuCtx) (hp : d.produced ≤ Config.dWinSize) : HasOutput [] d (countUncomp d) := by
  have hproduced : d.produced = min Config.dWinSize (d.produced + 0) := (Nat.min_eq_right hp).symm
  unfold countUncomp
  split <;> exact ⟨rfl, rfl, rfl, (List.append_nil _).symm, hproduced⟩

theorem xor_0xFFFF {n : Nat} (h : n < 2 ^ 16) : n ^^^ 0xFFFF = 2 ^ 16 - 1 - n := by
  have hnot := congrArg BitVec.toNat (BitVec.xor_allOnes (x := BitVec.ofNat 16 n))
  rwa [BitVec.toNat_xor, BitVec.toNat_not, BitVec.toNat_allOnes, BitVec.toNat_ofNat, Nat.mod_eq_of_lt h] at hnot

theorem bitStep_uncompNlen {d : DuCtx} {n : Nat} (hs : d.state = .uncompNlen) (hlen : d.uncompLen = n)
    (hlt : n < 2 ^ 16) (bs : List Bool) :
    BitStep (d, bitsOf 16 (2 ^ 16 - 1 - n) ++ bs) (if n = 0 then blockEnd d else setState .uncompData d, bs) := by
  refine bitStep_field (by decide) (by omega) bs ?_
  rintro e rfl hn hpeek
  have hlen : e.uncompLen = n := hlen
  have hs : automatonStep e = stepUncompNlen e := by rw [automatonStep, show e.state = .uncompNlen from hs]
  rw [hs, stepUncompNlen, need_of_le hn, hpeek, hlen, xor_0xFFFF hlt, if_neg (not_not_intro rfl)]
  split <;> exact ⟨_, rfl, rfl, rfl, rfl⟩

theorem stepUncompData_eq (d : DuCtx) : stepUncompData d =
    need 8 d fun d => .completed (countUncomp (outByte (BitVec.ofNat 8 (peek 8 d)) (eat 8 d))) := rfl

theorem bitStep_uncompData {d : DuCtx} (hs : d.state = .uncompData) (b : Byte) (bs : List Bool) :
    BitStep (d, bitsOf 8 b.toNat ++ bs) (countUncomp (outByte b d), bs) := by
  refine bitStep_field (by decide) b.isLt bs ?_
  rintro e rfl hn hpeek
  have hs : automatonStep e = stepUncompData e := by rw [automatonStep, show e.state = .uncompData from hs]
  rw [hs, stepUncompData_eq, need_of_le hn, hpeek, BitVec.ofNat_toNat, BitVec.setWidth_eq]
  exact ⟨_, rfl, blind_countUncomp.discards _, blind_countUncomp.bits _, blind_countUncomp.nbits _⟩

/-- The bytes of a stored block (R306). -/
theorem decodes_storedBytes {d : DuCtx} {data : List Byte} (hdata : data ≠ []) (hs : d.state = .uncompData)
    (hlen : d.uncompLen = data.length) (hp : d.produced ≤ Config.dWinSize) (bs : List Bool) :
    ∃ d', Decodes (d, byteBits data ++ bs) (d', bs) ∧ HasOutput data d d' ∧ d'.state = afterBlock d.lastBlock := by
  induction data generalizing d with
  | nil => exact absurd rfl hdata
  | cons b data ih =>
    have hstep := bitStep_uncompData hs b (byteBits data ++ bs)
    have hb := outByte_hasOutput b hp
    have hpb : (outByte b d).produced ≤ Config.dWinSize := hb.produced ▸ Nat.min_le_left ..
    have hcount := hb.trans (countUncomp_hasOutput _ hpb)
    have hleft : (outByte b d).uncompLen - 1 = data.length := by
      rw [outByte_uncompLen, hlen, List.length_cons, Nat.add_sub_cancel]
    rw [byteBits_cons, List.append_assoc]
    cases data with
    | nil =>
      have hend : countUncomp (outByte b d) = blockEnd { outByte b d with uncompLen := (outByte b d).uncompLen - 1 } :=
        if_pos hleft
      refine ⟨_, .single hstep, hcount, ?_⟩
      rw [hend]
      rfl
    | cons b' data =>
      have hmore : countUncomp (outByte b d) = { outByte b d with uncompLen := (outByte b d).uncompLen - 1 } :=
        if_neg (by rw [hleft]; exact Nat.succ_ne_zero _)
      obtain ⟨d', hrun, hout, hstate⟩ := ih (d := countUncomp (outByte b d)) nofun (by rw [hmore]; exact hs)
        (by rw [hmore]; exact hleft) (hcount.produced ▸ Nat.min_le_left ..)
      exact ⟨d', .head hstep hrun, hcount.trans hout, hcount.last ▸ hstate⟩

/-- A stored block behind its header (R304 to R306). -/
theorem decodes_storedData {d : DuCtx} {data : List Byte} (hs : d.state = .uncompLen) (hlen : data.length < 2 ^ 16)
    (hp : d.produced ≤ Config.dWinSize) (bs : List Bool) :
    ∃ d',
      Decodes (d, bitsOf 16 data.length ++ (bitsOf 16 (2 ^ 16 - 1 - data.length) ++ (byteBits data ++ bs))) (d', bs) ∧
      HasOutput data d d' ∧ d'.state = afterBlock d.lastBlock := by
  have hlenStep := bitStep_uncompLen hs hlen (bitsOf 16 (2 ^ 16 - 1 - data.length) ++ (byteBits data ++ bs))
  have hnlenStep := bitStep_uncompNlen (n := data.length)
    (d := { d with uncompLen := data.length, state := .uncompNlen }) rfl rfl hlen (byteBits data ++ bs)
  by_cases hdata : data = []
  · rw [if_pos (List.length_eq_zero_iff.2 hdata)] at hnlenStep
    subst hdata
    exact ⟨_, .head hlenStep (.single hnlenStep),
      ⟨rfl, rfl, rfl, (List.append_nil _).symm, (Nat.min_eq_right hp).symm⟩, rfl⟩
  · rw [if_neg (List.length_eq_zero_iff.not.2 hdata)] at hnlenStep
    obtain ⟨d', hrun, hout, hstate⟩ := decodes_storedBytes
      (d := setState .uncompData { d with uncompLen := data.length, state := .uncompNlen }) hdata rfl rfl hp bs
    exact ⟨d', .head hlenStep (.head hnlenStep hrun), { hout with }, hstate⟩

/-- A stored block from its first bit (R303). -/
theorem decodes_storedBlock {d : DuCtx} {data : List Byte} (f : Bool) (hs : d.state = .outsideBlk)
    (hlen : data.length < 2 ^ 16) (hp : d.produced ≤ Config.dWinSize) : ∃ d',
      Decodes (d, [f, false, false] ++ (List.replicate 5 false ++ (bitsOf 16 data.length ++
        (bitsOf 16 (2 ^ 16 - 1 - data.length) ++ byteBits data)))) (d', []) ∧
      HasOutput data (setDLastBlock f d) d' ∧ d'.state = afterBlock f := by
  have hheader := bitStep_storedHeader hs f (pad := List.replicate 5 false) (bs := bitsOf 16 data.length ++
    (bitsOf 16 (2 ^ 16 - 1 - data.length) ++ byteBits data)) (by decide)
    (by simp only [List.length_append, bitsOf_length, byteBits_length]; omega)
  obtain ⟨d', hrun, hout, hstate⟩ := decodes_storedData (d := setState .uncompLen (setDLastBlock f d)) rfl hlen hp []
  rw [List.append_nil] at hrun
  exact ⟨d', .head hheader hrun, { hout with }, hstate⟩

/-- After the last block (R315). -/
theorem decodes_end {d : DuCtx} (hs : d.state = .finish) :
    Decodes (d, []) (setState (if d.mode = .bare then .finalSpin else .adler1) d, []) := by
  cases hm : d.mode with
  | bare => exact .single (bitStep_finish_bare hs hm [])
  | zlib => exact .single (bitStep_finish_zlib hs hm (pad := []) (bs := []) (by decide) rfl)

/-- The bytes of a stored block in the order of the stream (30_encoding.md R104). -/
theorem storedBlock_bits (f : Bool) {n : Nat} (hn : n < 2 ^ 16) (data : List Byte) :
    byteBits ([if f then 1 else 0, BitVec.ofNat 8 n, BitVec.ofNat 8 (n / 256), BitVec.ofNat 8 (255 - n % 256),
      BitVec.ofNat 8 (255 - n / 256)] ++ data) = [f, false, false] ++ (List.replicate 5 false ++ (bitsOf 16 n ++
        (bitsOf 16 (2 ^ 16 - 1 - n) ++ byteBits data))) := by
  have hheader : byteBits [if f then 1 else 0] = [f, false, false] ++ List.replicate 5 false := by
    cases f <;> decide
  have hlen : bytePair (BitVec.ofNat 8 n) (BitVec.ofNat 8 (n / 256)) = n := by
    simp only [bytePair, BitVec.toNat_ofNat]
    omega
  have hnlen : bytePair (BitVec.ofNat 8 (255 - n % 256)) (BitVec.ofNat 8 (255 - n / 256)) = 2 ^ 16 - 1 - n := by
    simp only [bytePair, BitVec.toNat_ofNat]
    omega
  have hlenBits := (bytePair_spec (BitVec.ofNat 8 n) (BitVec.ofNat 8 (n / 256))).1
  have hnlenBits := (bytePair_spec (BitVec.ofNat 8 (255 - n % 256)) (BitVec.ofNat 8 (255 - n / 256))).1
  rw [hlen] at hlenBits
  rw [hnlen] at hnlenBits
  rw [← hlenBits, ← hnlenBits, ← List.append_assoc, ← hheader, ← byteBits_append, ← byteBits_append, ← byteBits_append]
  rfl

/-- Settles O44: the header, the counts and the bytes decode one after another, and after the last block the automaton
leaves END. -/
theorem storedBlockIsCopied : Obligations.StoredBlockIsCopied := by
  unfold Obligations.StoredBlockIsCopied
  intro s d f data hd hinv hok hs hn hlen
  obtain ⟨c, hrun, hout, hstate⟩ := decodes_storedBlock f hs hlen hinv.produced
  rw [← storedBlock_bits f hlen] at hrun
  have hproduced : c.produced ≤ Config.dWinSize := hout.produced ▸ Nat.min_le_left ..
  have hend : ∃ c', Decodes (c, []) (c', []) ∧ HasOutput [] c c' ∧
      c'.state = if f then (if d.mode = .bare then .finalSpin else .adler1) else .outsideBlk := by
    cases f with
    | false =>
      exact ⟨c, .refl, ⟨rfl, rfl, rfl, (List.append_nil _).symm, (Nat.min_eq_right hproduced).symm⟩, hstate⟩
    | true =>
      exact ⟨_, decodes_end hstate, ⟨rfl, rfl, rfl, (List.append_nil _).symm, (Nat.min_eq_right hproduced).symm⟩,
        congrArg (fun m => if m = Mode.bare then DState.finalSpin else .adler1) hout.mode⟩
  obtain ⟨c', hrun', hout', hstate'⟩ := hend
  have hall := hout.trans hout'
  rw [List.append_nil] at hall
  have hrest : restState c'.state := by
    rw [hstate']
    unfold restState
    split_ifs <;> simp
  obtain ⟨hfeed, hempty⟩ := runFeed_of_decodes (duRuns_of_inv hinv hok) hn (hrun.trans hrun') hrest
  have herr : c'.err = .ok := hall.err.trans hok
  exact ⟨returned c', exec_dFeed_returns hd hok hfeed rfl hall.out herr, herr, hall.last, hempty, hall.produced, hstate'⟩

/-! ## The trailer -/

theorem toNat_append_byte {w : Nat} (a : BitVec w) (b : Byte) : (a ++ b).toNat = a.toNat * 2 ^ 8 + b.toNat := by
  rw [BitVec.toNat_append, ← Nat.shiftLeft_add_eq_or_of_lt b.isLt, Nat.shiftLeft_eq]

/-- The checksum register as the four bytes of the trailer give it (R316, R317). -/
theorem adlerGot_eq_append (b₀ b₁ b₂ b₃ : Byte) : BitVec.ofNat 32 (b₀.toNat * 2 ^ 24 + b₁.toNat * 2 ^ 16) |||
    BitVec.ofNat 32 (b₂.toNat * 2 ^ 8 + b₃.toNat) = b₀ ++ b₁ ++ b₂ ++ b₃ := by
  have h₀ := b₀.isLt
  have h₁ := b₁.isLt
  have h₂ := b₂.isLt
  have h₃ := b₃.isLt
  have happend : (b₀ ++ b₁ ++ b₂ ++ b₃ : Word32).toNat =
      ((b₀.toNat * 2 ^ 8 + b₁.toNat) * 2 ^ 8 + b₂.toNat) * 2 ^ 8 + b₃.toNat := by
    rw [toNat_append_byte (b₀ ++ b₁ ++ b₂), toNat_append_byte (b₀ ++ b₁), toNat_append_byte]
  have hor := Nat.two_pow_add_eq_or_of_lt (i := 16) (b := b₂.toNat * 2 ^ 8 + b₃.toNat) (by omega)
    (b₀.toNat * 2 ^ 8 + b₁.toNat)
  apply BitVec.eq_of_toNat_eq
  rw [happend, BitVec.toNat_or, BitVec.toNat_ofNat, BitVec.toNat_ofNat, Nat.mod_eq_of_lt (by omega),
    Nat.mod_eq_of_lt (by omega)]
  convert hor.symm using 1
  · congr 1
    omega
  · omega

/-- ADLER2, the upper half of the trailer's checksum read as `b₀ b₁` (R316). -/
def upperRead (b₀ b₁ : Byte) (d : DuCtx) : DuCtx :=
  { d with adlerGot := BitVec.ofNat 32 (b₀.toNat * 2 ^ 24 + b₁.toNat * 2 ^ 16), state := .adler2 }

theorem bitStep_upperRead {d : DuCtx} (hs : d.state = .adler1) (b₀ b₁ b₂ b₃ : Byte) :
    BitStep (d, byteBits [b₀, b₁, b₂, b₃]) (upperRead b₀ b₁ d, byteBits [b₂, b₃]) := by
  rw [show [b₀, b₁, b₂, b₃] = [b₀, b₁] ++ [b₂, b₃] from rfl, byteBits_append]
  exact bitStep_adler1 hs b₀ b₁ _

/-- ADLER2 compares the checksum that the bytes complete with D.ADLER (R317). -/
theorem stepAdler2_read {c e : DuCtx} {b₂ b₃ : Byte} {inp : List Byte} (hs : c.state = .adler2)
    (he : discardAll e = c) (hfull : Refilled e inp) (hreads : Reads e inp (byteBits [b₂, b₃])) :
    ∃ e', automatonStep e = compareAdler e' ∧ e'.adler = c.adler ∧ e'.out = c.out ∧
      e'.adlerGot = c.adlerGot ||| BitVec.ofNat 32 (b₂.toNat * 2 ^ 8 + b₃.toNat) := by
  subst he
  obtain ⟨hbits, hlt, hlow, hhigh⟩ := bytePair_spec b₂ b₃
  rw [hbits, ← List.append_nil (bitsOf 16 _)] at hreads
  obtain ⟨hn, hpeek, -⟩ := hreads.field hfull (by decide) hlt
  have hs : automatonStep e = stepAdler2 e := by rw [automatonStep, show e.state = .adler2 from hs]
  refine ⟨lowerRead (bytePair b₂ b₃) (eat 16 e), ?_, rfl, rfl, ?_⟩
  · rw [hs, stepAdler2_eq, need_of_le hn, hpeek]
  · rw [lowerRead, hlow, hhigh]
    rfl

/-- Settles O45: ADLER1 reads two bytes, ADLER2 the other two, and compares. -/
theorem trailerIsCompared : Obligations.TrailerIsCompared := by
  unfold Obligations.TrailerIsCompared
  intro s d b₀ b₁ b₂ b₃ hd hinv hok hs hn
  have hregs := duRuns_of_inv hinv hok
  have hhalf := bitStep_upperRead hs b₀ b₁ b₂ b₃
  have hsum := adlerGot_eq_append b₀ b₁ b₂ b₃
  by_cases heq : d.adler = b₀ ++ b₁ ++ b₂ ++ b₃
  · have hlast := bitStep_adler2 (d := upperRead b₀ b₁ d) rfl b₂ b₃ (hsum.trans heq.symm) []
    rw [List.append_nil] at hlast
    obtain ⟨hfeed, -⟩ := runFeed_of_decodes hregs hn (.head hhalf (.single hlast)) (.inr (.inr rfl))
    refine ⟨_, .ok, exec_dFeed_returns hd hok hfeed rfl rfl hok, hok, rfl, fun _ => ⟨rfl, rfl⟩,
      fun hne => absurd heq hne⟩
  · obtain ⟨d', hfeed, hout⟩ := runFeed_raises (er := .checksum) hregs hn (.single hhalf) fun e inp hfull he hreads => by
      obtain ⟨e', hstep, hadler, hout, hgot⟩ := stepAdler2_read rfl he hfull hreads
      have hne : e'.adlerGot ≠ e'.adler := fun h => heq (hadler.symm.trans (h.symm.trans (hgot.trans hsum)))
      exact ⟨e', by rw [hstep, compareAdler, if_neg hne], hout⟩
    refine ⟨_, .checksum, exec_dFeed_returns hd hok hfeed rfl hout rfl, rfl, rfl, fun h => absurd h heq, fun _ => rfl⟩

end Sys2Proof.Proofs
end

