-- ==== Sys2Proof/Proofs/ElementEffects.lean ====
section
/-! PROOFS. The decompressor's commands without data (46_decompress.md R300, R325), and the effects of literals, of
distances too large and of block headers (R303, R320, R322). -/

namespace Sys2Proof.Proofs

open Sys2Proof.Machine Sys2Proof.Laws

/-! ## Commands -/

/-- Settles O10: the context constructed is the fresh one of the mode. -/
theorem newDecompressionContext : Obligations.NewDecompressionContext := by
  unfold Obligations.NewDecompressionContext
  intro i m s hi
  refine ⟨DuCtx.fresh m, ?_, rfl, ?_, ?_, rfl, rfl, rfl, rfl, rfl, rfl, rfl, rfl, rfl, rfl, rfl, rfl, rfl, rfl, rfl, rfl,
    rfl, rfl, rfl, rfl, rfl, rfl, rfl, rfl, rfl⟩
  · obtain ⟨rfl, rfl⟩ | ⟨rfl, rfl⟩ := hi <;> rfl
  · rintro rfl
    rfl
  · rintro rfl
    rfl

section
variable {s : State} {d : DuCtx} (hd : s.du = some d)
include hd

theorem exec_dEof_error (herr : d.err ≠ .ok) : exec .dEof s = .next (answer (.du [] d.err) s) := by
  have hexec : exec .dEof s = execDEof s := rfl
  rw [hexec, execDEof, hd]
  dsimp only
  rw [if_pos (inError_eq_true.2 herr), refuseDu, hd]

theorem exec_dEof_ok (hok : d.err = .ok) : exec .dEof s =
    if d.state = .finalSpin then .next (answer (.du [] .ok) s) else .next (raise .eof d s) := by
  have hexec : exec .dEof s = execDEof s := rfl
  rw [hexec, execDEof, hd]
  dsimp only
  rw [if_neg (Bool.eq_false_iff.1 (inError_eq_false.2 hok)), hok]

end

/-- Settles O24, by the cases of D_EOF. -/
theorem endOfInput : Obligations.EndOfInput := by
  unfold Obligations.EndOfInput
  refine ⟨fun s hd => ?_, fun s d hd herr => exec_dEof_error hd herr, fun s d hd hok hs => ?_,
    fun s d hd hok hout hs => ⟨returned (latchError .eof d), ?_, rfl, rfl⟩⟩
  · obtain ⟨cu, du, inbox, replies⟩ := s
    obtain rfl : du = none := hd
    rfl
  · rw [exec_dEof_ok hd hok, if_pos hs]
    rfl
  · rw [exec_dEof_ok hd hok, if_neg hs, ← hout]
    rfl

/-! ## Elements -/

section
variable {a : Alphabet} {f : DuCtx → Stepped} {s : State} {d d' : DuCtx} (h : ReadyFor s d a)
include h

theorem onElement_ready : onElement a f s = .next (settle (f d) s) := by
  obtain ⟨hd, hok, ha⟩ := h
  exact onElement_next.2 ⟨d, hd, hok, ha, rfl⟩

theorem onElement_completes (hf : f d = .completed d') : onElement a f s = .next { s with du := some d' } := by
  rw [onElement_ready h, hf, settle_completed]

/-- An element that raises answers with the bytes already output. -/
theorem onElement_raises {e : Err} (hf : f d = .raised e d') (hout : d'.out = d.out) : ∃ c, onElement a f s =
    .next { s with du := some c, replies := s.replies ++ [.du d.out e] } ∧ c.err = e ∧ c.out = [] := by
  refine ⟨returned (latchError e d'), ?_, rfl, rfl⟩
  rw [onElement_ready h, hf, settle_raised, ← hout]
  rfl

end

/-- Settles O29: the byte's output, with the window read back by the laws of its memory. -/
theorem literalIsOutput : Obligations.LiteralIsOutput := by
  unfold Obligations.LiteralIsOutput
  intro i b s d hi hready hwf
  have hexec : exec i s = literalElement b s := by obtain rfl | rfl := hi <;> rfl
  refine ⟨winWrite d.win d.winPos b, adlerInMode d.mode d.adler [b], ?_, fun hm => ?_, fun hm => ?_, fun k => ?_⟩
  · exact hexec.trans (onElement_completes hready (f := fun d => .completed (outByte b d)) rfl)
  · rw [hm]
    rfl
  · rw [hm]
    rfl
  · rw [winRead_winWrite _ _ _ hwf]
    exact if_congr eq_comm rfl rfl

/-- The distance symbols, each with its distance (47_symbols.md R385 to R414). -/
theorem exec_of_distanceValue {i : Instr} {sym n dist : Nat} (h : distanceValue i = some (sym, n, dist)) :
    ∃ x, matchDistance sym x = dist ∧ ∀ s, exec i s = distanceElement sym x s := by
  unfold distanceValue at h
  split at h <;> cases h <;> exact ⟨_, by rfl, fun _ => rfl⟩

theorem finishDistance_tooFar {x : Nat} {d : DuCtx} (h : d.produced < matchDistance d.sym x) :
    finishDistance x d = .raised .format (eat (distanceExtra d.sym) d) := if_pos h

/-- Settles O33: the distance is compared with D.PRODUCED before the copy. -/
theorem distanceTooFar : Obligations.DistanceTooFar := by
  unfold Obligations.DistanceTooFar
  intro i sym n dist s d hi _ hready hfar
  obtain ⟨x, rfl, hexec⟩ := exec_of_distanceValue hi
  rw [hexec, distanceElement]
  exact onElement_raises hready (finishDistance_tooFar (d := selectDistance sym d) hfar) rfl

/-- Settles O35, by the four block types. -/
theorem blockHeaders : Obligations.BlockHeaders := by
  unfold Obligations.BlockHeaders
  intro f s d hready
  exact ⟨onElement_completes hready (f := startBlock f 0) rfl, onElement_completes hready (f := startBlock f 1) rfl,
    onElement_completes hready (f := startBlock f 2) rfl, onElement_raises hready (f := startBlock f 3) rfl rfl⟩

end Sys2Proof.Proofs
end

