-- ==== Sys2Proof/Proofs/HeaderSteps.lean ====
section
/-! PROOFS. The zlib header, the header of a dynamic block, the code lengths of its code-length code, and the table build
(46_decompress.md R302, R308 to R310). -/

namespace Sys2Proof.Proofs

open Sys2Proof.Machine Sys2Proof.Laws

theorem zlibHeaderValid_iff (cmf flg : Nat) : zlibHeaderValid cmf flg = true ↔
    cmf % 16 = 8 ∧ cmf / 16 ≤ 7 ∧ flg / 32 % 2 = 0 ∧ (cmf * 256 + flg) % 31 = 0 := by
  simp only [zlibHeaderValid, Bool.and_eq_true, beq_iff_eq, decide_eq_true_eq, and_assoc]

/-- The header of a dynamic block from its 14 bits `v` (R308). -/
def readTreesHdr (v : Nat) (d : DuCtx) : DuCtx :=
  { eat 14 d with hlit := 257 + v % 32, hdist := 1 + v / 32 % 32, hclen := 4 + v / 1024 }

section
variable {d : DuCtx}

/-! ## START -/

theorem start_suspends (hs : d.state = .start) (hn : d.nbits < 16) : automatonStep d = .suspended d := by
  have hstep : automatonStep d = stepStart d := by rw [automatonStep, hs]
  exact hstep.trans (need_of_lt hn)

/-- START with both bytes of the header (R302). -/
theorem start_step (hs : d.state = .start) (hn : 16 ≤ d.nbits) : automatonStep d =
    if zlibHeaderValid (d.bits.toNat % 256) (d.bits.toNat / 256 % 256) then .completed (setState .outsideBlk (eat 16 d))
    else .raised .header (eat 16 d) := by
  have hcmf : peek 16 d % 256 = d.bits.toNat % 256 := by
    rw [peek]
    omega
  have hflg : peek 16 d / 256 = d.bits.toNat / 256 % 256 := by
    rw [peek]
    omega
  have hstep : automatonStep d = stepStart d := by rw [automatonStep, hs]
  rw [hstep, stepStart, need_of_le hn, hcmf, hflg]

/-! ## TREES_HDR -/

theorem treesHdr_suspends (hs : d.state = .treesHdr) (hn : d.nbits < 14) : automatonStep d = .suspended d := by
  have hstep : automatonStep d = stepTreesHdr d := by rw [automatonStep, hs]
  exact hstep.trans (need_of_lt hn)

/-- TREES_HDR with the three counts (R308). -/
theorem treesHdr_step {v hlit hdist : Nat} (hs : d.state = .treesHdr) (hn : 14 ≤ d.nbits) (hv : d.bits.toNat = v)
    (hlits : 257 + v % 32 = hlit) (hdists : 1 + v / 32 % 32 = hdist) : automatonStep d =
    if 286 < hlit ∨ 30 < hdist then .raised .table (readTreesHdr (peek 14 d) d)
    else .completed { d with
      bits := d.bits >>> 14, nbits := d.nbits - 14, hlit := hlit, hdist := hdist, hclen := 4 + v / 1024 % 16
      lenPtr := 0, lenLen := List.replicate 19 0, state := .treesLenLen } := by
  subst hv hlits hdists
  have hlit : peek 14 d % 32 = d.bits.toNat % 32 := by
    rw [peek]
    omega
  have hdist : peek 14 d / 32 % 32 = d.bits.toNat / 32 % 32 := by
    rw [peek]
    omega
  have hclen : peek 14 d / 1024 = d.bits.toNat / 1024 % 16 := by
    rw [peek]
    omega
  have hstep : automatonStep d = stepTreesHdr d := by rw [automatonStep, hs]
  rw [hstep, stepTreesHdr, need_of_le hn, readTreesHdr]
  dsimp only
  rw [hlit, hdist, hclen]
  rfl

/-! ## TREES_LENLEN -/

theorem treesLenLen_suspends (hs : d.state = .treesLenLen) (hn : d.nbits < 3) : automatonStep d = .suspended d := by
  have hstep : automatonStep d = stepTreesLenLen d := by rw [automatonStep, hs]
  exact hstep.trans (need_of_lt hn)

/-- TREES_LENLEN with the next code length (R309). -/
theorem treesLenLen_step {l : List Nat} (hs : d.state = .treesLenLen) (hn : 3 ≤ d.nbits)
    (hl : d.lenLen.set (clOrder.getD d.lenPtr 0) (d.bits.toNat % 8) = l) : automatonStep d =
    if d.lenPtr + 1 = d.hclen then buildCodeLenTable { eat 3 d with lenLen := l, lenPtr := d.lenPtr + 1 }
    else .completed { eat 3 d with lenLen := l, lenPtr := d.lenPtr + 1 } := by
  subst hl
  have hstep : automatonStep d = stepTreesLenLen d := by rw [automatonStep, hs]
  exact hstep.trans (need_of_le hn)

/-! ## TREES_LEN -/

theorem treesLen_builds (hs : d.state = .treesLen) (hdone : d.hlit + d.hdist ≤ d.lenPtr) :
    automatonStep d = buildMainTables d := by
  have hstep : automatonStep d = stepTreesLen d := by rw [automatonStep, hs]
  have hdone : lengthsDone d = true := decide_eq_true hdone
  rw [hstep, stepTreesLen, if_pos hdone]

theorem buildCodeLenTable_of_some {t : Table} (ht : mkTable d.lenLen = some t) : buildCodeLenTable d = .completed { d with
    tabCL := some t, lenPtr := 0, lengths := List.replicate 316 0, state := .treesLen } := by
  rw [buildCodeLenTable, ht]
  rfl

theorem buildCodeLenTable_of_none (ht : mkTable d.lenLen = none) : buildCodeLenTable d = .raised .table d := by
  rw [buildCodeLenTable, ht]

theorem buildMainTables_of_some {tl td : Table} (hl : mkTable (d.lengths.take d.hlit) = some tl)
    (hd : mkTable ((d.lengths.drop d.hlit).take d.hdist) = some td) : buildMainTables d = .completed { d with
      tabLL := some tl, tabD := some td, tabCL := none, cur := true, state := .inBlk } := by
  simp only [buildMainTables, hl, hd]

theorem buildMainTables_of_none (h : mkTable (d.lengths.take d.hlit) = none ∨
    mkTable ((d.lengths.drop d.hlit).take d.hdist) = none) :
    ∃ d', buildMainTables d = .raised .table d' ∧ d'.out = d.out := by
  unfold buildMainTables
  split
  · exact ⟨_, rfl, rfl⟩
  · next hl =>
    obtain hnone | hnone := h
    · cases hl.symm.trans hnone
    · rw [hnone]
      exact ⟨_, rfl, rfl⟩

end

/-- Settles O43, by the four states. -/
theorem headerSteps : Obligations.HeaderSteps := by
  unfold Obligations.HeaderSteps
  refine ⟨fun d hs => ⟨start_suspends hs, ?_⟩, fun d hs => ⟨treesHdr_suspends hs, ?_⟩,
    fun d hs => ⟨treesLenLen_suspends hs, ?_⟩, ?_⟩
  · rintro cmf flg hn rfl rfl
    rw [start_step hs hn, ← zlibHeaderValid_iff]
    exact ⟨fun hvalid => if_pos hvalid, fun hbad => ⟨_, if_neg hbad, rfl⟩⟩
  · rintro v hlit hdist hn rfl hlits hdists
    rw [treesHdr_step hs hn rfl hlits.symm hdists.symm]
    exact ⟨fun hl hd => if_neg (not_or.2 ⟨Nat.not_lt.2 hl, Nat.not_lt.2 hd⟩), fun hbad => ⟨_, if_pos hbad, rfl⟩⟩
  · intro l hn hl
    rw [treesLenLen_step hs hn hl.symm]
    refine ⟨fun hmore => if_neg hmore, fun hlast => ?_⟩
    rw [if_pos hlast]
    exact ⟨fun t ht => buildCodeLenTable_of_some ht, fun ht => ⟨_, buildCodeLenTable_of_none ht, rfl⟩⟩
  · rintro d ll dl hs hdone rfl rfl
    rw [treesLen_builds hs hdone]
    exact ⟨fun tl td hl hd => buildMainTables_of_some hl hd, buildMainTables_of_none⟩

end Sys2Proof.Proofs
end

