-- ==== Sys2Proof/Proofs/SymbolEffects.lean ====
section
/-! PROOFS. The effects of the end of a block, the length symbols, the code-length symbols and the reserved symbols
(47_symbols.md R353 to R384, R415 to R420). -/

namespace Sys2Proof.Proofs

open Sys2Proof.Machine Sys2Proof.Laws

/-! ## Literal/length symbols -/

/-- Settles O30: the effect is `blockEnd`. -/
theorem endOfBlockSymbol : Obligations.EndOfBlockSymbol := by
  unfold Obligations.EndOfBlockSymbol
  intro s d hready
  exact onElement_completes hready (f := fun d => .completed (blockEnd d)) rfl

/-- The length symbols, each with its length (47_symbols.md R354 to R382). -/
theorem exec_of_lengthValue {i : Instr} {sym n len : Nat} (h : lengthValue i = some (sym, n, len))
    (hwf : Instr.wf i = true) : ∃ x, x < 2 ^ n ∧ (257 ≤ sym ∧ sym ≤ 285) ∧ lengthExtra sym = n ∧
      matchLength sym x = len ∧ ∀ s, exec i s = lengthElement sym x s := by
  unfold lengthValue at h
  split at h <;> cases h
  iterate 8 exact ⟨0, by decide, by decide, rfl, rfl, fun _ => rfl⟩
  iterate 20 exact ⟨_, of_decide_eq_true hwf, by decide, rfl, rfl, fun _ => rfl⟩
  exact ⟨0, by decide, by decide, rfl, rfl, fun _ => rfl⟩

/-- Settles O31: the symbol is selected, and its extra field completes the length. -/
theorem lengthSymbols : Obligations.LengthSymbols := by
  unfold Obligations.LengthSymbols
  intro i sym n len s d hi hwf hready
  obtain ⟨x, hx, hsym, rfl, rfl, hexec⟩ := exec_of_lengthValue hi hwf
  obtain ⟨hlo, hhi⟩ := matchLength_range hsym hx
  exact ⟨hlo, hhi, (hexec s).trans
    (onElement_completes hready (f := fun d => .completed (finishLength x (selectLength sym d))) rfl)⟩

/-! ## Reserved symbols -/

theorem exec_of_reservedSymbol {i : Instr} {a : Alphabet} (h : reservedSymbol i = some a) (s : State) :
    exec i s = reservedElement a s := by
  unfold reservedSymbol at h
  split at h <;> cases h <;> rfl

/-- Settles O34: a reserved symbol raises whatever the context. -/
theorem reservedSymbolsRaise : Obligations.ReservedSymbolsRaise := by
  unfold Obligations.ReservedSymbolsRaise
  intro i a s d hi hready
  rw [exec_of_reservedSymbol hi]
  exact onElement_raises hready rfl rfl

/-! ## Code-length symbols -/

/-- Settles O36: the effect is `writeLength`. -/
theorem codeLengthIsWritten : Obligations.CodeLengthIsWritten := by
  unfold Obligations.CodeLengthIsWritten
  intro v s d _ hready
  exact onElement_completes hready (f := fun d => .completed (writeLength v d)) rfl

/-- The repeat symbols, each with its count (47_symbols.md R418 to R420). -/
theorem exec_of_repeatValue {i : Instr} {c n k : Nat} (h : repeatValue i = some (c, n, k)) :
    ∃ x, 16 ≤ c ∧ extraBitsOf .codeLength c = n ∧ repeatBase c + x = k ∧
      ∀ s, exec i s = onElement .codeLength (codeLenEffect c x) s := by
  unfold repeatValue at h
  split at h <;> cases h <;> exact ⟨_, by decide, rfl, rfl, fun _ => rfl⟩

section
variable {c x : Nat} {d : DuCtx}

/-- A repeat symbol raises with nothing to repeat; else its extra field gives the count (R310). -/
theorem codeLenEffect_repeat (hc : 16 ≤ c) : codeLenEffect c x d =
    if c = 16 ∧ d.lenPtr = 0 then .raised .table d else finishRepeat x (repeatSelected c d) := by
  rw [codeLenEffect, if_neg (Nat.not_lt_of_le hc), selectRepeat_eq]
  split_ifs <;> rfl

/-- A repeat beyond the last length raises (R311). -/
theorem finishRepeat_overruns (h : d.hlit + d.hdist < d.lenPtr + (d.lenAddOn + x)) :
    finishRepeat x d = .raised .table (eat d.lenExtraBits d) := if_pos h

/-- A repeat that fits fills D.LENGTHS (R311). -/
theorem finishRepeat_fits (h : d.lenPtr + (d.lenAddOn + x) ≤ d.hlit + d.hdist)
    (hlen : d.hlit + d.hdist ≤ d.lengths.length) : finishRepeat x d = .completed { eat d.lenExtraBits d with
      lengths := d.lengths.take d.lenPtr ++ List.replicate (d.lenAddOn + x) d.lenRep ++
        d.lengths.drop (d.lenPtr + (d.lenAddOn + x))
      lenPtr := d.lenPtr + (d.lenAddOn + x)
      state := .treesLen } := by
  have hwrite := writeRepeats_spec (d.lenAddOn + x) (eat d.lenExtraBits d) (Nat.le_trans h hlen)
  exact (if_neg (Nat.not_lt_of_le h)).trans (congrArg (fun d => Stepped.completed (setState .treesLen d)) hwrite)

/-- While code lengths are read, those announced fit in D.LENGTHS. -/
theorem counts_le_lengths (hinv : DuInv d) (hok : d.err = .ok) (hs : d.state = .treesLen) :
    d.hlit + d.hdist ≤ d.lengths.length := by
  obtain ⟨⟨-, hlit, -, hdist⟩, -⟩ : d.readsLengths := live_of_state (hinv.live hok) hs
  rw [hinv.lengths.1]
  omega

end

/-- Settles O37: the symbol is selected, and the count its extra field gives is written out. -/
theorem repeatCodesFillLengths : Obligations.RepeatCodesFillLengths := by
  unfold Obligations.RepeatCodesFillLengths
  rintro i c n k rep s d hi - hready hinv hprev hfit rfl
  obtain ⟨x, hc, rfl, rfl, hexec⟩ := exec_of_repeatValue hi
  have ⟨_, hok, ha⟩ := hready
  have hs : d.state = .treesLen := (state_of_expected ha).1
  have hlen := counts_le_lengths hinv hok hs
  have heffect : codeLenEffect c x d = _ := (codeLenEffect_repeat hc).trans
    ((if_neg fun h => Nat.ne_of_gt (hprev h.1) h.2).trans (finishRepeat_fits (d := repeatSelected c d) hfit hlen))
  rw [hexec, onElement_completes hready heffect, ← hs]
  rfl

/-- Settles O38: a repeat code has two checks, before and after its extra field. -/
theorem repeatErrors : Obligations.RepeatErrors := by
  unfold Obligations.RepeatErrors
  rintro i c n k s d hi - hready hbad
  obtain ⟨x, hc, rfl, rfl, hexec⟩ := exec_of_repeatValue hi
  rw [hexec]
  by_cases hnone : c = 16 ∧ d.lenPtr = 0
  · exact onElement_raises hready ((codeLenEffect_repeat hc).trans (if_pos hnone)) rfl
  · have hover := hbad.resolve_left hnone
    exact onElement_raises hready ((codeLenEffect_repeat hc).trans
      ((if_neg hnone).trans (finishRepeat_overruns (d := repeatSelected c d) hover))) rfl

end Sys2Proof.Proofs
end

