-- ==== Sys2Proof/Proofs/WindowCopies.lean ====
section
/-! PROOFS. The copy of a distance symbol: which bytes it outputs, and the window after it (47_symbols.md R385 to R414,
46_decompress.md R320, R321). -/

namespace Sys2Proof.Proofs

open Sys2Proof.Machine Sys2Proof.Laws

/-! ## Output bytes and the window -/

/-- `d'` is `d` after a further output of `x`: the bytes stand in the window from D.WINPOS on, and no other window byte
and no other register has changed (R320). -/
structure Outputs (x : List Byte) (d d' : DuCtx) : Prop where
  registers : d' = { d with
    out := d.out ++ x
    win := d'.win
    winPos := (d.winPos + x.length) % Config.dWinSize
    produced := min Config.dWinSize (d.produced + x.length)
    adler := adlerInMode d.mode d.adler x }
  win : Memory.wf windowReset d'.win = true
  written : ∀ k, k < x.length → winRead d'.win ((d.winPos + k) % Config.dWinSize) = seqAt x k
  kept : ∀ a, (∀ k, k < x.length → a ≠ (d.winPos + k) % Config.dWinSize) → winRead d'.win a = winRead d.win a

theorem outputs_nil {d : DuCtx} (h : DuRegs d) : Outputs [] d d where
  registers := by
    have hpos : d.winPos % Config.dWinSize = d.winPos := Nat.mod_eq_of_lt h.winPos
    have hproduced : min Config.dWinSize d.produced = d.produced := Nat.min_eq_right h.produced
    rw [List.length_nil, List.append_nil, Nat.add_zero, Nat.add_zero, hpos, hproduced, adlerInMode_nil]
  win := h.win
  written := nofun
  kept _ _ := rfl

section
variable {x : List Byte} {d d' : DuCtx} (h : Outputs x d d')
include h

theorem Outputs.winPos_eq : d'.winPos = (d.winPos + x.length) % Config.dWinSize := by rw [h.registers]

/-- One more byte, while the output since `d` has not gone round the window. -/
theorem Outputs.append (b : Byte) (hlen : x.length < Config.dWinSize) : Outputs (x ++ [b]) d (outByte b d') := by
  have hread : ∀ a, winRead (outByte b d').win a =
      if (d.winPos + x.length) % Config.dWinSize = a then b else winRead d'.win a := by
    intro a
    rw [← h.winPos_eq]
    exact winRead_winWrite _ _ _ h.win
  have hlength : (x ++ [b]).length = x.length + 1 := List.length_append
  refine ⟨?_, wf_winWrite _ _ h.win, fun k hk => ?_, fun a ha => ?_⟩
  · have hcount : d'.produced = min Config.dWinSize (d.produced + x.length) := by rw [h.registers]
    have hproduced : (outByte b d').produced = min Config.dWinSize (d.produced + (x.length + 1)) := by
      rw [outByte_produced, hcount]
      split <;> omega
    rw [hlength, ← hproduced, ← Nat.add_assoc, ← Nat.mod_add_mod, ← List.append_assoc, ← adlerInMode_append,
      h.registers]
    rfl
  · rw [hread]
    obtain rfl | hk := Nat.eq_or_lt_of_le (Nat.le_of_lt_succ (hlength ▸ hk))
    · simp [seqAt]
    · have hne : (d.winPos + x.length) % Config.dWinSize ≠ (d.winPos + k) % Config.dWinSize := by
        simp only [Config.dWinSize] at hlen ⊢
        omega
      rw [if_neg hne, h.written k hk, seqAt_append hk]
  · rw [hlength] at ha
    rw [hread, if_neg (ha x.length (Nat.lt_succ_self _)).symm,
      h.kept a fun k hk => ha k (Nat.lt_succ_of_lt hk)]

end

/-! ## Copies -/

/-- Byte `k` of a copy at `dist` that has output `x` so far: from the window before the copy, or from the copy itself. -/
def copiedByte (dist : Nat) (d : DuCtx) (x : List Byte) (k : Nat) : Byte :=
  if k < dist then winRead d.win ((d.winPos + Config.dWinSize - dist + k) % Config.dWinSize) else seqAt x (k - dist)

/-- What a copy reads next (R321). -/
theorem windowBack_of_outputs {x : List Byte} {d d' : DuCtx} {dist : Nat} (h : Outputs x d d') (hpos : 1 ≤ dist)
    (hmax : dist ≤ Config.dWinSize) : windowBack dist d' = copiedByte dist d x x.length := by
  rw [windowBack, h.winPos_eq, copiedByte]
  split
  · next hback =>
    have haddr : ((d.winPos + x.length) % Config.dWinSize + Config.dWinSize - dist) % Config.dWinSize =
        (d.winPos + Config.dWinSize - dist + x.length) % Config.dWinSize := by
      simp only [Config.dWinSize] at hmax ⊢
      omega
    rw [haddr, h.kept]
    intro k hk
    simp only [Config.dWinSize] at hmax ⊢
    omega
  · next hown =>
    rw [← h.written (x.length - dist) (by omega)]
    congr 1
    simp only [Config.dWinSize] at hmax ⊢
    omega

/-- A copy outputs its bytes one after another, each the byte `dist` before it (R321). -/
theorem copyBytes_outputs {dist len : Nat} {d : DuCtx} (h : DuRegs d) (hpos : 1 ≤ dist) (hmax : dist ≤ Config.dWinSize)
    (hlen : len ≤ Config.dWinSize) : ∃ x, x.length = len ∧ Outputs x d (copyBytes dist len d) ∧
      ∀ k, k < len → x[k]? = some (copiedByte dist d x k) := by
  induction len with
  | zero => exact ⟨[], rfl, outputs_nil h, nofun⟩
  | succ len ih =>
    obtain ⟨x, rfl, hout, hbytes⟩ := ih (Nat.le_of_succ_le hlen)
    have hgrow : ∀ {y k}, k ≤ x.length → copiedByte dist d (x ++ y) k = copiedByte dist d x k := by
      intro y k hk
      unfold copiedByte
      split
      · rfl
      · exact seqAt_append (by omega)
    refine ⟨x ++ [copiedByte dist d x x.length], List.length_append, ?_, fun k hk => ?_⟩
    · rw [copyBytes_succ, windowBack_of_outputs hout hpos hmax]
      exact hout.append _ hlen
    · rw [hgrow (Nat.le_of_lt_succ hk)]
      obtain rfl | hk := Nat.eq_or_lt_of_le (Nat.le_of_lt_succ hk)
      · exact List.getElem?_concat_length
      · rw [List.getElem?_append_left hk, hbytes k hk]

/-- The fields and ranges of the distance symbols (47_symbols.md R385 to R414). -/
theorem distanceValue_ranges {i : Instr} {sym n dist : Nat} (h : distanceValue i = some (sym, n, dist)) :
    sym ≤ 29 ∧ distanceExtra sym = n ∧ 1 ≤ dist := by
  unfold distanceValue at h
  split at h <;> cases h <;> exact ⟨by decide, rfl, by omega⟩

/-- A distance within the bytes produced is copied from (R314). -/
theorem finishDistance_copies {x : Nat} {d : DuCtx} (h : matchDistance d.sym x ≤ d.produced) : finishDistance x d =
    .completed (setState .inBlk (copyBytes (matchDistance d.sym x) d.len (eat (distanceExtra d.sym) d))) :=
  if_neg (Nat.not_lt_of_le h)

/-- Settles O32: the symbol is selected, its extra field gives the distance, and the copy follows. -/
theorem distanceSymbolsCopy : Obligations.DistanceSymbolsCopy := by
  unfold Obligations.DistanceSymbolsCopy
  rintro i sym n dist s d hi - hready hinv hnear
  obtain ⟨x, rfl, hexec⟩ := exec_of_distanceValue hi
  obtain ⟨hsym, rfl, hpos⟩ := distanceValue_ranges hi
  have ⟨_, hok, ha⟩ := hready
  obtain ⟨hmin, hreads⟩ : 3 ≤ d.len ∧ d.readsSymbols := live_of_state (hinv.live hok) (state_of_expected ha).1
  have hregs := eat_regs (distanceExtra sym) (selectDistance_runs hok (duRegs_of_inv hinv) hsym hmin hreads).regs
  obtain ⟨bytes, hlen, hout, hbytes⟩ := copyBytes_outputs (len := d.len) hregs hpos
    (Nat.le_trans hnear hinv.produced) (Nat.le_trans hinv.len (by decide))
  refine ⟨bytes, _, adlerInMode d.mode d.adler bytes, ?_, hlen, hbytes, fun k hk => hout.written k (hlen ▸ hk),
    fun j hj => hout.kept j fun k hk => hj k (hlen ▸ hk), fun hm => adlerInMode_bare bytes hm, fun hm => by rw [hm]; rfl⟩
  have heffect := finishDistance_copies (d := selectDistance sym d) hnear
  have hregisters := hout.registers
  rw [hlen] at hregisters
  rw [hexec, distanceElement, onElement_completes hready (f := fun d => finishDistance x (selectDistance sym d)) heffect]
  exact congrArg (fun c => Host.Outcome.next { s with du := some (setState .inBlk c) }) hregisters

end Sys2Proof.Proofs
end

