-- ==== Sys2Proof/Proofs/Errors.lean ====
section
/-! PROOFS. The errors of the decompressor: where they are raised, and that only D_NEW and D_FREE leave the condition
(60_exceptions.md R452, R454, R456, R457). -/

namespace Sys2Proof.Proofs

open Sys2Proof.Machine Sys2Proof.Laws

/-- Settles O42, by the case of a step that raises. -/
theorem raiseSites : Obligations.RaiseSites := by
  unfold Obligations.RaiseSites
  intro d e d' h
  have hsteps := automatonStep_stepsFrom d
  rw [h] at hsteps
  cases hsteps with | raises hsite _ hout => exact ⟨hsite, hout⟩

section
variable {i : Instr} {s : State}

/-- Without a context the code returned is E_OK (70_reset_and_hazards.md R492). -/
theorem exec_dFeedOrEof_of_no_context {data : List Byte} (hi : i = .dFeed data ∨ i = .dEof) (hd : s.du = none) :
    exec i s = .next (answer (.du [] .ok) s) := by
  obtain ⟨cu, du, inbox, replies⟩ := s
  obtain rfl : du = none := hd
  obtain rfl | rfl := hi <;> rfl

variable {d : DuCtx} (hd : s.du = some d) (herr : d.err ≠ .ok)
include hd herr

theorem exec_dFeedOrEof_of_error {data : List Byte} (hi : i = .dFeed data ∨ i = .dEof) :
    exec i s = .next (answer (.du [] d.err) s) := by
  obtain rfl | rfl := hi
  · exact exec_dFeed_refused data hd herr
  · exact exec_dEof_error hd herr

/-- A constructor or destructor of the compressor does not touch the decompressor, and those of the decompressor are
the three instructions that end the condition. -/
theorem exec_keepsError {t : State} (h : exec i s = .next t) (hbare : i ≠ .dNewBare) (hzlib : i ≠ .dNewZlib)
    (hfree : i ≠ .dFree) : t.du = some d := by
  obtain ⟨a, ha⟩ | ⟨p, hr⟩ | hn | ⟨data, hc⟩ | ⟨data, hf⟩ | he := instr_kinds i
  · obtain ⟨f, hf⟩ := exec_of_elementAlphabet ha
    rw [hf, onElement_of_error hd herr] at h
    cases h
  · obtain rfl := Host.Outcome.next.inj ((exec_of_reservedCommand hr s).symm.trans h)
    cases p <;> exact hd
  · obtain rfl | rfl | rfl | rfl | rfl | rfl := hn
    iterate 3 obtain rfl := Host.Outcome.next.inj h; exact hd
    · exact absurd rfl hbare
    · exact absurd rfl hzlib
    · exact absurd rfl hfree
  · exact (exec_cu_independent (portOf_of_cFeed hc) h none).1.trans hd
  · obtain rfl := Host.Outcome.next.inj ((exec_dFeedOrEof_of_error hd herr (.inl hf)).symm.trans h)
    exact hd
  · obtain rfl := Host.Outcome.next.inj ((exec_dFeedOrEof_of_error hd herr (data := []) (.inr he)).symm.trans h)
    exact hd

end

/-- Settles O25, by the kind of the instruction. -/
theorem errorsAreSticky : Obligations.ErrorsAreSticky := by
  unfold Obligations.ErrorsAreSticky
  exact fun _ _ _ _ hd herr h hbare hzlib hfree => exec_keepsError hd herr h hbare hzlib hfree

/-- Settles O23: the answer is that of a refused command, without a context and after an error. -/
theorem decompressionFeedIsRefused : Obligations.DecompressionFeedIsRefused := by
  unfold Obligations.DecompressionFeedIsRefused
  exact fun _ _ _ hi => ⟨exec_dFeedOrEof_of_no_context hi, fun _ hd herr => exec_dFeedOrEof_of_error hd herr hi⟩

end Sys2Proof.Proofs
end

