-- ==== Sys2Proof/Proofs/Reset.lean ====
section
/-! PROOFS. The reserved command words are refused, and the invariant holds after reset
(70_reset_and_hazards.md R490 to R493). -/

namespace Sys2Proof.Proofs

open Sys2Proof.Machine Sys2Proof.Laws

/-! ## Reserved command words -/

/-- The code in the answer to a refused DU command is D.ERR, and E_OK without a context (60_exceptions.md R457,
70_reset_and_hazards.md R492). -/
theorem refuseDu_eq_answer (s : State) : refuseDu s = answer (.du [] ((s.du.map DuCtx.err).getD .ok)) s := by
  unfold refuseDu
  cases s.du <;> rfl

theorem reservedCommand_decodeCu {word : BitVec 4} (data : List Byte)
    (h : word.toNat ∈ [2, 3, 7, 8, 9, 10, 11, 13, 14, 15]) : reservedCommand (decodeCu word data) = some .cu := by
  unfold decodeCu
  generalize word.toNat = n at h
  fin_cases h <;> rfl

theorem reservedCommand_decodeDu {word : BitVec 4} (data : List Byte)
    (h : word.toNat ∈ [2, 3, 5, 6, 7, 9, 10, 11, 13, 14, 15]) : reservedCommand (decodeDu word data) = some .du := by
  unfold decodeDu
  generalize word.toNat = n at h
  fin_cases h <;> rfl

/-- Settles O12: a reserved word decodes to a constructor reserved for its port, and every such constructor is refused
there. -/
theorem reservedWordsAreRefused : Obligations.ReservedWordsAreRefused := by
  unfold Obligations.ReservedWordsAreRefused
  have hcu : ∀ i s, reservedCommand i = some .cu → exec i s = .next (answer (.cu []) s) :=
    fun _ s h => exec_of_reservedCommand h s
  have hdu : ∀ i s e, reservedCommand i = some .du → e = (s.du.map DuCtx.err).getD .ok →
      exec i s = .next (answer (.du [] e) s) := by
    rintro i s _ h rfl
    exact (exec_of_reservedCommand h s).trans (congrArg Host.Outcome.next (refuseDu_eq_answer s))
  exact ⟨fun s _ data hw => hcu _ s (reservedCommand_decodeCu data hw),
    fun s _ data e hw => hdu _ s e (reservedCommand_decodeDu data hw), hcu, hdu⟩

/-! ## The invariant -/

/-- Settles O58: after reset no context stands that the invariant could speak of, and a fresh context meets its own. -/
theorem invariantAtReset : Obligations.InvariantAtReset := by
  unfold Obligations.InvariantAtReset
  have hinv : MachineInv State.reset := ⟨by rintro _ ⟨⟩, by rintro _ ⟨⟩⟩
  have hclean : AccClean State.reset := nofun
  exact ⟨rfl, rfl, hinv, hclean, fun m => ⟨cuInv_fresh m, bitWriter_fresh_ok, duInv_fresh m⟩⟩

end Sys2Proof.Proofs
end
